-- ==== Sys2Proof/Word.lean ====
section
/-! DEFINITION. The word types of the device: bytes, 16-bit halves, 32-bit registers and 64-bit instruction words
(00_scope R1, 04_state_and_timing R46). -/

namespace Sys2Proof

/-- One byte of memory; the byte at the lowest address holds bits [7:0] (R1). -/
abbrev Byte := BitVec 8

/-- One 32-bit register (R46). -/
abbrev Word := BitVec 32

/-- A 64-bit quantity: an address, a pair, an instruction word (R46, R283). -/
abbrev DWord := BitVec 64

end Sys2Proof
end

