-- ==== Sys2Proof/Operand.lean ====
section
/-! DEFINITION. The operands of the instructions: predicate field (R52, R285), operand specifiers (R49, R50), and the
codes the reference entries list (R284). Each is an inductive type, so the machine never sees a raw field. -/

namespace Sys2Proof

/-- The predicate field with the sense bit (R52, R285). -/
inductive Pred where
  | always
  | reg (n : Nat) (neg : Bool)
  | gate (k : Nat)
  deriving DecidableEq, Repr

/-- A source specifier (R49). A 64-bit source is named by its first register (R46). -/
inductive Src where
  | v (n : Nat)
  | o (n : Nat)
  | y (n : Nat)
  | s (n : Nat)
  | special (n : Nat)
  | imm (k : BitVec 8)
  | p (n : Nat)
  deriving DecidableEq, Repr

/-- A destination specifier (R50). A 64-bit destination is named by its first register (R46). -/
inductive Dst where
  | v (n : Nat)
  | o (n : Nat)
  | s (n : Nat)
  | p (n : Nat)
  deriving DecidableEq, Repr

/-- Rounding modes (R119, R284). -/
inductive RoundMode where
  | rne | rz | rm | rp
  deriving DecidableEq, Repr

/-- Conditions of `icmp` (R339). -/
inductive ICond where
  | eq | ne | lt | le | gt | ge | ltu | leu | gtu | geu
  deriving DecidableEq, Repr

/-- Conditions of `fcmp` (R326). -/
inductive FCond where
  | eq | ne | lt | le | gt | ge | un | or
  deriving DecidableEq, Repr

/-- Format of the packed halves (R334). -/
inductive HalfFmt where
  | f16 | bf16
  deriving DecidableEq, Repr

/-- Grade of a special function (R124). -/
inductive Grade where
  | f | a
  deriving DecidableEq, Repr

/-- Element formats with the codes of R137. -/
inductive Fmt where
  | fp32 | bf16 | fp16 | e4m3 | e5m2 | int8 | int32 | qt8 | qt4 | qk4
  deriving DecidableEq, Repr

/-- Scopes (R101). -/
inductive Scope where
  | lg | core | ham | die | dev | sys
  deriving DecidableEq, Repr

/-- A scope or a level, as `phase` and `ifence` name it (R101, R341). -/
inductive ScopeSel where
  | scope (k : Scope)
  | level (k : Nat)
  deriving DecidableEq, Repr

/-- How `iadd64` reads its B operand (R337). -/
inductive Ext64 where
  | zx | sx | pair
  deriving DecidableEq, Repr

/-- Signedness of the elements of `idp4` (R340). -/
inductive Dp4 where
  | ss | uu | su
  deriving DecidableEq, Repr

/-- Forms of `shfl` (R371). -/
inductive ShflMode where
  | idx | up | down | xor
  deriving DecidableEq, Repr

/-- Forms of `vote` (R391). -/
inductive VoteMode where
  | any | all | ballot | uni
  deriving DecidableEq, Repr

/-- Operators of `wred` and `cred` (R395, R310). -/
inductive RedOp where
  | add | min | max
  deriving DecidableEq, Repr

/-- Types of `wred` (R395). -/
inductive RedTy where
  | i32 | u32 | f32
  deriving DecidableEq, Repr

/-- Operators of `cacc` (R157, R310). -/
inductive AccOp where
  | add | min | max | and | or | xor | exch
  deriving DecidableEq, Repr

/-- Types of `cacc` (R157, R310). -/
inductive AccTy where
  | i32 | i64 | f32 | bf16
  deriving DecidableEq, Repr

/-- Types of `cred` (R160, R310). -/
inductive CredTy where
  | f32 | bf16 | i32
  deriving DecidableEq, Repr

/-- What another participant contributes to a `cred` (R160): its rank, count, operator and type, and its elements' bytes. -/
structure CredPart where
  rank : Nat
  count : Nat
  op : RedOp
  ty : CredTy
  data : List Byte
  deriving DecidableEq, Repr

/-- The K range of `mma` (R357): a packed immediate in units of 16 (kfirst/16, kcount/16 - 1), or the first
register of a scalar pair. -/
inductive KRange where
  | imm (first16 cnt16 : Nat)
  | regs (n : Nat)
  deriving DecidableEq, Repr

/-- The row of a row transfer (R297): a scalar register or an immediate from 0 to 63. -/
inductive RowSel where
  | s (n : Nat)
  | imm (r : Nat)
  deriving DecidableEq, Repr

/-- Operators of `apatch` (R297). -/
inductive PatchOp where
  | rep | addF32 | addI32
  deriving DecidableEq, Repr

/-- Space of an engine operand (R154). -/
inductive Space where
  | g | s
  deriving DecidableEq, Repr

/-- Forms of `tret` (R386). -/
inductive TretKind where
  | retry | skip | kill
  deriving DecidableEq, Repr

/-- Forms of `tlbi` (R383). -/
inductive TlbiKind where
  | page (a : Nat)
  | ctx
  deriving DecidableEq, Repr

/-- The two fields every host command carries in its word 0 beside the opcode (R220). -/
structure CmdHead where
  seq : Nat
  ctx : Nat
  deriving DecidableEq, Repr

/-- A resident as the host names it: core, lane group, resident slot (R223). -/
structure ResName where
  core : Nat
  lgrp : Nat
  slot : Nat
  deriving DecidableEq, Repr

/-- Where a check finds an uncorrectable error (R232, R209). -/
inductive ErrSite where
  | hbm (pa : Nat)
  | l2 (pa : Nat)
  | l1 (core va asid tenant : Nat)
  | spad (core unit off : Nat)
  | acc (core unit tile elem : Nat)
  | vreg (rid lane n : Nat)
  | oreg (rid lane n : Nat)
  | sreg (rid n : Nat)
  | icache (core va asid tenant : Nat)
  | fabric
  | olisal
  | hostPort
  deriving DecidableEq, Repr

/-- A unit that fails in service (R25). -/
inductive FailUnit where
  | core (n : Nat)
  | laneGroup (core lgrp : Nat)
  | slice (n : Nat)
  | channel (n : Nat)
  deriving DecidableEq, Repr

end Sys2Proof
end

