-- ==== Sys2Proof/Config.lean ====
section
/-! DEFINITION. What the spec leaves open, as constants with no body: nothing can be proved of their values, so a
theorem that mentions one holds whatever it is. A value that may differ from one use to the next is applied to
`State.fresh`, a counter the step advances (log entries 2, 4, 5, 9, 11, 15). -/

namespace Sys2Proof.Config

/-- The content of a register that nothing has written since the resident's placement (R32). DESIGN CHOICE: log
entry 4. The first argument tells one placement from another, the second one register from another. -/
opaque freeReg : Nat → Nat → BitVec 32

/-- The content of a scratchpad byte that nothing has written since its allotment was placed. DESIGN CHOICE: log
entry 5. -/
opaque freeByte : Nat → Nat → BitVec 8

/-- The content of an accumulator element that nothing has written since its tile was placed. DESIGN CHOICE: log
entry 5. -/
opaque freeElem : Nat → Nat → BitVec 32

/-- A special function's result where the bound of R124 leaves a choice (R125): function, grade, rounding mode,
operands. DESIGN CHOICE: log entry 9. -/
opaque specialFn : Nat → Grade → RoundMode → BitVec 32 → BitVec 32 → BitVec 32

/-- The sticky flags a special function raises where its result is not fixed (R126): function, grade, rounding mode,
operands. DESIGN CHOICE: log entry 9. -/
opaque specialFlags : Nat → Grade → RoundMode → BitVec 32 → BitVec 32 → BitVec 5

/-- What answers a read through the host window (R405): use number, bus address. DESIGN CHOICE: log entry 11. -/
opaque hostByte : Nat → Nat → BitVec 8

/-- Which entry of the hamlet TLB a fill replaces when it is full (R84): use number, number of candidates. DESIGN
CHOICE: log entry 10. -/
opaque tlbVictim : Nat → Nat → Nat

/-- The value of an enclosure counter that counts cycles or frames of traffic (R195: 0, 2, 3, 10, 11): use number,
timebase, tenant, counter. DESIGN CHOICE: log entry 7. -/
opaque timingCounter : Nat → Nat → Nat → Nat → Nat

/-- Whether an image or a record with these bytes carries a valid SLH-DSA signature under the key in ROM (R234).
DESIGN CHOICE: log entry 15. -/
opaque signatureValid : List (BitVec 8) → Bool

/-- The version a signed firmware image carries (R228). DESIGN CHOICE: log entry 15. -/
opaque firmwareVersion : List (BitVec 8) → BitVec 32

/-- The device public key derived at a start (R234): number of the start. DESIGN CHOICE: log entry 15. -/
opaque deviceKey : Nat → List (BitVec 8)

/-- The signature that a start's device key makes on a report (R235). DESIGN CHOICE: log entry 15. -/
opaque deviceSign : Nat → List (BitVec 8) → List (BitVec 8)

/-- The device certificate readable at BAR0 0x1000 (R222, R235): byte at an offset. DESIGN CHOICE: log entry 15. -/
opaque certificateByte : Nat → BitVec 8

/-- The thermal record readable at BAR0 0x2000 (R222, R231): use number, byte at an offset. DESIGN CHOICE: log
entry 15. -/
opaque thermalByte : Nat → Nat → BitVec 8

/-- A byte of a save area after an image has gone there, whose layout is the device's own (R207): use number, physical address.
DESIGN CHOICE: log entry 26. -/
opaque imageByte : Nat → Nat → BitVec 8

/-- Whether a core passes its self-test on the way to stage B (R227): use number, core. DESIGN CHOICE: log
entry 15. -/
opaque selfTest : Nat → Nat → Bool

/-- The kind with which a unit-failed event names a link, for which R226 lists no code (R25). DESIGN CHOICE: log entry 24. -/
opaque linkKind : BitVec 2

/-- Whether a link trains when it is asked to (R227, R233): use number, link. DESIGN CHOICE: log entry 15. -/
opaque linkTrains : Nat → Nat → Bool

end Sys2Proof.Config
end

