-- ==== Sys2Proof/Syntax.lean ====
section
/-! DEFINITION. The steps of the device: one constructor for each row of the table of operations and events. The
first group are instruction words (R283 to R291, reference chapters 20 to 23). The second group are the steps the
engines, the placement hardware, the Rota, the host and the physical world take (95_what_each_step_holds). -/

namespace Sys2Proof

/-- One step of the device. An instruction carries its predicate first, then its operands in the order of its
reference entry. `set` is false for set A and true for set B (R288). `sat`, `sx` and the like are the qualifiers. -/
inductive Instr where
  -- moves and integers
  | nop (p : Pred)
  | mov (p : Pred) (d : Dst) (a : Src)
  | movi (p : Pred) (d : Dst) (k : Word)
  | sel (p : Pred) (d : Dst) (a b c : Src) (neg : Bool)
  | lea (p : Pred) (d : Dst) (a b : Src) (sh : Nat) (sx : Bool)
  | iadd (p : Pred) (d : Dst) (a b : Src) (sat : Bool)
  | iadd64 (p : Pred) (d : Dst) (a b : Src) (ext : Ext64)
  | imul (p : Pred) (d : Dst) (a b : Src)
  | imulhi (p : Pred) (d : Dst) (a b : Src) (u : Bool)
  | imad (p : Pred) (d : Dst) (a b c : Src)
  | iabs (p : Pred) (d : Dst) (a : Src) (sat : Bool)
  | imin (p : Pred) (d : Dst) (a b : Src) (u : Bool)
  | imax (p : Pred) (d : Dst) (a b : Src) (u : Bool)
  | and (p : Pred) (d : Dst) (a b : Src)
  | or (p : Pred) (d : Dst) (a b : Src)
  | xor (p : Pred) (d : Dst) (a b : Src)
  | andn (p : Pred) (d : Dst) (a b : Src)
  | shl (p : Pred) (d : Dst) (a b : Src)
  | shr (p : Pred) (d : Dst) (a b : Src) (arith : Bool)
  | rot (p : Pred) (d : Dst) (a b : Src) (right : Bool)
  | clz (p : Pred) (d : Dst) (a : Src)
  | popc (p : Pred) (d : Dst) (a : Src)
  | brev (p : Pred) (d : Dst) (a : Src)
  | bfx (p : Pred) (d : Dst) (a ctl : Src) (sx : Bool)
  | bfi (p : Pred) (d : Dst) (a base ctl : Src)
  | icmp (p : Pred) (d : Dst) (a b : Src) (cc : ICond)
  | idp4 (p : Pred) (d : Dst) (a b c : Src) (k : Dp4)
  -- floating point
  | fadd (p : Pred) (d : Dst) (a b : Src) (m : RoundMode)
  | fsub (p : Pred) (d : Dst) (a b : Src) (m : RoundMode)
  | fmul (p : Pred) (d : Dst) (a b : Src) (m : RoundMode)
  | ffma (p : Pred) (d : Dst) (a b c : Src) (m : RoundMode)
  | fmin (p : Pred) (d : Dst) (a b : Src)
  | fmax (p : Pred) (d : Dst) (a b : Src)
  | fcmp (p : Pred) (d : Dst) (a b : Src) (cc : FCond)
  | fcvt (p : Pred) (d : Dst) (a : Src) (dt st : Fmt) (m : RoundMode)
  | frnd (p : Pred) (d : Dst) (a : Src) (m : RoundMode)
  | hadd2 (p : Pred) (d : Dst) (a b : Src) (f : HalfFmt) (m : RoundMode)
  | hmul2 (p : Pred) (d : Dst) (a b : Src) (f : HalfFmt) (m : RoundMode)
  | hfma2 (p : Pred) (d : Dst) (a b : Src) (f : HalfFmt) (m : RoundMode)
  | frcp (p : Pred) (d : Dst) (a : Src) (g : Grade)
  | frsq (p : Pred) (d : Dst) (a : Src) (g : Grade)
  | fsqrt (p : Pred) (d : Dst) (a : Src) (g : Grade) (m : RoundMode)
  | fdiv (p : Pred) (d : Dst) (a b : Src) (g : Grade) (m : RoundMode)
  | fex2 (p : Pred) (d : Dst) (a : Src) (g : Grade)
  | flg2 (p : Pred) (d : Dst) (a : Src) (g : Grade)
  | fsin (p : Pred) (d : Dst) (a : Src) (g : Grade)
  | fcos (p : Pred) (d : Dst) (a : Src) (g : Grade)
  | ftanh (p : Pred) (d : Dst) (a : Src) (g : Grade)
  | fsigm (p : Pred) (d : Dst) (a : Src) (g : Grade)
  -- predicates and cross-thread operations
  | pand (p : Pred) (d : Dst) (a b : Src) (na nb : Bool)
  | por (p : Pred) (d : Dst) (a b : Src) (na nb : Bool)
  | pxor (p : Pred) (d : Dst) (a b : Src) (na nb : Bool)
  | pmov (p : Pred) (d : Dst) (a : Src) (na : Bool)
  | shfl (p : Pred) (d : Dst) (a b m : Src) (mode : ShflMode)
  | vote (p : Pred) (d : Dst) (a m : Src) (mode : VoteMode)
  | wred (p : Pred) (d : Dst) (a m : Src) (op : RedOp) (ty : RedTy)
  -- control
  | bra (p : Pred) (off : BitVec 32)
  | bdiv (p : Pred) (off : BitVec 32) (rejoin : BitVec 18)
  | join
  | brx (p : Pred) (a : Nat)
  | call (p : Pred) (off : BitVec 32) (link : Nat)
  | callr (p : Pred) (link a : Nat)
  | ret (p : Pred) (a : Nat)
  | exit (p : Pred)
  | loop (p : Pred) (off : BitVec 32) (stages : Nat) (cnt : Nat)
  | lexit (p : Pred)
  | mark (p : Pred) (n : Nat)
  | trap (p : Pred) (code : BitVec 16)
  | brk (p : Pred) (code : BitVec 16)
  | fold
  | unfold
  | xmov (p : Pred) (d : Dst) (a : Src) (j : Nat)
  | xbc (p : Pred) (d : Dst) (a : Src) (j : Nat) (m : Src)
  -- memory
  | ldG32 (p : Pred) (d : Dst) (a : Src) (land : Nat) (off : BitVec 16)
  | ldG64 (p : Pred) (d : Dst) (a : Src) (land : Nat) (off : BitVec 16)
  | ldSp32 (p : Pred) (d : Dst) (a : Src) (off : BitVec 16)
  | ldSp64 (p : Pred) (d : Dst) (a : Src) (off : BitVec 16)
  | stG32 (p : Pred) (d a : Src) (off : BitVec 16)
  | stG64 (p : Pred) (d a : Src) (off : BitVec 16)
  | stSp32 (p : Pred) (d a : Src) (off : BitVec 16)
  | stSp64 (p : Pred) (d a : Src) (off : BitVec 16)
  | ldc (p : Pred) (d : Dst) (a : Src) (off : BitVec 16)
  | pf (p : Pred) (a : Src) (l2 : Bool) (off : BitVec 16)
  | phase (p : Pred) (k : ScopeSel)
  | ifence (p : Pred) (k : ScopeSel)
  | arm (p : Pred) (lo hi tok : Src)
  | wait (p : Pred) (d : Nat)
  | rget (p : Pred) (d : Nat) (k : Nat)
  | rgetW (p : Pred) (d : Nat) (k : Nat)
  | rput (p : Pred) (k : Nat)
  | rdone (p : Pred) (k : Nat)
  | ldo32 (p : Pred) (d : Dst) (a : Src) (land : Nat) (off : BitVec 16) (k : Scope)
  | ldo64 (p : Pred) (d : Dst) (a : Src) (land : Nat) (off : BitVec 16) (k : Scope)
  | sto32 (p : Pred) (d a : Src) (off : BitVec 16) (k : Scope)
  | sto64 (p : Pred) (d a : Src) (off : BitVec 16) (k : Scope)
  -- copy engine
  | cpy (p : Pred) (x y b : Nat) (set : Bool) (xs ys : Space) (twoD : Bool)
  | cpyt (p : Pred) (td ts : Nat) (set : Bool) (tr commit : Bool)
  | cacc (p : Pred) (x y b : Nat) (set : Bool) (xs ys : Space) (imm : Bool) (op : AccOp) (ty : AccTy)
  | ccas (p : Pred) (x y b : Nat) (set : Bool) (xs : Space) (w64 : Bool) (land : Nat)
  | cfill (p : Pred) (x b : Nat) (set : Bool) (xs : Space)
  | ccrc (p : Pred) (x y b : Nat) (set : Bool) (xs ys : Space)
  | cred (p : Pred) (x y b : Nat) (set : Bool) (op : RedOp) (ty : CredTy)
  | jdec (p : Pred) (x : Nat) (set : Bool)
  -- matrix engine
  | mma (p : Pred) (ta tb : Nat) (k : KRange) (set : Bool) (t : Nat) (kend : Bool)
  | mzero (p : Pred) (t : Nat)
  | acrd (p : Pred) (n : Nat) (r : RowSel) (t : Nat)
  | acwr (p : Pred) (n : Nat) (r : RowSel) (t : Nat)
  | apatch (p : Pred) (n : Nat) (r : RowSel) (mask t : Nat) (op : PatchOp)
  | tset (p : Pred) (n b : Nat)
  -- work, regions, watchpoints, system
  | spawn (p : Pred) (d a : Nat)
  | bar (k : Nat)
  | barv (k : Nat) (c : Src)
  | renter (p : Pred) (id : BitVec 16)
  | rleave (p : Pred)
  | wset (p : Pred) (k b : Nat)
  | wclr (p : Pred) (k : Nat)
  | tret (k : TretKind)
  | csrr (p : Pred) (d : Dst) (n : Nat)
  | csrw (p : Pred) (n : Nat) (a : Src)
  | tlbi (p : Pred) (k : TlbiKind)
  -- memory and engine events
  | simtLoadLanding (rid k : Nat)
  | lateDataArrival (rid k : Nat)
  | mergeEntryFreedWait (hamlet : Nat)
  | faultRecordDeliver (hamlet : Nat)
  | copyCommandStart (core id units : Nat)
  | copyCommandComplete (core id : Nat)
  | copyCommandStop (core id : Nat)
  | jdecApply (core id : Nat)
  | mmaGroup (core id : Nat)
  | mmaRetire (core id : Nat)
  | mmaStop (core id : Nat)
  | rowTransferPerform (core id : Nat)
  | credComplete (core id status : Nat) (parts : List CredPart)
  -- placement and the Rota
  | residentRetire (rid : Nat)
  | placementRound (core : Nat)
  | classAgeing (qid : Nat)
  | queueUnderflowMove (hamletLevel : Bool) (n : Nat)
  | slotEdge
  | stileTakeOff (rid : Nat)
  | overrunSnapshot (rid : Nat)
  | slackDonation (tenant : Nat)
  | faultWaitSnapshot (rid : Nat)
  | watchdogExpiry (ctx : Nat)
  | sampleLatch
  -- special-register forms with an effect of their own
  | carveWrite (p : Pred) (a : Src)
  | carveChangeTakeEffect (core : Nat)
  | carveTimeout (core : Nat)
  | rgcfgWrite (p : Pred) (k : Nat) (a : Src)
  | wdctlWrite (p : Pred) (a : Src)
  | ectrloRead (p : Pred) (d : Dst)
  | clkRead (p : Pred) (d : Dst)
  -- host registers
  | commandDoorbell (v : Word)
  | ringSizeWrite (v : Word)
  | faultRingSetup (v : Word)
  | eventRingSetup (v : Word)
  | rollCall (hi : Word)
  | rotaGo (v : Word)
  | rotaStop (v : Word)
  | registerWrite (off : Nat) (v : Word)
  | bar2Access (write : Bool) (off : Nat) (data : List Byte)
  -- host commands
  | submit (h : CmdHead) (va : DWord) (die : Nat)
  | contextCreate (h : CmdHead) (root : DWord) (asid tenant : Nat) (tvec emuvec ring : DWord) (ringLast : Nat)
  | contextDestroy (h : CmdHead)
  | saveAreaAllot (h : CmdHead) (pa bytes : DWord)
  | codeObjectRegister (h : CmdHead) (va : DWord)
  | faultResolve (h : CmdHead) (hamlet entry : Nat) (refuse : Bool)
  | codePatch (h : CmdHead)
  | halt (h : CmdHead) (core : Nat)
  | freeze (h : CmdHead) (r : ResName)
  | resume (h : CmdHead) (withdraw : Bool) (r : ResName)
  | snapshot (h : CmdHead) (r : ResName)
  | stateAccess (h : CmdHead) (r : ResName) (isCsr : Bool) (reg lane : Nat) (v : DWord) (write : Bool)
  | contextRegister (h : CmdHead) (reg : Nat) (v : DWord)
  | sampling (h : CmdHead) (k tenant : Nat) (pa : DWord) (last : Nat)
  | traceConfigure (h : CmdHead) (enable : Bool) (va : DWord) (last : Nat)
  | power (h : CmdHead) (p : Nat)
  | advanceStage (h : CmdHead)
  | attest (h : CmdHead) (nonce report : DWord)
  | firmwareLoad (h : CmdHead) (pa bytes : DWord)
  | configurationLoad (h : CmdHead) (pa bytes : DWord)
  | peerGroupConfigure (h : CmdHead) (group : Nat) (pa : DWord) (entries : Nat)
  | linkRetrain (h : CmdHead) (link : Nat)
  -- the physical world
  | powerGoodReset (powerGood : Bool)
  | thermalCutoff
  | uncorrectableError (w : ErrSite)
  | unitFailed (u : FailUnit)
  | linkDown (link : Nat)
  -- the fetch unit
  | emptyBundle (hdr : DWord)
  | illegalEncodingPath (word : DWord) (slot : Nat)
  | hcplheadWrite (v : Word)
  deriving DecidableEq, Repr

end Sys2Proof
end

