-- ==== Sys2Proof/WellFormed.lean ====
section
/-! DEFINITION. Which terms of the syntax an instruction word, a host command or an event of the part can name. The
bounds are those of R49, R50, R52, R284 and of the reference entries; what depends on the launch record or on the mode
is not here but in the meanings. -/

namespace Sys2Proof

/-- The assigned special-register numbers (R292). -/
def isSpecialNumber (n : Nat) : Bool :=
  n ≤ 0x1E || (0x20 ≤ n && n ≤ 0x3F) || (0x100 ≤ n && n ≤ 0x10E)

/-- Predicates p0 to p6 and gates g0 to g7 (R52). -/
def Pred.wf : Pred → Bool
  | .always => true
  | .reg n _ => n ≤ 6
  | .gate k => k < 8

/-- The ranges of R49. -/
def Src.wf : Src → Bool
  | .v n => n < 1536
  | .o n => n < 8
  | .y n => n < 2
  | .s n => n < 128
  | .special n => n < 256 && isSpecialNumber n
  | .imm _ => true
  | .p n => n ≤ 6

/-- The ranges of R50. -/
def Dst.wf : Dst → Bool
  | .v n => n < 1536
  | .o n => n < 8
  | .s n => n < 128
  | .p n => n ≤ 6

/-- A destination of the vector, operand-file or scalar class (R50). -/
def Dst.isReg : Dst → Bool
  | .p _ => false
  | d => d.wf

/-- A destination of the vector or operand-file class. -/
def Dst.isLane : Dst → Bool
  | .v n => n < 1536
  | .o n => n < 8
  | _ => false

/-- A destination pair of the vector or scalar class with an even first register (R46, R337). -/
def Dst.isPair : Dst → Bool
  | .v n => n < 1536 && n % 2 == 0
  | .s n => n < 128 && n % 2 == 0
  | _ => false

/-- The destination pair of a 64-bit load (R349): vector, operand-file or scalar, even. -/
def Dst.isLoadPair : Dst → Bool
  | .o n => n < 8 && n % 2 == 0
  | d => d.isPair

/-- A predicate destination (R362). -/
def Dst.isPred : Dst → Bool
  | .p n => n ≤ 6
  | _ => false

/-- A source pair of the vector or scalar class with an even first register. -/
def Src.isPair : Src → Bool
  | .v n => n < 1536 && n % 2 == 0
  | .s n => n < 128 && n % 2 == 0
  | _ => false

/-- A single register of the vector or scalar class: a scratchpad base (R349). -/
def Src.isBase : Src → Bool
  | .v n => n < 1536
  | .s n => n < 128
  | _ => false

/-- The data register of a 32-bit store (R377). -/
def Src.isData : Src → Bool
  | .v n => n < 1536
  | .o n => n < 8
  | .s n => n < 128
  | _ => false

/-- The data pair of a 64-bit store (R377). -/
def Src.isDataPair : Src → Bool
  | .o n => n < 8 && n % 2 == 0
  | a => a.isPair

/-- A source of the vector or operand-file class (R371, R400). -/
def Src.isLane : Src → Bool
  | .v n => n < 1536
  | .o n => n < 8
  | _ => false

/-- A source of the scalar or immediate class. -/
def Src.isScalarImm : Src → Bool
  | .s n => n < 128
  | .imm _ => true
  | _ => false

/-- A source of a predicate instruction: a predicate, or the immediate 0 or 1 (R362). -/
def Src.isPredBit : Src → Bool
  | .p n => n ≤ 6
  | .imm k => k.toNat < 2
  | _ => false

/-- An even scalar pair. -/
def evenScalar (n : Nat) : Bool := n < 128 && n % 2 == 0

/-- The first of four scalar registers (R310, R388, R397). -/
def quadScalar (n : Nat) : Bool := n < 128 && n % 4 == 0

/-- A scalar register named where a pair is wanted in global space and a single register in scratchpad space
(R310). -/
def spaceScalar (sp : Space) (n : Nat) : Bool :=
  match sp with
  | .g => evenScalar n
  | .s => n < 128

/-- Scalar formats, those `fcvt` may name (R327). -/
def Fmt.isPlain : Fmt → Bool
  | .qt8 | .qt4 | .qk4 => false
  | _ => true

/-- The integer formats. -/
def Fmt.isInt : Fmt → Bool
  | .int8 | .int32 => true
  | _ => false

/-- A row operand (R297). -/
def RowSel.wf : RowSel → Bool
  | .s n => n < 128
  | .imm r => r < 64

/-- A K range (R357). -/
def KRange.wf : KRange → Bool
  | .imm f c => f < 32 && c < 64
  | .regs n => evenScalar n

/-- A scope or a level (R341). -/
def ScopeSel.wf : ScopeSel → Bool
  | .scope _ => true
  | .level k => k < 8

/-- A resident's name (R223). -/
def ResName.wf (r : ResName) : Bool := r.core < 256 && r.lgrp < 16 && r.slot < 16

/-- The head of a command (R220). -/
def CmdHead.wf (h : CmdHead) : Bool := h.seq < 2 ^ 32 && h.ctx < 2 ^ 16

/-- `and`, `or`, `xor` and `exch` have no float type (R313). -/
def AccOp.fits (op : AccOp) (ty : AccTy) : Bool :=
  match op, ty with
  | .and, .f32 | .and, .bf16 | .or, .f32 | .or, .bf16 | .xor, .f32 | .xor, .bf16 | .exch, .f32 | .exch, .bf16 => false
  | _, _ => true

/-- A rounding qualifier stands on `.a` only (R330). -/
def Grade.rounds (g : Grade) (m : RoundMode) : Bool :=
  match g, m with
  | .f, .rne => true
  | .f, _ => false
  | .a, _ => true

/-- Three-source form with a register destination. -/
def wf3 (p : Pred) (d : Dst) (a b c : Src) : Bool := p.wf && d.isReg && a.wf && b.wf && c.wf

/-- Two-source form with a register destination. -/
def wf2 (p : Pred) (d : Dst) (a b : Src) : Bool := p.wf && d.isReg && a.wf && b.wf

/-- One-source form with a register destination. -/
def wf1 (p : Pred) (d : Dst) (a : Src) : Bool := p.wf && d.isReg && a.wf

/-- The terms that a word, a command or an event of the part can name. -/
def Instr.wf : Instr → Bool
  | .nop p => p.wf
  | .mov p d a => wf1 p d a
  | .movi p d _ => p.wf && d.isReg
  | .sel p d a b c _ => wf3 p d a b c
  | .lea p d a b sh _ => p.wf && d.isPair && a.isPair && b.wf && sh < 32
  | .iadd p d a b _ => wf2 p d a b
  | .iadd64 p d a b .pair => p.wf && d.isPair && a.isPair && b.isPair
  | .iadd64 p d a b _ => p.wf && d.isPair && a.isPair && b.wf
  | .imul p d a b => wf2 p d a b
  | .imulhi p d a b _ => wf2 p d a b
  | .imad p d a b c => wf3 p d a b c
  | .iabs p d a _ => wf1 p d a
  | .imin p d a b _ => wf2 p d a b
  | .imax p d a b _ => wf2 p d a b
  | .and p d a b => wf2 p d a b
  | .or p d a b => wf2 p d a b
  | .xor p d a b => wf2 p d a b
  | .andn p d a b => wf2 p d a b
  | .shl p d a b => wf2 p d a b
  | .shr p d a b _ => wf2 p d a b
  | .rot p d a b _ => wf2 p d a b
  | .clz p d a => wf1 p d a
  | .popc p d a => wf1 p d a
  | .brev p d a => wf1 p d a
  | .bfx p d a ctl _ => wf2 p d a ctl
  | .bfi p d a b ctl => wf3 p d a b ctl
  | .icmp p d a b _ => p.wf && d.wf && a.wf && b.wf
  | .idp4 p d a b c _ => wf3 p d a b c
  | .fadd p d a b _ => wf2 p d a b
  | .fsub p d a b _ => wf2 p d a b
  | .fmul p d a b _ => wf2 p d a b
  | .ffma p d a b c _ => wf3 p d a b c
  | .fmin p d a b => wf2 p d a b
  | .fmax p d a b => wf2 p d a b
  | .fcmp p d a b _ => p.wf && d.wf && a.wf && b.wf
  | .fcvt p d a dt st _ => wf1 p d a && dt.isPlain && st.isPlain && dt != st && !(dt.isInt && st.isInt)
  | .frnd p d a _ => wf1 p d a
  | .hadd2 p d a b _ _ => wf2 p d a b
  | .hmul2 p d a b _ _ => wf2 p d a b
  | .hfma2 p d a b _ _ => p.wf && d.isLane && a.wf && b.wf
  | .frcp p d a _ => wf1 p d a
  | .frsq p d a _ => wf1 p d a
  | .fsqrt p d a g m => wf1 p d a && g.rounds m
  | .fdiv p d a b g m => wf2 p d a b && g.rounds m
  | .fex2 p d a _ => wf1 p d a
  | .flg2 p d a _ => wf1 p d a
  | .fsin p d a _ => wf1 p d a
  | .fcos p d a _ => wf1 p d a
  | .ftanh p d a _ => wf1 p d a
  | .fsigm p d a _ => wf1 p d a
  | .pand p d a b _ _ => p.wf && d.isPred && a.isPredBit && b.isPredBit
  | .por p d a b _ _ => p.wf && d.isPred && a.isPredBit && b.isPredBit
  | .pxor p d a b _ _ => p.wf && d.isPred && a.isPredBit && b.isPredBit
  | .pmov p d a _ => p.wf && d.isPred && a.wf
  | .shfl p d a b m _ => p.wf && d.isLane && a.isLane && b.wf && m.isScalarImm
  | .vote p d a m .ballot => p.wf && d.isReg && a.wf && m.isScalarImm
  | .vote p d a m _ => p.wf && d.wf && a.wf && m.isScalarImm
  | .wred p d a m op ty => p.wf && d.isReg && a.wf && m.isScalarImm && !(op == .add && ty == .u32)
  | .bra p _ => p.wf
  | .bdiv p _ _ => p.wf
  | .join => true
  | .brx p a => p.wf && evenScalar a
  | .call p _ l => p.wf && evenScalar l
  | .callr p l a => p.wf && evenScalar l && evenScalar a
  | .ret p a => p.wf && evenScalar a
  | .exit p => p.wf
  | .loop p _ st c => p.wf && 1 ≤ st && st ≤ 8 && c < 128
  | .lexit p => p.wf
  | .mark p n => p.wf && 1 ≤ n && n ≤ 64
  | .trap p _ => p.wf
  | .brk p _ => p.wf
  | .fold => true
  | .unfold => true
  | .xmov p d a j => p.wf && d.isLane && a.isLane && j < 16
  | .xbc p d a j m => p.wf && d.isLane && a.isLane && j < 16 && m.isScalarImm
  | .ldG32 p d a land _ => p.wf && d.isReg && a.isPair && land < 1024
  | .ldG64 p d a land _ => p.wf && d.isLoadPair && a.isPair && land < 1024
  | .ldSp32 p d a _ => p.wf && d.isReg && a.isBase
  | .ldSp64 p d a _ => p.wf && d.isLoadPair && a.isBase
  | .stG32 p d a _ => p.wf && d.isData && a.isPair
  | .stG64 p d a _ => p.wf && d.isDataPair && a.isPair
  | .stSp32 p d a _ => p.wf && d.isData && a.isBase
  | .stSp64 p d a _ => p.wf && d.isDataPair && a.isBase
  | .ldc p d a _ => p.wf && d.isReg && a.isBase
  | .pf p a _ _ => p.wf && a.isPair
  | .phase p k => p.wf && k.wf
  | .ifence p k => p.wf && k.wf
  | .arm p lo hi tok => p.wf && lo.isScalarImm && hi.isScalarImm && tok.isScalarImm
  | .wait p d => p.wf && d < 128
  | .rget p d k => p.wf && d < 128 && k < 16
  | .rgetW p d k => p.wf && d < 128 && k < 16
  | .rput p k => p.wf && k < 16
  | .rdone p k => p.wf && k < 16
  | .ldo32 p d a land _ _ => p.wf && d.isReg && a.isPair && land < 1024
  | .ldo64 p d a land _ _ => p.wf && d.isLoadPair && a.isPair && land < 1024
  | .sto32 p d a _ _ => p.wf && d.isData && a.isPair
  | .sto64 p d a _ _ => p.wf && d.isDataPair && a.isPair
  | .cpy p x y b _ xs ys _ => p.wf && spaceScalar xs x && spaceScalar ys y && quadScalar b
  | .cpyt p td ts _ _ _ => p.wf && td < 256 && ts < 256
  | .cacc p x y b _ xs ys imm op ty =>
      p.wf && spaceScalar xs x && (if imm then y == 0 && ys == .g else spaceScalar ys y) && quadScalar b && op.fits ty
  | .ccas p x y b _ xs w64 land =>
      p.wf && spaceScalar xs x && (if w64 then evenScalar y else decide (y < 128)) && quadScalar b && land < 1024
  | .cfill p x b _ xs => p.wf && spaceScalar xs x && quadScalar b
  | .ccrc p x y b _ xs ys => p.wf && spaceScalar xs x && spaceScalar ys y && quadScalar b
  | .cred p x y b _ _ _ => p.wf && evenScalar x && evenScalar y && quadScalar b
  | .jdec p x _ => p.wf && evenScalar x
  | .mma p ta tb k _ t _ => p.wf && ta < 256 && tb < 256 && k.wf && t < 64
  | .mzero p t => p.wf && t < 64
  | .acrd p n r t => p.wf && n < 2048 && r.wf && t < 64
  | .acwr p n r t => p.wf && n < 2048 && r.wf && t < 64
  | .apatch p n r mask t _ => p.wf && n < 2048 && r.wf && evenScalar mask && t < 64
  | .tset p n b => p.wf && n < 256 && quadScalar b
  | .spawn p d a => p.wf && evenScalar d && evenScalar a
  | .bar k => k < 8
  | .barv k c => k < 8 && c.isScalarImm
  | .renter p _ => p.wf
  | .rleave p => p.wf
  | .wset p k b => p.wf && k < 8 && quadScalar b
  | .wclr p k => p.wf && k < 8
  | .tret _ => true
  | .csrr p d n => p.wf && d.isReg && isSpecialNumber n && n != 0x10 && n != 0x19
  | .csrw p n a =>
      p.wf && a.isScalarImm && isSpecialNumber n && !(0x20 ≤ n && n ≤ 0x2F) && n != 0x10A && n != 0x10C
  | .tlbi p (.page a) => p.wf && evenScalar a
  | .tlbi p .ctx => p.wf
  | .simtLoadLanding _ _ => true
  | .lateDataArrival _ _ => true
  | .mergeEntryFreedWait h => h < 24
  | .faultRecordDeliver h => h < 24
  | .copyCommandStart c _ _ => c < 192
  | .copyCommandComplete c _ => c < 192
  | .copyCommandStop c _ => c < 192
  | .jdecApply c _ => c < 192
  | .mmaGroup c _ => c < 192
  | .mmaRetire c _ => c < 192
  | .mmaStop c _ => c < 192
  | .rowTransferPerform c _ => c < 192
  | .credComplete c _ st _ => c < 192 && st < 4
  | .residentRetire _ => true
  | .placementRound c => c < 192
  | .classAgeing _ => true
  | .queueUnderflowMove hl n => if hl then n < 24 else n < 192
  | .slotEdge => true
  | .stileTakeOff _ => true
  | .overrunSnapshot _ => true
  | .slackDonation t => t < 16
  | .faultWaitSnapshot _ => true
  | .watchdogExpiry c => c < 65536
  | .sampleLatch => true
  | .carveWrite p a => p.wf && a.isScalarImm
  | .carveChangeTakeEffect c => c < 192
  | .carveTimeout c => c < 192
  | .rgcfgWrite p k a => p.wf && k < 16 && a.isScalarImm
  | .wdctlWrite p a => p.wf && a.isScalarImm
  | .ectrloRead p d => p.wf && d.isReg
  | .clkRead p d => p.wf && d.isReg
  | .commandDoorbell _ => true
  | .ringSizeWrite _ => true
  | .faultRingSetup _ => true
  | .eventRingSetup _ => true
  | .rollCall _ => true
  | .rotaGo v => v.getLsbD 0
  | .rotaStop v => v.getLsbD 1 && !v.getLsbD 0
  | .registerWrite off _ => off < 2 ^ 26
  | .bar2Access _ off data => off + data.length ≤ 2 ^ 36
  | .submit h _ die => h.wf && die < 2
  | .contextCreate h _ asid tenant _ _ _ n => h.wf && asid < 65536 && tenant < 16 && n < 65536
  | .contextDestroy h => h.wf
  | .saveAreaAllot h _ _ => h.wf
  | .codeObjectRegister h _ => h.wf
  | .faultResolve h ham e _ => h.wf && ham < 32 && e < 256
  | .codePatch h => h.wf
  | .halt h c => h.wf && c < 256
  | .freeze h r => h.wf && r.wf
  | .resume h _ r => h.wf && r.wf
  | .snapshot h r => h.wf && r.wf
  | .stateAccess h r isCsr reg lane _ _ => h.wf && r.wf && lane < 16 && (if isCsr then reg < 512 else reg < 4096)
  | .contextRegister h reg _ => h.wf && reg < 512
  | .sampling h k tenant _ n => h.wf && k < 32 && tenant < 16 && n < 65536
  | .traceConfigure h _ _ n => h.wf && n < 65536
  | .power h p => h.wf && p < 4
  | .advanceStage h => h.wf
  | .attest h _ _ => h.wf
  | .firmwareLoad h _ _ => h.wf
  | .configurationLoad h _ _ => h.wf
  | .peerGroupConfigure h g _ _ => h.wf && g < 256
  | .linkRetrain h l => h.wf && l < 32
  | .powerGoodReset _ => true
  | .thermalCutoff => true
  | .uncorrectableError _ => true
  | .unitFailed _ => true
  | .linkDown l => l < 18
  | .emptyBundle h => h.toNat / 2 ^ 44 == 0
  | .illegalEncodingPath _ slot => slot < 32
  | .hcplheadWrite _ => true

end Sys2Proof
end

