-- ==== Sys2Proof/Decode.lean ====
section
/-! DEFINITION. Instruction words to instructions and back (19_formats_and_opcode_map R283 to R289, and the encoding
rules of the reference chapters), clause and bundle headers (R53, R54), host commands (R220, R223) and host register
writes (R222). The decoder is total and names what it refuses; every unused field must be 0 (R284), so a word it accepts
has one reading and `encode` gives it back. -/

namespace Sys2Proof

/-- Why a word is refused; every one takes the illegal-encoding path (R284, R285, R289). -/
inductive DecodeError where
  | unassignedOpcode
  | reservedPredicate
  | predicateNotAlways
  | reservedSpecifier
  | badDestination
  | badSource
  | badPair
  | badNumber
  | badCode
  | badImmediate
  | unusedField
  | shortInput
  deriving DecidableEq, Repr

/-- Bits [pos + len - 1 : pos] of a word read as a number (R1). -/
def fld (w pos len : Nat) : Nat := w / 2 ^ pos % 2 ^ len

/-- A check of the decoder. -/
def need (b : Bool) (e : DecodeError) : Except DecodeError Unit := if b then .ok () else .error e

/-- One bit of a code. -/
def bitNat (b : Bool) : Nat := if b then 1 else 0

/-! ### Operands -/

/-- The 5-bit predicate field (R52). -/
def Pred.field : Pred → Nat
  | .always => 7
  | .reg n _ => n
  | .gate k => 8 + k

/-- The sense bit (R285). -/
def Pred.sense : Pred → Nat
  | .reg _ neg => bitNat neg
  | _ => 0

/-- The predicate of a field and a sense bit (R52, R285). -/
def decodePred (f n : Nat) : Except DecodeError Pred :=
  if f = 7 then if n = 0 then .ok .always else .error .reservedPredicate
  else if f < 7 then .ok (.reg f (n == 1))
  else if f < 16 then if n = 0 then .ok (.gate (f - 8)) else .error .reservedPredicate
  else .error .reservedPredicate

/-- The specifier of a source (R49). -/
def encSrc : Src → Nat
  | .v n => n
  | .o n => 0x800 + n
  | .y n => 0x900 + n
  | .s n => 0xA00 + n
  | .special n => 0xB00 + n
  | .imm k => 0xC00 + k.toNat
  | .p n => 0xD00 + n

/-- The specifier of a destination (R50). -/
def encDst : Dst → Nat
  | .v n => n
  | .o n => 0x800 + n
  | .s n => 0xA00 + n
  | .p n => 0xD00 + n

/-- Specifier to source, before any check of its index (R49). -/
def readSrc (x : Nat) : Except DecodeError Src :=
  if x < 0x800 then .ok (.v x)
  else if x < 0x900 then .ok (.o (x - 0x800))
  else if x < 0xA00 then .ok (.y (x - 0x900))
  else if x < 0xB00 then .ok (.s (x - 0xA00))
  else if x < 0xC00 then .ok (.special (x - 0xB00))
  else if x < 0xD00 then .ok (.imm (BitVec.ofNat 8 (x - 0xC00)))
  else if x < 0xE00 then .ok (.p (x - 0xD00))
  else .error .reservedSpecifier

/-- Specifier to destination, before any check of its index (R50). -/
def readDst (x : Nat) : Except DecodeError Dst :=
  if x < 0x800 then .ok (.v x)
  else if x < 0x900 then .ok (.o (x - 0x800))
  else if x < 0xA00 then .error .badDestination
  else if x < 0xB00 then .ok (.s (x - 0xA00))
  else if x < 0xD00 then .error .badDestination
  else if x < 0xE00 then .ok (.p (x - 0xD00))
  else .error .reservedSpecifier

/-- A source accepted by a test of its class and index. -/
def srcIf (ok : Src → Bool) (e : DecodeError) (x : Nat) : Except DecodeError Src := do
  let a ← readSrc x
  need (ok a) e
  pure a

/-- A destination accepted by a test of its class and index. -/
def dstIf (ok : Dst → Bool) (e : DecodeError) (x : Nat) : Except DecodeError Dst := do
  let d ← readDst x
  need (ok d) e
  pure d

/-- Any source (R49). -/
def anySrc (x : Nat) : Except DecodeError Src := srcIf Src.wf .reservedSpecifier x

/-- A register destination. -/
def regDst (x : Nat) : Except DecodeError Dst := dstIf Dst.isReg .badDestination x

/-- A scalar register number accepted by a test. -/
def scalarIf (ok : Nat → Bool) (x : Nat) : Except DecodeError Nat := do
  need (0xA00 ≤ x && x < 0xB00 && ok (x - 0xA00)) .badSource
  pure (x - 0xA00)

/-- A number below a bound (R284). -/
def numBelow (bound x : Nat) : Except DecodeError Nat := do
  need (x < bound) .badNumber
  pure x

/-- An unused field (R284). -/
def unused (x : Nat) : Except DecodeError Unit := need (x == 0) .unusedField

/-- A one-bit code. -/
def bitCode (x : Nat) : Except DecodeError Bool := do
  need (x < 2) .badCode
  pure (x == 1)

/-! ### Codes -/

/-- Rounding codes (R284). -/
def RoundMode.code : RoundMode → Nat
  | .rne => 0 | .rz => 1 | .rm => 2 | .rp => 3

/-- Rounding codes (R284); the field has two bits. -/
def roundOf : Nat → RoundMode
  | 0 => .rne | 1 => .rz | 2 => .rm | _ => .rp

/-- Condition codes of `icmp` (R339). -/
def ICond.code : ICond → Nat
  | .eq => 0 | .ne => 1 | .lt => 2 | .le => 3 | .gt => 4 | .ge => 5 | .ltu => 6 | .leu => 7 | .gtu => 8 | .geu => 9

/-- Condition codes of `icmp` (R339). -/
def icondOf : Nat → Except DecodeError ICond
  | 0 => .ok .eq | 1 => .ok .ne | 2 => .ok .lt | 3 => .ok .le | 4 => .ok .gt | 5 => .ok .ge
  | 6 => .ok .ltu | 7 => .ok .leu | 8 => .ok .gtu | 9 => .ok .geu | _ => .error .badCode

/-- Condition codes of `fcmp` (R326). -/
def FCond.code : FCond → Nat
  | .eq => 0 | .ne => 1 | .lt => 2 | .le => 3 | .gt => 4 | .ge => 5 | .un => 6 | .or => 7

/-- Condition codes of `fcmp` (R326). -/
def fcondOf : Nat → Except DecodeError FCond
  | 0 => .ok .eq | 1 => .ok .ne | 2 => .ok .lt | 3 => .ok .le | 4 => .ok .gt | 5 => .ok .ge
  | 6 => .ok .un | 7 => .ok .or | _ => .error .badCode

/-- Half formats (R334). -/
def HalfFmt.code : HalfFmt → Nat
  | .f16 => 0 | .bf16 => 1

/-- Half formats (R334). -/
def halfOf : Nat → Except DecodeError HalfFmt
  | 0 => .ok .f16 | 1 => .ok .bf16 | _ => .error .badCode

/-- Grades (R330). -/
def Grade.code : Grade → Nat
  | .f => 0 | .a => 1

/-- Grades (R330). -/
def gradeOf : Nat → Except DecodeError Grade
  | 0 => .ok .f | 1 => .ok .a | _ => .error .badCode

/-- Format codes (R137). -/
def Fmt.code : Fmt → Nat
  | .fp32 => 0 | .bf16 => 1 | .fp16 => 2 | .e4m3 => 3 | .e5m2 => 4 | .int8 => 5 | .int32 => 6
  | .qt8 => 7 | .qt4 => 8 | .qk4 => 9

/-- Format codes (R137). -/
def fmtOf : Nat → Except DecodeError Fmt
  | 0 => .ok .fp32 | 1 => .ok .bf16 | 2 => .ok .fp16 | 3 => .ok .e4m3 | 4 => .ok .e5m2 | 5 => .ok .int8
  | 6 => .ok .int32 | 7 => .ok .qt8 | 8 => .ok .qt4 | 9 => .ok .qk4 | _ => .error .badCode

/-- Scope codes (R101). -/
def Scope.code : Scope → Nat
  | .lg => 0 | .core => 1 | .ham => 2 | .die => 3 | .dev => 4 | .sys => 5

/-- Scope codes (R101). -/
def scopeOf : Nat → Except DecodeError Scope
  | 0 => .ok .lg | 1 => .ok .core | 2 => .ok .ham | 3 => .ok .die | 4 => .ok .dev | 5 => .ok .sys
  | _ => .error .badCode

/-- The imm26 field of `phase` and `ifence` (R341). -/
def ScopeSel.code : ScopeSel → Nat
  | .scope k => k.code
  | .level k => 8 + k

/-- The imm26 field of `phase` and `ifence` (R341). -/
def scopeSelOf (x : Nat) : Except DecodeError ScopeSel :=
  if x < 8 then do
    let k ← scopeOf x
    pure (.scope k)
  else if x < 16 then .ok (.level (x - 8))
  else .error .unusedField

/-- The mod field of `iadd64` (R337). -/
def Ext64.code : Ext64 → Nat
  | .zx => 0 | .sx => 1 | .pair => 2

/-- The mod field of `idp4` (R340). -/
def Dp4.code : Dp4 → Nat
  | .ss => 0 | .uu => 1 | .su => 2

/-- The mod field of `idp4` (R340). -/
def dp4Of : Nat → Except DecodeError Dp4
  | 0 => .ok .ss | 1 => .ok .uu | 2 => .ok .su | _ => .error .badCode

/-- The mod field of `shfl` (R371). -/
def ShflMode.code : ShflMode → Nat
  | .idx => 0 | .up => 1 | .down => 2 | .xor => 3

/-- The mod field of `shfl` (R371); the field has two bits. -/
def shflOf : Nat → ShflMode
  | 0 => .idx | 1 => .up | 2 => .down | _ => .xor

/-- The mod field of `vote` (R391). -/
def VoteMode.code : VoteMode → Nat
  | .any => 0 | .all => 1 | .ballot => 2 | .uni => 3

/-- Operator codes of `wred` (R395) and `cred` (R310). -/
def RedOp.code : RedOp → Nat
  | .add => 0 | .min => 1 | .max => 2

/-- Operator codes of `wred` (R395) and `cred` (R310). -/
def redOpOf : Nat → Except DecodeError RedOp
  | 0 => .ok .add | 1 => .ok .min | 2 => .ok .max | _ => .error .badCode

/-- Type codes of `wred` (R395). -/
def RedTy.code : RedTy → Nat
  | .i32 => 0 | .u32 => 1 | .f32 => 2

/-- Type codes of `wred` (R395). -/
def redTyOf : Nat → Except DecodeError RedTy
  | 0 => .ok .i32 | 1 => .ok .u32 | 2 => .ok .f32 | _ => .error .badCode

/-- Operator codes of `cacc` (R310). -/
def AccOp.code : AccOp → Nat
  | .add => 0 | .min => 1 | .max => 2 | .and => 3 | .or => 4 | .xor => 5 | .exch => 6

/-- Operator codes of `cacc` (R310). -/
def accOpOf : Nat → Except DecodeError AccOp
  | 0 => .ok .add | 1 => .ok .min | 2 => .ok .max | 3 => .ok .and | 4 => .ok .or | 5 => .ok .xor | 6 => .ok .exch
  | _ => .error .badCode

/-- Type codes of `cacc` (R310). -/
def AccTy.code : AccTy → Nat
  | .i32 => 0 | .i64 => 1 | .f32 => 2 | .bf16 => 3

/-- Type codes of `cacc` (R310); the field has two bits. -/
def accTyOf : Nat → AccTy
  | 0 => .i32 | 1 => .i64 | 2 => .f32 | _ => .bf16

/-- Type codes of `cred` (R310). -/
def CredTy.code : CredTy → Nat
  | .f32 => 0 | .bf16 => 1 | .i32 => 2

/-- Type codes of `cred` (R310). -/
def credTyOf : Nat → Except DecodeError CredTy
  | 0 => .ok .f32 | 1 => .ok .bf16 | 2 => .ok .i32 | _ => .error .badCode

/-- Operator codes of `apatch` (R297). -/
def PatchOp.code : PatchOp → Nat
  | .rep => 0 | .addF32 => 1 | .addI32 => 2

/-- Operator codes of `apatch` (R297). -/
def patchOpOf : Nat → Except DecodeError PatchOp
  | 0 => .ok .rep | 1 => .ok .addF32 | 2 => .ok .addI32 | _ => .error .badCode

/-- Space bits (R310). -/
def Space.code : Space → Nat
  | .g => 0 | .s => 1

/-- Space bits (R310). -/
def spaceOf (x : Nat) : Space := if x = 1 then .s else .g

/-- Codes of `tret` (R386). -/
def TretKind.code : TretKind → Nat
  | .retry => 0 | .skip => 1 | .kill => 2

/-- Codes of `tret` (R386). -/
def tretOf : Nat → Except DecodeError TretKind
  | 0 => .ok .retry | 1 => .ok .skip | 2 => .ok .kill | _ => .error .badCode

/-- The Z field of `mma` (R357). -/
def KRange.code : KRange → Nat
  | .imm f c => f * 64 + c
  | .regs n => 0xA00 + n

/-- The Z field of `mma` (R357). -/
def kRangeOf (x : Nat) : Except DecodeError KRange :=
  if x < 0x800 then .ok (.imm (x / 64) (x % 64))
  else do
    let n ← scalarIf evenScalar x
    pure (.regs n)

/-- The row field of a row transfer (R297). -/
def RowSel.code : RowSel → Nat
  | .s n => 0xA00 + n
  | .imm r => 0xC00 + r

/-- The row field of a row transfer (R297). -/
def rowSelOf (x : Nat) : Except DecodeError RowSel :=
  if 0xC00 ≤ x ∧ x < 0xC40 then .ok (.imm (x - 0xC00))
  else do
    let n ← scalarIf (· < 128) x
    pure (.s n)

/-! ### The seven formats (R283) -/

/-- Opcode and predicate over the fields below bit 50. -/
def encHead (op : Nat) (p : Pred) (rest : Nat) : Nat := (op + p.sense) * 2 ^ 55 + p.field * 2 ^ 50 + rest

/-- R format. -/
def encR (op : Nat) (p : Pred) (d a b c m : Nat) : Nat :=
  encHead op p (d * 2 ^ 38 + a * 2 ^ 26 + b * 2 ^ 14 + c * 2 ^ 2 + m)

/-- I and S formats. -/
def encS (op : Nat) (p : Pred) (d a imm : Nat) : Nat := encHead op p (d * 2 ^ 38 + a * 2 ^ 26 + imm)

/-- L format. -/
def encL (op : Nat) (p : Pred) (d m imm : Nat) : Nat := encHead op p (d * 2 ^ 38 + m * 2 ^ 32 + imm)

/-- M format. -/
def encM (op : Nat) (p : Pred) (d a land off : Nat) : Nat :=
  encHead op p (d * 2 ^ 38 + a * 2 ^ 26 + land * 2 ^ 16 + off)

/-- B format. -/
def encB (op : Nat) (p : Pred) (off jn : Nat) : Nat := encHead op p (off * 2 ^ 18 + jn)

/-- E format. -/
def encE (op : Nat) (p : Pred) (x y z : Nat) (set : Bool) (q : Nat) : Nat :=
  encHead op p (x * 2 ^ 38 + y * 2 ^ 26 + z * 2 ^ 14 + bitNat set * 2 ^ 13 + q)

/-- The word of an instruction; nothing for an event, which no word names. -/
def encode : Instr → Option Nat
  | .nop p => some (encS 0x002 p 0 0 0)
  | .mov p d a => some (encR 0x004 p (encDst d) (encSrc a) 0 0 0)
  | .movi p d k => some (encL 0x006 p (encDst d) 0 k.toNat)
  | .sel p d a b c neg => some (encR 0x008 p (encDst d) (encSrc a) (encSrc b) (encSrc c) (bitNat neg))
  | .lea p d a b sh sx => some (encR 0x00A p (encDst d) (encSrc a) (encSrc b) sh (bitNat sx))
  | .iadd p d a b sat => some (encR 0x010 p (encDst d) (encSrc a) (encSrc b) 0 (bitNat sat))
  | .iadd64 p d a b e => some (encR 0x012 p (encDst d) (encSrc a) (encSrc b) 0 e.code)
  | .imul p d a b => some (encR 0x014 p (encDst d) (encSrc a) (encSrc b) 0 0)
  | .imulhi p d a b u => some (encR 0x016 p (encDst d) (encSrc a) (encSrc b) 0 (bitNat u))
  | .imad p d a b c => some (encR 0x018 p (encDst d) (encSrc a) (encSrc b) (encSrc c) 0)
  | .iabs p d a sat => some (encR 0x01A p (encDst d) (encSrc a) 0 0 (bitNat sat))
  | .imin p d a b u => some (encR 0x01C p (encDst d) (encSrc a) (encSrc b) 0 (bitNat u))
  | .imax p d a b u => some (encR 0x01E p (encDst d) (encSrc a) (encSrc b) 0 (bitNat u))
  | .and p d a b => some (encR 0x020 p (encDst d) (encSrc a) (encSrc b) 0 0)
  | .or p d a b => some (encR 0x022 p (encDst d) (encSrc a) (encSrc b) 0 0)
  | .xor p d a b => some (encR 0x024 p (encDst d) (encSrc a) (encSrc b) 0 0)
  | .andn p d a b => some (encR 0x026 p (encDst d) (encSrc a) (encSrc b) 0 0)
  | .shl p d a b => some (encR 0x028 p (encDst d) (encSrc a) (encSrc b) 0 0)
  | .shr p d a b s => some (encR 0x02A p (encDst d) (encSrc a) (encSrc b) 0 (bitNat s))
  | .rot p d a b r => some (encR 0x02C p (encDst d) (encSrc a) (encSrc b) 0 (bitNat r))
  | .clz p d a => some (encR 0x030 p (encDst d) (encSrc a) 0 0 0)
  | .popc p d a => some (encR 0x032 p (encDst d) (encSrc a) 0 0 0)
  | .brev p d a => some (encR 0x034 p (encDst d) (encSrc a) 0 0 0)
  | .bfx p d a ctl sx => some (encR 0x036 p (encDst d) (encSrc a) (encSrc ctl) 0 (bitNat sx))
  | .bfi p d a b ctl => some (encR 0x038 p (encDst d) (encSrc a) (encSrc b) (encSrc ctl) 0)
  | .icmp p d a b cc => some (encR 0x03A p (encDst d) (encSrc a) (encSrc b) cc.code 0)
  | .idp4 p d a b c k => some (encR 0x03C p (encDst d) (encSrc a) (encSrc b) (encSrc c) k.code)
  | .fadd p d a b m => some (encR 0x040 p (encDst d) (encSrc a) (encSrc b) 0 m.code)
  | .fsub p d a b m => some (encR 0x042 p (encDst d) (encSrc a) (encSrc b) 0 m.code)
  | .fmul p d a b m => some (encR 0x044 p (encDst d) (encSrc a) (encSrc b) 0 m.code)
  | .ffma p d a b c m => some (encR 0x046 p (encDst d) (encSrc a) (encSrc b) (encSrc c) m.code)
  | .fmin p d a b => some (encR 0x048 p (encDst d) (encSrc a) (encSrc b) 0 0)
  | .fmax p d a b => some (encR 0x04A p (encDst d) (encSrc a) (encSrc b) 0 0)
  | .fcmp p d a b cc => some (encR 0x04C p (encDst d) (encSrc a) (encSrc b) cc.code 0)
  | .fcvt p d a dt st m => some (encR 0x04E p (encDst d) (encSrc a) 0 (st.code * 16 + dt.code) m.code)
  | .frnd p d a m => some (encR 0x050 p (encDst d) (encSrc a) 0 0 m.code)
  | .hadd2 p d a b f m => some (encR 0x052 p (encDst d) (encSrc a) (encSrc b) f.code m.code)
  | .hmul2 p d a b f m => some (encR 0x054 p (encDst d) (encSrc a) (encSrc b) f.code m.code)
  | .hfma2 p d a b f m => some (encR 0x056 p (encDst d) (encSrc a) (encSrc b) f.code m.code)
  | .frcp p d a g => some (encR 0x060 p (encDst d) (encSrc a) 0 g.code 0)
  | .frsq p d a g => some (encR 0x062 p (encDst d) (encSrc a) 0 g.code 0)
  | .fsqrt p d a g m => some (encR 0x064 p (encDst d) (encSrc a) 0 g.code m.code)
  | .fdiv p d a b g m => some (encR 0x066 p (encDst d) (encSrc a) (encSrc b) g.code m.code)
  | .fex2 p d a g => some (encR 0x068 p (encDst d) (encSrc a) 0 g.code 0)
  | .flg2 p d a g => some (encR 0x06A p (encDst d) (encSrc a) 0 g.code 0)
  | .fsin p d a g => some (encR 0x06C p (encDst d) (encSrc a) 0 g.code 0)
  | .fcos p d a g => some (encR 0x06E p (encDst d) (encSrc a) 0 g.code 0)
  | .ftanh p d a g => some (encR 0x070 p (encDst d) (encSrc a) 0 g.code 0)
  | .fsigm p d a g => some (encR 0x072 p (encDst d) (encSrc a) 0 g.code 0)
  | .pand p d a b na nb => some (encR 0x080 p (encDst d) (encSrc a) (encSrc b) 0 (bitNat na + 2 * bitNat nb))
  | .por p d a b na nb => some (encR 0x082 p (encDst d) (encSrc a) (encSrc b) 0 (bitNat na + 2 * bitNat nb))
  | .pxor p d a b na nb => some (encR 0x084 p (encDst d) (encSrc a) (encSrc b) 0 (bitNat na + 2 * bitNat nb))
  | .pmov p d a na => some (encR 0x086 p (encDst d) (encSrc a) 0 0 (bitNat na))
  | .shfl p d a b m k => some (encR 0x088 p (encDst d) (encSrc a) (encSrc b) (encSrc m) k.code)
  | .vote p d a m k => some (encR 0x08A p (encDst d) (encSrc a) (encSrc m) 0 k.code)
  | .wred p d a m op ty => some (encR 0x08C p (encDst d) (encSrc a) (encSrc m) ty.code op.code)
  | .bra p off => some (encB 0x090 p off.toNat 0)
  | .bdiv p off rj => some (encB 0x092 p off.toNat rj.toNat)
  | .join => some (encS 0x094 .always 0 0 0)
  | .brx p a => some (encR 0x096 p 0 (0xA00 + a) 0 0 0)
  | .call p off l => some (encB 0x098 p off.toNat (0xA00 + l))
  | .callr p l a => some (encR 0x09A p (0xA00 + l) (0xA00 + a) 0 0 0)
  | .ret p a => some (encR 0x09C p 0 (0xA00 + a) 0 0 0)
  | .exit p => some (encS 0x09E p 0 0 0)
  | .loop p off st c => some (encB 0x0A0 p off.toNat ((st - 1) * 2 ^ 15 + (0xA00 + c)))
  | .lexit p => some (encS 0x0A2 p 0 0 0)
  | .mark p n => some (encS 0x0A4 p 0 0 n)
  | .trap p c => some (encS 0x0A6 p 0 0 c.toNat)
  | .brk p c => some (encS 0x0A8 p 0 0 c.toNat)
  | .fold => some (encS 0x0AA .always 0 0 0)
  | .unfold => some (encS 0x0AC .always 0 0 0)
  | .xmov p d a j => some (encR 0x0B0 p (encDst d) (encSrc a) j 0 0)
  | .xbc p d a j m => some (encR 0x0B2 p (encDst d) (encSrc a) j (encSrc m) 0)
  | .ldG32 p d a land off => some (encM 0x0C0 p (encDst d) (encSrc a) land off.toNat)
  | .ldG64 p d a land off => some (encM 0x0C2 p (encDst d) (encSrc a) land off.toNat)
  | .ldSp32 p d a off => some (encM 0x0C4 p (encDst d) (encSrc a) 0 off.toNat)
  | .ldSp64 p d a off => some (encM 0x0C6 p (encDst d) (encSrc a) 0 off.toNat)
  | .stG32 p d a off => some (encM 0x0C8 p (encSrc d) (encSrc a) 0 off.toNat)
  | .stG64 p d a off => some (encM 0x0CA p (encSrc d) (encSrc a) 0 off.toNat)
  | .stSp32 p d a off => some (encM 0x0CC p (encSrc d) (encSrc a) 0 off.toNat)
  | .stSp64 p d a off => some (encM 0x0CE p (encSrc d) (encSrc a) 0 off.toNat)
  | .ldc p d a off => some (encM 0x0D0 p (encDst d) (encSrc a) 0 off.toNat)
  | .pf p a l2 off => some (encM 0x0D2 p 0 (encSrc a) (bitNat l2) off.toNat)
  | .phase p k => some (encS 0x0D4 p 0 0 k.code)
  | .ifence p k => some (encS 0x0D6 p 0 0 k.code)
  | .arm p lo hi tok => some (encR 0x0D8 p 0 (encSrc lo) (encSrc hi) (encSrc tok) 0)
  | .wait p d => some (encS 0x0DA p (0xA00 + d) 0 0)
  | .rget p d k => some (encS 0x0E0 p (0xA00 + d) 0 k)
  | .rgetW p d k => some (encS 0x0E0 p (0xA00 + d) 0 (16 + k))
  | .rput p k => some (encS 0x0E2 p 0 0 k)
  | .rdone p k => some (encS 0x0E4 p 0 0 k)
  | .ldo32 p d a land off k => some (encM (0x0F0 + 2 * k.code) p (encDst d) (encSrc a) land off.toNat)
  | .ldo64 p d a land off k => some (encM (0x100 + 2 * k.code) p (encDst d) (encSrc a) land off.toNat)
  | .sto32 p d a off k => some (encM (0x110 + 2 * k.code) p (encSrc d) (encSrc a) 0 off.toNat)
  | .sto64 p d a off k => some (encM (0x120 + 2 * k.code) p (encSrc d) (encSrc a) 0 off.toNat)
  | .cpy p x y b set xs ys td =>
      some (encE 0x130 p (0xA00 + x) (0xA00 + y) (0xA00 + b) set (xs.code * 2 ^ 12 + ys.code * 2 ^ 11 + bitNat td * 2 ^ 10))
  | .cpyt p td ts set tr cm => some (encE 0x132 p td ts 0 set (bitNat tr * 2 ^ 10 + bitNat cm * 2 ^ 9))
  | .cacc p x y b set xs ys imm op ty =>
      some (encE 0x134 p (0xA00 + x) (if imm then 0 else 0xA00 + y) (0xA00 + b) set
        (xs.code * 2 ^ 12 + ys.code * 2 ^ 11 + bitNat imm * 2 ^ 10 + op.code * 2 ^ 6 + ty.code * 2 ^ 4))
  | .ccas p x y b set xs w64 land =>
      some (encE 0x136 p (0xA00 + x) (0xA00 + y) (0xA00 + b) set (xs.code * 2 ^ 12 + bitNat w64 * 2 ^ 10 + land))
  | .cfill p x b set xs => some (encE 0x138 p (0xA00 + x) 0 (0xA00 + b) set (xs.code * 2 ^ 12))
  | .ccrc p x y b set xs ys =>
      some (encE 0x13A p (0xA00 + x) (0xA00 + y) (0xA00 + b) set (xs.code * 2 ^ 12 + ys.code * 2 ^ 11))
  | .cred p x y b set op ty =>
      some (encE 0x13C p (0xA00 + x) (0xA00 + y) (0xA00 + b) set (op.code * 2 ^ 7 + ty.code * 2 ^ 5))
  | .jdec p x set => some (encE 0x156 p (0xA00 + x) 0 0 set 0)
  | .mma p ta tb k set t ke => some (encE 0x140 p ta tb k.code set (t * 2 ^ 7 + bitNat ke * 2 ^ 6))
  | .mzero p t => some (encE 0x142 p 0 0 0 false (t * 2 ^ 7))
  | .acrd p n r t => some (encE 0x144 p n r.code 0 false (t * 2 ^ 7))
  | .acwr p n r t => some (encE 0x146 p n r.code 0 false (t * 2 ^ 7))
  | .apatch p n r mask t op => some (encE 0x148 p n r.code (0xA00 + mask) false (t * 2 ^ 7 + op.code))
  | .tset p n b => some (encS 0x14A p 0 (0xA00 + b) n)
  | .spawn p d a => some (encS 0x150 p (0xA00 + d) (0xA00 + a) 0)
  | .bar k => some (encS 0x152 .always 0 0 k)
  | .barv k c => some (encS 0x154 .always 0 (encSrc c) k)
  | .renter p id => some (encS 0x158 p 0 0 id.toNat)
  | .rleave p => some (encS 0x15A p 0 0 0)
  | .wset p k b => some (encS 0x15C p 0 (0xA00 + b) k)
  | .wclr p k => some (encS 0x15E p 0 0 k)
  | .tret k => some (encS 0x160 .always 0 0 k.code)
  | .csrr p d n => some (encS 0x162 p (encDst d) 0 n)
  | .csrw p n a => some (encS 0x164 p 0 (encSrc a) n)
  | .tlbi p (.page a) => some (encS 0x166 p 0 (0xA00 + a) 0)
  | .tlbi p .ctx => some (encS 0x166 p 0 0 1)
  | .carveWrite p a => some (encS 0x164 p 0 (encSrc a) 0x10A)
  | .rgcfgWrite p k a => some (encS 0x164 p 0 (encSrc a) (0x20 + k))
  | .wdctlWrite p a => some (encS 0x164 p 0 (encSrc a) 0x10C)
  | .ectrloRead p d => some (encS 0x162 p (encDst d) 0 0x19)
  | .clkRead p d => some (encS 0x162 p (encDst d) 0 0x10)
  | _ => none

/-! ### The decoder, one function for each row of the opcode map (R289) -/

/-- The fields of a word below bit 50, under the names of R283. -/
structure Fields where
  d : Nat
  a : Nat
  b : Nat
  c : Nat
  m : Nat
  imm : Nat
  imm32 : Nat
  lmod : Nat
  land : Nat
  off : Nat
  boff : Nat
  jn : Nat
  set : Nat
  q : Nat
  deriving DecidableEq, Repr

/-- Every field of the seven formats (R283). -/
def fields (w : Nat) : Fields :=
  { d := fld w 38 12, a := fld w 26 12, b := fld w 14 12, c := fld w 2 12, m := fld w 0 2, imm := fld w 0 26,
    imm32 := fld w 0 32, lmod := fld w 32 6, land := fld w 16 10, off := fld w 0 16, boff := fld w 18 32,
    jn := fld w 0 18, set := fld w 13 1, q := fld w 0 13 }

/-- Two sources, C unused. -/
def dec2 (k : Dst → Src → Src → Instr) (f : Fields) : Except DecodeError Instr := do
  let d ← regDst f.d
  let a ← anySrc f.a
  let b ← anySrc f.b
  unused f.c
  pure (k d a b)

/-- Three sources. -/
def dec3 (k : Dst → Src → Src → Src → Instr) (f : Fields) : Except DecodeError Instr := do
  let d ← regDst f.d
  let a ← anySrc f.a
  let b ← anySrc f.b
  let c ← anySrc f.c
  pure (k d a b c)

/-- One source, B and C unused. -/
def dec1 (k : Dst → Src → Instr) (f : Fields) : Except DecodeError Instr := do
  let d ← regDst f.d
  let a ← anySrc f.a
  unused f.b
  unused f.c
  pure (k d a)

/-- mod unused. -/
def noMod (f : Fields) (x : Except DecodeError Instr) : Except DecodeError Instr := do
  unused f.m
  x

/-- A one-bit mod code. -/
def bitMod (f : Fields) (x : Bool → Except DecodeError Instr) : Except DecodeError Instr := do
  let b ← bitCode f.m
  x b

/-- Row 0x00. -/
def row00 (p : Pred) (f : Fields) : Nat → Except DecodeError Instr
  | 1 => do
      unused f.d; unused f.a; unused f.imm
      pure (.nop p)
  | 2 => noMod f (dec1 (.mov p) f)
  | 3 => do
      let d ← regDst f.d
      need (f.lmod == 0) .badCode
      pure (.movi p d (BitVec.ofNat 32 f.imm32))
  | 4 => bitMod f fun n => dec3 (fun d a b c => .sel p d a b c n) f
  | 5 => bitMod f fun sx => do
      let d ← dstIf Dst.isPair .badPair f.d
      let a ← srcIf Src.isPair .badPair f.a
      let b ← anySrc f.b
      need (f.c < 32) .badCode
      pure (.lea p d a b f.c sx)
  | _ => .error .unassignedOpcode

/-- `iadd64` (R337). -/
def decIadd64 (p : Pred) (f : Fields) : Except DecodeError Instr := do
  let d ← dstIf Dst.isPair .badPair f.d
  let a ← srcIf Src.isPair .badPair f.a
  unused f.c
  if f.m = 0 then do
    let b ← anySrc f.b
    pure (.iadd64 p d a b .zx)
  else if f.m = 1 then do
    let b ← anySrc f.b
    pure (.iadd64 p d a b .sx)
  else if f.m = 2 then do
    let b ← srcIf Src.isPair .badPair f.b
    pure (.iadd64 p d a b .pair)
  else .error .badCode

/-- Row 0x01. -/
def row01 (p : Pred) (f : Fields) : Nat → Except DecodeError Instr
  | 0 => bitMod f fun s => dec2 (fun d a b => .iadd p d a b s) f
  | 1 => decIadd64 p f
  | 2 => noMod f (dec2 (.imul p) f)
  | 3 => bitMod f fun u => dec2 (fun d a b => .imulhi p d a b u) f
  | 4 => noMod f (dec3 (.imad p) f)
  | 5 => bitMod f fun s => dec1 (fun d a => .iabs p d a s) f
  | 6 => bitMod f fun u => dec2 (fun d a b => .imin p d a b u) f
  | _ => bitMod f fun u => dec2 (fun d a b => .imax p d a b u) f

/-- Row 0x02. -/
def row02 (p : Pred) (f : Fields) : Nat → Except DecodeError Instr
  | 0 => noMod f (dec2 (.and p) f)
  | 1 => noMod f (dec2 (.or p) f)
  | 2 => noMod f (dec2 (.xor p) f)
  | 3 => noMod f (dec2 (.andn p) f)
  | 4 => noMod f (dec2 (.shl p) f)
  | 5 => bitMod f fun s => dec2 (fun d a b => .shr p d a b s) f
  | 6 => bitMod f fun r => dec2 (fun d a b => .rot p d a b r) f
  | _ => .error .unassignedOpcode

/-- A compare: any legal destination, the condition in C (R326, R339). -/
def decCmp (f : Fields) (k : Dst → Src → Src → Instr) : Except DecodeError Instr := do
  let d ← dstIf Dst.wf .badDestination f.d
  let a ← anySrc f.a
  let b ← anySrc f.b
  unused f.m
  pure (k d a b)

/-- Row 0x03. -/
def row03 (p : Pred) (f : Fields) : Nat → Except DecodeError Instr
  | 0 => noMod f (dec1 (.clz p) f)
  | 1 => noMod f (dec1 (.popc p) f)
  | 2 => noMod f (dec1 (.brev p) f)
  | 3 => bitMod f fun s => dec2 (fun d a b => .bfx p d a b s) f
  | 4 => noMod f (dec3 (.bfi p) f)
  | 5 => do
      let cc ← icondOf f.c
      decCmp f fun d a b => .icmp p d a b cc
  | 6 => do
      let k ← dp4Of f.m
      dec3 (fun d a b c => .idp4 p d a b c k) f
  | _ => .error .unassignedOpcode

/-- `fcvt` (R327). -/
def decFcvt (p : Pred) (f : Fields) : Except DecodeError Instr := do
  let d ← regDst f.d
  let a ← anySrc f.a
  unused f.b
  need (f.c < 256) .badCode
  let st ← fmtOf (f.c / 16)
  let dt ← fmtOf (f.c % 16)
  need (dt.isPlain && st.isPlain && dt != st && !(dt.isInt && st.isInt)) .badCode
  pure (.fcvt p d a dt st (roundOf f.m))

/-- Row 0x04. -/
def row04 (p : Pred) (f : Fields) : Nat → Except DecodeError Instr
  | 0 => dec2 (fun d a b => .fadd p d a b (roundOf f.m)) f
  | 1 => dec2 (fun d a b => .fsub p d a b (roundOf f.m)) f
  | 2 => dec2 (fun d a b => .fmul p d a b (roundOf f.m)) f
  | 3 => dec3 (fun d a b c => .ffma p d a b c (roundOf f.m)) f
  | 4 => noMod f (dec2 (.fmin p) f)
  | 5 => noMod f (dec2 (.fmax p) f)
  | 6 => do
      let cc ← fcondOf f.c
      decCmp f fun d a b => .fcmp p d a b cc
  | _ => decFcvt p f

/-- A packed half instruction (R334). -/
def decHalf (f : Fields) (ok : Dst → Bool) (k : Dst → Src → Src → HalfFmt → RoundMode → Instr) :
    Except DecodeError Instr := do
  let d ← dstIf ok .badDestination f.d
  let a ← anySrc f.a
  let b ← anySrc f.b
  let h ← halfOf f.c
  pure (k d a b h (roundOf f.m))

/-- Row 0x05. -/
def row05 (p : Pred) (f : Fields) : Nat → Except DecodeError Instr
  | 0 => dec1 (fun d a => .frnd p d a (roundOf f.m)) f
  | 1 => decHalf f Dst.isReg (.hadd2 p)
  | 2 => decHalf f Dst.isReg (.hmul2 p)
  | 3 => decHalf f Dst.isLane (.hfma2 p)
  | _ => .error .unassignedOpcode

/-- A special function of one source with no rounding (R330). -/
def decSpecial (f : Fields) (k : Dst → Src → Grade → Instr) : Except DecodeError Instr := do
  let d ← regDst f.d
  let a ← anySrc f.a
  unused f.b
  let g ← gradeOf f.c
  need (f.m == 0) .badCode
  pure (k d a g)

/-- Row 0x06. -/
def row06 (p : Pred) (f : Fields) : Nat → Except DecodeError Instr
  | 0 => decSpecial f (.frcp p)
  | 1 => decSpecial f (.frsq p)
  | 2 => do
      let d ← regDst f.d
      let a ← anySrc f.a
      unused f.b
      let g ← gradeOf f.c
      need (g.rounds (roundOf f.m)) .badCode
      pure (.fsqrt p d a g (roundOf f.m))
  | 3 => do
      let d ← regDst f.d
      let a ← anySrc f.a
      let b ← anySrc f.b
      let g ← gradeOf f.c
      need (g.rounds (roundOf f.m)) .badCode
      pure (.fdiv p d a b g (roundOf f.m))
  | 4 => decSpecial f (.fex2 p)
  | 5 => decSpecial f (.flg2 p)
  | 6 => decSpecial f (.fsin p)
  | _ => decSpecial f (.fcos p)

/-- Row 0x07. -/
def row07 (p : Pred) (f : Fields) : Nat → Except DecodeError Instr
  | 0 => decSpecial f (.ftanh p)
  | 1 => decSpecial f (.fsigm p)
  | _ => .error .unassignedOpcode

/-- `pand`, `por`, `pxor` (R362). -/
def decPred2 (f : Fields) (k : Dst → Src → Src → Bool → Bool → Instr) : Except DecodeError Instr := do
  let d ← dstIf Dst.isPred .badDestination f.d
  let a ← srcIf Src.isPredBit .badSource f.a
  let b ← srcIf Src.isPredBit .badSource f.b
  unused f.c
  pure (k d a b (f.m % 2 == 1) (f.m / 2 == 1))

/-- `vote` (R391). -/
def decVote (p : Pred) (f : Fields) : Except DecodeError Instr := do
  let a ← anySrc f.a
  let m ← srcIf Src.isScalarImm .badSource f.b
  unused f.c
  if f.m = 2 then do
    let d ← regDst f.d
    pure (.vote p d a m .ballot)
  else do
    let d ← dstIf Dst.wf .badDestination f.d
    pure (.vote p d a m (if f.m = 0 then .any else if f.m = 1 then .all else .uni))

/-- `wred` (R395). -/
def decWred (p : Pred) (f : Fields) : Except DecodeError Instr := do
  let d ← regDst f.d
  let a ← anySrc f.a
  let m ← srcIf Src.isScalarImm .badSource f.b
  let op ← redOpOf f.m
  let ty ← redTyOf f.c
  need (!(op == .add && ty == .u32)) .badCode
  pure (.wred p d a m op ty)

/-- Row 0x08. -/
def row08 (p : Pred) (f : Fields) : Nat → Except DecodeError Instr
  | 0 => decPred2 f (.pand p)
  | 1 => decPred2 f (.por p)
  | 2 => decPred2 f (.pxor p)
  | 3 => bitMod f fun na => do
      let d ← dstIf Dst.isPred .badDestination f.d
      let a ← anySrc f.a
      unused f.b
      unused f.c
      pure (.pmov p d a na)
  | 4 => do
      let d ← dstIf Dst.isLane .badDestination f.d
      let a ← srcIf Src.isLane .badSource f.a
      let b ← anySrc f.b
      let m ← srcIf Src.isScalarImm .badSource f.c
      pure (.shfl p d a b m (shflOf f.m))
  | 5 => decVote p f
  | 6 => decWred p f
  | _ => .error .unassignedOpcode

/-- An instruction that must carry predicate field 7 with n = 0 (R285). -/
def mustAlways (p : Pred) (x : Except DecodeError Instr) : Except DecodeError Instr := do
  need (p == .always) .predicateNotAlways
  x

/-- D, A and imm26 all unused. -/
def bare (f : Fields) (i : Instr) : Except DecodeError Instr := do
  unused f.d
  unused f.a
  unused f.imm
  pure i

/-- R format with only A used: a scalar pair (R306, R368). -/
def decPairA (f : Fields) (k : Nat → Instr) : Except DecodeError Instr := do
  unused f.d
  let a ← scalarIf evenScalar f.a
  unused f.b
  unused f.c
  unused f.m
  pure (k a)

/-- Row 0x09. -/
def row09 (p : Pred) (f : Fields) : Nat → Except DecodeError Instr
  | 0 => do
      unused f.jn
      pure (.bra p (BitVec.ofNat 32 f.boff))
  | 1 => .ok (.bdiv p (BitVec.ofNat 32 f.boff) (BitVec.ofNat 18 f.jn))
  | 2 => mustAlways p (bare f .join)
  | 3 => decPairA f (.brx p)
  | 4 => do
      let l ← scalarIf evenScalar f.jn
      pure (.call p (BitVec.ofNat 32 f.boff) l)
  | 5 => do
      let l ← scalarIf evenScalar f.d
      let a ← scalarIf evenScalar f.a
      unused f.b
      unused f.c
      unused f.m
      pure (.callr p l a)
  | 6 => decPairA f (.ret p)
  | _ => bare f (.exit p)

/-- Row 0x0A. -/
def row0A (p : Pred) (f : Fields) : Nat → Except DecodeError Instr
  | 0 => do
      let c ← scalarIf (· < 128) (f.jn % 2 ^ 15)
      pure (.loop p (BitVec.ofNat 32 f.boff) (f.jn / 2 ^ 15 + 1) c)
  | 1 => bare f (.lexit p)
  | 2 => do
      unused f.d
      unused f.a
      need (1 ≤ f.imm && f.imm ≤ 64) .badImmediate
      pure (.mark p f.imm)
  | 3 => do
      unused f.d
      unused f.a
      need (f.imm < 2 ^ 16) .unusedField
      pure (.trap p (BitVec.ofNat 16 f.imm))
  | 4 => do
      unused f.d
      unused f.a
      need (f.imm < 2 ^ 16) .unusedField
      pure (.brk p (BitVec.ofNat 16 f.imm))
  | 5 => mustAlways p (bare f .fold)
  | 6 => mustAlways p (bare f .unfold)
  | _ => .error .unassignedOpcode

/-- Row 0x0B. -/
def row0B (p : Pred) (f : Fields) : Nat → Except DecodeError Instr
  | 0 => do
      let d ← dstIf Dst.isLane .badDestination f.d
      let a ← srcIf Src.isLane .badSource f.a
      let j ← numBelow 16 f.b
      unused f.c
      unused f.m
      pure (.xmov p d a j)
  | 1 => do
      let d ← dstIf Dst.isLane .badDestination f.d
      let a ← srcIf Src.isLane .badSource f.a
      let j ← numBelow 16 f.b
      let m ← srcIf Src.isScalarImm .badSource f.c
      unused f.m
      pure (.xbc p d a j m)
  | _ => .error .unassignedOpcode

/-- A global load (R349, R352). -/
def decLoadG (f : Fields) (ok : Dst → Bool) (k : Dst → Src → Nat → BitVec 16 → Instr) : Except DecodeError Instr := do
  let d ← dstIf ok .badDestination f.d
  let a ← srcIf Src.isPair .badPair f.a
  pure (k d a f.land (BitVec.ofNat 16 f.off))

/-- A scratchpad or constant load (R349). -/
def decLoadSp (f : Fields) (ok : Dst → Bool) (k : Dst → Src → BitVec 16 → Instr) : Except DecodeError Instr := do
  let d ← dstIf ok .badDestination f.d
  let a ← srcIf Src.isBase .badSource f.a
  unused f.land
  pure (k d a (BitVec.ofNat 16 f.off))

/-- A store (R377, R380). -/
def decStore (f : Fields) (okd oka : Src → Bool) (k : Src → Src → BitVec 16 → Instr) : Except DecodeError Instr := do
  let d ← srcIf okd .badSource f.d
  let a ← srcIf oka .badSource f.a
  unused f.land
  pure (k d a (BitVec.ofNat 16 f.off))

/-- Row 0x0C. -/
def row0C (p : Pred) (f : Fields) : Nat → Except DecodeError Instr
  | 0 => decLoadG f Dst.isReg (.ldG32 p)
  | 1 => decLoadG f Dst.isLoadPair (.ldG64 p)
  | 2 => decLoadSp f Dst.isReg (.ldSp32 p)
  | 3 => decLoadSp f Dst.isLoadPair (.ldSp64 p)
  | 4 => decStore f Src.isData Src.isPair (.stG32 p)
  | 5 => decStore f Src.isDataPair Src.isPair (.stG64 p)
  | 6 => decStore f Src.isData Src.isBase (.stSp32 p)
  | _ => decStore f Src.isDataPair Src.isBase (.stSp64 p)

/-- `phase` and `ifence` (R341, R364). -/
def decScope (f : Fields) (k : ScopeSel → Instr) : Except DecodeError Instr := do
  unused f.d
  unused f.a
  let s ← scopeSelOf f.imm
  pure (k s)

/-- Row 0x0D. -/
def row0D (p : Pred) (f : Fields) : Nat → Except DecodeError Instr
  | 0 => decLoadSp f Dst.isReg (.ldc p)
  | 1 => do
      unused f.d
      let a ← srcIf Src.isPair .badPair f.a
      let l2 ← bitCode f.land
      pure (.pf p a l2 (BitVec.ofNat 16 f.off))
  | 2 => decScope f (.phase p)
  | 3 => decScope f (.ifence p)
  | 4 => do
      unused f.d
      let lo ← srcIf Src.isScalarImm .badSource f.a
      let hi ← srcIf Src.isScalarImm .badSource f.b
      let tok ← srcIf Src.isScalarImm .badSource f.c
      unused f.m
      pure (.arm p lo hi tok)
  | 5 => do
      let d ← scalarIf (· < 128) f.d
      unused f.a
      unused f.imm
      pure (.wait p d)
  | _ => .error .unassignedOpcode

/-- Row 0x0E. -/
def row0E (p : Pred) (f : Fields) : Nat → Except DecodeError Instr
  | 0 => do
      let d ← scalarIf (· < 128) f.d
      unused f.a
      if f.imm < 16 then pure (.rget p d f.imm)
      else if f.imm < 32 then pure (.rgetW p d (f.imm - 16))
      else .error .unusedField
  | 1 => do
      unused f.d
      unused f.a
      need (f.imm < 16) .unusedField
      pure (.rput p f.imm)
  | 2 => do
      unused f.d
      unused f.a
      need (f.imm < 16) .unusedField
      pure (.rdone p f.imm)
  | _ => .error .unassignedOpcode

/-- The scope of an ordered access: pair k is the scope of code k (R289). -/
def scopePair (col : Nat) : Except DecodeError Scope :=
  match scopeOf col with
  | .ok k => .ok k
  | .error _ => .error .unassignedOpcode

/-- Rows 0x0F and 0x10. -/
def rowLdo (f : Fields) (ok : Dst → Bool) (k : Dst → Src → Nat → BitVec 16 → Scope → Instr) (col : Nat) :
    Except DecodeError Instr := do
  let sc ← scopePair col
  decLoadG f ok fun d a l o => k d a l o sc

/-- Rows 0x11 and 0x12. -/
def rowSto (f : Fields) (ok : Src → Bool) (k : Src → Src → BitVec 16 → Scope → Instr) (col : Nat) :
    Except DecodeError Instr := do
  let sc ← scopePair col
  decStore f ok Src.isPair fun d a o => k d a o sc

/-- `cacc` (R310, R313). -/
def decCacc (p : Pred) (f : Fields) : Except DecodeError Instr := do
  let xs := spaceOf (fld f.q 12 1)
  let imm := fld f.q 10 1 == 1
  let x ← scalarIf (spaceScalar xs) f.d
  unused (fld f.q 9 1)
  unused (fld f.q 0 4)
  let op ← accOpOf (fld f.q 6 3)
  let ty := accTyOf (fld f.q 4 2)
  need (op.fits ty) .badCode
  let b ← scalarIf quadScalar f.b
  if imm then do
    unused f.a
    unused (fld f.q 11 1)
    pure (.cacc p x 0 b (f.set == 1) xs .g true op ty)
  else do
    let ys := spaceOf (fld f.q 11 1)
    let y ← scalarIf (spaceScalar ys) f.a
    pure (.cacc p x y b (f.set == 1) xs ys false op ty)

/-- `ccas` (R310, R314). -/
def decCcas (p : Pred) (f : Fields) : Except DecodeError Instr := do
  let xs := spaceOf (fld f.q 12 1)
  unused (fld f.q 11 1)
  let w64 := fld f.q 10 1 == 1
  let x ← scalarIf (spaceScalar xs) f.d
  let y ← scalarIf (fun n => if w64 then evenScalar n else decide (n < 128)) f.a
  let b ← scalarIf quadScalar f.b
  pure (.ccas p x y b (f.set == 1) xs w64 (fld f.q 0 10))

/-- Row 0x13. -/
def row13 (p : Pred) (f : Fields) : Nat → Except DecodeError Instr
  | 0 => do
      let xs := spaceOf (fld f.q 12 1)
      let ys := spaceOf (fld f.q 11 1)
      let x ← scalarIf (spaceScalar xs) f.d
      let y ← scalarIf (spaceScalar ys) f.a
      let b ← scalarIf quadScalar f.b
      unused (fld f.q 0 10)
      pure (.cpy p x y b (f.set == 1) xs ys (fld f.q 10 1 == 1))
  | 1 => do
      let td ← numBelow 256 f.d
      let ts ← numBelow 256 f.a
      unused f.b
      unused (fld f.q 11 2)
      unused (fld f.q 0 9)
      pure (.cpyt p td ts (f.set == 1) (fld f.q 10 1 == 1) (fld f.q 9 1 == 1))
  | 2 => decCacc p f
  | 3 => decCcas p f
  | 4 => do
      let xs := spaceOf (fld f.q 12 1)
      let x ← scalarIf (spaceScalar xs) f.d
      unused f.a
      let b ← scalarIf quadScalar f.b
      unused (fld f.q 0 12)
      pure (.cfill p x b (f.set == 1) xs)
  | 5 => do
      let xs := spaceOf (fld f.q 12 1)
      let ys := spaceOf (fld f.q 11 1)
      let x ← scalarIf (spaceScalar xs) f.d
      let y ← scalarIf (spaceScalar ys) f.a
      let b ← scalarIf quadScalar f.b
      unused (fld f.q 0 11)
      pure (.ccrc p x y b (f.set == 1) xs ys)
  | 6 => do
      let x ← scalarIf evenScalar f.d
      let y ← scalarIf evenScalar f.a
      let b ← scalarIf quadScalar f.b
      unused (fld f.q 9 4)
      let op ← redOpOf (fld f.q 7 2)
      let ty ← credTyOf (fld f.q 5 2)
      unused (fld f.q 0 5)
      pure (.cred p x y b (f.set == 1) op ty)
  | _ => .error .unassignedOpcode

/-- Row 0x14. -/
def row14 (p : Pred) (f : Fields) : Nat → Except DecodeError Instr
  | 0 => do
      let ta ← numBelow 256 f.d
      let tb ← numBelow 256 f.a
      let k ← kRangeOf f.b
      unused (fld f.q 0 6)
      pure (.mma p ta tb k (f.set == 1) (fld f.q 7 6) (fld f.q 6 1 == 1))
  | 1 => do
      unused f.d
      unused f.a
      unused f.b
      unused f.set
      unused (fld f.q 0 7)
      pure (.mzero p (fld f.q 7 6))
  | 2 => do
      let n ← numBelow 2048 f.d
      let r ← rowSelOf f.a
      unused f.b
      unused f.set
      unused (fld f.q 0 7)
      pure (.acrd p n r (fld f.q 7 6))
  | 3 => do
      let n ← numBelow 2048 f.d
      let r ← rowSelOf f.a
      unused f.b
      unused f.set
      unused (fld f.q 0 7)
      pure (.acwr p n r (fld f.q 7 6))
  | 4 => do
      let n ← numBelow 2048 f.d
      let r ← rowSelOf f.a
      let m ← scalarIf evenScalar f.b
      unused f.set
      unused (fld f.q 2 5)
      let op ← patchOpOf (fld f.q 0 2)
      pure (.apatch p n r m (fld f.q 7 6) op)
  | 5 => do
      unused f.d
      let b ← scalarIf quadScalar f.a
      need (f.imm < 256) .unusedField
      pure (.tset p f.imm b)
  | _ => .error .unassignedOpcode

/-- Row 0x15. -/
def row15 (p : Pred) (f : Fields) : Nat → Except DecodeError Instr
  | 0 => do
      let d ← scalarIf evenScalar f.d
      let a ← scalarIf evenScalar f.a
      unused f.imm
      pure (.spawn p d a)
  | 1 => mustAlways p do
      unused f.d
      unused f.a
      need (f.imm < 8) .unusedField
      pure (.bar f.imm)
  | 2 => mustAlways p do
      unused f.d
      let c ← srcIf Src.isScalarImm .badSource f.a
      need (f.imm < 8) .unusedField
      pure (.barv f.imm c)
  | 3 => do
      let x ← scalarIf evenScalar f.d
      unused f.a
      unused f.b
      unused f.q
      pure (.jdec p x (f.set == 1))
  | 4 => do
      unused f.d
      unused f.a
      need (f.imm < 2 ^ 16) .unusedField
      pure (.renter p (BitVec.ofNat 16 f.imm))
  | 5 => bare f (.rleave p)
  | 6 => do
      unused f.d
      let b ← scalarIf quadScalar f.a
      need (f.imm < 8) .unusedField
      pure (.wset p f.imm b)
  | _ => do
      unused f.d
      unused f.a
      need (f.imm < 8) .unusedField
      pure (.wclr p f.imm)

/-- `csrr`, with the two forms the table lists apart (R318, R319). -/
def decCsrr (p : Pred) (f : Fields) : Except DecodeError Instr := do
  let d ← regDst f.d
  unused f.a
  need (isSpecialNumber f.imm) .badNumber
  pure (if f.imm = 0x10 then .clkRead p d else if f.imm = 0x19 then .ectrloRead p d else .csrr p d f.imm)

/-- `csrw`, with the three forms the table lists apart (R318, R320). -/
def decCsrw (p : Pred) (f : Fields) : Except DecodeError Instr := do
  unused f.d
  let a ← srcIf Src.isScalarImm .badSource f.a
  need (isSpecialNumber f.imm) .badNumber
  pure (if f.imm = 0x10A then .carveWrite p a
    else if f.imm = 0x10C then .wdctlWrite p a
    else if 0x20 ≤ f.imm ∧ f.imm ≤ 0x2F then .rgcfgWrite p (f.imm - 0x20) a
    else .csrw p f.imm a)

/-- Row 0x16. -/
def row16 (p : Pred) (f : Fields) : Nat → Except DecodeError Instr
  | 0 => mustAlways p do
      unused f.d
      unused f.a
      let k ← tretOf f.imm
      pure (.tret k)
  | 1 => decCsrr p f
  | 2 => decCsrw p f
  | 3 => do
      unused f.d
      if f.imm = 0 then do
        let a ← scalarIf evenScalar f.a
        pure (.tlbi p (.page a))
      else if f.imm = 1 then do
        unused f.a
        pure (.tlbi p .ctx)
      else .error .badCode
  | _ => .error .unassignedOpcode

/-- The opcode map (R289): map row, then the pair within the row. -/
def decodeOp (p : Pred) (f : Fields) (row col : Nat) : Except DecodeError Instr :=
  match row with
  | 0x00 => row00 p f col
  | 0x01 => row01 p f col
  | 0x02 => row02 p f col
  | 0x03 => row03 p f col
  | 0x04 => row04 p f col
  | 0x05 => row05 p f col
  | 0x06 => row06 p f col
  | 0x07 => row07 p f col
  | 0x08 => row08 p f col
  | 0x09 => row09 p f col
  | 0x0A => row0A p f col
  | 0x0B => row0B p f col
  | 0x0C => row0C p f col
  | 0x0D => row0D p f col
  | 0x0E => row0E p f col
  | 0x0F => rowLdo f Dst.isReg (.ldo32 p) col
  | 0x10 => rowLdo f Dst.isLoadPair (.ldo64 p) col
  | 0x11 => rowSto f Src.isData (.sto32 p) col
  | 0x12 => rowSto f Src.isDataPair (.sto64 p) col
  | 0x13 => row13 p f col
  | 0x14 => row14 p f col
  | 0x15 => row15 p f col
  | 0x16 => row16 p f col
  | _ => .error .unassignedOpcode

/-- The instruction a 64-bit word names, or why it names none. -/
def decodeWord (w : Nat) : Except DecodeError Instr := do
  let p ← decodePred (fld w 50 5) (fld w 55 1)
  decodeOp p (fields w) (fld w 59 5) (fld w 56 3)

/-- Bytes to a number, the first byte least significant (R1). -/
def leNat : List Byte → Nat
  | [] => 0
  | b :: bs => b.toNat + 256 * leNat bs

/-- A number as n bytes, least significant first (R1). -/
def leBytes : Nat → Nat → List Byte
  | 0, _ => []
  | n + 1, w => BitVec.ofNat 8 w :: leBytes n (w / 256)

/-- The instruction at the head of a list of bytes, and the bytes after it. -/
def decode (bs : List Byte) : Except DecodeError (Instr × List Byte) := do
  need (8 ≤ bs.length) .shortInput
  let i ← decodeWord (leNat (bs.take 8))
  pure (i, bs.drop 8)

/-- The instruction the decoder reads from a word whose bits are w, laid out in memory order. A word is 64 bits
wherever the table speaks of one, so `nbits` only bounds w. -/
def decodeTableWord (nbits w : Nat) : Option Instr :=
  match decode (leBytes 8 (w % 2 ^ nbits)) with
  | .ok (i, _) => some i
  | .error _ => none

/-! ### Headers (R53, R54) -/

/-- The fields clause and bundle headers share, with those of each kind. -/
structure Header where
  count : Nat
  waitMask : Nat
  seta : Nat
  setb : Nat
  last : Bool
  stile : Bool
  live : Nat
  lanes : Nat
  sc : Bool
  mx : Bool
  cp0 : Bool
  cp1 : Bool
  lend : Bool
  shape : Nat
  deriving DecidableEq, Repr

/-- A set field: 0 to 11, or 15 for none (R53). -/
def setFieldOk (x : Nat) : Bool := x < 12 || x == 15

/-- A clause header, refused where R55 says so of the word alone. -/
def decodeClauseHeader (w : Nat) : Except DecodeError Header := do
  unused (fld w 51 13)
  need (fld w 48 3 != 0) .badNumber
  unused (fld w 44 4)
  need (setFieldOk (fld w 28 4) && setFieldOk (fld w 24 4)) .badCode
  unused (fld w 19 3)
  need (fld w 22 1 == 1 || fld w 11 8 == 0) .badCode
  unused (fld w 0 11)
  pure { count := fld w 48 3, waitMask := fld w 32 12, seta := fld w 28 4, setb := fld w 24 4, last := fld w 23 1 == 1,
         stile := fld w 22 1 == 1, live := fld w 11 8, lanes := 0, sc := false, mx := false, cp0 := false, cp1 := false,
         lend := false, shape := 0 }

/-- A bundle header, refused where R55 says so of the word alone. -/
def decodeBundleHeader (w : Nat) : Except DecodeError Header := do
  need (setFieldOk (fld w 28 4) && setFieldOk (fld w 24 4)) .badCode
  need (fld w 19 2 != 3) .badCode
  need (fld w 22 1 == 1 || fld w 11 8 == 0) .badCode
  unused (fld w 0 11)
  pure { count := 0, waitMask := fld w 32 12, seta := fld w 28 4, setb := fld w 24 4, last := fld w 23 1 == 1,
         stile := fld w 22 1 == 1, live := fld w 11 8, lanes := fld w 48 16, sc := fld w 47 1 == 1, mx := fld w 46 1 == 1,
         cp0 := fld w 45 1 == 1, cp1 := fld w 44 1 == 1, lend := fld w 21 1 == 1, shape := fld w 19 2 }

/-- The slots of a bundle in word order: lane slots, then 16 scalar, 17 matrix, 18 copy 0, 19 copy 1 (R54, R291). -/
def Header.slots (h : Header) : List Nat :=
  (List.range 16).filter (fun c => fld h.lanes c 1 == 1) ++ (if h.sc then [16] else []) ++ (if h.mx then [17] else []) ++
    (if h.cp0 then [18] else []) ++ (if h.cp1 then [19] else [])

/-! ### Host register writes (R222) and host commands (R223) -/

/-- The step a 32-bit write of a host register at an offset of BAR0 is (R222, R228, R220, R225, R178). -/
def decodeBar0Write (off : Nat) (v : Word) : Instr :=
  if off = 0x0108 then .commandDoorbell v
  else if off = 0x0120 then .ringSizeWrite v
  else if off = 0x0130 then .hcplheadWrite v
  else if off = 0x0148 then .faultRingSetup v
  else if off = 0x0158 then .eventRingSetup v
  else if off = 0x0304 then .rollCall v
  else if off = 0x0008 ∧ v.getLsbD 0 then .rotaGo v
  else if off = 0x0008 ∧ v.getLsbD 1 then .rotaStop v
  else .registerWrite off v

/-- Word k of a command. -/
def cmdWord (ws : List Nat) (k : Nat) : Nat := ws.getD k 0

/-- Whether words k and up of a command are 0. -/
def restZero (ws : List Nat) (k : Nat) : Bool := (ws.drop k).all (· == 0)

/-- A command word as 64 bits. -/
def dw (n : Nat) : DWord := BitVec.ofNat 64 n

/-- The resident named by the low 16 bits of a word (R223, Freeze). -/
def resNameOf (w : Nat) : ResName := ⟨fld w 0 8, fld w 8 4, fld w 12 4⟩

/-- The command in eight 64-bit words (R223); nothing for an opcode that is not listed or a reserved bit that is not
zero, which completes with status 2. -/
def decodeCommand (ws : List Nat) : Option Instr :=
  let w0 := cmdWord ws 0
  let w1 := cmdWord ws 1
  let w2 := cmdWord ws 2
  let w3 := cmdWord ws 3
  let w4 := cmdWord ws 4
  let h : CmdHead := ⟨fld w0 32 32, fld w0 16 16⟩
  let z (k : Nat) (ok : Bool) (i : Instr) : Option Instr := if restZero ws k && ok then some i else none
  match fld w0 0 16 with
  | 0x01 => z 3 (w2 < 2) (.submit h (dw w1) (fld w2 0 1))
  | 0x02 => z 7 (w2 < 2 ^ 20 && cmdWord ws 6 < 2 ^ 16 && h.ctx == 0)
      (.contextCreate h (dw w1) (fld w2 0 16) (fld w2 16 4) (dw w3) (dw w4) (dw (cmdWord ws 5)) (cmdWord ws 6))
  | 0x03 => z 1 true (.contextDestroy h)
  | 0x04 => z 3 true (.saveAreaAllot h (dw w1) (dw w2))
  | 0x05 => z 2 true (.codeObjectRegister h (dw w1))
  | 0x06 => z 2 (w1 < 2 ^ 17 && fld w1 5 3 == 0 && h.ctx == 0)
      (.faultResolve h (fld w1 0 5) (fld w1 8 8) (fld w1 16 1 == 1))
  | 0x07 => z 1 (h.ctx == 0) (.codePatch h)
  | 0x08 => z 2 (w1 < 256) (.halt h w1)
  | 0x09 => z 2 (w1 < 2 ^ 16) (.freeze h (resNameOf w1))
  | 0x0A => z 2 (w1 < 2 ^ 17) (.resume h (fld w1 16 1 == 1) (resNameOf w1))
  | 0x0B => z 2 (w1 < 2 ^ 16) (.snapshot h (resNameOf w1))
  | 0x0C => z 5 (w1 < 2 ^ 16 && w4 < 2 && w2 < 2 ^ 36 && fld w2 25 6 == 0 && fld w2 12 4 == 0)
      (.stateAccess h (resNameOf w1) (fld w2 31 1 == 1) (if fld w2 31 1 = 1 then fld w2 16 9 else fld w2 0 12)
        (fld w2 32 4) (dw w3) (w4 == 1))
  | 0x0D => z 3 (w1 < 512) (.contextRegister h w1 (dw w2))
  | 0x0E => z 5 (w1 < 32 && w2 < 16 && w4 < 2 ^ 16 && h.ctx == 0) (.sampling h w1 w2 (dw w3) w4)
  | 0x0F => z 4 (w1 < 2 && w3 < 2 ^ 16) (.traceConfigure h (w1 == 1) (dw w2) w3)
  | 0x10 => z 2 (w1 < 4 && h.ctx == 0) (.power h w1)
  | 0x11 => z 1 (h.ctx == 0) (.advanceStage h)
  | 0x12 => z 3 (h.ctx == 0) (.attest h (dw w1) (dw w2))
  | 0x13 => z 3 (h.ctx == 0) (.firmwareLoad h (dw w1) (dw w2))
  | 0x14 => z 3 (h.ctx == 0) (.configurationLoad h (dw w1) (dw w2))
  | 0x15 => z 4 (w1 < 256 && h.ctx == 0) (.peerGroupConfigure h w1 (dw w2) w3)
  | 0x16 => z 2 (w1 < 32 && h.ctx == 0) (.linkRetrain h w1)
  | _ => none

/-- The opcode of a host command (R223), as its completion repeats it (R224). -/
def commandOpcode : Instr → Nat
  | .submit .. => 0x01
  | .contextCreate .. => 0x02
  | .contextDestroy .. => 0x03
  | .saveAreaAllot .. => 0x04
  | .codeObjectRegister .. => 0x05
  | .faultResolve .. => 0x06
  | .codePatch .. => 0x07
  | .halt .. => 0x08
  | .freeze .. => 0x09
  | .resume .. => 0x0A
  | .snapshot .. => 0x0B
  | .stateAccess .. => 0x0C
  | .contextRegister .. => 0x0D
  | .sampling .. => 0x0E
  | .traceConfigure .. => 0x0F
  | .power .. => 0x10
  | .advanceStage .. => 0x11
  | .attest .. => 0x12
  | .firmwareLoad .. => 0x13
  | .configurationLoad .. => 0x14
  | .peerGroupConfigure .. => 0x15
  | .linkRetrain .. => 0x16
  | _ => 0

end Sys2Proof
end

