-- ==== Sys2Proof/Machine/State.lean ====
section
/-! DEFINITION. Everything the spec gives the machine, as plain data, and the machine right after reset. INVENTORY.md
lists each piece with the rule that names it. Bit vectors hold what the spec treats as bits; addresses, counts and
indices of the walk are natural numbers. -/

namespace Sys2Proof.Machine

/-- What a store holds where nothing has been written: zero, or a free value named by a seed (R32, R189). -/
inductive Fill where
  | zero
  | free (seed : Nat)
  deriving DecidableEq, Repr

/-- The registers of one resident (R46): per lane the main registers, the operand file, the last-result file and the
predicates; per resident the scalar registers. -/
inductive Reg where
  | v (lane n : Nat)
  | o (lane n : Nat)
  | y (lane n : Nat)
  | p (lane n : Nat)
  | s (n : Nat)
  deriving DecidableEq, Repr

/-- The content of one register and its poison mark (R209). -/
structure RegCell where
  reg : Reg
  val : Word
  poison : Bool
  deriving DecidableEq, Repr

/-- A resident's registers: those written since placement, and what the others read as. -/
structure RegFile where
  fill : Fill
  cells : List RegCell
  deriving DecidableEq, Repr

/-- A scratchpad allotment: bytes written so far (addresses strictly rising) and the poisoned 8-byte words. -/
structure ByteFile where
  fill : Fill
  cells : List Host.Cell
  poison : List Nat
  deriving DecidableEq, Repr

/-- One element of an accumulator tile; `idx` is 64 row + column (R141). -/
structure TileCell where
  idx : Nat
  val : Word
  poison : Bool
  deriving DecidableEq, Repr

/-- An accumulator tile (R141). -/
structure Tile where
  fill : Fill
  cells : List TileCell
  deriving DecidableEq, Repr

/-- A level descriptor (R36). `extent` is the stored value plus 1. -/
structure Level where
  domain : Nat
  coRes : Bool
  extent : Nat
  deriving DecidableEq, Repr

/-- A launch record as the device read it (R36), with the context and the address that name it (R403). `lid` is a number of
the model that tells one submission from another. -/
structure Launch where
  lid : Nat
  va : Nat
  ctx : Nat
  tenant : Nat
  code : Nat
  frame : Nat
  simt : Bool
  shape : Nat
  pin : Bool
  cls : Nat
  depth : Nat
  vblk : Nat
  sblk : Nat
  spad : Nat
  acc : Nat
  flags : BitVec 12
  levels : List Level
  cbank : Nat
  cbsize : Nat
  deriving DecidableEq, Repr

/-- A divergence-stack entry (R68). -/
structure DivEntry where
  rejoin : Nat
  outer : BitVec 16
  pending : BitVec 16
  pendingPc : Nat
  deriving DecidableEq, Repr

/-- A loop-stack entry (R69). -/
structure LoopEntry where
  start : Nat
  exit : Nat
  count : Nat
  stages : Nat
  i : Nat
  deriving DecidableEq, Repr

/-- One cause with its information words (R198); `cmd` is the engine command that stopped, where one did. -/
structure Cause where
  code : Nat
  i0 : Word
  i1 : Word
  i2 : Word
  i3 : Word
  eng : Bool
  prog : Nat
  cmd : Option Nat
  deriving DecidableEq, Repr

/-- VLIW results in flight: written when the bundle of count `due` comes to issue, those of one count in the order of `seq`,
32 × issue count + slot (R59, R61); `ys` are the results that
shift into the last-result file of `lane` at the same write (R47); `ff` are the conditions that enter %fflags then (R319). -/
structure Flight where
  due : Nat
  seq : Nat
  writes : List RegCell
  lane : Nat
  ys : List Word
  ff : BitVec 5
  deriving DecidableEq, Repr

/-- What a load or an access still waits for. -/
inductive FaultWait where
  | none
  | entry (hamlet entry : Nat)
  | full (hamlet : Nat) (page : Nat) (kind : Nat)
  | refused (cause : Cause)
  deriving DecidableEq, Repr

/-- A porch entry (R64): one cluster's VLIW load on its way. `data` is what it will write once known; `arrived` says
that it is in the porch; `seq` orders it as a result in flight; `bank` marks an `ldc`, which takes no porch space; `again` one that was
refused and is issued again. -/
structure Porch where
  id : Nat
  due : Nat
  seq : Nat
  lane : Nat
  dst : List Reg
  va : Nat
  width : Nat
  scope : Option Scope
  bank : Bool
  data : Option (List RegCell)
  arrived : Bool
  fault : FaultWait
  again : Bool
  deriving DecidableEq, Repr

/-- An outstanding SIMT long-latency load (R58): what it writes as its flag's count falls, and the addresses and registers of the words
that may still be read anew, each by itself (R104, R105). -/
structure PendLoad where
  id : Nat
  flag : Nat
  writes : List RegCell
  words : List (Nat × Reg)
  deriving DecidableEq, Repr

/-- Where `tret.retry` and `tret.skip` continue (R203). -/
inductive TrapPoint where
  | atIssue
  | completed
  | asynchronous
  | deferred (porch : List Nat)
  | engine (cmd : Nat)
  deriving DecidableEq, Repr

/-- What a wide thread does once every result in flight is written: nothing, become a wave (R34), or return from a handler
(R387). -/
inductive Closing where
  | none
  | unfold
  | tret (k : TretKind)
  deriving DecidableEq, Repr

/-- The hidden state of a trap (R202): where `tret.retry` continues (header, place, whether fetch has ended), where
`tret.skip` does, the level, mask and stacks, a barrier waited at, the replay buffer with the count it was captured
at, the code of the trap whose handler runs, and whether the trap interrupted a re-execution that brambles do not check (R203). -/
structure Hidden where
  hdr : Nat
  place : Nat
  ended : Bool
  skipHdr : Nat
  skipPlace : Nat
  skipEnded : Bool
  reeve : Bool
  active : BitVec 16
  div : List DivEntry
  loops : List LoopEntry
  barrier : Option Nat
  flights : List Flight
  porch : List Porch
  loads : List PendLoad
  count : Nat
  closing : Closing
  point : TrapPoint
  code : Nat
  exempt : Bool
  deriving DecidableEq, Repr

/-- The trap registers of a resident (R200) with its hidden state. -/
structure Trap where
  eng : Bool
  defer : Bool
  emu : Bool
  inh : Bool
  code : Nat
  tpc : Nat
  i0 : Word
  i1 : Word
  i2 : Word
  i3 : Word
  prog : Word
  hidden : Option Hidden
  deriving DecidableEq, Repr

/-- A range comparator armed by a resident (R95): lane-group range in physical order, token, and, once it has fired, its
place among the tokens. -/
structure Comparator where
  lo : Nat
  hi : Nat
  token : BitVec 8
  fired : Option Nat
  deriving DecidableEq, Repr

/-- A pinned range of the loop buffer (R71): the bundles captured so far, by address. -/
structure LoopPin where
  left : Nat
  next : Nat
  bundles : List (Nat × List DWord)
  deriving DecidableEq, Repr

/-- What stops a resident from outside (R204, R205, R214). -/
inductive Stop where
  | none
  | frozen
  | halted
  | doubleTrap
  | saveShort
  deriving DecidableEq, Repr

/-- What a resident waits for beside flags: a barrier, translations that its next instruction or bundle needs, the one that the fetch of it
needs, or those of loads of a wide thread that hold its domain (R87). -/
inductive Wait where
  | none
  | barrier (level : Nat)
  | fault (fs : List FaultWait)
  | fetch (f : FaultWait)
  | landing (fs : List FaultWait)
  deriving DecidableEq, Repr

/-- Whether the resident stands on its lane group (R176, R186, R207, R208). -/
inductive Away where
  | here
  | parkedBarrier
  | parkedFault
  | snapshot
  | takenOff
  deriving DecidableEq, Repr

/-- A take-off under way (R186): the edge's T + H, whether the stile has been reached, and the resource that changes owner, as
quarters 4 lane group + quarter of its core (R185, R188). -/
structure TakeOff where
  deadline : Nat
  atStile : Bool
  qs : List Nat
  deriving DecidableEq, Repr

/-- A tensor descriptor: six 64-bit words (R137). -/
structure Desc where
  d0 : DWord
  d1 : DWord
  d2 : DWord
  d3 : DWord
  d4 : DWord
  d5 : DWord
  deriving DecidableEq, Repr

/-- How far an engine command has come. -/
inductive EngState where
  | queued
  | running
  | faultWait (f : FaultWait)
  | stopped
  deriving DecidableEq, Repr

/-- A byte range of one space (R110): of a context's addresses, or of a scratchpad unit's allotment; `own` names which. -/
structure Extent where
  sp : Space
  own : Nat
  lo : Nat
  len : Nat
  deriving DecidableEq, Repr

/-- A command in a copy engine (R153): the instruction, its operands as read at issue, its footprint and progress. `ring`
is the ring and slot claimed, `fva` and `fwr` the access that waits or stopped it, `buffer` what it has read ahead; `half` says that a
tile's payload is written and its header not yet (R255). `since` is when it started and `linkLost` that a link of its peer group
has gone down since (R154, R233). -/
structure CopyCmd where
  id : Nat
  rid : Nat
  uid : Nat
  reeve : Bool
  instr : Instr
  x : Nat
  y : Nat
  b0 : Word
  b1 : Word
  b2 : Word
  b3 : Word
  td : Desc
  ts : Desc
  flag : Nat
  loadId : Option Nat
  src : List Extent
  dst : List Extent
  ring : Option (Nat × Nat)
  prog : Nat
  total : Nat
  state : EngState
  fva : Nat
  fwr : Bool
  buffer : List Host.Cell
  lines : List Nat
  half : Bool
  since : Nat
  linkLost : Bool
  deriving DecidableEq, Repr

/-- An operation in a matrix engine (R142): the instruction, descriptor copies, K range, row, values and mask as read at
issue, and groups completed. -/
structure MatCmd where
  id : Nat
  rid : Nat
  instr : Instr
  uid : Nat
  tile : Nat
  ta : Desc
  tb : Desc
  kfirst : Nat
  kcount : Nat
  row : Nat
  mask : DWord
  vals : List (Nat × List Word)
  flag : Option Nat
  inHandler : Bool
  reeve : Bool
  due : Nat
  prog : Nat
  total : Nat
  state : EngState
  fva : Nat
  fwr : Bool
  lines : List Nat
  deriving DecidableEq, Repr

/-- A resident wave or wide thread. `clause` are the words of the SIMT clause being issued, with its address: they were
fetched together (R342); `waited` is how long its record had been ready and unplaced (R167). -/
structure Resident where
  rid : Nat
  launch : Launch
  uid : Nat
  tid0 : Nat
  core : Nat
  lgrp : Nat
  slot : Nat
  simt : Bool
  regs : RegFile
  flags : List Nat
  regions : List (BitVec 16)
  fflags : BitVec 5
  hdr : Nat
  place : Nat
  clause : Option (Nat × List DWord)
  loops : List LoopEntry
  div : List DivEntry
  active : BitVec 16
  exited : BitVec 16
  count : Nat
  clkh : Word
  ectrsel : Nat
  ectrhi : Word
  occsel : Nat
  cstat : BitVec 4
  reeve : Bool
  trap : Trap
  exempt : Bool
  flights : List Flight
  porch : List Porch
  loads : List PendLoad
  acrdPending : List Reg
  comps : List Comparator
  pin : Option LoopPin
  ended : Bool
  closing : Closing
  stop : Stop
  wait : Wait
  away : Away
  waitSince : Nat
  async : List Cause
  asyncHeld : List Cause
  refused : List (Nat × Nat)
  takeOff : Option TakeOff
  ovn : Option Nat
  released : Option Scope
  heldCopies : List CopyCmd
  heldMats : List MatCmd
  placedAt : Nat
  age : Nat
  waited : Nat
  starve : Nat
  deriving DecidableEq, Repr

/-- A ring of a core (R92, R94): `claims` are the claimed and not yet committed slots in claim order, each with
whether its writes are complete and whether a program claimed it. -/
structure Ring where
  cfg : Word
  tail : Nat
  head : Nat
  free : Nat
  filled : Nat
  claims : List (Bool × Bool)
  taken : Nat
  owner : Option Nat
  deriving DecidableEq, Repr

/-- The scratchpad unit of R44: an allotment and a set of tiles on one core. `base` is the physical offset, `held` are the
tiles an acc hit holds, each with the resident whose handler serves it (R212). `rings`
are the rings saved with it while it is away (R186). -/
structure Unit44 where
  uid : Nat
  core : Nat
  ctx : Nat
  lid : Nat
  index : Nat
  base : Nat
  size : Nat
  spad : ByteFile
  tiles : List Tile
  held : List (Nat × Nat)
  rings : List (Nat × Ring)
  away : Bool
  deriving DecidableEq, Repr

/-- An L1 line (R82), most recently used first in its core's list; `leaf` is the table entry its fill was translated
through, with the rd, wr, ex and rv bits. -/
structure L1Line where
  tag : Nat
  asid : Nat
  tenant : Nat
  ctx : Nat
  pa : Nat
  leaf : DWord
  size : Nat
  slice : Nat
  data : List Byte
  valid : BitVec 128
  dirty : BitVec 128
  poison : BitVec 16
  stale : Bool
  deriving DecidableEq, Repr

/-- A line of an instruction cache (R15, R219). -/
structure ILine where
  tag : Nat
  asid : Nat
  tenant : Nat
  ctx : Nat
  leaf : DWord
  data : List Byte
  deriving DecidableEq, Repr

/-- A queue entry (R163): the record, its age and class bookkeeping, and the next unit to place (R166). `rid` names the
resident that waits to be resumed, for an entry that has rejoined a queue (R176, R186); `acquire` says that its residents
begin with an acquire (R43, R375); it has been ready and unplaced for `waited` ticks, and since `since` where it is ready
(R167). -/
structure QRec where
  qid : Nat
  launch : Launch
  die : Nat
  age : Nat
  ready : Bool
  acquire : Bool
  rid : Option Nat
  next : Nat
  rounds : Nat
  cls : Nat
  reserving : Bool
  waited : Nat
  since : Nat
  deriving DecidableEq, Repr

/-- A block of one tenant's records (R163). -/
structure Block where
  tenant : Nat
  recs : List QRec
  deriving DecidableEq, Repr

/-- One core (R15). `changed` are the quarter column sets (4 lane group + quarter) that have changed owner and are not yet
emptied, `losers` the tenants that have lost them; `clean` and `cleanSpad` are what has been zeroed since and not been left by a
resident, `dirtyTiles` how many free tiles have not (R189). `roundDue` says that an event asks for a placement round, `roundAt` when
the last one was (R166). -/
structure Core where
  carveCur : Nat
  carveReq : Nat
  carveStatus : Nat
  carvePend : Bool
  carveSince : Nat
  failed : Bool
  failedLg : List Nat
  l1 : List L1Line
  icache : List ILine
  queue : List Block
  rings : List Ring
  mq : List MatCmd
  cq : List CopyCmd
  bankPtr : List Nat
  changed : List Nat
  losers : List Nat
  clean : List Nat
  cleanSpad : List (Nat × Nat)
  dirtyTiles : Nat
  roundDue : Bool
  roundAt : Nat
  deriving DecidableEq, Repr

/-- A TLB entry (R84): `size` is the page size in bytes, `leaf` the table entry. -/
structure TlbEntry where
  tenant : Nat
  asid : Nat
  page : Nat
  size : Nat
  leaf : DWord
  deriving DecidableEq, Repr

/-- A merge-table entry (R87). -/
structure MergeEntry where
  entry : Nat
  tenant : Nat
  asid : Nat
  page : Nat
  kind : Nat
  deriving DecidableEq, Repr

/-- One device hamlet (R14). -/
structure Hamlet where
  tlb : List TlbEntry
  merge : List MergeEntry
  records : List (List Byte)
  queue : List Block
  deriving DecidableEq, Repr

/-- A bramble (R210). -/
structure Bramble where
  valid : Bool
  rd : Bool
  wr : Bool
  acc : Bool
  num : Nat
  desc : Desc
  row0 : Nat
  row1 : Nat
  col0 : Nat
  col1 : Nat
  deriving DecidableEq, Repr

/-- A memory ring the device writes (R225): base address and number of records. -/
structure MemRing where
  base : Nat
  recs : Nat
  deriving DecidableEq, Repr

/-- A halt request in force (R214): the residents it has halted, and those of them that it holds still. -/
structure HaltReq where
  core : Option Nat
  done : List Nat
  holds : List Nat
  deriving DecidableEq, Repr

/-- A registered code object (R282, R182). -/
structure CodeObj where
  lo : Nat
  hi : Nat
  lives : Nat
  liveBase : Nat
  bounds : List (Nat × Nat)
  deriving DecidableEq, Repr

/-- A context (R223, R201). -/
structure Context where
  num : Nat
  root : Nat
  asid : Nat
  tenant : Nat
  descs : List (Nat × Desc)
  brambles : List Bramble
  tvec : BitVec 56
  emuvec : BitVec 56
  fwait : BitVec 16
  tctl : Bool
  wden : Bool
  wdlimit : Nat
  wdcnt : Nat
  saveAreas : List (Nat × Nat)
  evRing : Option MemRing
  traceRing : Option MemRing
  traceOn : Bool
  halts : List HaltReq
  codes : List CodeObj
  deriving DecidableEq, Repr

/-- A barrier generation with its arrivals (R174); `unit` is the index of the level's unit in the launch. -/
structure Barrier where
  lid : Nat
  level : Nat
  unit : Nat
  need : Option Nat
  arrived : List Nat
  deriving DecidableEq, Repr

/-- A launch under way (R44): how many residents are placed and which have retired, by first
thread; `homes` are the instances its units have been placed in, as level, unit, core and lane group (R39); `left` says that the
record has left its queue, `dead` that its state stays as it is. -/
structure Running where
  launch : Launch
  placed : Nat
  total : Nat
  retired : List Nat
  homes : List (Nat × Nat × Nat × Nat)
  left : Bool
  dead : Bool
  deriving DecidableEq, Repr

/-- An L2 line's tag (R191), in least recently used order from the back of the list. -/
structure L2Line where
  slice : Nat
  set : Nat
  way : Nat
  tenant : Nat
  line : Nat
  dirty : Bool
  deriving DecidableEq, Repr

/-- One tenant's enclosure record in a row (R179). -/
structure Encl where
  cores : BitVec 192
  parts : List Nat
  val : Bool
  quota : Nat
  ways : BitVec 16
  links : List Nat
  deriving DecidableEq, Repr

/-- One slot row (R179). -/
structure Row where
  dur : Nat
  hedge : Nat
  strict : Bool
  bval : Bool
  benef : Nat
  encls : List Encl
  deriving DecidableEq, Repr

/-- A debit on a resource, named by its quarter column sets (R188); it is `due` from the row after the one it arose in. -/
structure Debit where
  tenant : Nat
  core : Nat
  quarters : List Nat
  us : Nat
  due : Bool
  deriving DecidableEq, Repr

/-- An eviction count of one slice (R196). -/
structure Evict where
  slice : Nat
  by_ : Nat
  loser : Nat
  count : Nat
  deriving DecidableEq, Repr

/-- A resident that an overrun has taken off, by its resource, T + H and place: its event waits until the last of its tenant's
residents on the resource is off (R188). -/
structure Overrun where
  tenant : Nat
  ctx : Nat
  rid : Nat
  core : Nat
  lgrp : Nat
  cset : Nat
  quarters : List Nat
  deadline : Nat
  deriving DecidableEq, Repr

/-- The Rota (R178, R180). -/
structure Rota where
  base : Nat
  last : Nat
  erow : Nat
  ecode : Nat
  row : Nat
  state : Nat
  rows : List Row
  since : Nat
  debits : List Debit
  overruns : List Overrun
  donated : List Nat
  goTick : Nat
  deriving DecidableEq, Repr

/-- The host's registers (R220, R222, R405) with the staged low words of the 64-bit ones. -/
structure HostRegs where
  cmdBase : Nat
  cmdTail : Nat
  cmdHead : Nat
  cplBase : Nat
  ringSz : Nat
  cplTail : Nat
  cplHead : Nat
  fltBase : Nat
  fltSize : Nat
  evBase : Nat
  evSize : Nat
  winBase : Nat
  rcAddr : Nat
  hwinBase : Nat
  hwinSize : Nat
  staged : List (Nat × Word)
  fltRing : Option MemRing
  evRing : Option MemRing
  msix : List Nat
  readBack : List Byte
  hostWrites : List (Nat × Byte)
  cseq : Nat
  cmdsDone : Nat
  deriving DecidableEq, Repr

/-- Sampling of one tenant (R215). -/
structure Sampler where
  tenant : Nat
  k : Nat
  ring : MemRing
  seq : Nat
  last : Nat
  deriving DecidableEq, Repr

/-- A configured peer group (R223, R233): the participants' table entries. -/
structure PeerGroup where
  group : Nat
  entries : List DWord
  deriving DecidableEq, Repr

/-- A store of a bundle, performed at the bundle's end (R102). -/
structure PendStore where
  sp : Space
  addr : Nat
  bytes : List Byte
  scope : Option Scope
  poison : Bool
  lane : Nat
  deriving DecidableEq, Repr

/-- The issue latch: the resident whose instruction or bundle is being executed, taken out of `residents`, with the
header, the word and the slot. `faults` are the accesses (kind and address) a hold waits for, `moved` says that a transfer was taken, `post` is a cause raised once the instruction or bundle has completed (R309). In a bundle a first pass (`probe`) collects the causes of all ops and whether one of them
holds the issue, and counts the places, flags and ring slots they need; a second pass (`commit`) performs the effects (R72). `after` are the writes to shared tables that the bundle's
other ops must not see; `inOrder` says that the bundle holds an access that must follow its own loads. -/
structure Issue where
  res : Resident
  hdrAddr : Nat
  hdr : Header
  idx : Nat
  slot : Nat
  word : DWord
  probe : Bool
  commit : Bool
  raised : List Cause
  held : Bool
  faults : List (Nat × Nat)
  trapped : Bool
  moved : Bool
  post : Option Cause
  porchNeed : Nat
  copyNeed : Nat
  ringNeed : List Nat
  flagNeed : List Nat
  stores : List PendStore
  after : List Instr
  lines : List Nat
  inOrder : Bool
  deriving DecidableEq, Repr

/-- One move of an agent (log entry 1): a resident issues, a step of the table happens, time passes, the device carries out the next
command of the ring, the k-th line of a core's L1 is written back, the j-th open word of a wave's load is read, or a check corrects an
error (R232). -/
inductive Action where
  | run (rid : Nat)
  | ev (i : Instr)
  | tick (n : Nat)
  | command
  | writeBack (core k : Nat)
  | readWord (rid load j : Nat)
  | corrected (k : Nat)
  deriving DecidableEq, Repr

/-- The machine. `failedUnits` are those that failed in service, `testFails` at the last self-test, `badLinks` the links that have gone
down (R25, R228); `starts` counts the device's starts (R234). -/
structure State where
  mem : List Host.Cell
  hbmPoison : List Nat
  l2Poison : List Nat
  l2 : List L2Line
  timebase : Nat
  cores : List Core
  hamlets : List Hamlet
  dieQ : List QRec
  running : List Running
  residents : List Resident
  units : List Unit44
  barriers : List Barrier
  contexts : List Context
  counters : List (List Nat)
  evictions : List Evict
  failedSlices : List Nat
  failedChannels : List Nat
  failedUnits : Nat
  testFails : Nat
  badLinks : BitVec 18
  rota : Rota
  host : HostRegs
  stage : Nat
  power : Nat
  starts : Nat
  fwVersion : Word
  fwDigest : Option (List Byte)
  cfgDigest : Option (List Byte)
  samplers : List Sampler
  peerGroups : List PeerGroup
  links : BitVec 18
  errs : List (Nat × Nat)
  regErrs : List (Nat × Nat × Nat)
  agenda : List Action
  oracle : List Bool
  iss : Option Issue
  fresh : Nat
  nextId : Nat
  deriving DecidableEq, Repr

/-- Why the machine stops with a fault. The spec lets nothing stop the whole machine: its traps, freezes and the
over-temperature cut-off are states, so no step raises one. -/
inductive Fault where
  /-- Raised by nothing; kept so that the type has a name to give. Safe. -/
  | unreachable
  deriving DecidableEq, Repr

/-- Why an instruction has no meaning. -/
inductive Refusal where
  /-- Raised by an arm of `exec` that has no meaning yet. Safe: the run stops. -/
  | notModelled (mnemonic : String)
  deriving DecidableEq, Repr

/-- A disabled ring (R92). Before any write to %rgcfgk its %rgstatk reads 0, free too, which R92 gives only after such a write.
DESIGN CHOICE: log entry 33. -/
def Ring.off : Ring :=
  { cfg := 0, tail := 0, head := 0, free := 0, filled := 0, claims := [], taken := 0, owner := none }

/-- A core after reset: setting 1 of R17, nothing held. -/
def Core.reset : Core :=
  { carveCur := 1, carveReq := 1, carveStatus := 0, carvePend := false, carveSince := 0, failed := false, failedLg := [],
    l1 := [], icache := [], queue := [], rings := List.replicate 16 Ring.off, mq := [], cq := [],
    bankPtr := List.replicate 64 0, changed := [], losers := [], clean := [], cleanSpad := [], dirtyTiles := 64, roundDue := false,
    roundAt := 0 }

/-- A hamlet after reset. -/
def Hamlet.reset : Hamlet := { tlb := [], merge := [], records := [], queue := [] }

/-- The Rota after reset (R178): stopped; tenant 0 holds everything (R181). -/
def Rota.reset : Rota :=
  { base := 0, last := 0, erow := 0, ecode := 0, row := 0, state := 0, rows := [], since := 0, debits := [],
    overruns := [], donated := [], goTick := 0 }

/-- The host registers after reset (R220, R222, R405). -/
def HostRegs.reset : HostRegs :=
  { cmdBase := 0, cmdTail := 0, cmdHead := 0, cplBase := 0, ringSz := 0, cplTail := 0, cplHead := 0, fltBase := 0,
    fltSize := 0, evBase := 0, evSize := 0, winBase := 0, rcAddr := 0, hwinBase := 0, hwinSize := 0, staged := [],
    fltRing := none, evRing := none, msix := [], readBack := [], hostWrites := [], cseq := 0, cmdsDone := 0 }

/-- No cause. -/
def Cause.zero : Cause := { code := 0, i0 := 0, i1 := 0, i2 := 0, i3 := 0, eng := false, prog := 0, cmd := none }

/-- The trap registers at placement (R200). -/
def Trap.reset : Trap :=
  { eng := false, defer := false, emu := false, inh := false, code := 0, tpc := 0, i0 := 0, i1 := 0, i2 := 0, i3 := 0,
    prog := 0, hidden := none }

/-- A descriptor at context creation (R137). -/
def Desc.zero : Desc := { d0 := 0, d1 := 0, d2 := 0, d3 := 0, d4 := 0, d5 := 0 }

/-- A bramble at context creation (R210). -/
def Bramble.off : Bramble :=
  { valid := false, rd := false, wr := false, acc := false, num := 0, desc := Desc.zero, row0 := 0, row1 := 0, col0 := 0,
    col1 := 0 }

/-- The machine right after reset: stage A (R227), the timebase 0 (R22), every register at the value its map gives. Power
state P0 and all links down are DESIGN CHOICE: log entry 21. -/
def State.reset : State :=
  { mem := [], hbmPoison := [], l2Poison := [], l2 := [], timebase := 0, cores := List.replicate 192 Core.reset,
    hamlets := List.replicate 24 Hamlet.reset, dieQ := [], running := [], residents := [], units := [], barriers := [],
    contexts := [], counters := List.replicate 16 (List.replicate 16 0), evictions := [], failedSlices := [],
    failedChannels := [], failedUnits := 0, testFails := 0, badLinks := 0, rota := Rota.reset, host := HostRegs.reset, stage := 0,
    power := 0, starts := 0, fwVersion := 0, fwDigest := none, cfgDigest := none, samplers := [], peerGroups := [], links := 0,
    errs := List.replicate 7 (0, 0), regErrs := [], agenda := [], oracle := [], iss := none, fresh := 0, nextId := 1 }

end Sys2Proof.Machine
end

