-- ==== Sys2Proof/Machine/Memory.lean ====
section
/-! DEFINITION. The stores of the machine by themselves: physical memory in its canonical form, scratchpad bytes,
accumulator tiles, register files, and the little-endian reading of all of them (R1). -/

namespace Sys2Proof.Machine

/-- Change the element at a place of a list. -/
def modAt {α : Type} : List α → Nat → (α → α) → List α
  | [], _, _ => []
  | x :: xs, 0, f => f x :: xs
  | x :: xs, n + 1, f => x :: modAt xs n f

/-- Change every element that satisfies a test. -/
def updIf {α : Type} (p : α → Bool) (f : α → α) (xs : List α) : List α := xs.map fun x => if p x then f x else x

/-- Put an element where the list holds one that satisfies the test, or at the front when it holds none. -/
def putBy {α : Type} (p : α → Bool) (x : α) (xs : List α) : List α := x :: xs.filter (fun y => !p y)

/-- Insert into a list ordered by a relation. -/
def insertBy {α : Type} (lt : α → α → Bool) (x : α) : List α → List α
  | [] => [x]
  | y :: ys => if lt x y then x :: y :: ys else y :: insertBy lt x ys

/-- A list in order. -/
def sortBy {α : Type} (lt : α → α → Bool) (xs : List α) : List α := xs.foldr (insertBy lt) []

/-! ### Physical memory -/

/-- What a byte of memory that nothing has written reads as. DESIGN CHOICE: log entry 3. -/
def memDefault : Byte := 0

/-- The byte at a physical address. -/
def Memory.read : List Host.Cell → Nat → Byte
  | [], _ => memDefault
  | (k, b) :: m, a => if a = k then b else if a < k then memDefault else Memory.read m a

/-- Memory with one byte written; the canonical form is kept. -/
def Memory.write : List Host.Cell → Nat → Byte → List Host.Cell
  | [], a, b => if b = memDefault then [] else [(a, b)]
  | (k, c) :: m, a, b =>
      if a < k then (if b = memDefault then (k, c) :: m else (a, b) :: (k, c) :: m)
      else if a = k then (if b = memDefault then m else (k, b) :: m)
      else (k, c) :: Memory.write m a b

/-- Addresses above a bound and strictly rising, no entry that an unlisted address already reads as. -/
def Memory.wfFrom (lo : Nat) : List Host.Cell → Bool
  | [] => true
  | (k, b) :: m => decide (lo ≤ k) && b != memDefault && Memory.wfFrom (k + 1) m

/-- The canonical form of memory. -/
def Memory.wf (m : List Host.Cell) : Bool := Memory.wfFrom 0 m

/-- Bytes from an address up. -/
def Memory.readBytes (m : List Host.Cell) (a n : Nat) : List Byte := (List.range n).map fun k => Memory.read m (a + k)

/-- Bytes written from an address up. -/
def Memory.writeBytes (m : List Host.Cell) (a : Nat) : List Byte → List Host.Cell
  | [] => m
  | b :: bs => Memory.writeBytes (Memory.write m a b) (a + 1) bs

/-! ### Scratchpad bytes -/

/-- What a scratchpad byte that nothing has written reads as (log entry 5). -/
def Fill.byte : Fill → Nat → Byte
  | .zero, _ => 0
  | .free seed, a => Config.freeByte seed a

/-- What an accumulator element that nothing has written reads as (log entry 5). -/
def Fill.elem : Fill → Nat → Word
  | .zero, _ => 0
  | .free seed, k => Config.freeElem seed k

/-- The listed byte at an offset. -/
def cellAt : List Host.Cell → Nat → Option Byte
  | [], _ => none
  | (k, b) :: m, a => if a = k then some b else if a < k then none else cellAt m a

/-- A list of cells, addresses strictly rising, with one cell set. -/
def setCell : List Host.Cell → Nat → Byte → List Host.Cell
  | [], a, b => [(a, b)]
  | (k, c) :: m, a, b =>
      if a < k then (a, b) :: (k, c) :: m else if a = k then (k, b) :: m else (k, c) :: setCell m a b

/-- The byte at an offset of an allotment. -/
def ByteFile.read (f : ByteFile) (a : Nat) : Byte := (cellAt f.cells a).getD (f.fill.byte a)

/-- Bytes from an offset up. -/
def ByteFile.readBytes (f : ByteFile) (a n : Nat) : List Byte := (List.range n).map fun k => f.read (a + k)

/-- Cells with bytes written from an offset up. -/
def setCells (m : List Host.Cell) (a : Nat) : List Byte → List Host.Cell
  | [] => m
  | b :: bs => setCells (setCell m a b) (a + 1) bs

/-- The units of `u` bytes that the range from `a` touches, as unit numbers. -/
def unitsOf (u a n : Nat) : List Nat :=
  if n = 0 then [] else (List.range ((a + n - 1) / u - a / u + 1)).map fun k => a / u + k

/-- The parts of a range that lie in one 128-byte line each. -/
def pieces128 (a n : Nat) : List (Nat × Nat) :=
  (unitsOf 128 a n).map fun l => (max a (128 * l), min (a + n) (128 * l + 128) - max a (128 * l))

/-- The units of `u` bytes that the range from `a` covers whole. -/
def wholeUnits (u a n : Nat) : List Nat := (unitsOf u a n).filter fun k => decide (a ≤ k * u ∧ k * u + u ≤ a + n)

/-- Whether any unit of a range carries a poison mark. -/
def poisonedIn (marks : List Nat) (u a n : Nat) : Bool := (unitsOf u a n).any marks.contains

/-- Marks after a write: a unit covered whole is written clean (R209). -/
def clearWhole (marks : List Nat) (u a n : Nat) : List Nat := marks.filter fun k => !(wholeUnits u a n).contains k

/-- A scratchpad write: the bytes, and the marks of the 8-byte words covered whole cleared (R209, R232). -/
def ByteFile.write (f : ByteFile) (a : Nat) (bs : List Byte) : ByteFile :=
  { f with cells := setCells f.cells a bs, poison := clearWhole f.poison 8 a bs.length }

/-- Whether a read of scratchpad bytes receives poisoned data (R209). -/
def ByteFile.poisoned (f : ByteFile) (a n : Nat) : Bool := poisonedIn f.poison 8 a n

/-! ### Accumulator tiles -/

/-- The cell of an element. -/
def Tile.get (t : Tile) (k : Nat) : TileCell :=
  (t.cells.find? (fun c => c.idx == k)).getD { idx := k, val := t.fill.elem k, poison := false }

/-- A tile with one element written. -/
def Tile.set (t : Tile) (c : TileCell) : Tile := { t with cells := putBy (fun x => x.idx == c.idx) c t.cells }

/-- A tile with several elements written, in order. -/
def Tile.setAll (t : Tile) (cs : List TileCell) : Tile := cs.foldl Tile.set t

/-- `mzero` (R152): every element 0 and clean. -/
def Tile.zero : Tile := { fill := .zero, cells := [] }

/-! ### Register files -/

/-- A number for each register, so that the free values of different registers are told apart. -/
def Reg.code : Reg → Nat
  | .v l n => 5 * (l * 2048 + n)
  | .o l n => 5 * (l * 2048 + n) + 1
  | .y l n => 5 * (l * 2048 + n) + 2
  | .p l n => 5 * (l * 2048 + n) + 3
  | .s n => 5 * n + 4

/-- A predicate holds one bit (R46). -/
def Reg.trim : Reg → Word → Word
  | .p _ _, x => x &&& 1
  | _, x => x

/-- What a register that nothing has written since placement reads as (R32, log entry 4). -/
def Fill.reg : Fill → Reg → Word
  | .zero, _ => 0
  | .free seed, r => r.trim (Config.freeReg seed r.code)

/-- The value of a register. -/
def RegFile.read (f : RegFile) (r : Reg) : Word :=
  match f.cells.find? (fun c => c.reg == r) with
  | some c => c.val
  | none => f.fill.reg r

/-- The poison mark of a register. -/
def RegFile.poisoned (f : RegFile) (r : Reg) : Bool :=
  match f.cells.find? (fun c => c.reg == r) with
  | some c => c.poison
  | none => false

/-- Write a register with its mark (R209: any write clears the mark unless the data written is poisoned). -/
def RegFile.put (f : RegFile) (r : Reg) (x : Word) (poison : Bool) : RegFile :=
  { f with cells := putBy (fun c => c.reg == r) { reg := r, val := r.trim x, poison := poison } f.cells }

/-- Write a register clean. -/
def RegFile.write (f : RegFile) (r : Reg) (x : Word) : RegFile := f.put r x false

/-- Write a list of cells in order. -/
def RegFile.putAll (f : RegFile) (cs : List RegCell) : RegFile := cs.foldl (fun g c => g.put c.reg c.val c.poison) f

/-! ### Words and bytes (R1) -/

/-- A 32-bit value as four bytes. -/
def wordBytes (x : Word) : List Byte := leBytes 4 x.toNat

/-- Four bytes, least significant first, as a 32-bit value. -/
def wordOf (bs : List Byte) : Word := BitVec.ofNat 32 (leNat bs)

/-- Eight bytes as a 64-bit value. -/
def dwordOf (bs : List Byte) : DWord := BitVec.ofNat 64 (leNat bs)

/-- High and low words of a 64-bit value: the first register of a pair holds the high word (R46). -/
def hiWord (x : DWord) : Word := BitVec.ofNat 32 (x.toNat / 2 ^ 32)

/-- The low word of a 64-bit value. -/
def loWord (x : DWord) : Word := BitVec.ofNat 32 x.toNat

/-- A pair as one 64-bit value (R46). -/
def pairOf (hi lo : Word) : DWord := BitVec.ofNat 64 (hi.toNat * 2 ^ 32 + lo.toNat)

end Sys2Proof.Machine
end

