-- ==== Sys2Proof/Machine/Float.lean ====
section
/-! DEFINITION. Number formats and arithmetic (07_number_formats, R295): codes decode to exact reals, an operation is
computed exactly, and one rounding at the end narrows the result. An exact real is a sign with m × 2^e, or an infinity,
or a NaN. -/

namespace Sys2Proof.Machine

/-- An exact real, ±∞ or NaN. A zero is `fin neg 0 e`: it keeps its sign. -/
inductive XR where
  | nan
  | inf (neg : Bool)
  | fin (neg : Bool) (m : Nat) (e : Int)
  deriving DecidableEq, Repr

/-- The layout of a floating-point format (R117). -/
structure FloatFmt where
  ebits : Nat
  mbits : Nat
  bias : Nat
  infs : Bool
  deriving DecidableEq, Repr

def fmtF32 : FloatFmt := ⟨8, 23, 127, true⟩
def fmtBF16 : FloatFmt := ⟨8, 7, 127, true⟩
def fmtF16 : FloatFmt := ⟨5, 10, 15, true⟩
def fmtE5M2 : FloatFmt := ⟨5, 2, 15, true⟩
def fmtE4M3 : FloatFmt := ⟨4, 3, 7, false⟩
def fmtE2M1 : FloatFmt := ⟨2, 1, 1, false⟩

/-- The all-ones exponent field. -/
def FloatFmt.top (F : FloatFmt) : Nat := 2 ^ F.ebits - 1

/-- The exponent of the smallest normal. -/
def FloatFmt.emin (F : FloatFmt) : Int := 1 - (F.bias : Int)

/-- The sign bit's weight. -/
def FloatFmt.signBit (F : FloatFmt) : Nat := 2 ^ (F.ebits + F.mbits)

/-- The code of +∞, where the format has one. -/
def FloatFmt.infCode (F : FloatFmt) : Nat := F.top * 2 ^ F.mbits

/-- The code of the largest finite value (R117): E4M3 loses the last code to NaN, E2M1 loses none. -/
def FloatFmt.maxCode (F : FloatFmt) : Nat :=
  if F.infs then F.infCode - 1 else if F.ebits = 4 then F.signBit - 2 else F.signBit - 1

/-- The canonical NaN (R117). -/
def FloatFmt.canon (F : FloatFmt) : Nat :=
  if F.infs then F.infCode + 2 ^ (F.mbits - 1) else F.signBit - 1

/-- A code is a NaN (R117). -/
def FloatFmt.isNaN (F : FloatFmt) (k : Nat) : Bool :=
  let mag := k % F.signBit
  if F.infs then decide (F.infCode < mag) else F.ebits == 4 && mag == F.signBit - 1

/-- A signalling NaN: its mantissa's most significant bit is 0 (R120). -/
def FloatFmt.isSNaN (F : FloatFmt) (k : Nat) : Bool :=
  F.isNaN k && fld k (F.mbits - 1) 1 == 0

/-- The sign of a code. -/
def FloatFmt.neg (F : FloatFmt) (k : Nat) : Bool := k / F.signBit % 2 == 1

/-- The value of a code without its sign, for one that is neither NaN nor infinity (R118). -/
def FloatFmt.mag (F : FloatFmt) (k : Nat) : Nat × Int :=
  let ef := fld k F.mbits F.ebits
  let m := fld k 0 F.mbits
  if ef = 0 then (m, F.emin - F.mbits) else (2 ^ F.mbits + m, (ef : Int) - F.bias - F.mbits)

/-- Decode a code (R118). -/
def FloatFmt.decode (F : FloatFmt) (k : Nat) : XR :=
  if F.isNaN k then .nan
  else if F.infs && k % F.signBit == F.infCode then .inf (F.neg k)
  else .fin (F.neg k) (F.mag k).1 (F.mag k).2

/-! ### Flags (R51) -/

/-- Sticky flags: bit 4 nv, 3 dz, 2 of, 1 uf, 0 nx. -/
abbrev FFlags := BitVec 5

def flagNv : FFlags := 0x10
def flagDz : FFlags := 0x08
def flagOf : FFlags := 0x04
def flagUf : FFlags := 0x02
def flagNx : FFlags := 0x01

/-- Flags under a condition. -/
def flagIf (b : Bool) (f : FFlags) : FFlags := if b then f else 0

/-! ### Rounding (R119, R295) -/

/-- Compare m1 × 2^e1 with m2 × 2^e2. -/
def magLt (m1 : Nat) (e1 : Int) (m2 : Nat) (e2 : Int) : Bool :=
  if e1 ≤ e2 then decide (m1 < m2 * 2 ^ (e2 - e1).toNat) else decide (m1 * 2 ^ (e1 - e2).toNat < m2)

/-- Round m × 2^e to a multiple of 2^q: the multiple, and whether anything was lost. -/
def roundMag (mode : RoundMode) (neg : Bool) (m : Nat) (e q : Int) : Nat × Bool :=
  if q ≤ e then (m * 2 ^ (e - q).toNat, false)
  else
    let sh := (q - e).toNat
    let k := m / 2 ^ sh
    let r := m % 2 ^ sh
    let up := match mode with
      | .rne => decide (2 ^ sh < 2 * r) || (2 * r == 2 ^ sh && k % 2 == 1)
      | .rz => false
      | .rm => neg && r != 0
      | .rp => !neg && r != 0
    (if up then k + 1 else k, r != 0)

/-- The overflow result of R119, without its sign. -/
def FloatFmt.overflow (F : FloatFmt) (mode : RoundMode) (neg : Bool) : Nat :=
  if !F.infs then F.maxCode
  else match mode, neg with
    | .rne, _ => F.infCode
    | .rz, _ => F.maxCode
    | .rm, true => F.infCode
    | .rm, false => F.maxCode
    | .rp, true => F.maxCode
    | .rp, false => F.infCode

/-- The code of k × 2^q, a finite value of the format. -/
def FloatFmt.pack (F : FloatFmt) (k : Nat) (q : Int) : Nat :=
  if k < 2 ^ F.mbits then k
  else
    let l := Nat.log2 k
    let ef := ((l : Int) + q + F.bias).toNat
    ef * 2 ^ F.mbits + (k * 2 ^ F.mbits / 2 ^ l - 2 ^ F.mbits)

/-- The largest finite value. -/
def FloatFmt.maxMag (F : FloatFmt) : Nat × Int := F.mag F.maxCode

/-- `round_f` of R295 with the saturation of E4M3 (R122) and of E2M1 (R132). -/
def roundF (F : FloatFmt) (mode : RoundMode) (x : XR) : Nat × FFlags :=
  match x with
  | .nan => (F.canon, 0)
  | .inf neg =>
    let s := if neg then F.signBit else 0
    if F.infs then (s + F.infCode, 0) else (s + F.maxCode, flagOf ||| flagNx)
  | .fin neg m e =>
    let s := if neg then F.signBit else 0
    if m = 0 then (s, 0)
    else
      let top := (Nat.log2 m : Int) + e
      let qt := top - F.mbits
      let t := roundMag mode neg m e qt
      let tooBig := magLt F.maxMag.1 F.maxMag.2 t.1 qt || (!F.infs && magLt F.maxMag.1 F.maxMag.2 m e)
      if tooBig then (s + F.overflow mode neg, flagOf ||| flagNx)
      else
        let qv := max qt (F.emin - F.mbits)
        let v := roundMag mode neg m e qv
        let tiny := magLt t.1 qt 1 F.emin
        (s + F.pack v.1 qv, flagIf v.2 flagNx ||| flagIf (v.2 && tiny) flagUf)

/-! ### Exact arithmetic -/

/-- A signed dyadic as an exact real; a zero gets the sign `zneg`. -/
def XR.ofInt (n : Int) (e : Int) (zneg : Bool) : XR :=
  if n = 0 then .fin zneg 0 0 else .fin (decide (n < 0)) n.natAbs e

/-- m × 2^e with its sign as an integer multiple of 2^q, for q ≤ e. -/
def scaled (neg : Bool) (m : Nat) (e q : Int) : Int :=
  let k : Int := (m * 2 ^ (e - q).toNat : Nat)
  if neg then -k else k

/-- Change of sign. -/
def XR.negate : XR → XR
  | .nan => .nan
  | .inf s => .inf (!s)
  | .fin s m e => .fin (!s) m e

/-- A value is a NaN. -/
def XR.isNaN : XR → Bool
  | .nan => true
  | _ => false

/-- Exact sum; the sign of a zero as R295 has the caller pass it. -/
def XR.add (mode : RoundMode) : XR → XR → XR
  | .nan, _ => .nan
  | _, .nan => .nan
  | .inf a, .inf b => if a = b then .inf a else .nan
  | .inf a, _ => .inf a
  | _, .inf b => .inf b
  | .fin s m e, .fin t n f =>
    let q := min e f
    let zneg := if m = 0 ∧ n = 0 ∧ s = t then s else mode == .rm
    XR.ofInt (scaled s m e q + scaled t n f q) q zneg

/-- Exact product. -/
def XR.mul : XR → XR → XR
  | .nan, _ => .nan
  | _, .nan => .nan
  | .inf a, .inf b => .inf (a != b)
  | .inf a, .fin t n _ => if n = 0 then .nan else .inf (a != t)
  | .fin s m _, .inf b => if m = 0 then .nan else .inf (s != b)
  | .fin s m e, .fin t n f => .fin (s != t) (m * n) (e + f)

/-- Order of finite and infinite values; −0 and +0 are equal. -/
def XR.lt : XR → XR → Bool
  | .nan, _ => false
  | _, .nan => false
  | .inf a, .inf b => a && !b
  | .inf a, _ => a
  | _, .inf b => !b
  | .fin s m e, .fin t n f => decide (scaled s m e (min e f) < scaled t n f (min e f))

/-- Equality of values; −0 equals +0. -/
def XR.eq (x y : XR) : Bool := !x.isNaN && !y.isNaN && !x.lt y && !y.lt x

/-- The quotient of two finite non-zero magnitudes, rounded down to many bits with a sticky last bit, so that one later
rounding is that of the exact quotient. -/
def divMag (m : Nat) (e : Int) (n : Nat) (f : Int) : Nat × Int :=
  let k := 64 + Nat.log2 n
  let q := m * 2 ^ k / n
  let r := m * 2 ^ k % n
  (2 * q + (if r = 0 then 0 else 1), e - f - k - 1)

/-- The square root by binary digits, structurally on the number of bits left. -/
def isqrtGo (n : Nat) : Nat → Nat → Nat
  | 0, r => r
  | k + 1, r =>
    let t := r + 2 ^ k
    isqrtGo n k (if t * t ≤ n then t else r)

/-- The integer square root. -/
def isqrt (n : Nat) : Nat := isqrtGo n (Nat.log2 n / 2 + 1) 0

/-- The square root of a finite non-zero magnitude with a sticky last bit. -/
def sqrtMag (m : Nat) (e : Int) : Nat × Int :=
  let odd := e % 2 == 1
  let m0 := if odd then 2 * m else m
  let e0 := if odd then e - 1 else e
  let n := m0 * 2 ^ 128
  let r := isqrt n
  (2 * r + (if r * r = n then 0 else 1), e0 / 2 - 64 - 1)

/-! ### Operations of the lanes in one format (R325, R326, R329) -/

/-- nv for a signalling NaN among the inputs. -/
def snanFlag (F : FloatFmt) (ks : List Nat) : FFlags := flagIf (ks.any F.isSNaN) flagNv

/-- The end of an operation: a NaN input gives the canonical NaN, an invalid operation raises nv too (R120, R325). -/
def finishF (F : FloatFmt) (mode : RoundMode) (ks : List Nat) (x : XR) : Nat × FFlags :=
  if ks.any F.isNaN then (F.canon, snanFlag F ks)
  else if x.isNaN then (F.canon, flagNv)
  else roundF F mode x

/-- x + y (R325). -/
def addF (F : FloatFmt) (mode : RoundMode) (a b : Nat) : Nat × FFlags :=
  finishF F mode [a, b] ((F.decode a).add mode (F.decode b))

/-- x − y (R325). -/
def subF (F : FloatFmt) (mode : RoundMode) (a b : Nat) : Nat × FFlags :=
  finishF F mode [a, b] ((F.decode a).add mode (F.decode b).negate)

/-- x × y (R325). -/
def mulF (F : FloatFmt) (mode : RoundMode) (a b : Nat) : Nat × FFlags :=
  finishF F mode [a, b] ((F.decode a).mul (F.decode b))

/-- x × y + z with one rounding (R325). -/
def fmaF (F : FloatFmt) (mode : RoundMode) (a b c : Nat) : Nat × FFlags :=
  finishF F mode [a, b, c] (((F.decode a).mul (F.decode b)).add mode (F.decode c))

/-- The order of `fmin` and `fmax`: −0 below +0 (R120). -/
def minLt (F : FloatFmt) (a b : Nat) : Bool :=
  (F.decode a).lt (F.decode b) || ((F.decode a).eq (F.decode b) && F.neg a && !F.neg b)

/-- `fmin` (R120, R325): one of the operands unchanged. -/
def minF (F : FloatFmt) (a b : Nat) : Nat × FFlags :=
  (if F.isNaN a then (if F.isNaN b then F.canon else b) else if F.isNaN b then a else if minLt F b a then b else a,
    snanFlag F [a, b])

/-- `fmax` (R120, R325). -/
def maxF (F : FloatFmt) (a b : Nat) : Nat × FFlags :=
  (if F.isNaN a then (if F.isNaN b then F.canon else b) else if F.isNaN b then a else if minLt F a b then b else a,
    snanFlag F [a, b])

/-- The conditions of `fcmp` (R326). -/
def cmpF (F : FloatFmt) (cc : FCond) (a b : Nat) : Bool :=
  let x := F.decode a
  let y := F.decode b
  match cc with
  | .eq => x.eq y
  | .ne => !x.eq y
  | .lt => x.lt y
  | .le => x.lt y || x.eq y
  | .gt => y.lt x
  | .ge => y.lt x || x.eq y
  | .un => x.isNaN || y.isNaN
  | .or => !x.isNaN && !y.isNaN

/-- Round a finite real to an integer (R122, R329). -/
def roundInt (mode : RoundMode) (neg : Bool) (m : Nat) (e : Int) : Int × Bool :=
  let r := roundMag mode neg m e 0
  (if neg then -(r.1 : Int) else r.1, r.2)

/-- `frnd` (R329). -/
def rndF (mode : RoundMode) (a : Nat) : Nat × FFlags :=
  match fmtF32.decode a with
  | .nan => (fmtF32.canon, snanFlag fmtF32 [a])
  | .inf _ => (a, 0)
  | .fin neg m e =>
    if m = 0 then (a, 0)
    else
      let r := roundMag mode neg m e 0
      ((if neg then fmtF32.signBit else 0) + (roundF fmtF32 .rne (.fin false r.1 0)).1, flagIf r.2 flagNx)

/-! ### Formats of `fcvt` and of descriptors (R122, R137, R328) -/

end Sys2Proof.Machine

namespace Sys2Proof

open Sys2Proof.Machine

/-- The floating-point layout of a format. -/
def Fmt.float : Fmt → Option FloatFmt
  | .fp32 => some fmtF32
  | .bf16 => some fmtBF16
  | .fp16 => some fmtF16
  | .e4m3 => some fmtE4M3
  | .e5m2 => some fmtE5M2
  | _ => none

/-- Bytes of an element of a plain format (R137). -/
def Fmt.bytes : Fmt → Nat
  | .fp32 | .int32 => 4
  | .bf16 | .fp16 => 2
  | _ => 1

/-- A quilt format. -/
def Fmt.isQuilt : Fmt → Bool
  | .qt8 | .qt4 | .qk4 => true
  | _ => false

/-- Read a narrow value out of a register (R328). -/
def Fmt.narrow (f : Fmt) (x : Nat) : Nat := x % 2 ^ (8 * f.bytes)

end Sys2Proof

namespace Sys2Proof.Machine

/-- Two's complement value of n bits. -/
def sint (n x : Nat) : Int := if x % 2 ^ n < 2 ^ (n - 1) then (x % 2 ^ n : Nat) else (x % 2 ^ n : Nat) - (2 ^ n : Nat)

/-- Saturate to a range. -/
def satInt (lo hi x : Int) : Int := if x < lo then lo else if hi < x then hi else x

/-- An integer's bound in a format. -/
def intMax (n : Nat) : Int := (2 ^ (n - 1) : Nat) - 1

/-- Convert a real to an n-bit integer (R122). A value out of range raises nv alone, also where its rounding is inexact.
DEDUCED: log entry 34. -/
def toIntF (n : Nat) (mode : RoundMode) (x : XR) : Int × FFlags :=
  let hi := intMax n
  let lo := -hi - 1
  match x with
  | .nan => (0, flagNv)
  | .inf neg => (if neg then lo else hi, flagNv)
  | .fin neg m e =>
    let r := roundInt mode neg m e
    if r.1 < lo ∨ hi < r.1 then (satInt lo hi r.1, flagNv) else (r.1, flagIf r.2 flagNx)

/-- An integer as a 32-bit register value. -/
def ofInt32 (x : Int) : Word := BitVec.ofInt 32 x

/-- `fcvt` (R122, R328, R329). A conversion of a quilt format or between integers has no encoding. -/
def convertF (dt st : Fmt) (mode : RoundMode) (a : Word) : Word × FFlags :=
  let k := st.narrow a.toNat
  match st.float, dt.float with
  | some S, some D =>
    let r := roundF D mode (S.decode k)
    (BitVec.ofNat 32 r.1, r.2 ||| snanFlag S [k])
  | some S, none =>
    let r := toIntF (8 * dt.bytes) mode (S.decode k)
    (ofInt32 r.1, r.2 ||| snanFlag S [k])
  | none, some D =>
    let r := roundF D mode (XR.ofInt (sint (8 * st.bytes) k) 0 false)
    (BitVec.ofNat 32 r.1, r.2)
  | none, none => (a, 0)

/-- The register value a small immediate stands for in a float format (R49): exact in every one of them. -/
def immF (F : FloatFmt) (k : BitVec 8) : Nat := (roundF F .rne (XR.ofInt k.toInt 0 false)).1

/-! ### Special functions (R124 to R126, R331) -/

/-- The special functions, numbered for the free values. -/
inductive SFn where
  | rcp | rsq | sqrt | div | ex2 | lg2 | sin | cos | tanh | sigm
  deriving DecidableEq, Repr

def SFn.num : SFn → Nat
  | .rcp => 0 | .rsq => 1 | .sqrt => 2 | .div => 3 | .ex2 => 4 | .lg2 => 5 | .sin => 6 | .cos => 7 | .tanh => 8 | .sigm => 9

/-- FP32 constants. -/
def f32Inf (neg : Bool) : Nat := (if neg then fmtF32.signBit else 0) + fmtF32.infCode
def f32Zero (neg : Bool) : Nat := if neg then fmtF32.signBit else 0
def f32One (neg : Bool) : Nat := (if neg then fmtF32.signBit else 0) + 0x3F800000

/-- A subnormal input of a `.f` function is the zero of its sign (R121). -/
def flushIn (g : Grade) (a : Nat) : Nat :=
  if g == .f && fld a 23 8 == 0 then f32Zero (fmtF32.neg a) else a

/-- The special cases of R126 for the functions of one operand. -/
def specialCase (fn : SFn) (a : Nat) : Option (Nat × FFlags) :=
  let nan := fmtF32.canon
  match fmtF32.decode a with
  | .nan => some (nan, 0)
  | .inf s => some <| match fn with
    | .rcp => (f32Zero s, 0)
    | .rsq => if s then (nan, flagNv) else (f32Zero false, 0)
    | .sqrt | .lg2 => if s then (nan, flagNv) else (f32Inf false, 0)
    | .ex2 => if s then (f32Zero false, 0) else (f32Inf false, 0)
    | .sin | .cos => (nan, flagNv)
    | .tanh => (f32One s, 0)
    | .sigm => if s then (f32Zero false, 0) else (f32One false, 0)
    | .div => (nan, 0)
  | .fin s m _ =>
    if m = 0 then some <| match fn with
      | .rcp | .rsq => (f32Inf s, flagDz)
      | .sqrt | .sin | .tanh => (f32Zero s, 0)
      | .lg2 => (f32Inf true, flagDz)
      | .ex2 | .cos => (f32One false, 0)
      | .sigm => (0x3F000000, 0)
      | .div => (nan, 0)
    else if s then (match fn with
      | .rsq | .sqrt | .lg2 => some (nan, flagNv)
      | _ => none)
    else none

/-- The IEEE 754 cases of division (R126), a zero over a finite y that is not zero among them: exact in either grade, it raises nothing,
though R124 lists a zero x in the domain of `.f`. DESIGN CHOICE: log entry 9. -/
def divCase (a b : Nat) : Option (Nat × FFlags) :=
  let nan := fmtF32.canon
  match fmtF32.decode a, fmtF32.decode b with
  | .nan, _ => some (nan, snanFlag fmtF32 [a, b])
  | _, .nan => some (nan, snanFlag fmtF32 [a, b])
  | .inf _, .inf _ => some (nan, flagNv)
  | .inf s, .fin t _ _ => some (f32Inf (s != t), 0)
  | .fin s _ _, .inf t => some (f32Zero (s != t), 0)
  | .fin s m _, .fin t n _ =>
    if n = 0 then (if m = 0 then some (nan, flagNv) else some (f32Inf (s != t), flagDz))
    else if m = 0 then some (f32Zero (s != t), 0)
    else none

/-- The magnitude of a code as m × 2^e. -/
def mag32 (a : Nat) : Nat × Int := fmtF32.mag a

/-! Fixed point with 640 fraction bits, in which the transcendental functions are computed so far beyond an FP32's 24 bits that even
the sine of the least number differs there from the number. -/

/-- Fraction bits of the fixed point. -/
def fxBits : Nat := 640

/-- 1 in fixed point. -/
def fxOne : Nat := 2 ^ fxBits

/-- π in fixed point. -/
def fxPi : Nat := 0x3243f6a8885a308d313198a2e03707344a4093822299f31d0082efa98ec4e6c89452821e638d01377be5466cf34e90c6cc0ac29b7c97c50dd3f84d5b5b54709179216d5d98979fb1bd1310ba698dfb5ac

/-- ln 2 in fixed point. -/
def fxLn2 : Nat := 0xb17217f7d1cf79abc9e3b39803f2f6af40f343267298b62d8a0d175b8baafa2be7b876206debac98559552fb4afa1b10ed2eae35c138214427573b291169b8253e96ca16224ae8c51acbda11317c387e

/-- m × 2^e in fixed point. -/
def fxOf (m : Nat) (e : Int) : Nat :=
  if 0 ≤ e + fxBits then m * 2 ^ (e + fxBits).toNat else m / 2 ^ (-(e + fxBits)).toNat

/-- The product of two fixed-point numbers. -/
def fxMul (a b : Nat) : Nat := a * b / fxOne

/-- 1 + x + x²/2! + … to n terms after `acc`, by Horner's rule. -/
def fxExp (x : Nat) : Nat → Nat → Nat
  | 0, acc => acc
  | k + 1, acc => fxExp x k (fxOne + fxMul x acc / (k + 1))

/-- 1 − w/2 + w²/3! − … = (1 − e^−w) / w, by Horner's rule. -/
def fxExpm1 (w : Nat) : Nat → Nat → Nat
  | 0, acc => acc
  | k + 1, acc => fxExpm1 w k (fxOne - fxMul w acc / (k + 2))

/-- The series of cos r (d = 0) and of sin r / r (d = 1) in r², by Horner's rule. -/
def fxTrig (r2 d : Nat) : Nat → Nat → Nat
  | 0, acc => acc
  | k + 1, acc => fxTrig r2 d k (fxOne - fxMul r2 acc / ((2 * k + 1 + d) * (2 * k + 2 + d)))

/-- 1 + z²/3 + z⁴/5 + …, by Horner's rule. -/
def fxAtanh (z2 : Nat) : Nat → Nat → Nat
  | 0, acc => acc
  | k + 1, acc => fxAtanh z2 k (fxOne / (2 * k + 1) + fxMul z2 acc)

/-- 2^−y for a fixed-point y ≥ 0, as a magnitude: 2^−n × 2^f with a fraction f; beyond 2^−1024 it is as good as zero. -/
def fxHalves (y0 : Nat) : Nat × Int :=
  let y := min y0 (1024 * fxOne)
  let n := (y + fxOne - 1) / fxOne
  (fxExp (fxMul (n * fxOne - y) fxLn2) 120 fxOne, -(fxBits : Int) - n)

/-- A fixed-point number that is more than zero, also where it is less than the last place. -/
def fxSome (m : Nat) (e : Int) : Nat := max 1 (fxOf m e)

/-- e^−x for a fixed-point x ≥ 0. -/
def fxDecay (x : Nat) : Nat × Int := fxHalves (x * fxOne / fxLn2)

/-- sin x (`quarter` 0) or cos x (`quarter` 1) of a fixed-point x ≥ 0: its sign and its magnitude. -/
def fxSin (quarter x : Nat) : Bool × Nat × Int :=
  let h := fxPi / 2
  let k := (x + h / 2) / h
  let r : Int := (x : Int) - k * h
  let n := r.natAbs
  let q := (k + quarter) % 4
  if q % 2 = 0 then ((q == 2) != decide (r < 0), fxMul n (fxTrig (fxMul n n) 1 64 fxOne), -(fxBits : Int))
  else (q == 3, fxTrig (fxMul n n) 0 64 fxOne, -(fxBits : Int))

/-- A value with a sticky last bit: one that is not exact gets a 1 there. -/
def sticky (exact : Bool) (x : Bool × Nat × Int) : Bool × Nat × Int :=
  (x.1, 2 * x.2.1 + (if exact then 0 else 1), x.2.2 - 1)

/-- The exact value of a special function of operands that are no case of R126, to at least 64 significant bits, with
an odd last bit where it is no such value (R124, column "Computes"). -/
def exactValue (fn : SFn) (a b : Nat) : Bool × Nat × Int :=
  let x := mag32 a
  let neg := fmtF32.neg a
  let v := fxOf x.1 x.2
  match fn with
  | .rcp => (neg, divMag 1 0 x.1 x.2)
  | .div => (neg != fmtF32.neg b, divMag x.1 x.2 (mag32 b).1 (mag32 b).2)
  | .sqrt => (neg, sqrtMag x.1 x.2)
  | .rsq => let r := sqrtMag x.1 x.2; (neg, divMag 1 0 r.1 r.2)
  | .ex2 =>
    let f := v % fxOne
    sticky (f == 0) (false, if neg then fxHalves v
      else (fxExp (fxMul f fxLn2) 120 fxOne, (min (v / fxOne) 1024 : Int) - fxBits))
  | .lg2 =>
    let top := (Nat.log2 x.1 : Int) + x.2
    let f := fxOf x.1 (x.2 - top)
    let z := (f - fxOne) * fxOne / (f + fxOne)
    let l := 2 * fxMul z (fxAtanh (fxMul z z) 208 0) * fxOne / fxLn2
    let t : Int := top * fxOne + l
    sticky (f == fxOne) (decide (t < 0), t.natAbs, -(fxBits : Int))
  | .sin => let r := fxSin 0 v; sticky false (r.1 != neg, r.2)
  | .cos => sticky false (fxSin 1 v)
  | .tanh =>
    if magLt x.1 x.2 1 (-1) then
      let w := 2 * v
      let s := fxExpm1 w 128 fxOne
      sticky false (neg, 2 * x.1 * (s * fxOne / (2 * fxOne - fxMul w s)), x.2 - fxBits)
    else
      let u := fxDecay (2 * v)
      let t := fxSome u.1 u.2
      sticky false (neg, (fxOne - t) * fxOne / (fxOne + t), -(fxBits : Int))
  | .sigm =>
    let u := fxDecay v
    let t := fxSome u.1 u.2
    sticky false (false, (if neg then u.1 * fxOne / (fxOne + t) else fxOne * fxOne / (fxOne + t)),
      if neg then u.2 else -(fxBits : Int))

/-- The magnitude lies in [0.5, 2], where R124 bounds `flg2.f` absolutely. -/
def halfToTwo (a : Nat) : Bool :=
  let x := mag32 a
  !magLt x.1 x.2 1 (-1) && !magLt 1 1 x.1 x.2

/-- The product of two magnitudes. -/
def magMul (a b : Nat × Int) : Nat × Int := (a.1 * b.1, a.2 + b.2)

/-- One magnitude does not exceed another. -/
def magLe (a b : Nat × Int) : Bool := !magLt b.1 b.2 a.1 a.2

/-- Two magnitudes that stand to each other as v stands to q times the exact value, for a function that is algebraic: of x, or of x
and y. -/
def algebraic (fn : SFn) (x y v q : Nat × Int) : Option ((Nat × Int) × (Nat × Int)) :=
  match fn with
  | .rcp => some (magMul v x, q)
  | .div => some (magMul v y, magMul q x)
  | .sqrt => some (magMul v v, magMul (magMul q q) x)
  | .rsq => some (magMul (magMul v v) x, magMul q q)
  | _ => none

/-- v is at most, or at least, q times the exact value. -/
def atMost (fn : SFn) (x y v q : Nat × Int) : Bool := (algebraic fn x y v q).any fun s => magLe s.1 s.2
def atLeast (fn : SFn) (x y v q : Nat × Int) : Bool := (algebraic fn x y v q).any fun s => magLe s.2 s.1

/-- The exponent of 1 ulp of an exact value, which R124 bounds `.a` results by without saying what an ulp of a number is that is no FP32
value: the spacing of FP32 values in the binade that holds it. DESIGN CHOICE: log entry 9. -/
def ulpExp (x : Bool × Nat × Int) : Int := if x.2.1 = 0 then -149 else max ((Nat.log2 x.2.1 : Int) + x.2.2 - 23) (-149)

/-- The sum and the difference of a magnitude and a power of two; the difference of a smaller one is zero. -/
def magAdd (a : Nat × Int) (e : Int) : Nat × Int := let q := min a.2 e; (a.1 * 2 ^ (a.2 - q).toNat + 2 ^ (e - q).toNat, q)
def magSub (a : Nat × Int) (e : Int) : Nat × Int := let q := min a.2 e; (a.1 * 2 ^ (a.2 - q).toNat - 2 ^ (e - q).toNat, q)

/-- A finite code of the right sign lies within the bound of R124 of an algebraic function's exact value, x: `.f` relative 2^-21, `.a`
1 ulp. -/
def withinAlgebraic (fn : SFn) (g : Grade) (a b c : Nat) (x : Bool × Nat × Int) : Bool :=
  let m := mag32 a
  let n := mag32 b
  let k := mag32 c
  fmtF32.neg c == x.1 && (match g with
    | .f => atMost fn m n (magMul (1, 21) k) (2 ^ 21 + 1, 0) && atLeast fn m n (magMul (1, 21) k) (2 ^ 21 - 1, 0)
    | .a => atMost fn m n (magSub k (ulpExp x)) (1, 0) && atLeast fn m n (magAdd k (ulpExp x)) (1, 0))

/-- The same of the other functions, of which the sine, the cosine and, in [0.5, 2], the logarithm have an absolute bound in `.f`. Their
exact value is computed to some 600 bits, on the right side of the values that it comes close to. -/
def withinOther (fn : SFn) (g : Grade) (a c : Nat) (x : Bool × Nat × Int) : Bool :=
  let k := mag32 c
  let q := min (min k.2 (x.2.2 - 21)) (-170)
  let d := (scaled (fmtF32.neg c) k.1 k.2 q - scaled x.1 x.2.1 x.2.2 q).natAbs
  let absolute := fn == .sin || fn == .cos || (fn == .lg2 && halfToTwo a)
  let bound := match g with
    | .f => if absolute then 2 ^ (-21 - q).toNat else x.2.1 * 2 ^ (x.2.2 - 21 - q).toNat
    | .a => 2 ^ (ulpExp x - q).toNat
  decide (d ≤ bound)

/-- A finite code lies within the bound of R124 of the exact value. -/
def withinBound (fn : SFn) (g : Grade) (a b c : Nat) (x : Bool × Nat × Int) : Bool :=
  match fn with
  | .rcp | .rsq | .sqrt | .div => withinAlgebraic fn g a b c x
  | _ => withinOther fn g a c x

/-- x lies outside the `.f` domain: R124's second table. -/
def outOfDomain (fn : SFn) (a b : Nat) : Option (Nat × FFlags) :=
  let x := mag32 a
  let neg := fmtF32.neg a
  let under := flagUf ||| flagNx
  match fn with
  | .rcp => if magLt x.1 x.2 1 126 then none else some (f32Zero neg, under)
  | .ex2 =>
    if neg then (if magLt 126 0 x.1 x.2 then some (f32Zero false, under) else none)
    else if magLt x.1 x.2 128 0 then none else some (f32Inf false, flagOf ||| flagNx)
  | .sigm =>
    if magLt 80 0 x.1 x.2 then (if neg then some (f32Zero false, under) else some (f32One false, flagNx)) else none
  | .div =>
    let y := mag32 b
    let s := neg != fmtF32.neg b
    if !magLt y.1 y.2 1 126 then some (f32Zero s, under)
    else
      let r := divMag x.1 x.2 y.1 y.2
      if magLt fmtF32.maxMag.1 fmtF32.maxMag.2 r.1 r.2 then some (f32Inf s, flagOf ||| flagNx)
      else if magLt r.1 r.2 1 (-126) then some (f32Zero s, under) else none
  | _ => none

/-- The free value a special function may answer with (R125). -/
def freeResult (fn : SFn) (g : Grade) (a b : Nat) : Nat :=
  (Config.specialFn fn.num g .rne (BitVec.ofNat 32 a) (BitVec.ofNat 32 b)).toNat

/-- A result that R125 leaves open within the bound: the free value where it lies within the bound, else the correctly
rounded one (log entry 9). -/
def boundedResult (fn : SFn) (g : Grade) (a b : Nat) : Nat :=
  let c := freeResult fn g a b
  let x := exactValue fn a b
  if decide (c % fmtF32.signBit < fmtF32.infCode) && withinBound fn g a b c x then c
  else (roundF fmtF32 .rne (.fin x.1 x.2.1 x.2.2)).1

/-- The exact value exceeds the largest finite value (R125). -/
def exceeds (fn : SFn) (a : Nat) : Bool :=
  let x := mag32 a
  match fn with
  | .rcp => let r := divMag 1 0 x.1 x.2; magLt fmtF32.maxMag.1 fmtF32.maxMag.2 r.1 r.2
  | .ex2 => !fmtF32.neg a && !magLt x.1 x.2 128 0
  | _ => false

/-- uf of an `.a` result r (R125): raised where the result and the exact value, rounded as R295 says, are both tiny and differ,
or the exact value is no FP32 value; not raised where neither is tiny; free where one alone is tiny, and where a tiny result
equals the exact value, of which R125 does not say whether it counts as inexact (log entry 9). -/
def tinyFlag (fn : SFn) (a b r : Nat) : FFlags :=
  let x := exactValue fn a b
  let n := Nat.log2 x.2.1
  let t := roundMag .rne false x.2.1 x.2.2 ((n : Int) + x.2.2 - 23)
  let tinyExact := x.2.1 != 0 && magLt t.1 ((n : Int) + x.2.2 - 23) 1 (-126)
  let k := r % fmtF32.signBit
  let tinyResult := decide (k < 0x00800000) && (k != 0 || x.2.1 != 0)
  let m := mag32 k
  let same := !magLt m.1 m.2 x.2.1 x.2.2 && !magLt x.2.1 x.2.2 m.1 m.2
  if tinyExact && tinyResult && !same then flagUf
  else if !tinyExact && !tinyResult then 0
  else Config.specialFlags fn.num .a .rne (BitVec.ofNat 32 a) (BitVec.ofNat 32 b) &&& flagUf

/-- `fsin.f` and `fcos.f` beyond 256 (R124): a value in [−1, 1] of no stated error; a zero raises uf. -/
def wildSine (fn : SFn) (a : Nat) : Option (Nat × FFlags) :=
  let x := mag32 a
  if (fn = .sin ∨ fn = .cos) ∧ magLt 256 0 x.1 x.2 = true then
    let c := freeResult fn .f a 0
    let k := c % fmtF32.signBit
    some (if k ≤ 0x3F800000 then c else f32One (fmtF32.neg c), flagNx ||| flagIf (k == 0) flagUf)
  else none

/-- A special function (R331): code and flags. -/
def specialF (fn : SFn) (g : Grade) (mode : RoundMode) (a0 b0 : Nat) : Nat × FFlags :=
  let a := flushIn g a0
  let b := flushIn g b0
  let s := fmtF32.neg a != fmtF32.neg b
  let case := if fn = .div then divCase a b else specialCase fn a
  let r : Nat × FFlags := match case with
    | some r =>
      if fn = .sqrt ∧ g = .a then (r.1, r.2 ||| snanFlag fmtF32 [a]) else r
    | none =>
      match g, fn with
      | .a, .div => let q := divMag (mag32 a).1 (mag32 a).2 (mag32 b).1 (mag32 b).2
                    roundF fmtF32 mode (.fin s q.1 q.2)
      | .a, .sqrt => let q := sqrtMag (mag32 a).1 (mag32 a).2
                     roundF fmtF32 mode (.fin false q.1 q.2)
      | .a, _ =>
        if exceeds fn a then (f32Inf (fn == .rcp && fmtF32.neg a), flagOf ||| flagNx)
        else let k := boundedResult fn .a a b
             (k, flagNx ||| tinyFlag fn a b k)
      | .f, _ => match outOfDomain fn a b, wildSine fn a with
        | some r, _ => r
        | none, some r => r
        | none, none => (boundedResult fn .f a b, flagNx)
  if g = .f ∧ fld r.1 23 8 = 0 ∧ fld r.1 0 23 ≠ 0 then (f32Zero (fmtF32.neg r.1), r.2 ||| flagUf ||| flagNx) else r

/-! ### Group sums (R134) -/

/-- The larger of two optional exponents. -/
def maxTop (a : Option Int) (x : XR) : Option Int :=
  match x with
  | .fin _ m e => if m = 0 then a else
      let t := (Nat.log2 m : Int) + e
      some (match a with | some u => max u t | none => t)
  | _ => a

/-- A term truncated to a multiple of 2^q towards zero, as that multiple. -/
def truncTerm (q : Int) : XR → Int
  | .fin neg m e =>
    let k : Int := if q ≤ e then (m * 2 ^ (e - q).toNat : Nat) else (m / 2 ^ (q - e).toNat : Nat)
    if neg then -k else k
  | _ => 0

/-- A term is −0. -/
def isNegZero : XR → Bool
  | .fin true 0 _ => true
  | _ => false

/-- A term is the infinity of this sign. -/
def isInf (neg : Bool) : XR → Bool
  | .inf s => s == neg
  | _ => false

/-- `group_sum` of R134, as an FP32 code. -/
def groupSum (ts : List XR) : Nat :=
  if ts.any XR.isNaN || (ts.any (isInf false) && ts.any (isInf true)) then fmtF32.canon
  else if ts.any (isInf false) then f32Inf false
  else if ts.any (isInf true) then f32Inf true
  else match ts.foldl maxTop none with
    | none => if ts.all isNegZero then f32Zero true else 0
    | some emax =>
      let q := emax - 40
      (roundF fmtF32 .rne (XR.ofInt (ts.foldl (fun a t => a + truncTerm q t) 0) q false)).1

/-! ### Quilt values (R127, R128) -/

/-- µr[i] and µc[j] of a header. -/
def muR (h : DWord) (i : Nat) : Nat := fld h.toNat (8 + 2 * i) 2
def muC (h : DWord) (j : Nat) : Nat := fld h.toNat (24 + 2 * j) 2

/-- The QK4 codebook (R128). -/
def qkCode (k : Nat) : Int :=
  [-64, -44, -33, -25, -18, -12, -6, 0, 5, 10, 16, 22, 28, 36, 46, 64].getD k 0

/-- Multiply by 2^k. -/
def XR.scale (x : XR) (k : Int) : XR :=
  match x with
  | .fin s m e => .fin s m (e + k)
  | y => y

/-- `quilt_value` (R128); `S` is the code of the superblock's scale. -/
def quiltValue (f : Fmt) (h : DWord) (S : Nat) (e i j : Nat) : XR :=
  let E := fld h.toNat 0 8
  if E = 0xFF then .nan
  else
    let d : Int := (muR h i + muC h j : Nat)
    match f with
    | .qt8 => (fmtE4M3.decode e).scale ((E : Int) - 127 - d)
    | .qt4 => (fmtE2M1.decode e).scale ((E : Int) - 127 - d)
    | _ =>
      let q := fld h.toNat 40 8
      if q = 0 then .fin false 0 0
      else match fmtF32.decode S with
        | .fin s m x =>
          let n := qkCode e
          if n = 0 ∨ m = 0 then .fin false 0 0
          else .fin (s != decide (n < 0)) (n.natAbs * q * m) (x - 14 - d)
        | _ => .nan

end Sys2Proof.Machine
end

