-- ==== Sys2Proof/Machine/Translate.lean ====
section
/-! DEFINITION. The memory hierarchy (05_memory_hierarchy, 06_ordering, 10_rota R191 to R195): who holds which resource,
home slices and channels, the L2's tags, the four-level walk with the hamlet's TLB and merge table, and the cores' L1.
Memory holds every byte at its home; an L1 line holds its own copy, which other cores do not see. -/

namespace Sys2Proof.Machine

/-! ### Places of the state -/

/-- A core of the device. -/
def State.coreAt (s : State) (n : Nat) : Core := s.cores.getD n Core.reset

/-- The state with one core changed. -/
def State.modCore (s : State) (n : Nat) (f : Core → Core) : State := { s with cores := modAt s.cores n f }

/-- A device hamlet. -/
def State.hamAt (s : State) (n : Nat) : Hamlet := s.hamlets.getD n Hamlet.reset

/-- The state with one hamlet changed. -/
def State.modHam (s : State) (n : Nat) (f : Hamlet → Hamlet) : State := { s with hamlets := modAt s.hamlets n f }

/-- A context by its number. -/
def State.ctxAt (s : State) (n : Nat) : Option Context := s.contexts.find? (fun c => c.num == n)

/-- The state with one context changed. -/
def State.modCtx (s : State) (n : Nat) (f : Context → Context) : State :=
  { s with contexts := updIf (fun c => c.num == n) f s.contexts }

/-- The hamlet of a core (R20). -/
def hamOf (core : Nat) : Nat := core / 8

/-- The die of a core (R20). -/
def dieOf (core : Nat) : Nat := core / 96

/-- Add to a counter of an enclosure (R195). -/
def State.countBy (s : State) (tenant k n : Nat) : State :=
  { s with counters := modAt s.counters tenant (fun cs => modAt cs k (fun x => (x + n) % 2 ^ 64)) }

/-- Whether no fabric clock domain of the cores runs: P3 (R230) or the cut-off (R231). -/
def State.stopped (s : State) : Bool := s.power == 3 || s.stage == 3

/-! ### Who holds what (R179, R181, R188, R190) -/

/-- The row in force; none while the Rota does not run. -/
def State.rowNow (s : State) : Option Row := if s.rota.state < 2 then none else s.rota.rows[s.rota.row]?

/-- The quarters of a lane group a partial entry gives (R179, R193). -/
def partQuarters (e core lgrp : Nat) : List Nat :=
  if fld e 31 1 = 1 ∧ fld e 23 8 = core ∧ fld e 19 4 = lgrp then
    match fld e 17 2 with
    | 0 => [0, 1, 2, 3]
    | 1 => (if fld e 13 1 = 1 then [0, 1] else []) ++ (if fld e 14 1 = 1 then [2, 3] else [])
    | 2 => [0, 1, 2, 3].filter fun q => fld e (13 + q) 1 == 1
    | _ => []
  else []

/-- Whether an enclosure record holds a quarter of a lane group. -/
def Encl.holds (e : Encl) (core lgrp q : Nat) : Bool :=
  e.val && (e.cores.getLsbD core || e.parts.any fun x => (partQuarters x core lgrp).contains q)

/-- The tenant a row gives a quarter of a lane group to. -/
def Row.owner (r : Row) (core lgrp q : Nat) : Option Nat :=
  (List.range 16).find? fun t => match r.encls[t]? with
    | some e => e.holds core lgrp q
    | none => false

/-- The shape the row divides a lane group into, if it does (R28, R179). -/
def Row.division (r : Row) (core lg : Nat) : Option Nat :=
  (r.encls.flatMap fun e => if e.val then e.parts else []).findSome? fun x =>
    if fld x 31 1 = 1 ∧ fld x 23 8 = core ∧ fld x 19 4 = lg ∧ (fld x 17 2 = 1 ∨ fld x 17 2 = 2) then some (fld x 17 2) else none

/-- The beneficiary of a row, unless it is the donor itself (R190). -/
def Row.benefOf (r : Row) (donor : Nat) : Option Nat := if r.bval && r.benef != donor then some r.benef else none

/-- A debit is paid in a row that gives its tenant the same resource, all of it, where it arose before the row began (R188). -/
def Row.pays (r : Row) (d : Debit) : Bool :=
  d.due && d.quarters.all fun k => r.owner d.core (k / 4) (k % 4) == some d.tenant

/-- The tenant that holds a quarter of a lane group now: the row's owner, or the beneficiary while a debit is paid (R188)
or the owner's slack is donated (R190). While the Rota is stopped tenant 0 holds everything (R181); a failed unit
is nobody's (R25). -/
def State.holder (s : State) (core lgrp q : Nat) : Option Nat :=
  if (s.coreAt core).failed || (s.coreAt core).failedLg.contains lgrp then none
  else match s.rowNow with
  | none => some 0
  | some r =>
    match r.owner core lgrp q with
    | none => none
    | some t =>
      if s.rota.debits.any (fun d => r.pays d && d.tenant == t && d.core == core && d.quarters.contains (4 * lgrp + q) && decide (s.timebase < s.rota.since + d.us * 700)) ||
          s.rota.donated.contains t
      then r.benefOf t else some t

/-- The quarters a core's tenants hold, as turns (R193). -/
def State.turns (s : State) (core t : Nat) : Nat :=
  ((List.range 64).filter fun k => s.holder core (k / 4) (k % 4) == some t).length

/-- The tenants that hold anything on a core, ascending. -/
def State.coreTenants (s : State) (core : Nat) : List Nat := (List.range 16).filter fun t => decide (0 < s.turns core t)

/-- The L2 way mask of a tenant (R181, R191). -/
def State.l2Mask (s : State) (t : Nat) : BitVec 16 :=
  match s.rowNow with
  | none => if t = 0 then 0xFFFF else 0
  | some r => match r.encls[t]? with
    | some e => if e.val then e.ways else 0
    | none => 0

/-- The L1 ways of a tenant on a core (R82, R193). -/
def State.l1Ways (s : State) (core t : Nat) : Nat :=
  let ways := 2 * ((s.coreAt core).carveCur + 1)
  if (s.coreTenants core).length ≤ 1 then ways else s.turns core t * ways / 64

/-- The lines of the instruction cache of a tenant on a core (R15, R193). -/
def State.codeShare (s : State) (core t : Nat) : Nat :=
  if (s.coreTenants core).length ≤ 1 then 512 else s.turns core t * 8

/-- A tenant's share of an engine with n places (R193). -/
def State.engineShare (s : State) (core t n : Nat) : Nat :=
  let ts := s.coreTenants core
  if ts.length ≤ 1 then n
  else n / ts.length + (if (ts.findIdx (· == t)) < n % ts.length then 1 else 0)

/-! ### Home slices and channels (R80, R81) -/

/-- Bits of a table entry (R76). -/
def leafBit (e : DWord) (k : Nat) : Bool := e.getLsbD k

/-- The page is readable, writable, executable, reeve-only, streaming, packed, pinned (R76). -/
def leafRd (e : DWord) : Bool := leafBit e 2
def leafWr (e : DWord) : Bool := leafBit e 3
def leafEx (e : DWord) : Bool := leafBit e 4
def leafRv (e : DWord) : Bool := leafBit e 5
def leafStrm (e : DWord) : Bool := leafBit e 6
def leafPk (e : DWord) : Bool := leafBit e 7
def leafPin (e : DWord) : Bool := leafBit e 8

/-- The plane and slice fields of a leaf (R76). -/
def leafPlane (e : DWord) : Nat := fld e.toNat 9 2
def leafSlice (e : DWord) : Nat := fld e.toNat 52 11

/-- The page base a leaf names (R76). -/
def leafBase (e : DWord) : Nat := fld e.toNat 16 36 * 2 ^ 16

/-- The slice field is used (R80 steps 1 and 2). -/
def leafSliceUsed (e : DWord) : Bool := leafPin e || (leafPk e && leafPlane e != 3)

/-- The home by the hash (R80 step 3). -/
def hashSlice (pa : Nat) : Nat :=
  let la := pa / 128
  ((fld la 0 20) ^^^ (fld la 20 20) ^^^ (fld la 40 5)) % 1536

/-- The home slice of a line reached through a leaf (R80). -/
def homeSlice (e : DWord) (size va pa : Nat) : Nat :=
  if leafPin e then leafSlice e
  else if leafPk e && leafPlane e != 3 then
    (leafSlice e + va % size / 2 ^ (match leafPlane e with | 0 => 7 | 1 => 10 | _ => 9)) % 1536
  else hashSlice pa

/-- The channel of a line (R81). -/
def channelOf (pa : Nat) : Nat :=
  let la := pa / 128
  (fld la 0 8) ^^^ (fld la 8 8) ^^^ (fld la 16 8) ^^^ (fld la 24 8) ^^^ (fld la 32 8) ^^^ (fld la 40 5)

/-! ### The L2's tags (R18, R191) and poison at home (R209) -/

/-- A valid line of an address in the L2. -/
def State.inL2 (s : State) (line : Nat) : Bool := s.l2.any fun l => l.line == line

/-- Whether no memory unit carries a mark. -/
def State.noPoison (s : State) : Bool := s.hbmPoison.isEmpty && s.l2Poison.isEmpty

/-- A line leaves the L2: one that is dirty carries its marks back to HBM (R209). -/
def State.l2Drop (s : State) (l : L2Line) : State :=
  let rest := s.l2.filter fun x => !(x == l)
  if s.noPoison then { s with l2 := rest } else
  let units := (List.range 4).map fun k => l.line * 4 + k
  let bad := units.filter fun u => (List.range 4).any fun k => s.l2Poison.contains (u * 4 + k)
  { s with
    l2 := rest
    l2Poison := s.l2Poison.filter fun w => w / 16 != l.line
    hbmPoison := if l.dirty then bad ++ s.hbmPoison.filter (fun u => u / 4 != l.line) else s.hbmPoison }

/-- What an access is to its home slice (R263): a request; a part of a request that the instruction or command has made there already, by
another of its lanes; or what no counter counts: fetches, walks and write-backs. -/
inductive Traffic where
  | request
  | again
  | silent
  deriving DecidableEq, Repr

/-- Count under a counter if the access is a request (R263). -/
def State.countIf (s : State) (req : Traffic) (t k : Nat) : State := if req = .request then s.countBy t k 1 else s

/-- Count an eviction: the tenant's own by a request in counter 8, another's in the per-slice pair (R195, R196, R263). -/
def State.countEvict (s : State) (req : Traffic) (t : Nat) (victim : L2Line) : State :=
  if victim.tenant = t then s.countIf req t 8
  else
    let hit := fun e : Evict => e.slice == victim.slice && e.by_ == t && e.loser == victim.tenant
    { s with evictions :=
        if s.evictions.any hit then updIf hit (fun e => { e with count := e.count + 1 }) s.evictions
        else { slice := victim.slice, by_ := t, loser := victim.tenant, count := 1 } :: s.evictions }

/-- Fill a line in its set, LA[5:0] (R191, R263); a streaming page's line goes to the least recently used position (R83). -/
def State.l2Fill (s : State) (req : Traffic) (t slice line : Nat) (write stream : Bool) : State :=
  let mask := s.l2Mask t
  if mask = 0 then s else
  let set := line % 64
  let here := s.l2.filter fun l => l.slice == slice && l.set == set
  let freeWay := (List.range 16).find? fun w => mask.getLsbD w && !here.any (fun l => l.way == w)
  let victim := if freeWay.isSome then none else (here.filter fun l => mask.getLsbD l.way).getLast?
  let way := freeWay.getD ((victim.map L2Line.way).getD 0)
  let s1 := match victim with
    | some v => (s.countEvict req t v).l2Drop v
    | none => s
  let new : L2Line := { slice := slice, set := set, way := way, tenant := t, line := line, dirty := write }
  let marks := if s.noPoison then [] else
    s1.l2Poison ++ ((List.range 16).map fun k => line * 16 + k).filter fun w => s1.hbmPoison.contains (w / 4)
  { s1 with
    l2 := if stream then s1.l2 ++ [new] else new :: s1.l2
    l2Poison := marks
    hbmPoison := if s.noPoison then [] else s1.hbmPoison }

/-- An access by a tenant at a home slice: hit, or write back another tenant's copy, miss and fill (R191, R195). Counters 5 to 8
count it if it is a request. What has been asked for already is neither a hit nor a miss again; a write of it only makes the line
dirty. -/
def State.l2Access (s : State) (req : Traffic) (t slice pa : Nat) (write stream : Bool) : State :=
  let line := pa / 128
  match s.l2.find? fun l => l.line == line && l.slice == slice && l.tenant == t with
  | some l =>
    let l' := { l with dirty := l.dirty || write }
    if req = .again then { s with l2 := updIf (fun x => x == l) (fun _ => l') s.l2 }
    else
      let s1 := { s with l2 := l' :: s.l2.filter fun x => !(x == l) }
      s1.countIf req t (if (s.l2Mask t).getLsbD l.way then 5 else 6)
  | none =>
    if req = .again then s else
    let others := s.l2.filter fun l => l.line == line && l.slice == slice
    ((others.foldl State.l2Drop s).countIf req t 7).l2Fill req t slice line write stream

/-! ### Accesses at home -/

/-- Device memory ends here and the host window begins (R19, R405). -/
def hostBase : Nat := 2 ^ 39

/-- The bus address a physical address goes out to, when it lies in the host window (R405). -/
def State.busAddr (s : State) (pa : Nat) : Option Nat :=
  if hostBase ≤ pa ∧ pa < hostBase + s.host.hwinSize * 2 ^ 30 then some (s.host.hwinBase * 2 ^ 30 + (pa - hostBase)) else none

/-- The address is device memory or lies in the host window, and all of a range does: the window begins where memory ends. -/
def State.reachable (s : State) (pa : Nat) : Bool := decide (pa < hostBase) || (s.busAddr pa).isSome
def State.rangeReachable (s : State) (pa n : Nat) : Bool := n == 0 || s.reachable (pa + n - 1)

/-- A line homed at a failed slice or held in a failed channel (R25). -/
def State.lostLine (s : State) (slice pa : Nat) : Bool :=
  s.failedSlices.contains slice || s.failedChannels.contains (channelOf pa)

/-- A byte at home: memory's, in the host window a free value, and beyond both, where an access of the device's own has nobody to trap,
0 (R405). DESIGN CHOICE: log entry 11. -/
def State.homeByte (s : State) (pa : Nat) : Byte :=
  match s.busAddr pa with
  | some a => Config.hostByte s.fresh a
  | none => if pa < hostBase then Memory.read s.mem pa else 0

/-- The bytes at home, unordered and without a trace in the caches. What the device itself reads here, walks and fetches among it, it
takes as stored, also from a lost or marked line. DESIGN CHOICE: log entry 29. -/
def State.homeBytes (s : State) (pa n : Nat) : List Byte := (List.range n).map fun k => s.homeByte (pa + k)

/-- Whether a read at home receives poisoned data (R25, R209). -/
def State.homePoisoned (s : State) (slice pa n : Nat) : Bool :=
  s.lostLine slice pa ||
  (!s.noPoison && (if s.inL2 (pa / 128) then poisonedIn s.l2Poison 8 pa n else poisonedIn s.hbmPoison 32 pa n))

/-- A read performed at the home slice: bytes, mark, and the state after. -/
def State.homeRead (s : State) (req : Traffic) (t slice : Nat) (stream : Bool) (pa n : Nat) : (List Byte × Bool) × State :=
  if pa < hostBase then
    let s1 := s.l2Access req t slice pa false stream
    ((s1.homeBytes pa n, s1.homePoisoned slice pa n), s1)
  else ((s.homeBytes pa n, false), { s with fresh := s.fresh + 1 })

/-- The units of u bytes all of whose bytes are among these cells. -/
def coveredUnits (u : Nat) (cs : List Host.Cell) : List Nat :=
  ((cs.map fun c => c.1 / u).eraseDups).filter fun k => (List.range u).all fun j => cs.any fun c => c.1 == k * u + j

/-- A write performed at the home slice of one line: the cells, with the marks of the units they cover whole cleared
(R209). A write to a lost line is discarded (R25). -/
def State.homePut (s : State) (req : Traffic) (t slice : Nat) (stream : Bool) (cs : List Host.Cell) : State :=
  match cs with
  | [] => s
  | (pa, _) :: _ =>
    if hostBase ≤ pa then
      { s with host := { s.host with
          hostWrites := s.host.hostWrites ++ cs.filterMap fun c => (s.busAddr c.1).map fun a => (a, c.2) } }
    else if s.lostLine slice pa then s
    else
      let s1 := s.l2Access req t slice pa true stream
      let s2 := { s1 with mem := cs.foldl (fun m c => Memory.write m c.1 c.2) s1.mem }
      if s.noPoison then s2
      else if s2.inL2 (pa / 128) then { s2 with l2Poison := s2.l2Poison.filter fun k => !(coveredUnits 8 cs).contains k }
      else { s2 with hbmPoison := s2.hbmPoison.filter fun k => !(coveredUnits 32 cs).contains k }

/-- Bytes as cells from an address up. -/
def cellsFrom (a : Nat) (bs : List Byte) : List Host.Cell := (List.range bs.length).zipWith (fun k b => (a + k, b)) bs

/-- A device write within one line that no tenant's cache sees, at a home slice; one to a lost line is discarded (R25). -/
def State.pokeLine (s : State) (slice pa : Nat) (bs : List Byte) : State :=
  if pa < hostBase then
    if s.lostLine slice pa then s
    else { s with
      mem := Memory.writeBytes s.mem pa bs
      hbmPoison := clearWhole s.hbmPoison 32 pa bs.length
      l2Poison := clearWhole s.l2Poison 8 pa bs.length }
  else { s with host := { s.host with
      hostWrites := s.host.hostWrites ++ (cellsFrom pa bs).filterMap fun c => (s.busAddr c.1).map fun a => (a, c.2) } }

/-- A device write, line by line, each at the slice that a function of its address gives. -/
def State.pokeVia (s : State) (slice : Nat → Nat) (pa : Nat) (bs : List Byte) : State :=
  (pieces128 pa bs.length).foldl (fun s p => s.pokeLine (slice p.1) p.1 ((bs.drop (p.1 - pa)).take p.2)) s

/-- Device writes to physical memory (rings, completions, saved state): no leaf names a slice, so each line's is that of the hash
(R80). -/
def State.pokeBytes (s : State) (pa : Nat) (bs : List Byte) : State := s.pokeVia hashSlice pa bs

/-! ### Page walks, the TLB and the merge table (R75 to R77, R84 to R89) -/

/-- Who makes an access: the core it goes through and the context it acts for. -/
structure Who where
  core : Nat
  ctx : Nat
  asid : Nat
  tenant : Nat
  root : Nat
  reeve : Bool
  deriving DecidableEq, Repr

/-- What a translation gives (R77). -/
inductive Xlat where
  | ok (leaf : DWord) (size : Nat)
  | fault
  | bad
  deriving DecidableEq, Repr

/-- The table entry at a physical address: always the latest, also where it was written through a leaf that is not the hash home
and R84 lets a walk read the earlier one. DESIGN CHOICE: log entry 31. -/
def State.tableEntry (s : State) (pa : Nat) : DWord := dwordOf (s.homeBytes pa 8)

/-- A leaf that a walk accepts (R77): no address bit below the page size, a used slice field below 1536. -/
def leafOk (e : DWord) (size : Nat) : Bool :=
  leafBase e % size == 0 && (!leafSliceUsed e || decide (leafSlice e < 1536))

/-- The levels of the walk (R75): index of the address, entry bits, size of a leaf there (0: none allowed). -/
def walkLevels (va : Nat) : List (Nat × Nat) :=
  [(fld va 43 13, 0), (fld va 30 13, 2 ^ 30), (fld va 21 9, 2 ^ 21), (fld va 16 5, 2 ^ 16)]

/-- The walk from a table at a physical address (R75, R77). -/
def State.walk (s : State) : List (Nat × Nat) → Nat → Xlat
  | [], _ => .bad
  | (idx, size) :: rest, table =>
    let pa := table + 8 * idx
    if !s.reachable pa then .bad else
    let e := s.tableEntry pa
    if !leafBit e 0 then .fault
    else if leafBit e 1 then (if size = 0 then .bad else if leafOk e size then .ok e size else .bad)
    else if rest.isEmpty then .bad
    else s.walk rest (fld e.toNat 8 44 * 2 ^ 8)

/-- The entries a walk reads. -/
def State.walkReads (s : State) : List (Nat × Nat) → Nat → List Nat
  | [], _ => []
  | (idx, _) :: rest, table =>
    let pa := table + 8 * idx
    if !s.reachable pa then [] else
    let e := s.tableEntry pa
    pa :: (if leafBit e 0 && !leafBit e 1 then s.walkReads rest (fld e.toNat 8 44 * 2 ^ 8) else [])

/-- The TLB entry that covers an address (R84). -/
def State.tlbFind (s : State) (w : Who) (va : Nat) : Option TlbEntry :=
  (s.hamAt (hamOf w.core)).tlb.find? fun e => e.tenant == w.tenant && e.asid == w.asid && va / e.size == e.page / e.size

/-- A translation as an access made now would get it: from the TLB, or by a walk (R84). -/
def State.xlat (s : State) (w : Who) (va : Nat) : Xlat :=
  match s.tlbFind w va with
  | some e => .ok e.leaf e.size
  | none => s.walk (walkLevels va) w.root

/-- The entries of the hamlet TLB a tenant may fill (R194). A core that it holds only in part counts as one of its cores. DESIGN CHOICE:
log entry 41. -/
def State.tlbBound (s : State) (ham t : Nat) : Nat :=
  if s.rota.state < 2 then 4096
  else 512 * ((List.range 8).filter fun k => decide (0 < s.turns (8 * ham + k) t)).length

/-- A TLB fill (R77, R84, R194). Which entry is replaced is open (log entry 10). -/
def State.tlbFill (s : State) (w : Who) (va : Nat) (leaf : DWord) (size : Nat) : State :=
  let ham := hamOf w.core
  let h := s.hamAt ham
  let own := h.tlb.filter fun e => e.tenant == w.tenant
  let bound := s.tlbBound ham w.tenant
  let new : TlbEntry := { tenant := w.tenant, asid := w.asid, page := va / size * size, size := size, leaf := leaf }
  if bound = 0 then s
  else if bound ≤ own.length then
    match own[Config.tlbVictim s.fresh own.length % own.length]? with
    | some v => { s.modHam ham (fun h => { h with tlb := new :: h.tlb.filter fun e => !(e == v) }) with fresh := s.fresh + 1 }
    | none => s
  else if 4096 ≤ h.tlb.length then
    match h.tlb[Config.tlbVictim s.fresh h.tlb.length % h.tlb.length]? with
    | some v => { s.modHam ham (fun h => { h with tlb := new :: h.tlb.filter fun e => !(e == v) }) with fresh := s.fresh + 1 }
    | none => s
  else s.modHam ham (fun h => { h with tlb := new :: h.tlb })

/-- A walk reads the tables through the L2, each line at its hash home (R84). -/
def State.walkTouch (s : State) (w : Who) (va : Nat) : State :=
  (s.walkReads (walkLevels va) w.root).foldl (fun s pa =>
    if pa < hostBase then s.l2Access .silent w.tenant (hashSlice pa) pa false false else s) s

/-- A translation with its TLB fill. -/
def State.xlatFill (s : State) (w : Who) (va : Nat) : Xlat × State :=
  match s.tlbFind w va with
  | some e => (.ok e.leaf e.size, s)
  | none =>
    match s.walk (walkLevels va) w.root with
    | .ok leaf size => (.ok leaf size, (s.walkTouch w va).tlbFill w va leaf size)
    | r => (r, s.walkTouch w va)

/-- The page of an address is packed, where its walk comes to a leaf (R79). -/
def State.packedAt (s : State) (w : Who) (va : Nat) : Bool :=
  match s.xlat w va with
  | .ok leaf _ => leafPk leaf
  | _ => false

/-- The physical address of an address under a leaf. -/
def paOf (leaf : DWord) (size va : Nat) : Nat := leafBase leaf + va % size

/-- Kinds of access (R88). -/
def kindRead : Nat := 0
def kindWrite : Nat := 1
def kindFetch : Nat := 2
def kindEngine : Nat := 3

/-- The permission check of R77; the kind of an engine access is given as read or write. -/
def leafAllows (e : DWord) (kind : Nat) (reeve : Bool) : Bool :=
  (match kind with | 0 => leafRd e | 1 => leafWr e | _ => leafEx e) && (reeve || !leafRv e)

/-- The line of an L1 that an address falls in (R82). -/
def State.l1Find (s : State) (w : Who) (va : Nat) : Option L1Line :=
  (s.coreAt w.core).l1.find? fun l => l.tag == va / 128 && l.asid == w.asid && l.tenant == w.tenant

/-- Bytes off to off + n - 1 of a mask are all set. -/
def maskAll (m : BitVec 128) (off n : Nat) : Bool := (List.range n).all fun k => m.getLsbD (off + k)

/-- A mask with bytes off to off + n - 1 set. -/
def maskOf (off n : Nat) : BitVec 128 := BitVec.ofNat 128 ((2 ^ n - 1) * 2 ^ off)

/-- An access of this kind hits the line (R82, R83, R106): a store hits a stale line, a load does not. -/
def L1Line.hits (l : L1Line) (kind va n : Nat) (reeve : Bool) : Bool :=
  leafAllows l.leaf kind reeve && (kind == 1 || (!l.stale && maskAll l.valid (va % 128) n))

/-- What the checks of one access give. -/
inductive MemCheck where
  | ok (leaf : DWord)
  | fault
  | bad
  deriving DecidableEq, Repr

/-- The check of an address after translation: permission and reach (R19, R77, R405). -/
def State.leafCheck (s : State) (x : Xlat) (kind va : Nat) (reeve : Bool) : MemCheck :=
  match x with
  | .fault => .fault
  | .bad => .bad
  | .ok leaf size => if leafAllows leaf kind reeve && s.reachable (paOf leaf size va) then .ok leaf else .bad

/-- The checks of a lane access of n bytes (R74, R77, R83). -/
def State.checkLane (s : State) (w : Who) (kind va n : Nat) : MemCheck :=
  if 2 ^ 56 ≤ va then .bad
  else match s.l1Find w va with
    | some l => if l.hits kind va n w.reeve then .ok l.leaf else s.leafCheck (s.xlat w va) kind va w.reeve
    | none => s.leafCheck (s.xlat w va) kind va w.reeve

/-- The checks of an access that goes past the L1: ordered accesses, engines (R77, R84, R107). -/
def State.checkHome (s : State) (w : Who) (kind va : Nat) : MemCheck :=
  if 2 ^ 56 ≤ va then .bad else s.leafCheck (s.xlat w va) kind va w.reeve

/-- The translation of an access of n bytes as part of its checks, past the L1 or through it: what a walk finds goes into the TLB
before the permission check, and every walk reads the tables through the L2 (R77, R84). -/
def State.translate (s : State) (w : Who) (home : Bool) (kind n va : Nat) : State :=
  if 2 ^ 56 ≤ va ∨ va % n ≠ 0 ∨ (!home && (s.l1Find w va).any fun l => l.hits kind va n w.reeve) then s
  else (s.xlatFill w va).2

/-- The 64 KiB page of an address, the key of a merge entry (R87). -/
def pageOf (va : Nat) : Nat := va / 2 ^ 16

/-- The share of the merge table a tenant may hold (R194), by the same cores. DESIGN CHOICE: log entry 41. -/
def State.mergeBound (s : State) (ham t : Nat) : Nat :=
  if s.rota.state < 2 then 256
  else 32 * ((List.range 8).filter fun k => decide (0 < s.turns (8 * ham + k) t)).length

/-- A fault record (R88). -/
def faultRecord (w : Who) (ham kind entry va : Nat) : List Byte :=
  leBytes 8 (va % 2 ^ 56) ++ leBytes 8 (w.asid + w.tenant * 2 ^ 16 + ham * 2 ^ 20 + kind * 2 ^ 25 + entry * 2 ^ 27) ++
    leBytes 16 0

/-- An access that faults joins the entry of its page, or allocates one and leaves a fault record waiting for the ring
(R87, R225), or waits because the table or the tenant's share of it is full (R194). -/
def State.joinMerge (s : State) (w : Who) (kind va : Nat) : FaultWait × State :=
  let ham := hamOf w.core
  let h := s.hamAt ham
  let same := fun m : MergeEntry => m.tenant == w.tenant && m.asid == w.asid && m.page == pageOf va
  match h.merge.find? same with
  | some m => (.entry ham m.entry, s)
  | none =>
    let own := (h.merge.filter fun m => m.tenant == w.tenant).length
    match (List.range 256).find? fun k => !h.merge.any fun m => m.entry == k with
    | none => (.full ham (pageOf va) kind, s)
    | some k =>
      if s.mergeBound ham w.tenant ≤ own then (.full ham (pageOf va) kind, s)
      else
        let new : MergeEntry := { entry := k, tenant := w.tenant, asid := w.asid, page := pageOf va, kind := kind }
        (.entry ham k, s.modHam ham fun h =>
          { h with merge := h.merge ++ [new], records := h.records ++ [faultRecord w ham kind k va] })

/-- The issuing instruction makes one request for each distinct line that it touches beyond the L1 (R263). -/
def State.request (s : State) (line : Nat) : Traffic × State :=
  match s.iss with
  | none => (.request, s)
  | some q => if q.lines.contains line then (.again, s) else (.request, { s with iss := some { q with lines := line :: q.lines } })

/-! ### The L1 (R82 to R85, R106) -/

/-- Replace one line of a core's L1, or drop it. -/
def State.l1Drop (s : State) (core : Nat) (l : L1Line) : State :=
  s.modCore core fun c => { c with l1 := c.l1.filter fun x => !(x == l) }

/-- A line becomes the most recently used of its core, in the place of an older version of itself. -/
def State.l1Put (s : State) (core : Nat) (l : L1Line) : State :=
  s.modCore core fun c =>
    { c with l1 := putBy (fun x => x.tag == l.tag && x.asid == l.asid && x.tenant == l.tenant) l c.l1 }

/-- The dirty bytes of a line as cells at their physical addresses. -/
def L1Line.dirtyCells (l : L1Line) : List Host.Cell :=
  (cellsFrom (l.pa * 128) l.data).filter fun c => l.dirty.getLsbD (c.1 - l.pa * 128)

/-- Some byte of an 8-byte word of a mask is set. -/
def maskAny (m : BitVec 128) (k : Nat) : Bool := (List.range 8).any fun j => m.getLsbD (8 * k + j)

/-- The marked words of a line that have dirty bytes, by their physical addresses in words. -/
def L1Line.badWords (l : L1Line) : List Nat :=
  ((List.range 16).filter fun k => l.poison.getLsbD k && maskAny l.dirty k).map fun k => l.pa * 16 + k

/-- Data from poisoned words is placed in words of a line at home: each is marked, or the HBM unit it lies in where the L2 does not hold
the line (R209). -/
def State.markHome (s : State) (line : Nat) (ws : List Nat) : State :=
  if s.inL2 line then { s with l2Poison := ws ++ s.l2Poison.filter fun w => !ws.contains w }
  else { s with hbmPoison := (ws.map (· / 4)).eraseDups ++ s.hbmPoison.filter fun u => !(ws.map (· / 4)).contains u }

/-- Write back the dirty bytes of a line, and only them, with their marks (R82, R209). -/
def State.writeBack (s : State) (core : Nat) (l : L1Line) : State :=
  if l.dirty = 0 then s
  else
    let s0 := s.homePut .silent l.tenant l.slice false l.dirtyCells
    let s1 := if l.badWords.isEmpty || s.lostLine l.slice (l.pa * 128) then s0 else s0.markHome l.pa l.badWords
    s1.modCore core fun c => { c with l1 := updIf (fun x => x == l) (fun x => { x with dirty := 0 }) c.l1 }

/-- Write back and invalidate. -/
def State.flushLine (s : State) (core : Nat) (l : L1Line) : State :=
  (s.writeBack core l).l1Drop core { l with dirty := 0 }

/-- Write back every line of a core's L1 that satisfies a test. -/
def State.writeBackIf (s : State) (core : Nat) (p : L1Line → Bool) : State :=
  ((s.coreAt core).l1.filter p).foldl (fun s l => s.writeBack core l) s

/-- Write back and invalidate every line of a core's L1 that satisfies a test. -/
def State.flushIf (s : State) (core : Nat) (p : L1Line → Bool) : State :=
  ((s.coreAt core).l1.filter p).foldl (fun s l => s.flushLine core l) s

/-- Mark the valid lines of a context stale (R106, R107). -/
def State.markStale (s : State) (core ctx : Nat) : State :=
  s.modCore core fun c => { c with l1 := updIf (fun l => l.ctx == ctx) (fun l => { l with stale := true }) c.l1 }

/-- A tenant's lines in a set of a core's L1 beyond so many ways, the least recently used first. -/
def State.beyondWays (s : State) (core tag t ways : Nat) : List L1Line :=
  ((((s.coreAt core).l1.filter fun l => l.tag % 1024 == tag % 1024 && l.tenant == t)).drop ways).reverse

/-- Room for a line in its set: the tenant's least recently used lines go when its ways are full, and so do other tenants' beyond
the ways that are left to them (R82, R193). -/
def State.l1Room (s : State) (core tenant tag : Nat) : State :=
  let own := s.beyondWays core tag tenant (s.l1Ways core tenant - 1)
  let others := (((s.coreAt core).l1.map L1Line.tenant).filter (· != tenant)).eraseDups
  (own ++ others.flatMap fun t => s.beyondWays core tag t (s.l1Ways core t)).foldl (fun s l => s.flushLine core l) s

/-- Before a line is filled, any copy of it under another virtual tag goes back and out (R85). -/
def State.dropSynonyms (s : State) (core pa tag asid tenant : Nat) : State :=
  s.flushIf core fun l => l.pa == pa && !(l.tag == tag && l.asid == asid && l.tenant == tenant)

/-- An access that goes past the L1 comes after the core's own accesses to its line: every copy of the line goes back and
out, so that a resident's accesses to one location stay in program order (R78, R103). -/
def State.passL1 (s : State) (core pa : Nat) : State := s.flushIf core fun l => l.pa == pa / 128

/-- An L1 line with nothing in it. -/
def L1Line.blank (w : Who) (va pa slice : Nat) (leaf : DWord) (size : Nat) : L1Line :=
  { tag := va / 128, asid := w.asid, tenant := w.tenant, ctx := w.ctx, pa := pa / 128, leaf := leaf, size := size, slice := slice,
    data := List.replicate 128 0, valid := 0, dirty := 0, poison := 0, stale := false }

/-- Merge dirty bytes over refilled data (R83, R106). -/
def mergeDirty (old new : List Byte) (dirty : BitVec 128) : List Byte :=
  (List.range 128).map fun k => if dirty.getLsbD k then old.getD k 0 else new.getD k 0

/-- The 8-byte words of a line at home that carry a mark. -/
def State.linePoison (s : State) (slice pa : Nat) : BitVec 16 :=
  if s.noPoison && !s.lostLine slice pa then 0
  else BitVec.ofNat 16 (((List.range 16).filter fun k => s.homePoisoned slice (pa / 128 * 128 + 8 * k) 8).foldl
    (fun a k => a + 2 ^ k) 0)

/-- The line of an address, refilled or filled from its home slice. -/
def State.l1Fill (s : State) (w : Who) (va : Nat) (leaf : DWord) (size : Nat) : L1Line × State :=
  let pa := paOf leaf size va
  let slice := homeSlice leaf size va pa
  let (req, s0) := s.request (va / 128)
  let s1 := (s0.dropSynonyms w.core (pa / 128) (va / 128) w.asid w.tenant).countIf req w.tenant 4
  let old := (s1.l1Find w va).getD (L1Line.blank w va pa slice leaf size)
  let s2 := if (s1.l1Find w va).isSome then s1 else s1.l1Room w.core w.tenant (va / 128)
  let ((bytes, _), s3) := s2.homeRead req w.tenant slice false (pa / 128 * 128) 128
  let marks := (List.range 16).foldl (fun m k =>
    if maskAll old.dirty (8 * k) 8 then m &&& ~~~(BitVec.ofNat 16 (2 ^ k)) else m) (s3.linePoison slice pa)
  let kept := (List.range 16).foldl (fun m k => if old.poison.getLsbD k && maskAny old.dirty k then m ||| BitVec.ofNat 16 (2 ^ k) else m) marks
  let l : L1Line := { old with data := mergeDirty old.data bytes old.dirty, valid := BitVec.allOnes 128, poison := kept, stale := false, leaf := leaf, size := size }
  (l, s3.l1Put w.core l)

/-- The marks of the words an access touches. -/
def L1Line.poisoned (l : L1Line) (off n : Nat) : Bool := (unitsOf 8 off n).any fun k => l.poison.getLsbD k

/-- A plain load of n bytes that has passed its checks: bytes, mark and state (R82, R83). A copy of a line that the core has is read as it
is also where the line is lost at home (R25). DESIGN CHOICE: log entry 29. -/
def State.laneRead (s : State) (w : Who) (va n : Nat) : (List Byte × Bool) × State :=
  let off := va % 128
  let miss : (List Byte × Bool) × State :=
    match s.xlatFill w va with
    | (.ok leaf size, s1) =>
      if leafStrm leaf || decide (hostBase ≤ paOf leaf size va) || s.l1Ways w.core w.tenant == 0 then
        let pa := paOf leaf size va
        let (req, s2) := s1.request (va / 128)
        ((s2.passL1 w.core pa).countIf req w.tenant 4).homeRead req w.tenant (homeSlice leaf size va pa) (leafStrm leaf) pa n
      else
        let (l, s2) := s1.l1Fill w va leaf size
        (((l.data.drop off).take n, l.poisoned off n), s2)
    | (_, s1) => (([], false), s1)
  match s.l1Find w va with
  | some l =>
    if l.hits kindRead va n w.reeve then (((l.data.drop off).take n, l.poisoned off n), s.l1Put w.core l) else miss
  | none => miss

/-- Bytes written into a line, marked valid and dirty; a word covered whole loses its mark. -/
def L1Line.store (l : L1Line) (off : Nat) (bs : List Byte) : L1Line :=
  let m := maskOf off bs.length
  { l with
    data := l.data.take off ++ bs ++ l.data.drop (off + bs.length)
    valid := l.valid ||| m
    dirty := l.dirty ||| m
    poison := (wholeUnits 8 off bs.length).foldl (fun p k => p &&& ~~~(BitVec.ofNat 16 (2 ^ k))) l.poison }

/-- A plain store that has passed its checks (R82, R83). -/
def State.laneWrite (s : State) (w : Who) (va : Nat) (bs : List Byte) : State :=
  let off := va % 128
  let miss : State :=
    match s.xlatFill w va with
    | (.ok leaf size, s1) =>
      let pa := paOf leaf size va
      let slice := homeSlice leaf size va pa
      if leafStrm leaf || decide (hostBase ≤ pa) || s.l1Ways w.core w.tenant == 0 then
        let (req, s2) := s1.request (va / 128)
        ((s2.passL1 w.core pa).countIf req w.tenant 4).homePut req w.tenant slice (leafStrm leaf) (cellsFrom pa bs)
      else
        let (req, s0) := s1.request (va / 128)
        let s2 := (s0.dropSynonyms w.core (pa / 128) (va / 128) w.asid w.tenant).countIf req w.tenant 4
        match s2.l1Find w va with
        | some l => s2.l1Put w.core ({ l with leaf := leaf, size := size }.store off bs)
        | none => (s2.l1Room w.core w.tenant (va / 128)).l1Put w.core ((L1Line.blank w va pa slice leaf size).store off bs)
    | (_, s1) => s1
  match s.l1Find w va with
  | some l => if l.hits kindWrite va bs.length w.reeve then s.l1Put w.core (l.store off bs) else miss
  | none => miss

/-- A read performed at the home slice through a translation (R107, R146). -/
def State.readAtHome (s : State) (req : Traffic) (w : Who) (va n : Nat) : (List Byte × Bool) × State :=
  match s.xlatFill w va with
  | (.ok leaf size, s1) =>
    let pa := paOf leaf size va
    s1.homeRead req w.tenant (homeSlice leaf size va pa) (leafStrm leaf) pa n
  | (_, s1) => (([], false), s1)

/-- A write performed at the home slice through a translation (R107, R111). -/
def State.writeAtHome (s : State) (req : Traffic) (w : Who) (va : Nat) (bs : List Byte) : State :=
  match s.xlatFill w va with
  | (.ok leaf size, s1) =>
    let pa := paOf leaf size va
    s1.homePut req w.tenant (homeSlice leaf size va pa) (leafStrm leaf) (cellsFrom pa bs)
  | (_, s1) => s1

/-- The ordering a phase of a scope brings about at the core (R106): from hamlet scope up, the context's dirty bytes go
home and its lines are marked stale. -/
def State.phaseAt (s : State) (core ctx : Nat) (k : Scope) : State :=
  match k with
  | .lg | .core => s
  | _ => (s.writeBackIf core fun l => l.ctx == ctx).markStale core ctx

/-! ### Fetch (R83, R219) -/

/-- A core's code lines after a fill: each tenant's latest, up to its share (R193), which is never less than 8. The organisation is not
the spec's: 512 lines of 128 bytes, fully associative, and the one filled longest ago goes. DESIGN CHOICE: log entry 28. -/
def State.codeLines (s : State) (core : Nat) (ls : List ILine) : List ILine :=
  if ls.length ≤ 8 then ls
  else (ls.filter fun l => ((ls.filter fun x => x.tenant == l.tenant).take (s.codeShare core l.tenant)).contains l).take 512

/-- The instruction-cache line of an address that a fetch at this level may use (R83). -/
def State.icacheFind (s : State) (w : Who) (va : Nat) : Option ILine :=
  (s.coreAt w.core).icache.find? fun l =>
    l.tag == va / 128 && l.asid == w.asid && l.tenant == w.tenant && leafAllows l.leaf kindFetch w.reeve

/-- The permission check and translation of a fetch. -/
def State.checkFetch (s : State) (w : Who) (va : Nat) : MemCheck :=
  if 2 ^ 56 ≤ va then .bad
  else match s.icacheFind w va with
    | some l => .ok l.leaf
    | none => s.checkLane w kindFetch va 8

/-- The bytes of a whole line for an instruction-cache fill: from the core's L1, dirty bytes included, or from the home
slice with nothing allocated in the L1 (R342), where a line that the core holds under another address goes first, as before a fill of the
L1 (R85). -/
def State.fetchLine (s : State) (w : Who) (va : Nat) : (List Byte × DWord) × State :=
  let base := va / 128 * 128
  let home : (List Byte × DWord) × State :=
    match s.xlatFill w va with
    | (.ok leaf size, s1) =>
      let pa := paOf leaf size base
      let ((bytes, _), s2) := (s1.dropSynonyms w.core (pa / 128) (va / 128) w.asid w.tenant).homeRead .silent w.tenant (homeSlice leaf size base pa) (leafStrm leaf) pa 128
      ((bytes, leaf), s2)
    | (_, s1) => (([], 0), s1)
  match s.l1Find w va with
  | some l =>
    if l.hits kindFetch base 128 w.reeve then ((l.data, l.leaf), s)
    else
      let ((bytes, leaf), s1) := home
      ((mergeDirty l.data bytes l.dirty, leaf), s1)
  | none => home

/-- Fetch the 8 bytes at an address through the instruction cache, which does not observe stores (R219). Which lines the cache
holds follows `codeLines`: log entry 28. -/
def State.fetchWord (s : State) (w : Who) (va : Nat) : DWord × State :=
  match s.icacheFind w va with
  | some l => (dwordOf ((l.data.drop (va % 128)).take 8), s)
  | none =>
    let ((bytes, leaf), s1) := s.fetchLine w va
    let l : ILine := { tag := va / 128, asid := w.asid, tenant := w.tenant, ctx := w.ctx, leaf := leaf, data := bytes }
    (dwordOf ((bytes.drop (va % 128)).take 8), s1.modCore w.core fun c =>
      { c with icache := s1.codeLines w.core (putBy (fun x => x.tag == l.tag && x.asid == l.asid && x.tenant == l.tenant) l c.icache) })

end Sys2Proof.Machine
end

