-- ==== Sys2Proof/Machine/Ops.lean ====
section
/-! DEFINITION. The named operations the meanings share: residents and the issue latch, completion flags, causes and
taking a trap (R198 to R204), events and memory rings (R225, R226), scratchpad accesses with the range comparators
(R96), rings (R94). -/

namespace Sys2Proof.Machine

/-! ### Residents -/

/-- Lanes a resident covers (R27). -/
def shapeWidth (shape : Nat) : Nat := match shape with | 0 => 16 | 1 => 8 | _ => 4

/-- The width of a resident. -/
def Resident.width (r : Resident) : Nat := shapeWidth r.launch.shape

/-- The first lane of a resident's column set (R30); `slot` is the column set in halves and quarters. -/
def Resident.firstLane (r : Resident) : Nat := if r.launch.shape = 0 then 0 else r.slot * r.width

/-- Vector and scalar allotments (R32). -/
def Resident.allotV (r : Resident) : Nat := 32 * r.launch.vblk
def Resident.allotS (r : Resident) : Nat := 16 * r.launch.sblk

/-- The lanes of a resident as local numbers. -/
def Resident.lanes (r : Resident) : List Nat := List.range r.width

/-- The resident of a number, in the latch or outside it. -/
def State.resAt (s : State) (rid : Nat) : Option Resident :=
  match s.iss with
  | some q => if q.res.rid = rid then some q.res else s.residents.find? fun r => r.rid == rid
  | none => s.residents.find? fun r => r.rid == rid

/-- Change every resident, the one in the latch too. -/
def State.mapRes (s : State) (f : Resident → Resident) : State :=
  { s with residents := s.residents.map f, iss := s.iss.map fun q => { q with res := f q.res } }

/-- Change one resident, wherever it stands. -/
def State.modRes (s : State) (rid : Nat) (f : Resident → Resident) : State :=
  s.mapRes fun r => if r.rid = rid then f r else r

/-- All residents, the issuing one among them. -/
def State.allRes (s : State) : List Resident :=
  match s.iss with
  | some q => q.res :: s.residents
  | none => s.residents

/-- Change the latch. -/
def State.modIss (s : State) (f : Issue → Issue) : State := { s with iss := s.iss.map f }

/-- Change the issuing resident. -/
def State.modCur (s : State) (f : Resident → Resident) : State := s.modIss fun q => { q with res := f q.res }

/-- The context a resident runs in (one with no rights when the host has destroyed it). -/
def Context.absent (n : Nat) : Context :=
  { num := n, root := 0, asid := 0, tenant := 0, descs := [], brambles := [], tvec := 0, emuvec := 0, fwait := 100,
    tctl := false, wden := false, wdlimit := 0, wdcnt := 0, saveAreas := [], evRing := none, traceRing := none,
    traceOn := false, halts := [], codes := [] }

/-- The context of a resident. -/
def State.ctxOf (s : State) (r : Resident) : Context := (s.ctxAt r.launch.ctx).getD (Context.absent r.launch.ctx)

/-- Who an access of a resident is made by. -/
def State.who (s : State) (r : Resident) : Who :=
  let c := s.ctxOf r
  { core := r.core, ctx := c.num, asid := c.asid, tenant := r.launch.tenant, root := c.root, reeve := r.reeve }

/-- A resident stands on a unit that has failed (R25). -/
def State.onFailed (s : State) (r : Resident) : Bool := (s.coreAt r.core).failed || (s.coreAt r.core).failedLg.contains r.lgrp

/-- The scratchpad unit a resident belongs to (R44). -/
def State.unitOf (s : State) (uid core : Nat) : Option Unit44 := s.units.find? fun u => u.uid == uid && u.core == core

/-- Change a scratchpad unit. -/
def State.modUnit (s : State) (uid core : Nat) (f : Unit44 → Unit44) : State :=
  { s with units := updIf (fun u => u.uid == uid && u.core == core) f s.units }

/-! ### Completion flags (R56) -/

/-- Add one to a flag. -/
def Resident.flagUp (r : Resident) (k : Nat) : Resident := { r with flags := modAt r.flags k (· + 1) }

/-- Subtract one from a flag. -/
def Resident.flagDown (r : Resident) (k : Nat) : Resident := { r with flags := modAt r.flags k (· - 1) }

/-- The wait mask is satisfied: every named flag is clear (R53, R56). -/
def Resident.waitOk (r : Resident) (mask : Nat) : Bool :=
  (List.range 12).all fun k => fld mask k 1 == 0 || r.flags.getD k 0 == 0

/-- Every flag is clear. -/
def Resident.flagsClear (r : Resident) : Bool := r.flags.all (· == 0)

/-! ### Writing registers (R47, R59) -/

/-- Shift results into the last-result file of a lane (R47). -/
def Resident.shiftY (r : Resident) (lane : Nat) (ys : List Word) : Resident :=
  { r with regs := ys.foldl (fun f x => (f.write (.y lane 1) (f.read (.y lane 0))).write (.y lane 0) x) r.regs }

/-- Perform a result's writes; its conditions enter %fflags at the same time (R51, R319). -/
def Resident.land (r : Resident) (f : Flight) : Resident :=
  { ({ r with regs := r.regs.putAll f.writes }).shiftY f.lane f.ys with fflags := r.fflags ||| f.ff }

/-- A result of latency L: written at once in SIMT, where it is interlocked (log entry 8), and at the issue count plus L
in VLIW (R59, R61). -/
def Resident.after (r : Resident) (lat lane : Nat) (writes : List RegCell) (ys : List Word) (ff : FFlags) : Resident :=
  let f : Flight := { due := r.count + lat, seq := 32 * r.count, writes := writes, lane := lane, ys := ys, ff := ff }
  if r.simt then r.land f else { r with flights := r.flights ++ [f] }

/-! ### Causes (R198, R199) -/

/-- A cause raised by an instruction. -/
def mkCause (code : Nat) (i0 i1 i2 i3 : Word) : Cause :=
  { code := code, i0 := i0, i1 := i1, i2 := i2, i3 := i3, eng := false, prog := 0, cmd := none }

/-- A cause that carries an address, high word first, a mask and a kind. -/
def addrCause (code addr : Nat) (mask kind : Nat) : Cause :=
  mkCause code (BitVec.ofNat 32 (addr / 2 ^ 32)) (BitVec.ofNat 32 addr) (BitVec.ofNat 32 mask) (BitVec.ofNat 32 kind)

/-- Cause 1 for a word in a slot (R291): the fields are read as those of the R format. -/
def illegalCause (word : DWord) (slot : Nat) : Cause :=
  let w := word.toNat
  mkCause 1
    (BitVec.ofNat 32 (fld w 55 9 + fld w 50 5 * 2 ^ 9 + slot * 2 ^ 14 + fld w 0 2 * 2 ^ 19))
    (BitVec.ofNat 32 (fld w 38 12 + fld w 26 12 * 2 ^ 16))
    (BitVec.ofNat 32 (fld w 14 12 + fld w 2 12 * 2 ^ 16))
    (BitVec.ofNat 32 w)

/-- The cause a load in the porch is reported with (R66): its address, its slot, its kind. The issue count of which R66 speaks
has no field in R198's table. DEDUCED: log entry 37. -/
def Porch.cause (e : Porch) (code kind : Nat) : Cause := addrCause code e.va (2 ^ (e.seq % 32)) kind

/-- The order of R199. -/
def causeRank (code : Nat) : Nat :=
  match code with
  | 1 => 0 | 2 => 1 | 12 => 2 | 3 => 3 | 7 => 4 | 6 => 5 | 5 => 6 | 11 => 7 | _ => 8

/-- Codes whose third word is a mask that names every thread that meets the cause (R198). -/
def causeMasked (code : Nat) : Bool := code == 3 || code == 4 || code == 5 || code == 6 || code == 7 || code == 12

/-- The lowest bramble of a bramble mask. -/
def lowBramble (m : Word) : Nat := ((List.range 8).find? fun k => m.getLsbD k).getD 8

/-- A bramble cause comes before another of the same instruction: it hits a lower bramble (R198). -/
def brambleFirst (b x : Cause) : Bool := b.code == 11 && x.code == 11 && decide (lowBramble x.i0 < lowBramble b.i0)

/-- Of the causes an instruction or bundle meets, the one taken (R199), with its mask complete: the threads, clusters or slots
that meet it, or the brambles hit. -/
def pickCause (cs : List Cause) : Option Cause :=
  match cs with
  | [] => none
  | c :: rest =>
    let best := rest.foldl (fun b x => if causeRank x.code < causeRank b.code || brambleFirst b x then x else b) c
    let same := cs.filter fun x => x.code == best.code
    if causeMasked best.code then some { best with i2 := same.foldl (fun m x => m ||| x.i2) 0 }
    else if best.code = 11 then some { best with i0 := same.foldl (fun m x => m ||| x.i0) 0 }
    else some best

/-! ### Memory rings and events (R225, R226) -/

/-- The leaf of a context's virtual address for the device's own accesses, where it is mapped with these rights, with its page's
size. -/
def State.ctxLeaf (s : State) (c : Context) (va : Nat) (write : Bool) : Option (DWord × Nat) :=
  if 2 ^ 56 ≤ va then none
  else match s.walk (walkLevels va) c.root with
    | .ok leaf size =>
      if (if write then leafWr leaf else leafRd leaf) && s.reachable (paOf leaf size va) then some (leaf, size) else none
    | _ => none

/-- The physical address that goes with it. -/
def State.ctxPhys (s : State) (c : Context) (va : Nat) (write : Bool) : Option Nat :=
  (s.ctxLeaf c va write).map fun x => paOf x.1 x.2 va

/-- A device read of an aligned 8-byte word of a context's memory, from its home slice. -/
def State.ctxWord8 (s : State) (c : Context) (va : Nat) : Option DWord :=
  (s.ctxPhys c va false).map fun pa => dwordOf (s.homeBytes pa 8)

/-- A device read of 8 bytes of a context's memory: of one word, or of parts of two, each in its own page. -/
def State.ctxWord (s : State) (c : Context) (va : Nat) : Option DWord :=
  let k := 8 * (va % 8)
  if k = 0 then s.ctxWord8 c va
  else match s.ctxWord8 c (va - va % 8), s.ctxWord8 c (va - va % 8 + 8) with
    | some lo, some hi => some (lo.ushiftRight k ||| hi.shiftLeft (64 - k))
    | _, _ => none

/-- A device write of 8-byte words into a context's memory; a word that is not writable is dropped (R403). -/
def State.ctxPoke (s : State) (c : Context) (va : Nat) : List DWord → State
  | [] => s
  | d :: ds =>
    let s1 := match s.ctxLeaf c va true with
      | some (leaf, size) => s.pokeVia (fun pa => homeSlice leaf size va pa) (paOf leaf size va) (leBytes 8 d.toNat)
      | none => s
    s1.ctxPoke c (va + 8) ds

/-- Where a memory ring lies: physical memory, or a context's virtual memory. -/
inductive RingAt where
  | phys
  | virt (c : Context)

/-- A 64-bit word of a memory ring. -/
def State.ringWord (s : State) (w : RingAt) (a : Nat) : DWord :=
  match w with
  | .phys => dwordOf (s.homeBytes a 8)
  | .virt c => (s.ctxWord c a).getD 0

/-- Write 64-bit words of a memory ring. -/
def State.ringPoke (s : State) (w : RingAt) (a : Nat) (ds : List DWord) : State :=
  match w with
  | .phys => s.pokeBytes a (ds.flatMap fun d => leBytes 8 d.toNat)
  | .virt c => s.ctxPoke c a ds

/-- Set a ring up: 0 to tail, head and lost (R225). -/
def State.ringInit (s : State) (w : RingAt) (ring : MemRing) : State := s.ringPoke w ring.base [0, 0, 0]

/-- Whether a ring has room: tail − head < n (R225). -/
def State.ringRoom (s : State) (w : RingAt) (ring : MemRing) : Bool :=
  decide (((s.ringWord w ring.base) - (s.ringWord w (ring.base + 8))).toNat < ring.recs)

/-- Append a record, or count it lost when the ring is full (R225). -/
def State.ringAppend (s : State) (w : RingAt) (ring : MemRing) (rec : List DWord) : State :=
  let tail := (s.ringWord w ring.base).toNat
  if s.ringRoom w ring then
    let at_ := ring.base + 64 + 8 * rec.length * (tail % ring.recs)
    (s.ringPoke w at_ rec).ringPoke w ring.base [BitVec.ofNat 64 (tail + 1)]
  else s.ringPoke w (ring.base + 16) [s.ringWord w (ring.base + 16) + 1]

/-- Raise an MSI-X vector (R220). -/
def State.msix (s : State) (v : Nat) : State := { s with host := { s.host with msix := s.host.msix ++ [v] } }

/-- An event record (R226). -/
def eventRecord (code tenant ctx tick : Nat) (w2 w3 : DWord) : List DWord :=
  [BitVec.ofNat 64 (code + tenant * 2 ^ 16 + ctx * 2 ^ 20), BitVec.ofNat 64 tick, w2, w3]

/-- An event to the host event ring, with MSI-X vector 3 (R225, R226). A ring that has not been set up takes no record. -/
def State.hostEvent (s : State) (code tenant ctx : Nat) (w2 w3 : DWord) : State :=
  match s.host.evRing with
  | some ring => (s.ringAppend .phys ring (eventRecord code tenant ctx s.timebase w2 w3)).msix 3
  | none => s

/-- An event to the reeve of a context; without a reeve event ring it goes to the host (R226). -/
def State.reeveEvent (s : State) (c : Context) (code : Nat) (w2 w3 : DWord) : State :=
  match c.evRing with
  | some ring => s.ringAppend (.virt c) ring (eventRecord code c.tenant c.num s.timebase w2 w3)
  | none => s.hostEvent code c.tenant c.num w2 w3

/-! ### Taking a trap (R202, R204) -/

/-- The low half of the address of a trap's header. -/
def hdrLo (a : Nat) : Word := BitVec.ofNat 32 a

/-- The trap registers for a cause (R200, R202). -/
def trapRegs (t : Trap) (c : Cause) (hdr : Nat) (defer emu inh : Bool) (h : Option Hidden) : Trap :=
  { t with eng := c.eng, defer := defer, emu := emu, inh := inh, code := c.code, tpc := hdr, i0 := c.i0, i1 := c.i1,
           i2 := c.i2, i3 := c.i3, prog := BitVec.ofNat 32 c.prog, hidden := h }

/-- A double trap (R204): the resident is frozen before the instruction, its trap registers hold the second trap's
values, `inh` and the hidden state stay, and the host gets an event. -/
def State.doubleTrap (s : State) (r : Resident) (c : Cause) (tpc hdr place : Nat) (ended defer : Bool) : Resident × State :=
  let first := ((r.trap.hidden.map Hidden.code).getD 0)
  let w2 := BitVec.ofNat 64 (first + c.code * 2 ^ 8 + r.core * 2 ^ 16 + r.lgrp * 2 ^ 24 + r.slot * 2 ^ 28)
  let r' := { r with
    trap := trapRegs r.trap c tpc defer r.trap.emu r.trap.inh r.trap.hidden
    stop := .doubleTrap
    hdr := hdr
    place := place
    ended := ended }
  (r', s.hostEvent 16 r.launch.tenant r.launch.ctx w2 (BitVec.ofNat 64 tpc))

/-- The handler a cause goes to: its address, whether at reeve level, whether it is the emulation handler (R202). -/
def Context.handler (c : Context) (code : Nat) : Option (Nat × Bool × Bool) :=
  if code = 1 ∧ c.emuvec ≠ 0 then some (c.emuvec.toNat, false, true)
  else if c.tvec ≠ 0 then some (c.tvec.toNat, true, false)
  else none

/-- The words of a resident's loads that were open are performed as they have been read: what follows orders them (R103 to R107). -/
def Resident.fixLoads (r : Resident) : Resident := { r with loads := r.loads.map fun l => { l with words := [] } }

/-- Take a trap in a resident (R202). `tpc` is the header %tpc names; `hdr`, `place` and `ended` say where a retry
continues; the resident itself stands where a skip continues. Results in flight, porch entries and outstanding SIMT loads are
captured (R206). -/
def State.takeTrap (s : State) (r : Resident) (c : Cause) (tpc hdr place : Nat) (ended : Bool) (point : TrapPoint) :
    Resident × State :=
  let defer := match point with
    | .deferred _ => true
    | _ => false
  if r.trap.inh then s.doubleTrap r c tpc hdr place ended defer
  else match (s.ctxOf r).handler c.code with
    | none => s.doubleTrap r c tpc hdr place ended defer
    | some (addr, reeve, emu) =>
      let h : Hidden :=
        { hdr := hdr, place := place, ended := ended, skipHdr := r.hdr, skipPlace := r.place, skipEnded := r.ended,
          reeve := r.reeve, active := r.active, div := r.div, loops := r.loops,
          barrier := (match r.wait with
            | .barrier k => some k
            | _ => none),
          flights := r.flights, porch := r.porch, loads := r.fixLoads.loads, count := r.count, closing := r.closing,
          point := point, code := c.code, exempt := r.exempt && point != .completed }
      ({ r with
        trap := trapRegs r.trap c tpc defer emu true (some h)
        flights := []
        porch := []
        loads := []
        reeve := reeve
        hdr := addr
        place := 0
        ended := false
        closing := .none
        wait := .none
        exempt := false }, s)

/-- Take a trap in the issuing resident, precise at its instruction or bundle: nothing of it has taken effect. -/
def State.trapNow (s : State) (c : Cause) : State :=
  match s.iss with
  | none => s
  | some q =>
    let (r', s') := s.takeTrap q.res c q.hdrAddr q.hdrAddr q.idx false .atIssue
    { s' with iss := some { q with res := r', trapped := true } }

/-- Take a trap in the issuing resident after its instruction or bundle has completed (R309). -/
def State.trapAfter (s : State) (c : Cause) : State :=
  match s.iss with
  | none => s
  | some q =>
    let (r', s') := s.takeTrap q.res c q.hdrAddr q.res.hdr q.res.place q.res.ended .completed
    { s' with iss := some { q with res := r', trapped := true } }

/-- A cause would find no handler, or one that is running (R202, R204). -/
def State.noHandler (s : State) (r : Resident) (code : Nat) : Bool := r.trap.inh || ((s.ctxOf r).handler code).isNone

/-- Codes that wait for every translation of the instruction or bundle before they are raised: all that R199 does not take before those
a translation may still bring (R351, R379). -/
def causeLate (code : Nat) : Bool := !(code == 1 || code == 2 || code == 12 || code == 3 || code == 7)

/-- The cause taken when accesses at these addresses still wait for their translation: none while only causes that
wait with them are met (R199, R351). -/
def dueCause (cs : List Cause) (waiting : Bool) : Option Cause :=
  pickCause (if waiting then cs.filter fun c => !causeLate c.code else cs)

/-- The active threads of a wave, lowest first. -/
def Resident.activeLanes (r : Resident) : List Nat := r.lanes.filter fun c => r.active.getLsbD c

/-- A cause names in its mask who meets it (R199): in a bundle the op's slot; in a wave its threads, or for an instruction that
executes once the lowest active one. -/
def Issue.named (q : Issue) (c : Cause) : Cause :=
  if !causeMasked c.code then c
  else if !q.res.simt then { c with i2 := BitVec.ofNat 32 (2 ^ q.slot) }
  else if c.i2 = 0 then { c with i2 := BitVec.ofNat 32 (2 ^ q.res.activeLanes.headD 0) }
  else c

/-- The same, but for a code whose mask the instruction's own entry gives. -/
def Issue.namedBut (own : Nat) (q : Issue) (c : Cause) : Cause := if c.code = own then c else q.named c

/-- What every meaning of an instruction word goes through. In the first pass over a bundle the causes and holds are
recorded; in the second pass nothing is in the way any more. Otherwise a cause is taken as a trap, a hold leaves the resident where it stands, and else the effect comes
about. Without an issuing resident a word does nothing. `name` completes the masks of the causes. -/
def State.attemptAs (s : State) (name : Issue → Cause → Cause) (causes : List Cause) (held : Bool) (faults : List (Nat × Nat))
    (k : Issue → State → State) : State :=
  match s.iss with
  | none => s
  | some q =>
    if q.probe then
      { s with iss := some { q with raised := q.raised ++ causes.map (name q), held := q.held || held, faults := q.faults ++ faults } }
    else if q.commit then k q s
    else match dueCause (causes.map (name q)) (!faults.isEmpty) with
      | some c => s.trapNow c
      | none => if held || !faults.isEmpty then { s with iss := some { q with held := true, faults := faults } } else k q s

/-- With the masks of R199. -/
def State.attemptF (s : State) (causes : List Cause) (held : Bool) (faults : List (Nat × Nat)) (k : Issue → State → State) : State :=
  s.attemptAs Issue.named causes held faults k

/-- The common case with no access to translate. -/
def State.attempt (s : State) (causes : List Cause) (held : Bool) (k : Issue → State → State) : State :=
  s.attemptF causes held [] k

/-- An effect that a bundle performs after its other ops (R102, R106): now in SIMT, at the end in VLIW. -/
def State.atEnd (s : State) (i : Instr) (k : State → State) : State :=
  match s.iss with
  | none => s
  | some q => if q.res.simt then k s else s.modIss fun q => { q with after := q.after ++ [i] }

/-- Cause 1 of the word being issued. -/
def Issue.illegal (q : Issue) : Cause := illegalCause q.word q.slot

/-- Cause 1 under a condition. -/
def Issue.illegalIf (q : Issue) (b : Bool) : List Cause := if b then [q.illegal] else []

/-! ### Scratchpad accesses (R74, R96, R109) -/

/-- The bytes of a unit's allotment. -/
def State.spadRead (s : State) (uid core off n : Nat) : List Byte × Bool :=
  match s.unitOf uid core with
  | some u => (u.spad.readBytes off n, u.spad.poisoned off n)
  | none => ([], false)

/-- A comparator fires for the first write that overlaps its range (R96). -/
def Comparator.fire (c : Comparator) (a n id : Nat) : Comparator :=
  if c.fired.isNone ∧ a < c.hi ∧ c.lo < a + n then { c with fired := some id } else c

/-- A write performed at the scratchpad port, after which overlapping comparators push their tokens (R96). -/
def State.spadWrite (s : State) (uid core off : Nat) (bs : List Byte) : State :=
  let s1 := s.modUnit uid core fun u => { u with spad := u.spad.write off bs }
  let s2 := s1.mapRes fun r =>
    if r.uid = uid ∧ r.core = core then { r with comps := r.comps.map fun c => c.fire off bs.length s.nextId } else r
  { s2 with nextId := s2.nextId + 1 }

/-- The requester number of a lane access at the scratchpad's banks (R90). -/
def Resident.requester (r : Resident) : Nat :=
  4 * r.lgrp + (match r.launch.shape with | 0 => 0 | 1 => 2 * r.slot | _ => r.slot)

/-- The banks an access touches set their pointers past the requester served (R90). -/
def State.bankServe (s : State) (core req off n : Nat) : State :=
  s.modCore core fun c =>
    { c with bankPtr := (unitsOf 8 off n).foldl (fun p w => modAt p (w % 64) (fun _ => (req + 1) % 66)) c.bankPtr }

/-! ### Rings (R92 to R94) -/

/-- Fields of a ring's configuration (R92). -/
def Ring.base (g : Ring) : Nat := fld g.cfg.toNat 19 13 * 256
def Ring.slotBytes (g : Ring) : Nat := fld g.cfg.toNat 8 11 * 64
def Ring.prog (g : Ring) : Bool := g.cfg.getLsbD 7
def Ring.slots (g : Ring) : Nat := fld g.cfg.toNat 0 7 + 1
def Ring.enabled (g : Ring) : Bool := fld g.cfg.toNat 8 11 != 0

/-- A ring as a write to its configuration leaves it (R92). -/
def Ring.configured (cfg : Word) (owner : Option Nat) : Ring :=
  { cfg := cfg, tail := 0, head := 0, free := fld cfg.toNat 0 7 + 1, filled := 0, claims := [], taken := 0, owner := owner }

/-- %rgstat (R92). -/
def Ring.stat (g : Ring) : Word :=
  BitVec.ofNat 32 (g.tail * 2 ^ 23 + g.head * 2 ^ 16 + g.free * 2 ^ 8 + g.filled)

/-- The offset of a slot (R94). -/
def Ring.slotAt (g : Ring) (k : Nat) : Nat := g.base + k * g.slotBytes

/-- Claim the tail slot (R94): by a program or by the engine. -/
def Ring.claim (g : Ring) (byProg : Bool) : Ring :=
  { g with tail := (g.tail + 1) % g.slots, free := g.free - 1, claims := g.claims ++ [(false, byProg)] }

/-- Drop the committed claims at the front: filled rises only in claim order (R94). -/
def Ring.settle : List (Bool × Bool) → List (Bool × Bool) × Nat
  | [] => ([], 0)
  | (done, p) :: cs => if done then let r := Ring.settle cs; (r.1, r.2 + 1) else ((done, p) :: cs, 0)

/-- Commit the claim at a place of the claim order. -/
def Ring.commitAt (g : Ring) (k : Nat) : Ring :=
  let r := Ring.settle (modAt g.claims k fun c => (true, c.2))
  { g with claims := r.1, filled := g.filled + r.2 }

/-- The first claim a program holds and has not committed (R94). -/
def Ring.progClaim (g : Ring) : Option Nat := (List.range g.claims.length).find? fun k => g.claims.getD k (true, false) == (false, true)

/-- Take the head slot (R94). -/
def Ring.take (g : Ring) : Ring :=
  { g with filled := g.filled - 1, head := (g.head + 1) % g.slots, taken := g.taken + 1 }

/-- Free the oldest taken slot (R94). -/
def Ring.release (g : Ring) : Ring := { g with free := g.free + 1, taken := g.taken - 1 }

/-- A ring of a core. -/
def State.ringOf (s : State) (core k : Nat) : Ring := (s.coreAt core).rings.getD k Ring.off

/-- Change a ring of a core. -/
def State.modRing (s : State) (core k : Nat) (f : Ring → Ring) : State :=
  s.modCore core fun c => { c with rings := modAt c.rings k f }

/-! ### Descriptors and brambles -/

/-- A descriptor of a context. -/
def Context.desc (c : Context) (n : Nat) : Desc :=
  match c.descs.find? fun d => d.1 == n with
  | some d => d.2
  | none => Desc.zero

/-- Fields of a descriptor (R137). -/
def Desc.spad (d : Desc) : Bool := d.d0.getLsbD 63
def Desc.base (d : Desc) : Nat := fld d.d0.toNat 0 56
def Desc.cols (d : Desc) : Nat := fld d.d1.toNat 32 16 + 1
def Desc.rows (d : Desc) : Nat := fld d.d1.toNat 16 16 + 1
def Desc.watch (d : Desc) : Bool := d.d1.getLsbD 7
def Desc.rot (d : Desc) : Nat := fld d.d1.toNat 4 3
def Desc.fmtCode (d : Desc) : Nat := fld d.d1.toNat 0 4
def Desc.tpitch (d : Desc) : Nat := fld d.d2.toNat 32 32
def Desc.pitch (d : Desc) : Nat := fld d.d2.toNat 0 32
def Desc.hbase (d : Desc) : Nat := fld d.d3.toNat 0 56
def Desc.sbase (d : Desc) : Nat := fld d.d4.toNat 0 56

/-- The format of a descriptor (R137). -/
def Desc.fmt (d : Desc) : Fmt :=
  match d.fmtCode with
  | 0 => .fp32 | 1 => .bf16 | 2 => .fp16 | 3 => .e4m3 | 4 => .e5m2 | 5 => .int8 | 6 => .int32 | 7 => .qt8 | 8 => .qt4
  | _ => .qk4

/-- Bytes of a tile's payload (R129). -/
def tileBytes (f : Fmt) : Nat := match f with | .qt8 => 64 | _ => 32

/-- Tiles of a quilt descriptor. -/
def Desc.tiles (d : Desc) : Nat := (d.rows / 8) * (d.cols / 8)

/-- `rot_offset` (R91). -/
def rotOffset (base pitch k r b : Nat) : Nat :=
  let step := if k = 0 then 0 else 2 ^ (k - 1)
  let o := r * pitch + b
  let w := o / 8
  let w' := w / 64 * 64 + (w % 64 + r * step) % 64
  base + w' * 8 + o % 8

/-- The address of an element's first byte (R137). -/
def Desc.elemAddr (d : Desc) (i j : Nat) : Nat :=
  if d.spad then rotOffset d.base d.pitch d.rot i (j * d.fmt.bytes) else d.base + i * d.pitch + j * d.fmt.bytes

/-- The address of a byte of a tile's payload (R91, R129). -/
def Desc.payloadAddr (d : Desc) (t b : Nat) : Nat :=
  if d.spad then rotOffset d.base d.tpitch d.rot t b else d.base + t * d.tpitch + b

/-- The address of a tile's header. -/
def Desc.headerAddr (d : Desc) (t : Nat) : Nat := d.hbase + 8 * t

/-- The address of the superblock scale of a tile (R129). -/
def Desc.scaleAddr (d : Desc) (t : Nat) : Nat :=
  let tr := t / (d.cols / 8)
  let tc := t % (d.cols / 8)
  d.sbase + 4 * ((tr / 2) * (d.cols / 16) + tc / 2)

/-- The length of a plane's bounding range (R91, R140). A rotation stays within the 512-byte blocks that its rows touch: the first row
begins the range, and the last block of the last row ends it. -/
def planeLen (rows pitch width rot : Nat) : Nat :=
  if rot = 0 then (rows - 1) * pitch + width
  else
    let first := (width - 1) / 512 * 512
    (List.range (width - first)).foldl (fun m b => max m (rotOffset 0 pitch rot (rows - 1) (first + b) + 1)) 0

/-- The planes of a descriptor as ranges (R140): start and length. -/
def Desc.planes (d : Desc) : List (Nat × Nat) :=
  match d.fmt with
  | .qt8 | .qt4 | .qk4 =>
    [(d.base, planeLen d.tiles d.tpitch (tileBytes d.fmt) d.rot), (d.hbase, 8 * d.tiles)] ++
      (if d.fmt = .qk4 then [(d.sbase, d.tiles)] else [])
  | f => [(d.base, planeLen d.rows d.pitch (d.cols * f.bytes) d.rot)]

/-- Two ranges share a byte. -/
def overlaps (a n b m : Nat) : Bool := decide (a < b + m ∧ b < a + n ∧ 0 < n ∧ 0 < m)

/-- A scratchpad range overlaps an area that a quilt descriptor of the context names (R79). -/
def Context.packedSpad (c : Context) (off n : Nat) : Bool :=
  c.descs.any fun d => d.2.spad && d.2.fmt.isQuilt && d.2.planes.any fun p => overlaps p.1 p.2 off n

/-- A watched element has a byte in a range: its own, or for a quilt format its tile's header or scale (R211). -/
def Bramble.touches (b : Bramble) (i j a n : Nat) : Bool :=
  let d := b.desc
  if d.fmt.isQuilt then
    let t := (i / 8) * (d.cols / 8) + j / 8
    let k := 8 * (i % 8) + j % 8
    overlaps (d.headerAddr t) 8 a n || (d.fmt == .qk4 && overlaps (d.scaleAddr t) 4 a n) ||
      overlaps (d.payloadAddr t (if d.fmt = .qt8 then k else k / 2)) 1 a n
  else overlaps (d.elemAddr i j) d.fmt.bytes a n

/-- The elements a bramble watches, in row order. -/
def Bramble.elems (b : Bramble) : List (Nat × Nat) :=
  (List.range (b.row1 + 1 - b.row0)).flatMap fun i => (List.range (b.col1 + 1 - b.col0)).map fun j => (b.row0 + i, b.col0 + j)

/-- The first watched element that an access to ranges of one space touches. -/
def Bramble.hit (b : Bramble) (sp : Bool) (rs : List (Nat × Nat)) : Option (Nat × Nat) :=
  if b.valid && !b.acc && b.desc.spad == sp then b.elems.find? fun e => rs.any fun r => b.touches e.1 e.2 r.1 r.2 else none

/-- Code 11 for an access to ranges of one space (R198, R211): the mask of the brambles hit, the kind, and the descriptor
and first element of the lowest one. A handler's accesses and the one re-execution after a hit are not watched (R202,
R203). -/
def Context.brambleCause (c : Context) (r : Resident) (write sp : Bool) (rs : List (Nat × Nat)) : List Cause :=
  if r.trap.inh || r.exempt then []
  else
    let hits := (List.range 8).filterMap fun k => match c.brambles[k]? with
      | some b => if (if write then b.wr else b.rd) then (b.hit sp rs).map fun e => (k, b.num, e) else none
      | .none => .none
    match hits with
    | [] => []
    | (_, num, e) :: _ =>
      [mkCause 11 (BitVec.ofNat 32 (hits.foldl (fun m h => m + 2 ^ h.1) 0)) (if write then 2 else 1) (BitVec.ofNat 32 num)
        (BitVec.ofNat 32 (e.1 * 2 ^ 16 + e.2))]

end Sys2Proof.Machine
end

