-- ==== Sys2Proof/Machine/Operands.lean ====
section
/-! DEFINITION. Operands (R46 to R52, R285, R292 to R294): which specifiers a resident may name, what each source reads
as, which lanes an instruction takes effect in, special registers as `csrr` reads them, and the one shape that all
instructions computing register results from register sources share. -/

namespace Sys2Proof.Machine

/-! ### What immediates stand for (R49) -/

/-- How an instruction reads an immediate source. -/
inductive ImmAs where
  | int
  | f32
  | half (f : HalfFmt)
  | fmt (f : Fmt)
  deriving DecidableEq, Repr

/-- The layout of a packed half. -/
def halfLayout : HalfFmt → FloatFmt
  | .f16 => fmtF16
  | .bf16 => fmtBF16

/-- The value of an immediate (R49). -/
def immValue (as_ : ImmAs) (k : BitVec 8) : Word :=
  match as_ with
  | .int => k.signExtend 32
  | .f32 => BitVec.ofNat 32 (immF fmtF32 k)
  | .half f => BitVec.ofNat 32 (immF (halfLayout f) k * 65537)
  | .fmt .fp32 => BitVec.ofNat 32 (immF fmtF32 k)
  | .fmt .bf16 => BitVec.ofNat 32 (immF fmtBF16 k * 65537)
  | .fmt .fp16 => BitVec.ofNat 32 (immF fmtF16 k * 65537)
  | .fmt .e4m3 => k.zeroExtend 32
  | .fmt .e5m2 => k.zeroExtend 32
  | .fmt _ => k.signExtend 32

/-! ### Allotments (R32, R49, R50) -/

/-- A source a resident may name. -/
def Resident.srcOk (r : Resident) : Src → Bool
  | .v n => decide (n < r.allotV)
  | .s n => decide (n < r.allotS)
  | _ => true

/-- The second register of a source pair. -/
def Src.next : Src → Src
  | .v n => .v (n + 1)
  | .o n => .o (n + 1)
  | .s n => .s (n + 1)
  | a => a

/-- A source pair a resident may name. -/
def Resident.pairOk (r : Resident) (a : Src) : Bool := r.srcOk a && r.srcOk (Src.next a)

/-- A destination a resident may name. -/
def Resident.dstOk (r : Resident) : Dst → Bool
  | .v n => decide (n < r.allotV)
  | .s n => decide (n < r.allotS)
  | _ => true

/-- The second register of a destination pair. -/
def Dst.next : Dst → Dst
  | .v n => .v (n + 1)
  | .o n => .o (n + 1)
  | .s n => .s (n + 1)
  | .p n => .p (n + 1)

/-- The register a destination names in a lane. -/
def dstReg (d : Dst) (c : Nat) : Reg :=
  match d with
  | .v n => .v c n
  | .o n => .o c n
  | .s n => .s n
  | .p n => .p c n

/-- A destination of the scalar class. -/
def dstScalar : Dst → Bool
  | .s _ => true
  | _ => false

/-- A destination of the vector or operand-file class, whose lane keeps last results (R47). -/
def dstLane : Dst → Bool
  | .v _ => true
  | .o _ => true
  | _ => false

/-- A source of the vector or operand-file class. -/
def srcLane : Src → Bool
  | .v _ => true
  | .o _ => true
  | _ => false

/-- A source of the scalar or immediate class, which a scalar-slot op may name beside special registers. -/
def srcScalar : Src → Bool
  | .s _ => true
  | _ => false

/-! ### Predicates and lanes (R52, R294) -/

/-- The bit of a predicate register. -/
def Resident.predBit (r : Resident) (c n : Nat) : Bool := (r.regs.read (.p c n)).getLsbD 0

/-- Gate gs of the innermost loop (R70); false outside every loop and inside a handler (R52, R202). -/
def Resident.gate (r : Resident) (k : Nat) : Bool :=
  if r.trap.inh then false
  else match r.loops with
    | [] => false
    | e :: _ => decide (k ≤ e.i ∧ e.i - k < e.count)

/-- effect(c) of R294; `lane` says that the op stands in a lane slot or that the resident is a wave. -/
def Resident.effect (r : Resident) (lane : Bool) (p : Pred) (c : Nat) : Bool :=
  (!r.simt || r.active.getLsbD c) &&
  (match p with
    | .always => true
    | .reg n neg => (r.predBit (if lane then c else 0) n) != neg
    | .gate k => r.gate k)

/-- An instruction that executes once for the wave, or stands in a slot that is no lane slot, is taken (R50, R296). -/
def Issue.taken (q : Issue) (p : Pred) : Bool :=
  if q.res.simt then (match q.res.activeLanes with
    | [] => false
    | c :: _ => q.res.effect true p c)
  else q.res.effect (decide (q.slot < 16)) p (if q.slot < 16 then q.slot else 0)

/-- The lane whose registers a once-executed instruction reads: the lowest active thread; in a bundle cluster 0, whose y0 and
y1 and whose %lane a scalar op reads, where R50 and R290 name no cluster. DESIGN CHOICE: log entry 32. -/
def Issue.onceLane (q : Issue) : Nat :=
  if q.res.simt then q.res.activeLanes.headD 0 else if q.slot < 16 then q.slot else 0

/-- The lanes an instruction takes effect in (R50, R52, R294): one for a scalar destination, one for an op of a bundle. -/
def Issue.lanes (q : Issue) (p : Pred) (once : Bool) : List Nat :=
  if q.res.simt && !once then q.res.activeLanes.filter fun c => q.res.effect true p c
  else if q.taken p then [q.onceLane] else []

/-- The mask of a list of lanes. -/
def laneMask (cs : List Nat) : Nat := cs.foldl (fun m c => m ||| 2 ^ c) 0

/-! ### Where an instruction may stand (R290) -/

/-- A predicate field is legal for the mode: gates are VLIW only (R52). -/
def predOk (r : Resident) : Pred → Bool
  | .gate _ => !r.simt
  | _ => true

/-- The integer family (R290): any thread; a lane slot with a lane destination or a predicate; the scalar slot when D is
of the scalar class and no source is of the vector or operand-file class. -/
def Issue.intPlace (q : Issue) (d : Dst) (srcs : List Src) : Bool :=
  q.res.simt || (if q.slot < 16 then !dstScalar d else q.slot == 16 && dstScalar d && !srcs.any srcLane)

/-- Instructions that stand in lane slots alone (R290). -/
def Issue.lanePlace (q : Issue) (d : Dst) : Bool := q.res.simt || (decide (q.slot < 16) && !dstScalar d)

/-- Memory instructions (R290): a lane slot, or the scalar slot when every register operand is scalar. -/
def Issue.memPlace (q : Issue) (dScalar : Bool) (allScalar : Bool) : Bool :=
  q.res.simt || (if q.slot < 16 then !dScalar else q.slot == 16 && allScalar)

/-- Instructions of one VLIW slot that are legal in SIMT too. -/
def Issue.slotPlace (q : Issue) (slots : List Nat) : Bool := q.res.simt || slots.contains q.slot

/-- Scalar-slot instructions with no SIMT form, and SIMT instructions with no VLIW form. -/
def Issue.vliwScalar (q : Issue) : Bool := !q.res.simt && q.slot == 16
def Issue.simtOnly (q : Issue) : Bool := q.res.simt

/-! ### Special registers (R292, R293) -/

/-- The threads' index in the launch (R293): per thread for a record in SIMT mode, one for the whole wide thread
otherwise. -/
def Resident.tid (r : Resident) (c : Nat) : Nat := if r.launch.simt then r.tid0 + c else r.tid0

/-- The product of the extents of levels below k (R293). -/
def extentBelow (ls : List Level) (k : Nat) : Nat := (ls.take k).foldl (fun a l => a * l.extent) 1

/-- %lvlk (R40). -/
def lvlIndex (ls : List Level) (k tid : Nat) : Nat :=
  match ls[k]? with
  | none => 0
  | some l => tid / extentBelow ls k % l.extent

/-- The index of the level-k unit a thread belongs to, counted over the whole launch. -/
def unitIndex (ls : List Level) (k tid : Nat) : Nat := tid / extentBelow ls k

/-- %tcause (R200). -/
def Trap.cause (t : Trap) : Word :=
  BitVec.ofNat 32 (t.code + bitNat t.inh * 2 ^ 28 + bitNat t.emu * 2 ^ 29 + bitNat t.defer * 2 ^ 30 + bitNat t.eng * 2 ^ 31)

/-- %mprog (R147): the resident's oldest outstanding `mma`. -/
def State.mprog (s : State) (r : Resident) : Word :=
  match (s.coreAt r.core).mq.find? fun m => m.rid == r.rid && m.flag.isSome with
  | some m => BitVec.ofNat 32 (2 ^ 22 + m.tile * 2 ^ 16 + m.prog)
  | none => 0

/-- %carve (R98). -/
def Core.carve (c : Core) : Word :=
  BitVec.ofNat 32 (c.carveCur + c.carveReq * 4 + bitNat c.carvePend * 64 + c.carveStatus * 128)

/-- The quarter a column set starts at (R193). -/
def Resident.quarter (r : Resident) : Nat := match r.launch.shape with | 0 => 0 | 1 => 2 * r.slot | _ => r.slot

/-- Two rows give a quarter to the same tenant and divide its lane group alike (R185). -/
def Row.sameOwner (a b : Row) (core lgrp q : Nat) : Bool :=
  a.owner core lgrp q == b.owner core lgrp q && a.division core lgrp == b.division core lgrp

/-- Whole µs from the end of the current row until a row at whose edge the reader's resource changes owner (R181, R185). -/
def ownerRun (rows : List Row) (row : Row) (core lgrp q : Nat) : List Nat → Option Nat
  | [] => none
  | k :: ks =>
    match rows[k]? with
    | none => none
    | some r => if row.sameOwner r core lgrp q then (ownerRun rows row core lgrp q ks).map (· + r.dur) else some 0

/-- Where a resident stands on what its tenant has as donated slack, the µs of the row after which it has it no more (R188, R190). -/
def State.loanEnd (s : State) (row : Row) (r : Resident) : Option Nat :=
  match row.owner r.core r.lgrp r.quarter with
  | none => none
  | some t =>
    let pays := fun d : Debit => d.due && d.tenant == t && d.core == r.core && d.quarters.contains (4 * r.lgrp + r.quarter)
    if t = r.launch.tenant ∨ s.holder r.core r.lgrp r.quarter ≠ some r.launch.tenant then none
    else if s.rota.donated.contains t then some row.dur
    else some (min row.dur (((s.rota.debits.filter pays).map Debit.us).foldl max 0))

/-- %slot (R181). With no row in force the row reads 0, as it does in ROTA_STAT. DESIGN CHOICE: log entry 38. -/
def State.slotReg (s : State) (r : Resident) : Word :=
  match s.rowNow with
  | none => BitVec.ofNat 32 65535
  | some row =>
    let n := s.rota.rows.length
    let order := (List.range n).map fun k => (s.rota.row + 1 + k) % n
    let stays := row.owner r.core r.lgrp r.quarter == some 0 && (row.division r.core r.lgrp).isNone
    let here := (s.rota.since + row.dur * 700 - s.timebase) / 700
    let left := match s.loanEnd row r with
      | some us => (s.rota.since + us * 700 - s.timebase) / 700
      | none =>
        if s.rota.state = 3 then (if stays then 65535 else here)
        else match ownerRun s.rota.rows row r.core r.lgrp r.quarter order with
          | some us => (s.rota.since + (row.dur + us) * 700 - s.timebase) / 700
          | none => 65535
    BitVec.ofNat 32 (s.rota.row * 2 ^ 16 + min left 65535)

/-- A counter of a tenant (R195); those that count cycles or served traffic are free values (log entry 7). -/
def State.counterOf (s : State) (t k : Nat) : Nat :=
  if k = 0 ∨ k = 2 ∨ k = 3 ∨ k = 10 ∨ k = 11 then Config.timingCounter s.fresh s.timebase t k % 2 ^ 64
  else (s.counters.getD t []).getD k 0

/-- %occ (R195). -/
def State.occ (s : State) (t slice : Nat) : Nat :=
  if slice < 1536 then (s.l2.filter fun l => l.slice == slice && l.tenant == t).length else 0

/-- A special register as `csrr` reads it in lane c (R49, R292, R293). -/
def State.csrValue (s : State) (r : Resident) (c n : Nat) : Word :=
  let ctx := s.ctxOf r
  let w := fun k : Nat => BitVec.ofNat 32 k
  if 0x08 ≤ n ∧ n ≤ 0x0F then w (lvlIndex r.launch.levels (n - 8) (r.tid c))
  else if 0x20 ≤ n ∧ n ≤ 0x2F then (s.ringOf r.core (n - 0x20)).cfg
  else if 0x30 ≤ n ∧ n ≤ 0x3F then (s.ringOf r.core (n - 0x30)).stat
  else match n with
    | 0x00 => w (r.firstLane + c)
    | 0x01 => w r.lgrp
    | 0x02 => w r.core
    | 0x03 => w (hamOf r.core)
    | 0x04 => w (dieOf r.core)
    | 0x05 => w (r.tid c)
    | 0x06 => w r.slot
    | 0x07 => w r.launch.tenant
    | 0x10 => w r.count
    | 0x11 => r.clkh
    | 0x12 => w r.launch.frame
    | 0x13 => w (r.launch.frame / 2 ^ 32)
    | 0x14 => r.fflags.zeroExtend 32
    | 0x15 => s.mprog r
    | 0x16 => r.cstat.zeroExtend 32
    | 0x17 => s.slotReg r
    | 0x18 => w r.ectrsel
    | 0x19 => w (s.counterOf r.launch.tenant r.ectrsel)
    | 0x1A => r.ectrhi
    | 0x1B => w r.occsel
    | 0x1C => w (s.occ r.launch.tenant r.occsel)
    | 0x1D => ctx.emuvec.setWidth 32
    | 0x1E => w (ctx.emuvec.toNat / 2 ^ 32)
    | 0x100 => ctx.tvec.setWidth 32
    | 0x101 => w (ctx.tvec.toNat / 2 ^ 32)
    | 0x102 => r.trap.cause
    | 0x103 => hdrLo r.trap.tpc
    | 0x104 => w (r.trap.tpc / 2 ^ 32 % 2 ^ 24)
    | 0x105 => r.trap.i0
    | 0x106 => r.trap.i1
    | 0x107 => r.trap.i2
    | 0x108 => r.trap.i3
    | 0x109 => r.trap.prog
    | 0x10A => (s.coreAt r.core).carve
    | 0x10B => ctx.fwait.zeroExtend 32
    | 0x10C => w (ctx.wdlimit + bitNat ctx.wden * 2 ^ 31)
    | 0x10D => w ctx.wdcnt
    | 0x10E => w (bitNat ctx.tctl)
    | _ => 0

/-- Registers user level may not read (R292). -/
def csrHidden (n : Nat) : Bool := n == 0x100 || n == 0x101 || n == 0x10B || n == 0x10C || n == 0x10E

/-- A read of %clk latches %clkh, a read of %ectrlo latches %ectrhi (R195, R293). -/
def State.latchCsr (s : State) (n : Nat) (r : Resident) : Resident :=
  if n = 0x10 then { r with clkh := BitVec.ofNat 32 (r.count / 2 ^ 32) }
  else if n = 0x19 then { r with ectrhi := BitVec.ofNat 32 (s.counterOf r.launch.tenant r.ectrsel / 2 ^ 32) }
  else r

/-! ### Reading sources (R49, R294) -/

/-- opnd(s, c): the value of a source in a lane. -/
def State.opnd (s : State) (r : Resident) (as_ : ImmAs) (a : Src) (c : Nat) : Word :=
  match a with
  | .v n => r.regs.read (.v c n)
  | .o n => r.regs.read (.o c n)
  | .y n => r.regs.read (.y c n)
  | .s n => r.regs.read (.s n)
  | .special n => s.csrValue r c n
  | .imm k => immValue as_ k
  | .p n => r.regs.read (.p c n)

/-- opnd64(s, c): a pair, the first register high (R46). -/
def State.opnd64 (s : State) (r : Resident) (a : Src) (c : Nat) : DWord :=
  pairOf (s.opnd r .int a c) (s.opnd r .int (Src.next a) c)

/-- The poison mark of a source in a lane (R209). -/
def Resident.srcPoison (r : Resident) (a : Src) (c : Nat) : Bool :=
  match a with
  | .v n => r.regs.poisoned (.v c n)
  | .o n => r.regs.poisoned (.o c n)
  | .s n => r.regs.poisoned (.s n)
  | _ => false

/-- Code 12 for the sources read in these lanes (R209, R321): one cause for each source, its mask naming the lanes. -/
def Resident.poisonCauses (r : Resident) (srcs : List Src) (cs : List Nat) : List Cause :=
  srcs.filterMap fun a =>
    let bad := cs.filter fun c => r.srcPoison a c
    if bad.isEmpty then none else some (mkCause 12 (BitVec.ofNat 32 (encSrc a)) 0 (BitVec.ofNat 32 (laneMask bad)) 0)

/-- Reads of scalar registers by number. -/
def Resident.sreg (r : Resident) (n : Nat) : Word := r.regs.read (.s n)

/-- A scalar pair. -/
def Resident.sregPair (r : Resident) (n : Nat) : DWord := pairOf (r.sreg n) (r.sreg (n + 1))

/-- Scalar registers n to n + k − 1 lie below the allotment. -/
def Resident.scalarsOk (r : Resident) (n k : Nat) : Bool := decide (n + k ≤ r.allotS)

/-- Code 12 for scalar registers read once. -/
def Issue.scalarPoison (q : Issue) (p : Pred) (ns : List Nat) : List Cause :=
  if q.taken p then q.res.poisonCauses (ns.map Src.s) [q.onceLane] else []

/-- The latches that reading these sources sets (R49: a specifier reads as `csrr` would). -/
def State.latchSrcs (s : State) (srcs : List Src) (r : Resident) : Resident :=
  srcs.foldl (fun r a => match a with
    | .special n => s.latchCsr n r
    | _ => r) r

/-! ### Register results (R321) -/

/-- What one lane's result is: the words written to the destination registers, the words shifted into the last-result
file when the destination is a lane register, and the conditions. -/
structure Result where
  words : List Word
  ys : List Word
  ff : FFlags
  deriving DecidableEq, Repr

/-- A result of one word that also shifts the last-result file. -/
def Result.one (x : Word) (ff : FFlags) : Result := { words := [x], ys := [x], ff := ff }

/-- A result that leaves the last-result file alone. -/
def Result.plain (x : Word) : Result := { words := [x], ys := [], ff := 0 }

/-- The cells a result writes in a lane: the destination and, for a second word, the register after it. -/
def resultCells (d : Dst) (c : Nat) : List Word → List RegCell
  | [] => []
  | x :: xs => { reg := dstReg d c, val := x, poison := false } :: resultCells (Dst.next d) c xs

/-- Write the results of the lanes, each computed from the registers as they stood at issue. -/
def Resident.writeLanes (r : Resident) (lat : Nat) (d : Dst) (f : Nat → Result) (cs : List Nat) : Resident :=
  cs.foldl (fun r c =>
    let x := f c
    r.after lat c (resultCells d c x.words) (if dstLane d then x.ys else []) x.ff) r

/-- The common shape of an instruction that computes registers from registers: `legal` is what the word and the resident
alone decide, `reads` are the registers whose poison it consumes, `f` the result in a lane. -/
def State.compute (s : State) (legal : Issue → Bool) (p : Pred) (lat : Nat) (d : Dst) (reads : List Src)
    (f : State → Resident → Nat → Result) : State :=
  match s.iss with
  | none => s
  | some q =>
    let cs := q.lanes p (dstScalar d)
    s.attempt (q.illegalIf (!(legal q && predOk q.res p)) ++ q.res.poisonCauses reads cs) false fun q s =>
      s.modCur fun r =>
        (if cs.isEmpty then id else s.latchSrcs reads) (r.writeLanes lat d (f s q.res) cs)

/-- All sources and the destination lie within the allotments. -/
def Resident.within (r : Resident) (d : Dst) (srcs : List Src) : Bool := r.dstOk d && srcs.all r.srcOk

/-- Integer-family instructions of one-word sources and result (R290, R321). -/
def State.intOp (s : State) (p : Pred) (lat : Nat) (d : Dst) (srcs : List Src) (f : List Word → Result) : State :=
  s.compute (fun q => q.intPlace d srcs && q.res.within d srcs) p lat d srcs fun s r c => f (srcs.map fun a => s.opnd r .int a c)

/-- Instructions of the lane-only families (R290): floating point, packed halves, special functions. -/
def State.laneOp (s : State) (as_ : ImmAs) (p : Pred) (lat : Nat) (d : Dst) (srcs : List Src) (f : List Word → Result) : State :=
  s.compute (fun q => q.lanePlace d && q.res.within d srcs) p lat d srcs fun s r c => f (srcs.map fun a => s.opnd r as_ a c)

/-- Write one scalar register of the issuing resident, latency 1 (R296). -/
def Resident.setScalar (r : Resident) (n : Nat) (x : Word) : Resident :=
  r.after 1 0 [{ reg := .s n, val := x, poison := false }] [] 0

/-- Write a scalar pair, latency 1. -/
def Resident.setScalarPair (r : Resident) (n : Nat) (x : DWord) : Resident :=
  r.after 1 0 [{ reg := .s n, val := hiWord x, poison := false }, { reg := .s (n + 1), val := loWord x, poison := false }] [] 0

/-- The common shape of an instruction that acts once for the wave or stands in a scalar, matrix or copy slot: `legal`
is judged whether or not it is taken, `causes` and `held` only when it is (R52). -/
def State.onceAs (name : Issue → Cause → Cause) (s : State) (slots : List Nat) (p : Pred) (legal : Issue → Bool) (reads : List Nat)
    (causes : Issue → State → List Cause) (held : Issue → State → Bool) (k : Issue → State → State) : State :=
  match s.iss with
  | none => s
  | some q =>
    let ok := q.slotPlace slots && predOk q.res p && legal q
    let t := q.taken p
    s.attemptAs name (q.illegalIf (!ok) ++ q.scalarPoison p reads ++ (if t && ok then causes q s else [])) (t && held q s) []
      fun q s => if t then k q s else s

/-- With the masks of R199. -/
def State.once (s : State) (slots : List Nat) (p : Pred) (legal : Issue → Bool) (reads : List Nat)
    (causes : Issue → State → List Cause) (held : Issue → State → Bool) (k : Issue → State → State) : State :=
  State.onceAs Issue.named s slots p legal reads causes held k

/-- The slots of R290. -/
def slotScalar : List Nat := [16]
def slotMatrix : List Nat := [17]
def slotCopy : List Nat := [18, 19]

end Sys2Proof.Machine
end

