-- ==== Sys2Proof/Machine/Flags.lean ====
section
/-! DEFINITION. Conditions and integer arithmetic of the lanes (R301, R336 to R343, R353, R361, R373): values computed
exactly as integers and narrowed at the end, comparison results, saturation. -/

namespace Sys2Proof.Machine

/-- The word of a truth value (R339). -/
def boolWord (b : Bool) : Word := if b then 1 else 0

/-- The conditions of `icmp` (R339). -/
def ICond.holds (cc : ICond) (a b : Word) : Bool :=
  match cc with
  | .eq => a == b
  | .ne => a != b
  | .lt => a.slt b
  | .le => a.sle b
  | .gt => b.slt a
  | .ge => b.sle a
  | .ltu => a.ult b
  | .leu => a.ule b
  | .gtu => b.ult a
  | .geu => b.ule a

/-- Saturate an exact result to the signed 32-bit range. -/
def satWord (x : Int) : Word := ofInt32 (satInt (-(2 ^ 31 : Nat)) ((2 ^ 31 : Nat) - 1) x)

/-- Number of leading zeros (R301): 32 for 0. -/
def clzWord (x : Word) : Nat := if x = 0 then 32 else 31 - Nat.log2 x.toNat

/-- Number of one bits (R361). -/
def popcWord (x : Word) : Nat := ((List.range 32).filter fun k => x.getLsbD k).length

/-- The bits in reverse order (R301). -/
def brevWord (x : Word) : Word := (List.range 32).foldl (fun a k => if x.getLsbD k then a ||| BitVec.ofNat 32 (2 ^ (31 - k)) else a) 0

end Sys2Proof.Machine
end

