-- ==== Sys2Proof/Machine/Integer.lean ====
section
/-! DEFINITION. Moves and the integer family: one meaning for each instruction, each a function of operand values over
the shared shape `intOp` (R300, R301, R336 to R340, R343, R353, R359 to R361, R370, R373). -/

namespace Sys2Proof.Machine

/-- The outcome type of every meaning. -/
abbrev Out := Host.Outcome State Fault Refusal

/-- The n-th operand value. -/
def arg (xs : List Word) (n : Nat) : Word := xs.getD n 0

/-- An integer result: it shifts the last-result file and raises nothing (R47). -/
def intRes (x : Word) : Result := Result.one x 0

/-- An unary integer instruction. -/
def State.int1 (s : State) (p : Pred) (d : Dst) (a : Src) (f : Word → Word) : State :=
  s.intOp p 1 d [a] fun xs => intRes (f (arg xs 0))

/-- A binary integer instruction. -/
def State.int2 (s : State) (p : Pred) (d : Dst) (a b : Src) (f : Word → Word → Word) : State :=
  s.intOp p 1 d [a, b] fun xs => intRes (f (arg xs 0) (arg xs 1))

/-- A ternary integer instruction. -/
def State.int3 (s : State) (p : Pred) (d : Dst) (a b c : Src) (f : Word → Word → Word → Word) : State :=
  s.intOp p 1 d [a, b, c] fun xs => intRes (f (arg xs 0) (arg xs 1) (arg xs 2))

/-- `nop` (R360): any place of a clause, any lane slot or the scalar slot; no effect. -/
def execNop (p : Pred) (s : State) : Out :=
  .next (match s.iss with
    | none => s
    | some q => s.attempt (q.illegalIf (!((q.res.simt || decide (q.slot ≤ 16)) && predOk q.res p))) false fun _ s => s)

/-- `mov` (R359). -/
def execMov (p : Pred) (d : Dst) (a : Src) (s : State) : Out := .next (s.int1 p d a fun x => x)

/-- `movi` (R359). -/
def execMovi (p : Pred) (d : Dst) (k : Word) (s : State) : Out := .next (s.intOp p 1 d [] fun _ => intRes k)

/-- `sel` (R370): the condition operand, negated for `.n`, picks one of two. -/
def selWord (neg : Bool) (a b c : Word) : Word := if (c != 0) != neg then a else b

/-- `sel` (R370). -/
def execSel (p : Pred) (d : Dst) (a b c : Src) (neg : Bool) (s : State) : Out := .next (s.int3 p d a b c (selWord neg))

/-- Both words of a 64-bit result; the last-result file takes the high word, then the low (R338). -/
def pairRes (x : DWord) : Result := { words := [hiWord x, loWord x], ys := [hiWord x, loWord x], ff := 0 }

/-- The shape of `lea` and `iadd64` (R338, R353): pairs of one class, a second operand of one word or a pair. -/
def State.pairOp (s : State) (p : Pred) (d : Dst) (a b : Src) (bPair : Bool) (f : DWord → Word → Word → DWord) : State :=
  let reads := [a, Src.next a, b] ++ (if bPair then [Src.next b] else [])
  s.compute (fun q => q.intPlace d reads && q.res.within d reads && q.res.dstOk (Dst.next d)) p 1 d reads
    fun s r c => pairRes (f (s.opnd64 r a c) (s.opnd r .int b c) (s.opnd r .int (Src.next b) c))

/-- Extend one word to 64 bits. -/
def extWord (sx : Bool) (x : Word) : DWord := if sx then x.signExtend 64 else x.zeroExtend 64

/-- `lea` (R353). -/
def execLea (p : Pred) (d : Dst) (a b : Src) (sh : Nat) (sx : Bool) (s : State) : Out :=
  .next (s.pairOp p d a b false fun x y _ => x + (extWord sx y <<< sh))

/-- `iadd` (R336): wraps, or clamps to the signed range. -/
def addWord (sat : Bool) (a b : Word) : Word := if sat then satWord (a.toInt + b.toInt) else a + b

/-- `iadd` (R336). -/
def execIadd (p : Pred) (d : Dst) (a b : Src) (sat : Bool) (s : State) : Out := .next (s.int2 p d a b (addWord sat))

/-- The B operand of `iadd64` as 64 bits (R337, R338). -/
def ext64 (ext : Ext64) (hi lo : Word) : DWord :=
  match ext with
  | .zx => hi.zeroExtend 64
  | .sx => hi.signExtend 64
  | .pair => pairOf hi lo

/-- `iadd64` (R337, R338). -/
def execIadd64 (p : Pred) (d : Dst) (a b : Src) (ext : Ext64) (s : State) : Out :=
  .next (s.pairOp p d a b (ext == .pair) fun x hi lo => x + ext64 ext hi lo)

/-- `imul` (R343). -/
def execImul (p : Pred) (d : Dst) (a b : Src) (s : State) : Out := .next (s.int2 p d a b fun x y => x * y)

/-- Bits 63 to 32 of the exact product (R343). -/
def mulHi (u : Bool) (a b : Word) : Word :=
  if u then BitVec.ofNat 32 (a.toNat * b.toNat / 2 ^ 32) else BitVec.ofInt 32 (a.toInt * b.toInt / 2 ^ 32)

/-- `imulhi` (R343). -/
def execImulhi (p : Pred) (d : Dst) (a b : Src) (u : Bool) (s : State) : Out := .next (s.int2 p d a b (mulHi u))

/-- `imad` (R343). -/
def execImad (p : Pred) (d : Dst) (a b c : Src) (s : State) : Out := .next (s.int3 p d a b c fun x y z => x * y + z)

/-- The magnitude of a signed word; the most negative one gives itself, or the largest with `.sat` (R336). -/
def absWord (sat : Bool) (a : Word) : Word := if sat then satWord a.toInt.natAbs else if a.msb then -a else a

/-- `iabs` (R336). -/
def execIabs (p : Pred) (d : Dst) (a : Src) (sat : Bool) (s : State) : Out := .next (s.int1 p d a (absWord sat))

/-- The order of `imin` and `imax` (R336). -/
def ltWord (u : Bool) (a b : Word) : Bool := if u then a.ult b else a.slt b

/-- `imin` (R336). -/
def execImin (p : Pred) (d : Dst) (a b : Src) (u : Bool) (s : State) : Out :=
  .next (s.int2 p d a b fun x y => if ltWord u y x then y else x)

/-- `imax` (R336). -/
def execImax (p : Pred) (d : Dst) (a b : Src) (u : Bool) (s : State) : Out :=
  .next (s.int2 p d a b fun x y => if ltWord u x y then y else x)

/-- `and` (R301). -/
def execAnd (p : Pred) (d : Dst) (a b : Src) (s : State) : Out := .next (s.int2 p d a b fun x y => x &&& y)

/-- `or` (R361). -/
def execOr (p : Pred) (d : Dst) (a b : Src) (s : State) : Out := .next (s.int2 p d a b fun x y => x ||| y)

/-- `xor` (R373). -/
def execXor (p : Pred) (d : Dst) (a b : Src) (s : State) : Out := .next (s.int2 p d a b fun x y => x ^^^ y)

/-- `andn` (R301). -/
def execAndn (p : Pred) (d : Dst) (a b : Src) (s : State) : Out := .next (s.int2 p d a b fun x y => x &&& ~~~y)

/-- `shl` reads all 32 bits of its amount (R373). -/
def shlWord (a b : Word) : Word := a <<< b.toNat

/-- `shr` and `shr.s` read all 32 bits of their amount (R373). -/
def shrWord (arith : Bool) (a b : Word) : Word := if arith then a.sshiftRight b.toNat else a >>> b.toNat

/-- `shl` (R373). -/
def execShl (p : Pred) (d : Dst) (a b : Src) (s : State) : Out := .next (s.int2 p d a b shlWord)

/-- `shr` (R373). -/
def execShr (p : Pred) (d : Dst) (a b : Src) (arith : Bool) (s : State) : Out := .next (s.int2 p d a b (shrWord arith))

/-- Rotation by the low five bits of the amount (R361). -/
def rotWord (right : Bool) (a b : Word) : Word :=
  if right then a.rotateRight (b.toNat % 32) else a.rotateLeft (b.toNat % 32)

/-- `rot` (R361). -/
def execRot (p : Pred) (d : Dst) (a b : Src) (right : Bool) (s : State) : Out := .next (s.int2 p d a b (rotWord right))

/-- `clz` (R301). -/
def execClz (p : Pred) (d : Dst) (a : Src) (s : State) : Out := .next (s.int1 p d a fun x => BitVec.ofNat 32 (clzWord x))

/-- `popc` (R361). -/
def execPopc (p : Pred) (d : Dst) (a : Src) (s : State) : Out := .next (s.int1 p d a fun x => BitVec.ofNat 32 (popcWord x))

/-- `brev` (R301). -/
def execBrev (p : Pred) (d : Dst) (a : Src) (s : State) : Out := .next (s.int1 p d a brevWord)

/-- Position and clipped width of a control word (R301). -/
def fieldPos (ctl : Word) : Nat := fld ctl.toNat 0 5
def fieldWidth (ctl : Word) : Nat := min (fld ctl.toNat 8 6) (32 - fieldPos ctl)

/-- `bfx` (R301). -/
def extractWord (sx : Bool) (a ctl : Word) : Word :=
  let w := fieldWidth ctl
  let x := a.toNat / 2 ^ fieldPos ctl % 2 ^ w
  if w = 0 then 0 else if sx then ofInt32 (sint w x) else BitVec.ofNat 32 x

/-- `bfi` (R301): a into b. -/
def insertWord (a b ctl : Word) : Word :=
  let w := fieldWidth ctl
  let mask : Word := BitVec.ofNat 32 ((2 ^ w - 1) * 2 ^ fieldPos ctl)
  (b &&& ~~~mask) ||| ((a <<< fieldPos ctl) &&& mask)

/-- `bfx` (R301). -/
def execBfx (p : Pred) (d : Dst) (a ctl : Src) (sx : Bool) (s : State) : Out := .next (s.int2 p d a ctl (extractWord sx))

/-- `bfi` (R301). -/
def execBfi (p : Pred) (d : Dst) (a base ctl : Src) (s : State) : Out := .next (s.int3 p d a base ctl insertWord)

/-- A compare's result: a predicate destination leaves the last-result file alone (R47, R339). -/
def cmpRes (b : Bool) (ff : FFlags) : Result := Result.one (boolWord b) ff

/-- `icmp` (R339): a scalar destination in SIMT alone (R326). -/
def execIcmp (p : Pred) (d : Dst) (a b : Src) (cc : ICond) (s : State) : Out :=
  .next (s.laneOp .int p 1 d [a, b] fun xs => cmpRes (ICond.holds cc (arg xs 0) (arg xs 1)) 0)

/-- An element of `idp4` as an exact integer (R340). -/
def dpElem (signed : Bool) (x : Word) (i : Nat) : Int :=
  let b := fld x.toNat (8 * i) 8
  if signed then sint 8 b else b

/-- `idp4` (R340). -/
def dp4Word (k : Dp4) (a b c : Word) : Word :=
  let sa := k != .uu
  let sb := k == .ss
  c + BitVec.ofInt 32 ((List.range 4).foldl (fun t i => t + dpElem sa a i * dpElem sb b i) 0)

/-- `idp4` (R340). -/
def execIdp4 (p : Pred) (d : Dst) (a b c : Src) (k : Dp4) (s : State) : Out := .next (s.int3 p d a b c (dp4Word k))

end Sys2Proof.Machine
end

