-- ==== Sys2Proof/Machine/Floating.lean ====
section
/-! DEFINITION. Floating point, packed halves and special functions (R324 to R335): each a function of codes from
`Float` over the shared shape `laneOp`. -/

namespace Sys2Proof.Machine

/-- A floating-point result as a register result. -/
def floatRes (r : Nat × FFlags) : Result := Result.one (BitVec.ofNat 32 r.1) r.2

/-- A two-operand FP32 instruction of latency 4 (R325). -/
def State.float2 (s : State) (p : Pred) (d : Dst) (a b : Src) (f : Nat → Nat → Nat × FFlags) : State :=
  s.laneOp .f32 p 4 d [a, b] fun xs => floatRes (f (arg xs 0).toNat (arg xs 1).toNat)

/-- `fadd` (R325). -/
def execFadd (p : Pred) (d : Dst) (a b : Src) (m : RoundMode) (s : State) : Out := .next (s.float2 p d a b (addF fmtF32 m))

/-- `fsub` (R325). -/
def execFsub (p : Pred) (d : Dst) (a b : Src) (m : RoundMode) (s : State) : Out := .next (s.float2 p d a b (subF fmtF32 m))

/-- `fmul` (R325). -/
def execFmul (p : Pred) (d : Dst) (a b : Src) (m : RoundMode) (s : State) : Out := .next (s.float2 p d a b (mulF fmtF32 m))

/-- `ffma` (R325): one rounding. -/
def execFfma (p : Pred) (d : Dst) (a b c : Src) (m : RoundMode) (s : State) : Out :=
  .next (s.laneOp .f32 p 4 d [a, b, c] fun xs =>
    floatRes (fmaF fmtF32 m (arg xs 0).toNat (arg xs 1).toNat (arg xs 2).toNat))

/-- `fmin` (R325). -/
def execFmin (p : Pred) (d : Dst) (a b : Src) (s : State) : Out := .next (s.float2 p d a b (minF fmtF32))

/-- `fmax` (R325). -/
def execFmax (p : Pred) (d : Dst) (a b : Src) (s : State) : Out := .next (s.float2 p d a b (maxF fmtF32))

/-- `fcmp` (R326): nv for a signalling NaN only. -/
def execFcmp (p : Pred) (d : Dst) (a b : Src) (cc : FCond) (s : State) : Out :=
  .next (s.laneOp .f32 p 4 d [a, b] fun xs =>
    cmpRes (cmpF fmtF32 cc (arg xs 0).toNat (arg xs 1).toNat) (snanFlag fmtF32 [(arg xs 0).toNat, (arg xs 1).toNat]))

/-- `fcvt` (R327 to R329). -/
def execFcvt (p : Pred) (d : Dst) (a : Src) (dt st : Fmt) (m : RoundMode) (s : State) : Out :=
  .next (s.laneOp (.fmt st) p 4 d [a] fun xs =>
    let r := convertF dt st m (arg xs 0)
    Result.one r.1 r.2)

/-- `frnd` (R329). -/
def execFrnd (p : Pred) (d : Dst) (a : Src) (m : RoundMode) (s : State) : Out :=
  .next (s.laneOp .f32 p 4 d [a] fun xs => floatRes (rndF m (arg xs 0).toNat))

/-- The halves of a register (R123). -/
def loHalf (x : Word) : Nat := x.toNat % 65536
def hiHalf (x : Word) : Nat := x.toNat / 65536

/-- Both halves computed on their own, their conditions merged (R335). -/
def packRes (lo hi : Nat × FFlags) : Result := Result.one (BitVec.ofNat 32 (hi.1 * 65536 + lo.1)) (lo.2 ||| hi.2)

/-- `hadd2` (R335). -/
def execHadd2 (p : Pred) (d : Dst) (a b : Src) (f : HalfFmt) (m : RoundMode) (s : State) : Out :=
  .next (s.laneOp (.half f) p 4 d [a, b] fun xs =>
    let op := addF (halfLayout f) m
    packRes (op (loHalf (arg xs 0)) (loHalf (arg xs 1))) (op (hiHalf (arg xs 0)) (hiHalf (arg xs 1))))

/-- `hmul2` (R335). -/
def execHmul2 (p : Pred) (d : Dst) (a b : Src) (f : HalfFmt) (m : RoundMode) (s : State) : Out :=
  .next (s.laneOp (.half f) p 4 d [a, b] fun xs =>
    let op := mulF (halfLayout f) m
    packRes (op (loHalf (arg xs 0)) (loHalf (arg xs 1))) (op (hiHalf (arg xs 0)) (hiHalf (arg xs 1))))

/-- The destination of `hfma2` read as a source (R334). -/
def dstSrc : Dst → Src
  | .v n => .v n
  | .o n => .o n
  | .s n => .s n
  | .p n => .p n

/-- `hfma2` (R334, R335): the destination is the addend. -/
def execHfma2 (p : Pred) (d : Dst) (a b : Src) (f : HalfFmt) (m : RoundMode) (s : State) : Out :=
  .next (s.laneOp (.half f) p 4 d [a, b, dstSrc d] fun xs =>
    let op := fmaF (halfLayout f) m
    packRes (op (loHalf (arg xs 0)) (loHalf (arg xs 1)) (loHalf (arg xs 2)))
      (op (hiHalf (arg xs 0)) (hiHalf (arg xs 1)) (hiHalf (arg xs 2))))

/-- The latency of a grade (R124). -/
def gradeLat : Grade → Nat
  | .f => 6
  | .a => 14

/-- A special function of one operand (R331). -/
def State.special1 (s : State) (fn : SFn) (p : Pred) (d : Dst) (a : Src) (g : Grade) (m : RoundMode) : State :=
  s.laneOp .f32 p (gradeLat g) d [a] fun xs => floatRes (specialF fn g m (arg xs 0).toNat 0)

/-- `frcp` (R331). -/
def execFrcp (p : Pred) (d : Dst) (a : Src) (g : Grade) (s : State) : Out := .next (s.special1 .rcp p d a g .rne)

/-- `frsq` (R331). -/
def execFrsq (p : Pred) (d : Dst) (a : Src) (g : Grade) (s : State) : Out := .next (s.special1 .rsq p d a g .rne)

/-- `fsqrt` (R331). -/
def execFsqrt (p : Pred) (d : Dst) (a : Src) (g : Grade) (m : RoundMode) (s : State) : Out :=
  .next (s.special1 .sqrt p d a g m)

/-- `fdiv` (R331). -/
def execFdiv (p : Pred) (d : Dst) (a b : Src) (g : Grade) (m : RoundMode) (s : State) : Out :=
  .next (s.laneOp .f32 p (gradeLat g) d [a, b] fun xs => floatRes (specialF .div g m (arg xs 0).toNat (arg xs 1).toNat))

/-- `fex2` (R331). -/
def execFex2 (p : Pred) (d : Dst) (a : Src) (g : Grade) (s : State) : Out := .next (s.special1 .ex2 p d a g .rne)

/-- `flg2` (R331). -/
def execFlg2 (p : Pred) (d : Dst) (a : Src) (g : Grade) (s : State) : Out := .next (s.special1 .lg2 p d a g .rne)

/-- `fsin` (R331). -/
def execFsin (p : Pred) (d : Dst) (a : Src) (g : Grade) (s : State) : Out := .next (s.special1 .sin p d a g .rne)

/-- `fcos` (R331). -/
def execFcos (p : Pred) (d : Dst) (a : Src) (g : Grade) (s : State) : Out := .next (s.special1 .cos p d a g .rne)

/-- `ftanh` (R331). -/
def execFtanh (p : Pred) (d : Dst) (a : Src) (g : Grade) (s : State) : Out := .next (s.special1 .tanh p d a g .rne)

/-- `fsigm` (R331). -/
def execFsigm (p : Pred) (d : Dst) (a : Src) (g : Grade) (s : State) : Out := .next (s.special1 .sigm p d a g .rne)

end Sys2Proof.Machine
end

