-- ==== Sys2Proof/Machine/Cross.lean ====
section
/-! DEFINITION. Predicate instructions (R362) and operations across the threads of a wave (R371, R372, R391, R392, R395,
R396) and across the clusters of a wide thread (R400 to R402). -/

namespace Sys2Proof.Machine

/-- A predicate instruction: a lane slot, its own predicates, no last result (R362). -/
def State.predOp (s : State) (p : Pred) (d : Dst) (srcs : List Src) (f : List Word → Bool) : State :=
  s.laneOp .int p 1 d srcs fun xs => Result.plain (boolWord (f xs))

/-- The truth of an operand, negated on demand (R362). -/
def truth (neg : Bool) (x : Word) : Bool := (x != 0) != neg

/-- `pand` (R362). -/
def execPand (p : Pred) (d : Dst) (a b : Src) (na nb : Bool) (s : State) : Out :=
  .next (s.predOp p d [a, b] fun xs => truth na (arg xs 0) && truth nb (arg xs 1))

/-- `por` (R362). -/
def execPor (p : Pred) (d : Dst) (a b : Src) (na nb : Bool) (s : State) : Out :=
  .next (s.predOp p d [a, b] fun xs => truth na (arg xs 0) || truth nb (arg xs 1))

/-- `pxor` (R362). -/
def execPxor (p : Pred) (d : Dst) (a b : Src) (na nb : Bool) (s : State) : Out :=
  .next (s.predOp p d [a, b] fun xs => truth na (arg xs 0) != truth nb (arg xs 1))

/-- `pmov` (R362). -/
def execPmov (p : Pred) (d : Dst) (a : Src) (na : Bool) (s : State) : Out :=
  .next (s.predOp p d [a] fun xs => truth na (arg xs 0))

/-- A member mask: one value for the wave, bits 15 to 0 (R372, R392, R396). -/
def State.member (s : State) (r : Resident) (m : Src) (k : Nat) : Bool := (s.opnd r .int m 0).getLsbD k

/-- The thread `shfl` reads from, where it lies in the wave (R372). -/
def shflFrom (mode : ShflMode) (lane : Nat) (b : Word) : Option Nat :=
  match mode with
  | .idx => some (b.toNat % 16)
  | .up => if b.toNat ≤ lane then some (lane - b.toNat) else none
  | .down => if lane + b.toNat < 16 then some (lane + b.toNat) else none
  | .xor => some (lane ^^^ (b.toNat % 16))

/-- The thread whose value thread `lane` receives (R372). -/
def State.shflSource (s : State) (r : Resident) (b m : Src) (mode : ShflMode) (lane : Nat) : Nat :=
  match shflFrom mode lane (s.opnd r .int b lane) with
  | some j => if s.member r m j then j else lane
  | none => lane

/-- `shfl` (R371, R372): SIMT only; a poisoned value counts where a writing thread receives it. -/
def execShfl (p : Pred) (d : Dst) (a b m : Src) (mode : ShflMode) (s : State) : Out :=
  .next (match s.iss with
    | none => s
    | some q =>
      let r := q.res
      let cs := (q.lanes p false).filter fun c => s.member r m c
      let bad := cs.filter fun c => r.srcPoison a (s.shflSource r b m mode c)
      let poison := (if bad.isEmpty then [] else
        [mkCause 12 (BitVec.ofNat 32 (encSrc a)) 0 (BitVec.ofNat 32 (laneMask bad)) 0]) ++
        r.poisonCauses [b] cs ++ r.poisonCauses [m] (q.lanes p false)
      s.attempt (q.illegalIf (!(q.simtOnly && predOk r p && r.within d [a, b, m])) ++ poison) false fun q s =>
        s.modCur fun r => (if (q.lanes p false).isEmpty then id else s.latchSrcs [b]) (r.writeLanes 2 d
          (fun c => Result.plain (s.opnd q.res .int a (s.shflSource q.res b m mode c))) cs))

/-- The ballot of a wave (R392): a named thread that does not take effect votes 0. -/
def State.ballot (s : State) (r : Resident) (p : Pred) (a m : Src) : Nat :=
  laneMask ((List.range 16).filter fun c => s.member r m c && r.effect true p c && s.opnd r .int a c != 0)

/-- `vote` (R391, R392). -/
def voteWord (mode : VoteMode) (b mask : Nat) : Word :=
  match mode with
  | .any => boolWord (b != 0)
  | .all => boolWord (b == mask)
  | .ballot => BitVec.ofNat 32 b
  | .uni => boolWord (b == 0 || b == mask)

/-- The shape of `vote` and `wred`: SIMT only, every thread of the mask contributes, the result is written in the threads
that take effect, or once for a scalar destination (R50). -/
def State.waveOp (s : State) (p : Pred) (lat : Nat) (d : Dst) (a m : Src) (f : State → Resident → Result) : State :=
  match s.iss with
  | none => s
  | some q =>
    let r := q.res
    let readers := (q.lanes p false).filter fun c => s.member r m c
    s.attempt (q.illegalIf (!(q.simtOnly && predOk r p && r.within d [a, m])) ++
        r.poisonCauses [a] readers ++ r.poisonCauses [m] (q.lanes p false)) false fun q s =>
      s.modCur fun r => (if (q.lanes p false).isEmpty then id else s.latchSrcs [a])
        (r.writeLanes lat d (fun _ => f s q.res) (q.lanes p (dstScalar d)))

/-- `vote` (R391, R392). -/
def execVote (p : Pred) (d : Dst) (a m : Src) (mode : VoteMode) (s : State) : Out :=
  .next (s.waveOp p 2 d a m fun s r =>
    Result.plain (voteWord mode (s.ballot r p a m) (laneMask ((List.range 16).filter fun c => s.member r m c))))

/-- The identity of a reduction (R396). -/
def redIdentity (op : RedOp) (ty : RedTy) : Word :=
  match op, ty with
  | .add, .f32 => 0x80000000
  | .min, .f32 => 0x7F800000
  | .max, .f32 => 0xFF800000
  | .add, _ => 0
  | .min, .i32 => 0x7FFFFFFF
  | .min, .u32 => 0xFFFFFFFF
  | .max, .i32 => 0x80000000
  | .max, .u32 => 0

/-- ⊕ of R396, with the conditions of a float step. -/
def redStep (op : RedOp) (ty : RedTy) (a b : Word) : Word × FFlags :=
  match ty with
  | .f32 =>
    let r := match op with
      | .add => addF fmtF32 .rne a.toNat b.toNat
      | .min => minF fmtF32 a.toNat b.toNat
      | .max => maxF fmtF32 a.toNat b.toNat
    (BitVec.ofNat 32 r.1, r.2)
  | t =>
    let lt := ltWord (t == .u32)
    (match op with
      | .add => a + b
      | .min => if lt b a then b else a
      | .max => if lt a b then b else a, 0)

/-- One level of the tree: t[i] ⊕ t[i + d] for i below d (R396). -/
def redLevel (op : RedOp) (ty : RedTy) (d : Nat) (t : List Word × FFlags) : List Word × FFlags :=
  let rs := (List.range d).map fun i => redStep op ty (t.1.getD i 0) (t.1.getD (i + d) 0)
  (rs.map Prod.fst, rs.foldl (fun f r => f ||| r.2) t.2)

/-- The whole tree (R396). -/
def redTree (op : RedOp) (ty : RedTy) (ts : List Word) : Word × FFlags :=
  let t := [8, 4, 2, 1].foldl (fun t d => redLevel op ty d t) (ts, 0)
  (t.1.headD 0, t.2)

/-- The term of a lane (R396). -/
def State.redTerm (s : State) (r : Resident) (p : Pred) (a m : Src) (op : RedOp) (ty : RedTy) (c : Nat) : Word :=
  if !s.member r m c then redIdentity op ty else if r.effect true p c then s.opnd r (if ty = .f32 then .f32 else .int) a c else 0

/-- `wred` (R395, R396). -/
def execWred (p : Pred) (d : Dst) (a m : Src) (op : RedOp) (ty : RedTy) (s : State) : Out :=
  .next (s.waveOp p 6 d a m fun s r =>
    let t := redTree op ty ((List.range 16).map fun c => s.redTerm r p a m op ty c)
    { words := [t.1], ys := [], ff := t.2 })

/-- The shape of `xmov` and `xbc` (R400, R401): a lane slot of a bundle; the source is read in cluster j. -/
def State.crossOp (s : State) (p : Pred) (d : Dst) (a m : Src) (j lat : Nat) (targets : State → Issue → List Nat) : State :=
  match s.iss with
  | none => s
  | some q =>
    let r := q.res
    let legal := !r.simt && decide (q.slot < 16) && decide (j < r.width) && r.within d [a, m]
    let t := q.taken p
    let poison := (if t && r.srcPoison a j then
        [mkCause 12 (BitVec.ofNat 32 (encSrc a)) 0 (BitVec.ofNat 32 (2 ^ q.slot)) 0] else []) ++
      (if t then r.poisonCauses [m] [q.slot] else [])
    s.attempt (q.illegalIf (!legal) ++ poison) false fun q s =>
      if t then s.modCur fun r => r.writeLanes lat d (fun _ => Result.plain (s.opnd q.res .int a j)) (targets s q) else s

/-- `xmov` (R400, R401). -/
def execXmov (p : Pred) (d : Dst) (a : Src) (j : Nat) (s : State) : Out :=
  .next (s.crossOp p d a (.imm 0) j 2 fun _ q => [q.slot])

/-- `xbc` (R400, R401): mask bits at or above the width are ignored. -/
def execXbc (p : Pred) (d : Dst) (a : Src) (j : Nat) (m : Src) (s : State) : Out :=
  .next (s.crossOp p d a m j 3 fun s q => q.res.lanes.filter fun c => s.member q.res m c)

end Sys2Proof.Machine
end

