-- ==== Sys2Proof/Machine/Control.lean ====
section
/-! DEFINITION. Control (R33, R34, R68 to R71, R305 to R309, R322, R323, R348, R354 to R356, R368, R385, R389). A
resident's `hdr` and `place` stand past the instruction when its meaning runs; a transfer sets them anew. -/

namespace Sys2Proof.Machine

/-- Words of a clause or bundle after its header (R53, R54). -/
def Issue.words (q : Issue) : Nat := if q.res.simt then q.hdr.count else q.hdr.slots.length

/-- `next_header()` of R286. -/
def Issue.nextHdr (q : Issue) : Nat := q.hdrAddr + 8 * (1 + q.words)

/-- `target(x)` of R286, modulo 2^64. -/
def Issue.target (q : Issue) (off : BitVec 32) : Nat := (BitVec.ofNat 64 q.hdrAddr + off.signExtend 64 * 8).toNat

/-- The rejoin address of `bdiv` (R286). -/
def Issue.rejoin (q : Issue) (off : BitVec 18) : Nat := (BitVec.ofNat 64 q.hdrAddr + off.signExtend 64 * 8).toNat

/-- The checks of a target (R286, R307). -/
def Issue.targetCauses (q : Issue) (t : Nat) : List Cause :=
  let mask := if q.res.simt then q.res.active.toNat else 1
  (if t % 8 = 0 then [] else [addrCause 3 t mask 0]) ++ (if t < 2 ^ 56 then [] else [addrCause 5 t mask 2])

/-- Move the resident to a header. The end bit of the clause or bundle still ends its fetch (R44). -/
def Issue.jump (q : Issue) (t : Nat) : Issue :=
  { q with res := { q.res with hdr := t, place := 0 }, moved := true }

/-- Legal as the last instruction of a clause (R55), or in the scalar slot. -/
def Issue.lastOrScalar (q : Issue) : Bool := if q.res.simt then q.idx + 1 == q.hdr.count else q.slot == 16

/-- The shape of a transfer (R307): target, registers read, and the pair that receives the link. -/
def State.transfer (s : State) (p : Pred) (reads : List Nat) (pairs : List Nat) (target : Issue → Nat) (link : Option Nat) : State :=
  s.once slotScalar p (fun q => q.lastOrScalar && pairs.all fun n => q.res.scalarsOk n 2) reads
    (fun q _ => q.targetCauses (target q)) (fun _ _ => false)
    fun q s =>
      let t := target q
      let s1 := match link with
        | some n => s.modCur fun r => r.setScalarPair n (BitVec.ofNat 64 q.nextHdr)
        | none => s
      s1.modIss fun q => q.jump t

/-- `bra` (R306, R307). -/
def execBra (p : Pred) (off : BitVec 32) (s : State) : Out := .next (s.transfer p [] [] (fun q => q.target off) none)

/-- `brx` (R306, R307). -/
def execBrx (p : Pred) (a : Nat) (s : State) : Out :=
  .next (s.transfer p [a, a + 1] [a] (fun q => (q.res.sregPair a).toNat) none)

/-- `call` (R306, R307). -/
def execCall (p : Pred) (off : BitVec 32) (link : Nat) (s : State) : Out :=
  .next (s.transfer p [] [link] (fun q => q.target off) (some link))

/-- `callr` (R306, R307): the target is read before the link is written. -/
def execCallr (p : Pred) (link a : Nat) (s : State) : Out :=
  .next (s.transfer p [a, a + 1] [link, a] (fun q => (q.res.sregPair a).toNat) (some link))

/-- `ret` (R368). -/
def execRet (p : Pred) (a : Nat) (s : State) : Out :=
  .next (s.transfer p [a, a + 1] [a] (fun q => (q.res.sregPair a).toNat) none)

/-! ### Divergence (R68, R323, R348) -/

/-- Once no thread is left on a path, control moves to the next pending mask or rejoin address with threads; none left
anywhere ends the fetch (R323). -/
def unwind : List DivEntry → Option (BitVec 16 × Nat × List DivEntry)
  | [] => none
  | e :: es =>
    if e.pending ≠ 0 then some (e.pending, e.pendingPc, { e with pending := 0 } :: es)
    else if e.outer ≠ 0 then some (e.outer, e.rejoin, es)
    else unwind es

/-- A wave continues where `unwind` says. -/
def Resident.unwindTo (r : Resident) (u : Option (BitVec 16 × Nat × List DivEntry)) : Resident :=
  match u with
  | some (a, pc, st) => { r with active := a, hdr := pc, place := 0, div := st }
  | none => { r with active := 0, div := [], ended := true }

/-- `join` on a stack that is not empty (R68, R348). -/
def Resident.joinTop (r : Resident) : Resident :=
  match r.div with
  | [] => r
  | e :: es =>
    if e.pending ≠ 0 then { r with active := e.pending, hdr := e.pendingPc, place := 0, div := { e with pending := 0 } :: es }
    else if e.outer ≠ 0 then { r with active := e.outer, hdr := e.rejoin, place := 0, div := es }
    else r.unwindTo (unwind es)

/-- The threads for which a predicate selects true (R68). -/
def Resident.taking (r : Resident) (p : Pred) : BitVec 16 :=
  BitVec.ofNat 16 (laneMask (r.activeLanes.filter fun c => r.effect true p c))

/-- Legal as the last instruction of a clause and nowhere else. -/
def Issue.simtLast (q : Issue) : Bool := q.res.simt && q.idx + 1 == q.hdr.count

/-- `bdiv` after its checks (R68). -/
def Resident.diverge (r : Resident) (t : BitVec 16) (target rejoin : Nat) : Resident :=
  let all := t == r.active
  let e : DivEntry := { rejoin := rejoin, outer := r.active, pending := if all then 0 else t, pendingPc := target }
  if all then { r with hdr := target, place := 0, div := e :: r.div }
  else
    let r' := { r with active := r.active &&& ~~~t, div := e :: r.div }
    if r'.active = 0 then r'.joinTop else r'

/-- `bdiv` (R68, R305). -/
def execBdiv (p : Pred) (off : BitVec 32) (rejoin : BitVec 18) (s : State) : Out :=
  .next (match s.iss with
    | none => s
    | some q =>
      let full := if q.res.div.length < 8 then [] else [mkCause 16 1 0 0 0]
      s.attempt (q.illegalIf (!(q.simtLast && predOk q.res p)) ++ full ++ q.targetCauses (q.target off)) false fun q s =>
        s.modIss fun q' =>
          { q' with res := q'.res.diverge (q.res.taking p) (q.target off) (q.rejoin rejoin), moved := q.res.taking p == q.res.active })

/-- `join` (R68, R348): a rejoin address beyond the address space, and one that is not aligned, is checked here. -/
def execJoin (s : State) : Out :=
  .next (match s.iss with
    | none => s
    | some q =>
      let causes := match q.res.div with
        | [] => [mkCause 16 2 0 0 0]
        | e :: _ => if e.pending = 0 ∧ e.outer ≠ 0 then q.targetCauses e.rejoin else []
      s.attempt (q.illegalIf (!q.simtLast) ++ causes) false fun _ s =>
        s.modIss fun q => { q with res := q.res.joinTop, moved := true })

/-- Remove threads from the masks of a stack (R68). -/
def dropThreads (x : BitVec 16) (st : List DivEntry) : List DivEntry :=
  st.map fun e => { e with outer := e.outer &&& ~~~x, pending := e.pending &&& ~~~x }

/-- `exit` for a set of threads (R323). -/
def Resident.exitThreads (r : Resident) (x : BitVec 16) : Resident :=
  let r1 := { r with
    active := r.active &&& ~~~x
    exited := r.exited ||| x
    div := dropThreads x r.div
    trap := { r.trap with hidden := r.trap.hidden.map fun h => { h with active := h.active &&& ~~~x, div := dropThreads x h.div } } }
  if r1.active = 0 then r1.unwindTo (unwind r1.div) else r1

/-! ### Loops (R69 to R71) -/

/-- The bound the code object's loop-bound table gives for an exit address (R182, R282). -/
def Context.loopBound (c : Context) (hdr exit : Nat) : Option Nat :=
  match c.codes.find? fun o => decide (o.lo ≤ hdr ∧ hdr < o.hi) with
  | some o => (o.bounds.find? fun b => b.1 == exit).map Prod.snd
  | none => none

/-- The push of a `loop` by the issuing resident: the bundle's other ops read the gates of the loop it stands in (R70). -/
def State.effLoop (s : State) (off : BitVec 32) (stages cnt : Nat) : State :=
  s.modIss fun q => { q with res := { q.res with
    loops := { start := q.nextHdr, exit := q.target off, count := (q.res.sreg cnt).toNat, stages := stages, i := 0 } :: q.res.loops } }

/-- `loop` (R69, R354, R355). One that does not take effect acts as a count of 0 (R52). -/
def execLoop (p : Pred) (off : BitVec 32) (stages cnt : Nat) (s : State) : Out :=
  .next (match s.iss with
    | none => s
    | some q =>
      let t := q.taken p
      let n := if t then (q.res.sreg cnt).toNat else 0
      let exit := q.target off
      let tooBig := match (s.ctxOf q.res).loopBound q.hdrAddr exit with
        | some b => decide (b < n)
        | none => false
      let stack := if n = 0 then [] else if 8 ≤ q.res.loops.length then [mkCause 16 1 0 0 0]
        else if tooBig then [mkCause 16 3 0 0 0] else []
      s.attempt (q.illegalIf (!(q.vliwScalar && predOk q.res p && !q.hdr.lend && q.res.scalarsOk cnt 1)) ++
          q.scalarPoison p [cnt] ++ q.targetCauses exit ++ stack) false fun _ s =>
        if n = 0 then s.modIss fun q => q.jump exit
        else s.atEnd (.loop p off stages cnt) fun s => s.effLoop off stages cnt)

/-- The effect of `lexit` for the issuing resident. -/
def State.effLexit (s : State) : State :=
  s.modIss fun q => match q.res.loops with
    | [] => q
    | e :: es => { q with res := { q.res with loops := es } }.jump e.exit

/-- `lexit` (R69, R354, R355). -/
def execLexit (p : Pred) (s : State) : Out :=
  .next (s.once slotScalar p Issue.vliwScalar [] (fun q _ => if q.res.loops.isEmpty then [mkCause 16 2 0 0 0] else [])
    (fun _ _ => false) fun _ s => s.atEnd (.lexit p) State.effLexit)

/-- The bundles a column set's share of the loop buffer holds (R71). -/
def loopShare (shape : Nat) : Nat := match shape with | 0 => 64 | 1 => 32 | _ => 16

/-- An address lies in a pinned range: at a bundle that is captured, or at the next that is to be. -/
def LoopPin.holds (p : LoopPin) (a : Nat) : Bool := p.bundles.any (fun b => b.1 == a) || (decide (0 < p.left) && p.next == a)

/-- A resident holds the loop buffer until its program counter leaves the pinned range (R71), or its fetch has ended. -/
def Resident.pins (r : Resident) : Bool := !r.ended && r.pin.any fun p => p.holds r.hdr

/-- The loop buffer is taken: by another resident of the lane group in the full shape, or by this one (R71). -/
def State.pinned (s : State) (r : Resident) : Bool :=
  r.pins || (r.launch.shape == 0 && s.residents.any fun x => x.core == r.core && x.lgrp == r.lgrp && x.pins)

/-- Words that follow a bundle header, as its fields say (R54). -/
def bundleLen (h : DWord) : Nat := ((List.range 20).filter fun k => h.getLsbD (44 + k)).length

/-- Words from an address up, fetched through the instruction cache where every fetch passes its checks. -/
def State.captureWords (s : State) (w : Who) (a : Nat) : Nat → Option (List DWord × State)
  | 0 => some ([], s)
  | n + 1 =>
    match s.checkFetch w a with
    | .ok _ =>
      let (x, s1) := s.fetchWord w a
      (s1.captureWords w (a + 8) n).map fun y => (x :: y.1, y.2)
    | _ => none

/-- Capture the bundles of a pinned range (R71), up to the first that no fetch reaches. -/
def State.captureRange (s : State) (w : Who) (pin : LoopPin) : Nat → LoopPin × State
  | 0 => (pin, s)
  | n + 1 =>
    match s.captureWords w pin.next 1 with
    | some ([h], s1) =>
      match s1.captureWords w (pin.next + 8) (bundleLen h) with
      | some (ws, s2) =>
        s2.captureRange w { left := n, next := pin.next + 8 * (1 + bundleLen h), bundles := pin.bundles ++ [(pin.next, h :: ws)] } n
      | none => (pin, s)
    | _ => (pin, s)

/-- `mark` (R71, R356): pins the bundles that follow. -/
def execMark (p : Pred) (n : Nat) (s : State) : Out :=
  .next (s.once slotScalar p (fun q => q.vliwScalar && decide (n ≤ loopShare q.res.launch.shape)) []
    (fun _ _ => []) (fun _ _ => false) fun q s =>
      if s.pinned q.res then s
      else
        let (pin, s1) := s.captureRange (s.who q.res) { left := n, next := q.nextHdr, bundles := [] } n
        s1.modCur fun r => { r with pin := some pin })

/-! ### Traps on demand (R309, R385) -/

/-- The shape of `brk` and `trap`: it completes, then raises its cause; where no handler can run it the resident stands
before it in a double trap (R204). In a bundle the cause is raised once all ops have issued. -/
def State.raiseAfter (s : State) (p : Pred) (cause code : Nat) : State :=
  let c := mkCause cause (BitVec.ofNat 32 code) 0 0 0
  s.once slotScalar p (fun _ => true) [] (fun q s => if s.noHandler q.res cause then [c] else []) (fun _ _ => false)
    fun q s => if q.res.simt then s.trapAfter c else s.modIss fun q => { q with post := some c }

/-- `trap` (R385). -/
def execTrap (p : Pred) (code : BitVec 16) (s : State) : Out := .next (s.raiseAfter p 10 code.toNat)

/-- `brk` (R309). -/
def execBrk (p : Pred) (code : BitVec 16) (s : State) : Out := .next (s.raiseAfter p 9 code.toNat)

/-! ### Change of mode (R33 to R35) -/

/-- The reason a wave cannot fold (R33, R333). -/
def Resident.foldReason (r : Resident) : Option Nat :=
  if r.trap.inh then some 5 else if r.active ≠ 0xFFFF then some 1 else if r.div ≠ [] then some 2 else none

/-- A fold trap. -/
def foldCauses (reason : Option Nat) : List Cause :=
  match reason with
  | some k => [mkCause 15 (BitVec.ofNat 32 k) 0 0 0]
  | none => []

/-- `fold` (R33, R332, R333): same cells, new decoder. -/
def execFold (s : State) : Out :=
  .next (match s.iss with
    | none => s
    | some q => s.attempt (q.illegalIf (!q.simtLast) ++ foldCauses q.res.foldReason) (!q.res.acrdPending.isEmpty) fun _ s =>
        s.modCur fun r => { r with simt := false, loops := [], div := [] })

/-- The reason a wide thread cannot unfold (R34, R390). -/
def Resident.unfoldReason (r : Resident) : Option Nat :=
  if r.trap.inh then some 5 else if r.launch.shape ≠ 0 then some 3 else if r.loops ≠ [] then some 4 else none

/-- `unfold` (R34, R389, R390): the bundle's other ops issue, and the change comes once every result is written. -/
def execUnfold (s : State) : Out :=
  .next (match s.iss with
    | none => s
    | some q => s.attempt (q.illegalIf (!q.vliwScalar || q.hdr.lend) ++ foldCauses q.res.unfoldReason) false fun _ s =>
        s.modCur fun r => { r with closing := .unfold })

end Sys2Proof.Machine
end

