-- ==== Sys2Proof/Machine/Access.lean ====
section
/-! DEFINITION. Lane accesses to memory (R349 to R352, R363, R364, R377 to R381), the constant bank, phases and
`ifence` (R341, R342). Every check of every thread comes before any effect. -/

namespace Sys2Proof.Machine

/-- The flag an operation's set names (R53). -/
def Issue.flagOf (q : Issue) (setB : Bool) : Nat := if setB then q.hdr.setb else q.hdr.seta

/-- The set is not 15 (R55). -/
def Issue.setOk (q : Issue) (setB : Bool) : Bool := decide (q.flagOf setB < 12)

/-- The flag has room (R56). -/
def Issue.flagFull (q : Issue) (setB : Bool) : Bool := decide (63 ≤ q.res.flags.getD (q.flagOf setB) 0)

/-- gaddr of R287: modulo 2^64. -/
def State.gaddr (s : State) (r : Resident) (a : Src) (off : BitVec 16) (c : Nat) : Nat :=
  (s.opnd64 r a c + off.signExtend 64).toNat

/-- spaddr of R287: modulo 2^32. -/
def State.spaddr (s : State) (r : Resident) (a : Src) (off : BitVec 16) (c : Nat) : Nat :=
  (s.opnd r .int a c + off.signExtend 32).toNat

/-- What of an instruction a refusal answers: its accesses, or its fetch. -/
def refusedData : Nat := 0
def refusedFetch : Nat := 1

/-- The host has refused the translation of an address's page to the instruction being executed again, which traps whatever the page
tables hold by now (R89). -/
def Resident.refusedAt (r : Resident) (a : Nat) : Bool := r.refused.any fun p => p.1 == pageOf a && p.2 == refusedData
def Resident.fetchRefused (r : Resident) (a : Nat) : Bool := r.refused.any fun p => p.1 == pageOf a && p.2 == refusedFetch

/-- The bit of a thread or cluster in a cause's mask. -/
def maskBit (lane : Nat) : Nat := 2 ^ lane

/-- The checks of one global access: causes, and whether its translation still waits (R74, R77, R79, R211, R351). -/
def State.globalChecks (s : State) (r : Resident) (kind n : Nat) (home : Bool) (a lane : Nat) : List Cause × Bool :=
  let early := (if a % n = 0 then [] else [addrCause 3 a (maskBit lane) 0]) ++
    (if a < 2 ^ 56 then [] else [addrCause 5 a (maskBit lane) kind])
  if !early.isEmpty then (early, false)
  else
    let hit := (s.ctxOf r).brambleCause r (kind == 1) false [(a, n)]
    if r.refusedAt a then (addrCause 4 a (maskBit lane) kind :: hit, false)
    else match (if home then s.checkHome (s.who r) kind a else s.checkLane (s.who r) kind a n) with
    | .ok leaf => ((if kind = 0 ∧ leafPk leaf then [addrCause 6 a (maskBit lane) 0] else []) ++ hit, false)
    | .bad =>
      ((if kind = 0 ∧ s.packedAt (s.who r) a then [addrCause 6 a (maskBit lane) 0] else []) ++ addrCause 5 a (maskBit lane) kind :: hit, false)
    | .fault => (hit, true)

/-- The translations of accesses that have been checked: where one of them traps or waits, all are made now; else each is made as
its access is performed (R77, R84). -/
def State.translateAll (s : State) (r : Resident) (kind n : Nat) (home : Bool) (chk : List (Nat × List Cause × Bool)) : State :=
  if chk.all fun x => x.2.1.isEmpty && !x.2.2 then s
  else chk.foldl (fun s x => s.translate (s.who r) home kind n x.1) s

/-- The checks of one scratchpad access (R74, R79, R211). -/
def State.spadChecks (s : State) (r : Resident) (kind n a lane : Nat) : List Cause :=
  (if a % n = 0 then [] else [addrCause 3 a (maskBit lane) 0]) ++
  (if a + n ≤ r.launch.spad * 256 then [] else [mkCause 7 (BitVec.ofNat 32 a) 0 (BitVec.ofNat 32 (maskBit lane)) 0]) ++
  (if kind = 0 ∧ (s.ctxOf r).packedSpad a n then [addrCause 6 a (maskBit lane) 0] else []) ++
  (s.ctxOf r).brambleCause r (kind == 1) true [(a, n)]

/-- Registers of a destination of 4 or 8 bytes in a lane. -/
def dstRegs (d : Dst) (n lane : Nat) : List Reg :=
  if n = 8 then [dstReg d lane, dstReg (Dst.next d) lane] else [dstReg d lane]

/-- Loaded bytes as register cells: the first register of a pair holds the high word (R46). -/
def loadCells (rs : List Reg) (bs : List Byte) (poison : Bool) : List RegCell :=
  match rs with
  | [a, b] => [{ reg := a, val := wordOf (bs.drop 4), poison := poison }, { reg := b, val := wordOf (bs.take 4), poison := poison }]
  | [a] => [{ reg := a, val := wordOf bs, poison := poison }]
  | _ => []

/-- The lanes of a load or store: one for an access whose register operands are scalar (R50, R344, R369). -/
def Issue.memLanes (q : Issue) (p : Pred) (once : Bool) : List Nat := q.lanes p once

/-- A load or store of one lane reads these registers. -/
def pairSrcs (a : Src) : List Src := [a, Src.next a]

/-- Porch entries in use by the residents that share a resident's porch (R64). -/
def State.porchUsed (s : State) (r : Resident) : Nat :=
  (s.allRes.filter fun x => x.core == r.core && x.lgrp == r.lgrp && x.away == .here &&
    (r.launch.shape == 0 || x.slot == r.slot)).foldl (fun n x => n + (x.porch.filter fun e => !e.bank).length) 0

/-- A column set's porch entries (R64). -/
def porchShare (shape : Nat) : Nat := match shape with | 0 => 64 | 1 => 32 | _ => 16

/-- A wide thread's loads find the porch full (R64); `porchNeed` counts the entries the bundle's earlier ops need. -/
def State.porchFull (s : State) (q : Issue) (need : Nat) : Bool :=
  !q.res.simt && decide (porchShare q.res.launch.shape < s.porchUsed q.res + q.porchNeed + need)

/-- Count the porch entries a bundle needs while its causes are collected. -/
def State.needPorch (s : State) (n : Nat) : State :=
  s.modIss fun q => if q.probe then { q with porchNeed := q.porchNeed + n } else q

/-- Whether the next load's data comes late: the next choice of the oracle (log entry 2). -/
def State.takeOracle (s : State) : Bool × State := (s.oracle.headD false, { s with oracle := s.oracle.tail })

/-- A line holds the bytes at an address, under any virtual address of its own (R78). -/
def State.lineAt (s : State) (w : Who) (a : Nat) (l : L1Line) : Bool :=
  match s.xlat w a with
  | .ok leaf size => l.pa == paOf leaf size a / 128
  | _ => l.tag == a / 128 && l.asid == w.asid && l.tenant == w.tenant

/-- Read one lane's global data: at the L1, or for an ordered access at the point of coherence of its scope (R101, R107),
after the core's own dirty bytes of the line have gone there. -/
def State.readScoped (s : State) (w : Who) (scope : Option Scope) (a n : Nat) : (List Byte × Bool) × State :=
  match scope with
  | none | some .lg | some .core => s.laneRead w a n
  | some _ =>
    let (req, s1) := s.request (a / 128)
    ((s1.writeBackIf w.core fun l => s.lineAt w a l).countIf req w.tenant 4).readAtHome req w a n

/-- An acquire marks the context's lines stale before any later read (R107). -/
def State.acquire (s : State) (w : Who) (scope : Option Scope) : State :=
  match scope with
  | none | some .lg | some .core => s
  | some _ => s.markStale w.core w.ctx

/-- An ordered access goes past the L1 (R107). -/
def scopeHome : Option Scope → Bool
  | none | some .lg | some .core => false
  | some _ => true

/-- Read the global data of several lanes in lane order. -/
def State.readLanes (s : State) (w : Who) (scope : Option Scope) (n : Nat) (d : Dst) :
    List (Nat × Nat) → List RegCell × State
  | [] => ([], s)
  | (c, a) :: rest =>
    let ((bs, poison), s1) := s.readScoped w scope a n
    let (cells, s2) := s1.readLanes w scope n d rest
    (loadCells (dstRegs d n c) bs poison ++ cells, s2)

/-- The 32-bit words of a plain load: each is single-copy atomic by itself, and may be performed later than the load's issue (R104,
R105). -/
def openWords (scope : Option Scope) (n : Nat) (d : Dst) (reqs : List (Nat × Nat)) : List (Nat × Reg) :=
  if scope.isSome then []
  else reqs.flatMap fun x => match dstRegs d n x.1 with
    | [hi, lo] => [(x.2 + 4, hi), (x.2, lo)]
    | gs => gs.map fun g => (x.2, g)

/-- Issue a SIMT long-latency load: the flag counts up, the data lands with it (R57, R58). -/
def State.simtLoad (s : State) (r : Resident) (scope : Option Scope) (n : Nat) (d : Dst) (flag : Nat) (reqs : List (Nat × Nat)) : State :=
  let w := s.who r
  let (cells, s1) := s.readLanes w scope n d reqs
  let s2 := s1.acquire w scope
  { s2.modCur (fun r => { r.flagUp flag with loads := r.loads ++ [{ id := s2.nextId, flag := flag, writes := cells, words := openWords scope n d reqs }] })
    with nextId := s2.nextId + 1 }

/-- The cause a refused porch entry is reported with. -/
def Porch.refusal (e : Porch) : Option Cause :=
  match e.fault with
  | .refused c => some c
  | _ => none

/-- A load of a bundle comes after one of an earlier bundle that is refused, and is due no earlier: it is performed after that one is
issued again or skipped (R106, R107). -/
def Resident.behindRefused (r : Resident) (due count : Nat) : Bool :=
  r.porch.any fun x => x.refusal.isSome && decide (x.due ≤ due) && decide (x.seq / 32 < count)

/-- Issue one cluster's VLIW load: a porch entry due at the named count, with its data, its wait, or the cause it will be
reported with at that count (R63 to R66, R351). Its place is the op's slot, which a cause names (R61, R199). One that comes late
is performed as it comes (R102, R206), one behind a refused load after that; in a bundle with an access that must follow it, it comes in
time. DEDUCED: log entry 6. -/
def State.vliwLoad (s : State) (r : Resident) (scope : Option Scope) (n : Nat) (d : Dst) (lat : Nat) (bank : Bool) (c a : Nat) : State :=
  let w := s.who r
  let e : Porch :=
    { id := s.nextId, due := r.count + lat, seq := 32 * r.count + (s.iss.map Issue.slot).getD 0, lane := c, dst := dstRegs d n c, va := a, width := n,
      scope := scope, bank := bank, data := none, arrived := false, fault := .none, again := false }
  let add := fun (s : State) (e : Porch) =>
    { s.modCur (fun r => { r with porch := r.porch ++ [e] }) with nextId := s.nextId + 1 }
  if r.refusedAt a then add s { e with fault := .refused (e.cause 4 kindRead) }
  else match (if scopeHome scope then s.checkHome w kindRead a else s.checkLane w kindRead a n) with
  | .ok leaf =>
    if leafPk leaf then add s { e with fault := .refused (e.cause 6 0) }
    else
      let (late, s0) := s.takeOracle
      if (late || r.behindRefused e.due r.count) && !(s0.iss.map Issue.inOrder).getD false then add s0 e
      else
        let ((bs, poison), s1) := s0.readScoped w scope a n
        add (s1.acquire w scope) { e with data := some (loadCells e.dst bs poison), arrived := true }
  | .bad => add s { e with fault := .refused (if s.packedAt w a then e.cause 6 0 else e.cause 5 kindRead) }
  | .fault =>
    let (f, s1) := s.joinMerge w kindRead a
    add s1 { e with fault := f }

/-- Accesses of a bundle's loads that hold its issue: those whose translation waits, where another access of the bundle must
follow them (R102, R106). -/
def Issue.loadWaits (q : Issue) (chk : List (Nat × List Cause × Bool)) : List (Nat × Nat) :=
  if q.inOrder then (chk.filter fun x => x.2.2).map fun x => (kindRead, x.1) else []

/-- Lane and address of each access. -/
def State.reqs (s : State) (q : Issue) (cs : List Nat) (f : State → Resident → Nat → Nat) : List (Nat × Nat) :=
  cs.map fun c => (c, f s q.res c)

/-- A load with a land field (R349 to R352): SIMT by flag, VLIW by named count. -/
def State.globalLoad (s : State) (p : Pred) (d : Dst) (a : Src) (land n : Nat) (off : BitVec 16) (scope : Option Scope) : State :=
  match s.iss with
  | none => s
  | some q =>
    let r := q.res
    let legal := q.memPlace (dstScalar d) (dstScalar d && srcScalar a) && predOk r p && r.pairOk a && r.dstOk d &&
      (n == 4 || r.dstOk (Dst.next d)) && (if r.simt then decide (land < 2) && q.setOk (land == 1) else decide (0 < land))
    let cs := q.memLanes p (dstScalar d)
    let reqs := s.reqs q cs fun s r c => s.gaddr r a off c
    let chk := reqs.map fun x => (x.2, s.globalChecks r kindRead n (scopeHome scope) x.2 x.1)
    let poison := r.poisonCauses (pairSrcs a) cs
    let s0 := s.translateAll r kindRead n (scopeHome scope) chk
    if !legal then s.attempt [q.illegal] false fun _ s => s
    else if r.simt then
      s0.attemptF (poison ++ chk.flatMap fun x => x.2.1) (!cs.isEmpty && q.flagFull (land == 1))
        ((chk.filter fun x => x.2.2).map fun x => (kindRead, x.1)) fun q s =>
          if cs.isEmpty then s else s.simtLoad q.res scope n d (q.flagOf (land == 1)) reqs
    else
      let late := fun c : Cause => c.code == 4 || c.code == 6 || (c.code == 5 && c.i0.toNat < 2 ^ 24)
      let s1 := s0.attemptF (poison ++ (chk.flatMap fun x => x.2.1.filter fun c => !late c)) (s.porchFull q cs.length)
        (q.loadWaits chk) fun q s => reqs.foldl (fun s x => s.vliwLoad q.res scope n d land false x.1 x.2) s
      s1.needPorch cs.length

/-- `ld.g`, 32 bits. -/
def execLdG32 (p : Pred) (d : Dst) (a : Src) (land : Nat) (off : BitVec 16) (s : State) : Out :=
  .next (s.globalLoad p d a land 4 off none)

/-- `ld.g`, 64 bits. -/
def execLdG64 (p : Pred) (d : Dst) (a : Src) (land : Nat) (off : BitVec 16) (s : State) : Out :=
  .next (s.globalLoad p d a land 8 off none)

/-- `ldo.S`, 32 bits (R352). -/
def execLdo32 (p : Pred) (d : Dst) (a : Src) (land : Nat) (off : BitVec 16) (k : Scope) (s : State) : Out :=
  .next (s.globalLoad p d a land 4 off (some k))

/-- `ldo.S`, 64 bits (R352). -/
def execLdo64 (p : Pred) (d : Dst) (a : Src) (land : Nat) (off : BitVec 16) (k : Scope) (s : State) : Out :=
  .next (s.globalLoad p d a land 8 off (some k))

/-- Read the scratchpad data of several lanes into results of latency 8, each lane's bank served (R90, R350). -/
def State.spadLoad (s : State) (r : Resident) (n : Nat) (d : Dst) (reqs : List (Nat × Nat)) : State :=
  reqs.foldl (fun s x =>
    let (bs, poison) := s.spadRead r.uid r.core x.2 n
    (s.bankServe r.core r.requester x.2 n).modCur fun r' => r'.after 8 x.1 (loadCells (dstRegs d n x.1) bs poison) [] 0) s

/-- `ld.sp` (R349, R350). -/
def State.scratchLoad (s : State) (p : Pred) (d : Dst) (a : Src) (n : Nat) (off : BitVec 16) : State :=
  match s.iss with
  | none => s
  | some q =>
    let r := q.res
    let legal := q.memPlace (dstScalar d) (dstScalar d && srcScalar a) && predOk r p && r.srcOk a && r.dstOk d &&
      (n == 4 || r.dstOk (Dst.next d))
    let cs := q.memLanes p (dstScalar d)
    let reqs := s.reqs q cs fun s r c => s.spaddr r a off c
    s.attempt (q.illegalIf (!legal) ++ r.poisonCauses [a] cs ++ (reqs.flatMap fun x => s.spadChecks r kindRead n x.2 x.1)) false
      fun q s => s.spadLoad q.res n d reqs

/-- `ld.sp`, 32 bits. -/
def execLdSp32 (p : Pred) (d : Dst) (a : Src) (off : BitVec 16) (s : State) : Out := .next (s.scratchLoad p d a 4 off)

/-- `ld.sp`, 64 bits. -/
def execLdSp64 (p : Pred) (d : Dst) (a : Src) (off : BitVec 16) (s : State) : Out := .next (s.scratchLoad p d a 8 off)

/-- The offset of a constant-bank access (R350). -/
def State.bankOffset (s : State) (r : Resident) (a : Src) (off : BitVec 16) (c : Nat) : Nat := s.spaddr r a off c

/-- The checks of a constant-bank access (R74, R350): the bank's bound, then those of a global load. -/
def State.bankChecks (s : State) (r : Resident) (rel lane : Nat) : List Cause × Bool :=
  let a := r.launch.cbank + rel
  if r.launch.cbsize < rel + 4 then ([addrCause 5 a (maskBit lane) kindRead] ++ (if a % 4 = 0 then [] else [addrCause 3 a (maskBit lane) 0]), false)
  else s.globalChecks r kindRead 4 false a lane

/-- `ldc` (R349 to R351): latency 8 in both modes. -/
def execLdc (p : Pred) (d : Dst) (a : Src) (off : BitVec 16) (s : State) : Out :=
  .next (match s.iss with
    | none => s
    | some q =>
      let r := q.res
      let legal := q.memPlace (dstScalar d) (dstScalar d && srcScalar a) && predOk r p && r.srcOk a && r.dstOk d
      let cs := q.memLanes p (dstScalar d)
      let rels := s.reqs q cs fun s r c => s.bankOffset r a off c
      let chk := rels.map fun x => (r.launch.cbank + x.2, s.bankChecks r x.2 x.1)
      let reqs := rels.map fun x => (x.1, r.launch.cbank + x.2)
      let poison := r.poisonCauses [a] cs
      let s0 := if legal then s.translateAll r kindRead 4 false (chk.zip rels |>.filterMap fun x =>
        if x.2.2 + 4 ≤ r.launch.cbsize then some x.1 else none) else s
      if r.simt then
        s0.attemptF (q.illegalIf (!legal) ++ poison ++ chk.flatMap fun x => x.2.1) false
          (if legal then (chk.filter fun x => x.2.2).map fun x => (kindRead, x.1) else []) fun q s =>
            let (cells, s1) := s.readLanes (s.who q.res) none 4 d reqs
            s1.modCur fun r => r.after 8 0 cells [] 0
      else
        let inBank := fun rel : Nat => decide (rel + 4 ≤ r.launch.cbsize)
        let late := fun c : Cause => c.code == 4 || c.code == 6 || c.code == 5
        s0.attemptF (q.illegalIf (!legal) ++ poison ++
            (rels.flatMap fun x => (s.bankChecks r x.2 x.1).1.filter fun c => !(late c && inBank x.2))) false
          (if legal then q.loadWaits chk else []) fun q s => reqs.foldl (fun s x => s.vliwLoad q.res none 4 d 8 true x.1 x.2) s)

/-! ### Stores -/

/-- Bytes in a line of the core's L1, and its marks, follow a store performed at home, so that the storer never reads older data (R209,
R381). -/
def State.l1Patch (s : State) (w : Who) (a : Nat) (bs : List Byte) : State :=
  let patch := fun l : L1Line => { l.store (a % 128) bs with valid := l.valid, dirty := l.dirty &&& ~~~(maskOf (a % 128) bs.length) }
  s.modCore w.core fun c => { c with l1 := c.l1.map fun l => if s.lineAt w a l then patch l else l }

/-- Perform one lane's store (R83, R107, R378, R381). -/
def State.doStore (s : State) (r : Resident) (st : PendStore) : State :=
  let w := s.who r
  match st.sp with
  | .s => (s.bankServe r.core r.requester st.addr st.bytes.length).spadWrite r.uid r.core st.addr st.bytes
  | .g =>
    if scopeHome st.scope then
      let (req, s1) := s.request (st.addr / 128)
      ((s1.countIf req w.tenant 4).writeAtHome req w st.addr st.bytes).l1Patch w st.addr st.bytes
    else s.laneWrite w st.addr st.bytes

/-- A release completes the earlier accesses first (R107). -/
def State.release (s : State) (r : Resident) (scope : Option Scope) : State :=
  match scope with
  | none => s
  | some k => s.phaseAt r.core (s.ctxOf r).num k

/-- Perform the stores of an instruction or a bundle in order; a later one's bytes remain (R103). -/
def State.doStores (s : State) (r : Resident) (sts : List PendStore) : State :=
  sts.foldl (fun s st => (if r.simt then s else s.modIss fun q => { q with lines := [] }).doStore r st) s

/-- In SIMT the stores are performed now; in a bundle once its loads have read (R102). -/
def State.sendStores (s : State) (q : Issue) (sts : List PendStore) : State :=
  if q.res.simt then s.doStores q.res sts else s.modIss fun q => { q with stores := q.stores ++ sts }

/-- The data of a store (R378): the first register of a pair is the high word. -/
def State.storeBytes (s : State) (r : Resident) (d : Src) (n c : Nat) : List Byte :=
  if n = 8 then wordBytes (s.opnd r .int (Src.next d) c) ++ wordBytes (s.opnd r .int d c) else wordBytes (s.opnd r .int d c)

/-- Registers a store reads. -/
def storeSrcs (d : Src) (n : Nat) : List Src := if n = 8 then pairSrcs d else [d]

/-- A global store (R377 to R381). -/
def State.globalStore (s : State) (p : Pred) (d a : Src) (n : Nat) (off : BitVec 16) (scope : Option Scope) : State :=
  match s.iss with
  | none => s
  | some q =>
    let r := q.res
    let scalar := srcScalar d && srcScalar a
    let legal := q.memPlace false scalar && predOk r p && r.pairOk a && (storeSrcs d n).all r.srcOk
    let cs := q.memLanes p scalar
    let reqs := s.reqs q cs fun s r c => s.gaddr r a off c
    let chk := reqs.map fun x => (x.2, s.globalChecks r kindWrite n (scopeHome scope) x.2 x.1)
    let s0 := if legal then s.translateAll r kindWrite n (scopeHome scope) chk else s
    s0.attemptF (q.illegalIf (!legal) ++ r.poisonCauses (pairSrcs a ++ storeSrcs d n) cs ++ chk.flatMap fun x => x.2.1) false
      (if legal then (chk.filter fun x => x.2.2).map fun x => (kindWrite, x.1) else []) fun q s =>
        let s1 := if cs.isEmpty then s else s.release q.res scope
        s1.sendStores q (reqs.map fun x =>
          { sp := .g, addr := x.2, bytes := s.storeBytes q.res d n x.1, scope := scope, poison := false, lane := x.1 })

/-- A scratchpad store (R377, R378). -/
def State.scratchStore (s : State) (p : Pred) (d a : Src) (n : Nat) (off : BitVec 16) : State :=
  match s.iss with
  | none => s
  | some q =>
    let r := q.res
    let scalar := srcScalar d && srcScalar a
    let legal := q.memPlace false scalar && predOk r p && r.srcOk a && (storeSrcs d n).all r.srcOk
    let cs := q.memLanes p scalar
    let reqs := s.reqs q cs fun s r c => s.spaddr r a off c
    s.attempt (q.illegalIf (!legal) ++ r.poisonCauses ([a] ++ storeSrcs d n) cs ++
        (reqs.flatMap fun x => s.spadChecks r kindWrite n x.2 x.1)) false fun q s =>
      s.sendStores q (reqs.map fun x =>
        { sp := .s, addr := x.2, bytes := s.storeBytes q.res d n x.1, scope := none, poison := false, lane := x.1 })

/-- `st.g`, 32 bits. -/
def execStG32 (p : Pred) (d a : Src) (off : BitVec 16) (s : State) : Out := .next (s.globalStore p d a 4 off none)

/-- `st.g`, 64 bits. -/
def execStG64 (p : Pred) (d a : Src) (off : BitVec 16) (s : State) : Out := .next (s.globalStore p d a 8 off none)

/-- `st.sp`, 32 bits. -/
def execStSp32 (p : Pred) (d a : Src) (off : BitVec 16) (s : State) : Out := .next (s.scratchStore p d a 4 off)

/-- `st.sp`, 64 bits. -/
def execStSp64 (p : Pred) (d a : Src) (off : BitVec 16) (s : State) : Out := .next (s.scratchStore p d a 8 off)

/-- `sto.S`, 32 bits (R380, R381). -/
def execSto32 (p : Pred) (d a : Src) (off : BitVec 16) (k : Scope) (s : State) : Out := .next (s.globalStore p d a 4 off (some k))

/-- `sto.S`, 64 bits (R380, R381). -/
def execSto64 (p : Pred) (d a : Src) (off : BitVec 16) (k : Scope) (s : State) : Out := .next (s.globalStore p d a 8 off (some k))

/-! ### Prefetch (R363) -/

/-- One lane's prefetch: dropped where its address, walk or page does not allow a plain read. -/
def State.prefetch (s : State) (r : Resident) (l2 : Bool) (a : Nat) : State :=
  let w := s.who r
  match s.checkLane w kindRead a 1 with
  | .ok leaf =>
    if leafPk leaf then s.translate w false kindRead 1 a
    else if l2 then
      let (req, s1) := s.request (a / 128)
      ((s1.countIf req w.tenant 4).readAtHome req w a 1).2
    else (s.laneRead w a 1).2
  | _ => s.translate w false kindRead 1 a

/-- `pf` (R363): never traps, so a poisoned base drops the request of its lane. -/
def execPf (p : Pred) (a : Src) (l2 : Bool) (off : BitVec 16) (s : State) : Out :=
  .next (match s.iss with
    | none => s
    | some q =>
      let r := q.res
      let cs := (q.memLanes p (srcScalar a && !r.simt)).filter fun c => !(r.srcPoison a c || r.srcPoison (Src.next a) c)
      s.attempt (q.illegalIf (!(q.memPlace false (srcScalar a) && predOk r p && r.pairOk a))) false fun q s =>
        cs.foldl (fun s c => s.prefetch q.res l2 (s.gaddr q.res a off c)) s)

/-! ### Phases (R101, R106, R341, R342, R364) -/

/-- The scope of a domain (R39). -/
def domainScope (d : Nat) : Scope :=
  match d with | 0 | 1 | 2 => .lg | 3 => .core | 4 => .ham | 5 => .die | 6 => .dev | _ => .sys

/-- The scope an instruction names, by itself or through a level (R101). -/
def Resident.scopeSel (r : Resident) (k : ScopeSel) : Option Scope :=
  match k with
  | .scope k => some k
  | .level n => (r.launch.levels[n]?).map fun l => domainScope l.domain

/-- Invalidate the instruction-cache lines of a context on a core (R342). -/
def State.dropCode (s : State) (core ctx : Nat) : State :=
  s.modCore core fun c => { c with icache := c.icache.filter fun l => l.ctx != ctx }

/-- The effect of `phase` for the issuing resident (R106). -/
def State.effPhase (s : State) (k : ScopeSel) : State :=
  match s.iss with
  | none => s
  | some q => match q.res.scopeSel k with
    | some sc => s.phaseAt q.res.core (s.ctxOf q.res).num sc
    | none => s

/-- `phase` (R106, R364). -/
def execPhase (p : Pred) (k : ScopeSel) (s : State) : Out :=
  .next (s.once slotScalar p (fun q => (q.res.scopeSel k).isSome) [] (fun _ _ => []) (fun _ _ => false)
    fun _ s => s.atEnd (.phase p k) fun s => s.effPhase k)

/-- The effect of `ifence` for the issuing resident (R342). -/
def State.effIfence (s : State) (k : ScopeSel) : State :=
  match s.iss with
  | none => s
  | some q => (s.effPhase k).dropCode q.res.core (s.ctxOf q.res).num

/-- `ifence` (R341, R342). -/
def execIfence (p : Pred) (k : ScopeSel) (s : State) : Out :=
  .next (s.once slotScalar p (fun q => (q.res.scopeSel k).isSome) [] (fun _ _ => []) (fun _ _ => false)
    fun _ s => s.atEnd (.ifence p k) fun s => s.effIfence k)

end Sys2Proof.Machine
end

