-- ==== Sys2Proof/Machine/Quilt.lean ====
section
/-! DEFINITION. Packing, unpacking, moving and transposing tensors (R127 to R133, R156), as functions of the source
bytes. A reader gives the byte at an address of the source's space. -/

namespace Sys2Proof.Machine

/-- A little-endian value read through a reader. -/
def readLe (rd : Nat → Byte) (a n : Nat) : Nat := leNat ((List.range n).map fun k => rd (a + k))

/-- The raw element (i, j) of a plain descriptor. -/
def Desc.raw (d : Desc) (rd : Nat → Byte) (i j : Nat) : Nat := readLe rd (d.elemAddr i j) d.fmt.bytes

/-- Tiles in a row of tiles. -/
def Desc.tcols (d : Desc) : Nat := d.cols / 8

/-- A tile's header (R127). -/
def Desc.header (d : Desc) (rd : Nat → Byte) (t : Nat) : DWord := BitVec.ofNat 64 (readLe rd (d.headerAddr t) 8)

/-- The code of element (i, j) of a tile (R129). -/
def Desc.code (d : Desc) (rd : Nat → Byte) (t i j : Nat) : Nat :=
  let k := 8 * i + j
  if d.fmt = .qt8 then (rd (d.payloadAddr t k)).toNat else fld (rd (d.payloadAddr t (k / 2))).toNat (4 * (k % 2)) 4

/-- The scale of a tile's superblock (R129). -/
def Desc.scale (d : Desc) (rd : Nat → Byte) (t : Nat) : Nat := if d.fmt = .qk4 then readLe rd (d.scaleAddr t) 4 else 0

/-- The value of element (i, j) of a tensor (R118, R128). -/
def Desc.value (d : Desc) (rd : Nat → Byte) (i j : Nat) : XR :=
  if d.fmt.isQuilt then
    let t := (i / 8) * d.tcols + j / 8
    quiltValue d.fmt (d.header rd t) (d.scale rd t) (d.code rd t (i % 8) (j % 8)) (i % 8) (j % 8)
  else match d.fmt.float with
    | some F => F.decode (d.raw rd i j)
    | none => XR.ofInt (sint (8 * d.fmt.bytes) (d.raw rd i j)) 0 false

/-- The byte ranges an element is read from. -/
def Desc.elemRanges (d : Desc) (i j : Nat) : List (Nat × Nat) :=
  if d.fmt.isQuilt then
    let t := (i / 8) * d.tcols + j / 8
    let k := 8 * (i % 8) + j % 8
    [(d.headerAddr t, 8), (d.payloadAddr t (if d.fmt = .qt8 then k else k / 2), 1)] ++
      (if d.fmt = .qk4 then [(d.scaleAddr t, 4)] else [])
  else [(d.elemAddr i j, d.fmt.bytes)]

/-- The byte ranges a tile is held in; the payload in words where it is rotated. -/
def Desc.tileRanges (d : Desc) (t : Nat) : List (Nat × Nat) :=
  (d.headerAddr t, 8) ::
    (if d.rot = 0 then [(d.payloadAddr t 0, tileBytes d.fmt)]
     else (List.range (tileBytes d.fmt / 8)).map fun k => (d.payloadAddr t (8 * k), 8)) ++
    (if d.fmt = .qk4 then [(d.scaleAddr t, 4)] else [])

/-- The byte ranges of a tensor's elements, exact: rows or tiles. -/
def Desc.ranges (d : Desc) : List (Nat × Nat) :=
  if d.fmt.isQuilt then (List.range d.tiles).flatMap d.tileRanges
  else if d.rot = 0 then (List.range d.rows).map fun i => (d.elemAddr i 0, d.cols * d.fmt.bytes)
  else (List.range d.rows).flatMap fun i => (List.range d.cols).map fun j => (d.elemAddr i j, d.fmt.bytes)

/-- Bytes a tensor occupies across its planes (R154, R156). -/
def Desc.bytes (d : Desc) : Nat :=
  if d.fmt.isQuilt then d.tiles * (tileBytes d.fmt + 8) + (if d.fmt = .qk4 then d.tiles else 0)
  else d.rows * d.cols * d.fmt.bytes

/-! ### Packing (R132) -/

/-- Magnitude of a real. -/
def XR.mag : XR → Nat × Int
  | .fin _ m e => (m, e)
  | _ => (0, 0)

/-- The largest magnitude of a list. -/
def maxMagOf (xs : List XR) : Nat × Int :=
  xs.foldl (fun a x => if magLt a.1 a.2 x.mag.1 x.mag.2 then x.mag else a) (0, 0)

/-- A value is neither NaN nor ±∞. -/
def XR.finite : XR → Bool
  | .fin _ _ _ => true
  | _ => false

/-- The largest u in 0..3 with a magnitude at or below a bound × 2^−u; 0 if none. -/
def microOf (m bound : Nat × Int) : Nat :=
  ([3, 2, 1].find? fun u : Nat => !magLt bound.1 (bound.2 - u) m.1 m.2).getD 0

/-- Row and column codes of a block of 64 values under a bound (R132). -/
def microCodes (xs : List XR) (bound : Nat × Int) : List Nat × List Nat :=
  let at_ := fun i j => xs.getD (8 * i + j) (.fin false 0 0)
  let ur := (List.range 8).map fun i => microOf (maxMagOf ((List.range 8).map fun j => at_ i j)) bound
  let uc := (List.range 8).map fun j =>
    microOf (maxMagOf ((List.range 8).map fun i => (at_ i j).scale (ur.getD i 0))) bound
  (ur, uc)

/-- A header from its fields (R127). -/
def packHeader (E q : Nat) (ur uc : List Nat) : Nat :=
  E + (List.range 8).foldl (fun h k => h + ur.getD k 0 * 2 ^ (8 + 2 * k) + uc.getD k 0 * 2 ^ (24 + 2 * k)) 0 + q * 2 ^ 40

/-- A packed tile: header and 64 codes in row order. -/
structure PackedTile where
  header : Nat
  codes : List Nat
  deriving DecidableEq, Repr

/-- The NaN tile. -/
def PackedTile.nan : PackedTile := { header := 0xFF, codes := List.replicate 64 0 }

/-- `pack_qt` (R132). -/
def packQt (f : Fmt) (xs : List XR) : PackedTile :=
  if !xs.all XR.finite then .nan
  else
    let F := if f = .qt8 then fmtE4M3 else fmtE2M1
    let mf := F.maxMag
    let m := maxMagOf xs
    let E : Nat := ((List.range 255).find? fun E : Nat => !magLt mf.1 (mf.2 + (E : Int) - 127) m.1 m.2).getD 254
    let (ur, uc) := microCodes xs (mf.1, mf.2 + (E : Int) - 127)
    let codes := (List.range 64).map fun k =>
      (roundF F .rne ((xs.getD k (.fin false 0 0)).scale (-((E : Int) - 127 - ur.getD (k / 8) 0 - uc.getD (k % 8) 0)))).1
    { header := packHeader E 0 ur uc, codes := codes }

/-- The index k whose n(k) is nearest ±m × 2^e / c; at a tie the even one (R132). -/
def nearestIndex (neg : Bool) (m : Nat) (e : Int) (c : Nat) : Nat :=
  let x : Int := if neg then -(m : Int) else m
  let (x, c) : Int × Int := if 0 ≤ e then (x * 2 ^ e.toNat, c) else (x, (c : Int) * 2 ^ (-e).toNat)
  let dist := fun k : Nat => (x - qkCode k * c).natAbs
  (List.range 16).foldl (fun b k => if dist k < dist b ∨ (dist k = dist b ∧ k % 2 < b % 2) then k else b) 0

/-- One tile of `pack_qk4` under the superblock's scale S, given as m × 2^e (R132). -/
def packQk4Tile (S : Nat × Int) (xs : List XR) : PackedTile :=
  if !xs.all XR.finite then .nan
  else
    let m := maxMagOf xs
    if m.1 = 0 then { header := 0x7F, codes := List.replicate 64 7 }
    else
      let q := ((List.range 256).find? fun q => q != 0 && !magLt (q * S.1) (S.2 - 8) m.1 m.2).getD 255
      let (ur, uc) := microCodes xs (q * S.1, S.2 - 8)
      let codes := (List.range 64).map fun k =>
        match xs.getD k (.fin false 0 0) with
        | .fin s n e => nearestIndex s n (e - S.2 + 14 + ur.getD (k / 8) 0 + uc.getD (k % 8) 0) (q * S.1)
        | _ => 0
      { header := packHeader 0x7F q ur uc, codes := codes }

/-- The scale of a superblock as a magnitude: the largest of the tiles without NaN or ±∞ (R132). -/
def superScale (tiles : List (List XR)) : Nat × Int := maxMagOf ((tiles.filter fun t => t.all XR.finite).flatten)

/-! ### Tiles to write (R129, R130, R156) -/

/-- The 64 values of a block of the source as the destination sees them: element (i, j) of tD is (j, i) of tS under
`.tr`. -/
def blockOf (src : Desc) (rd : Nat → Byte) (tr : Bool) (r c : Nat) : List XR :=
  (List.range 64).map fun k =>
    let i := 8 * r + k / 8
    let j := 8 * c + k % 8
    if tr then src.value rd j i else src.value rd i j

/-- A tile moved from a tensor of the same format, transposed on demand (R130); bits of the header that R130 does not name go with it.
DESIGN CHOICE: log entry 39. -/
def movedTile (src : Desc) (rd : Nat → Byte) (tr : Bool) (r c : Nat) : PackedTile :=
  let t := if tr then c * src.tcols + r else r * src.tcols + c
  let h := (src.header rd t).toNat
  if tr then
    { header := fld h 0 8 + fld h 24 16 * 2 ^ 8 + fld h 8 16 * 2 ^ 24 + fld h 40 24 * 2 ^ 40
      codes := (List.range 64).map fun k => src.code rd t (k % 8) (k / 8) }
  else { header := h, codes := (List.range 64).map fun k => src.code rd t (k / 8) (k % 8) }

/-- The payload bytes of a tile (R129). -/
def payloadBytes (f : Fmt) (codes : List Nat) : List Byte :=
  if f = .qt8 then codes.map (BitVec.ofNat 8)
  else (List.range 32).map fun k => BitVec.ofNat 8 (codes.getD (2 * k) 0 + codes.getD (2 * k + 1) 0 * 16)

/-- The source ranges a tile of tD is made from. -/
def tileSources (dst src : Desc) (tr : Bool) (t : Nat) : List (Nat × Nat) :=
  let r := t / dst.tcols
  let c := t % dst.tcols
  if src.fmt.isQuilt then src.tileRanges (if tr then c * src.tcols + r else r * src.tcols + c)
  else
    let (r0, c0, n) := if dst.fmt = .qk4 then (8 * (r / 2 * 2), 8 * (c / 2 * 2), 16) else (8 * r, 8 * c, 8)
    (List.range n).flatMap fun i =>
      if src.rot = 0 then [if tr then (src.elemAddr (c0 + i) r0, n * src.fmt.bytes) else (src.elemAddr (r0 + i) c0, n * src.fmt.bytes)]
      else (List.range n).flatMap fun j => if tr then src.elemRanges (c0 + j) (r0 + i) else src.elemRanges (r0 + i) (c0 + j)

/-- The writes of one tile: header, payload and, in QK4, the superblock's scale. -/
def tileWrites (dst src : Desc) (tr : Bool) (t : Nat) (rd : Nat → Byte) : List (Nat × List Byte) :=
  let r := t / dst.tcols
  let c := t % dst.tcols
  let (tile, scale) : PackedTile × Nat :=
    if src.fmt = dst.fmt then
      (movedTile src rd tr r c, src.scale rd (if tr then c * src.tcols + r else r * src.tcols + c))
    else if dst.fmt = .qk4 then
      let blocks := [(0, 0), (0, 1), (1, 0), (1, 1)].map fun x : Nat × Nat => blockOf src rd tr (r / 2 * 2 + x.1) (c / 2 * 2 + x.2)
      let S := superScale blocks
      (packQk4Tile S (blockOf src rd tr r c), (roundF fmtF32 .rne (.fin false S.1 S.2)).1)
    else (packQt dst.fmt (blockOf src rd tr r c), 0)
  let bytes := payloadBytes dst.fmt tile.codes
  (dst.headerAddr t, leBytes 8 tile.header) ::
    (if dst.rot = 0 then [(dst.payloadAddr t 0, bytes)]
     else (List.range (bytes.length / 8)).map fun k => (dst.payloadAddr t (8 * k), (bytes.drop (8 * k)).take 8)) ++
    (if dst.fmt = .qk4 then [(dst.scaleAddr t, leBytes 4 scale)] else [])

/-! ### Plain destinations (R156) -/

/-- The 128-byte lines a row of a plain tensor touches, ascending. -/
def Desc.rowLines (d : Desc) (i : Nat) : List Nat :=
  let n := d.cols * d.fmt.bytes
  if d.rot = 0 then unitsOf 128 (d.base + i * d.pitch) n
  else (unitsOf 128 (d.base + i * d.pitch) ((n + 511) / 512 * 512)).filter fun l => (List.range d.cols).any fun j => d.elemAddr i j / 128 == l

/-- The lines of a plain tensor, ascending. -/
def Desc.lines (d : Desc) : List Nat := ((List.range d.rows).flatMap d.rowLines).eraseDups

/-- The elements of a plain tensor that lie in a line. -/
def Desc.inLine (d : Desc) (l : Nat) : List (Nat × Nat) :=
  (List.range d.rows).flatMap fun i => ((List.range d.cols).filter fun j => d.elemAddr i j / 128 == l).map fun j => (i, j)

/-- One element as `cpyt` writes it into a plain tensor (R122, R131, R156). -/
def convertElem (dst src : Desc) (rd : Nat → Byte) (i j : Nat) : Nat :=
  if src.fmt = dst.fmt then src.raw rd i j
  else if src.fmt.isQuilt then match dst.fmt.float with
    | some F => (roundF F .rne (src.value rd i j)).1
    | none => 0
  else match src.fmt, dst.fmt with
    | .int8, .int32 => (ofInt32 (sint 8 (src.raw rd i j))).toNat
    | .int32, .int8 => (ofInt32 (satInt (-128) 127 (sint 32 (src.raw rd i j)))).toNat % 256
    | sf, df => dst.fmt.narrow (convertF df sf .rne (BitVec.ofNat 32 (src.raw rd i j))).1.toNat

/-- The source ranges of a line of tD. -/
def lineSources (dst src : Desc) (tr : Bool) (l : Nat) : List (Nat × Nat) :=
  ((dst.inLine l).flatMap fun e => if tr then src.elemRanges e.2 e.1 else src.elemRanges e.1 e.2).eraseDups

/-- The writes of a line of tD. -/
def lineWrites (dst src : Desc) (tr : Bool) (l : Nat) (rd : Nat → Byte) : List (Nat × List Byte) :=
  (dst.inLine l).map fun e =>
    (dst.elemAddr e.1 e.2, leBytes dst.fmt.bytes (if tr then convertElem dst src rd e.2 e.1 else convertElem dst src rd e.1 e.2))

/-- The pairings of R156. -/
def cpytPair (sf df : Fmt) : Bool :=
  if sf = df then true
  else if df.isQuilt then sf == .fp32 || sf == .bf16 || sf == .fp16
  else if sf.isQuilt then df == .fp32 || df == .bf16 || df == .fp16 || df == .e4m3
  else true

/-- The shapes of R156. -/
def cpytShape (dst src : Desc) (tr : Bool) : Bool :=
  if tr then dst.rows == src.cols && dst.cols == src.rows else dst.rows == src.rows && dst.cols == src.cols

end Sys2Proof.Machine
end

