-- ==== Sys2Proof/Machine/Sync.lean ====
section
/-! DEFINITION. Ring operations (R92 to R94, R365, R366), range comparators and the bell queue (R95 to R97, R302, R393,
R394). -/

namespace Sys2Proof.Machine

/-- The ring-misuse trap (R366). -/
def ringMisuse (k reason : Nat) : List Cause := [mkCause 8 (BitVec.ofNat 32 k) (BitVec.ofNat 32 reason) 0 0]

/-- A ring is disabled, or owned by another scratchpad unit than the resident's (R93, R366 reason 1). -/
def Ring.foreign (g : Ring) (r : Resident) : Bool := !g.enabled || g.owner != some r.uid

/-- A ring of the issuing resident's core. -/
def State.myRing (s : State) (q : Issue) (k : Nat) : Ring := s.ringOf q.res.core k

/-- The shape of a ring operation: misuse is found at issue, a wait holds the issuer (R94, R366). -/
def State.ringOp (s : State) (p : Pred) (k : Nat) (dst : Option Nat) (misuse : Ring → Option Nat) (waits : Ring → Bool)
    (value : Ring → Nat) (f : Ring → Ring) : State :=
  s.once slotScalar p (fun q => match dst with
      | some d => q.res.scalarsOk d 1
      | none => true) []
    (fun q s =>
      let g := s.myRing q k
      if g.foreign q.res then ringMisuse k 1 else match misuse g with
        | some reason => ringMisuse k reason
        | none => [])
    (fun q s => waits (s.myRing q k))
    fun q s =>
      let g := s.myRing q k
      let s1 := s.modRing q.res.core k f
      match dst with
      | some d => s1.modCur fun r => r.setScalar d (BitVec.ofNat 32 (value g))
      | none => s1

/-- `rget` (R94, R366): the head slot. -/
def execRget (p : Pred) (d k : Nat) (s : State) : Out :=
  .next (s.ringOp p k (some d) (fun _ => none) (fun g => g.filled == 0) (fun g => g.slotAt g.head) Ring.take)

/-- `rget.w` (R94, R366): the tail slot, for a program writer. -/
def execRgetW (p : Pred) (d k : Nat) (s : State) : Out :=
  .next (s.ringOp p k (some d) (fun g => if g.prog then none else some 2) (fun g => g.free == 0)
    (fun g => g.slotAt g.tail) (fun g => g.claim true))

/-- `rput` (R94, R366): commits the oldest slot handed to a program and not yet committed. -/
def execRput (p : Pred) (k : Nat) (s : State) : Out :=
  .next (s.ringOp p k none (fun g => if !g.prog then some 2 else if g.progClaim.isNone then some 4 else none)
    (fun _ => false) (fun _ => 0) fun g => match g.progClaim with
      | some n => g.commitAt n
      | none => g)

/-- `rdone` (R94, R366): frees the oldest taken slot. -/
def execRdone (p : Pred) (k : Nat) (s : State) : Out :=
  .next (s.ringOp p k none (fun g => if g.taken = 0 then some 5 else none) (fun _ => false) (fun _ => 0) Ring.release)

/-! ### Comparators -/

/-- The comparators of a share (R95). -/
def compShare (shape : Nat) : Nat := match shape with | 0 => 8 | 1 => 4 | _ => 2

/-- Comparators of a resident's share that are armed or hold an unpopped token (R95, R96). -/
def State.compsBound (s : State) (r : Resident) : Nat :=
  (s.allRes.filter fun x => x.core == r.core && x.lgrp == r.lgrp && x.away == .here &&
    (r.launch.shape == 0 || x.slot == r.slot)).foldl (fun n x => n + x.comps.length) 0

/-- The scalar registers among these sources. -/
def scalarNums (srcs : List Src) : List Nat :=
  srcs.filterMap fun a => match a with
    | .s n => some n
    | _ => none

/-- Range and token of an `arm`, as its sources read (R302). -/
def State.armRange (s : State) (q : Issue) (lo hi tok : Src) : Nat × Nat × BitVec 8 :=
  ((s.opnd q.res .int lo q.onceLane).toNat, (s.opnd q.res .int hi q.onceLane).toNat,
    (s.opnd q.res .int tok q.onceLane).setWidth 8)

/-- Bind a comparator (R302). -/
def State.effArm (s : State) (lo hi tok : Src) : State :=
  match s.iss with
  | none => s
  | some q =>
    let (l, h, t) := s.armRange q lo hi tok
    s.modCur fun r => { r with comps := r.comps ++ [{ lo := l, hi := h, token := t, fired := none }] }

/-- `arm` (R95, R96, R302), whose range check names no mask. The stores of its own bundle do not fire it. -/
def execArm (p : Pred) (lo hi tok : Src) (s : State) : Out :=
  .next (State.onceAs (Issue.namedBut 7) s slotScalar p (fun q => [lo, hi, tok].all q.res.srcOk) (scalarNums [lo, hi, tok])
    (fun q s =>
      let (l, h, _) := s.armRange q lo hi tok
      (if h ≤ l ∨ q.res.launch.spad * 256 < h then [mkCause 7 (BitVec.ofNat 32 l) 0 0 0] else []) ++
      (if compShare q.res.launch.shape ≤ s.compsBound q.res then ringMisuse 0xFFFF 8 else []))
    (fun _ _ => false)
    fun _ s => s.atEnd (.arm p lo hi tok) fun s => s.effArm lo hi tok)

/-- The oldest unpopped token of a resident (R97). -/
def oldestToken (cs : List Comparator) : Option Comparator :=
  cs.foldl (fun best c => match c.fired, best with
    | none, b => b
    | some _, none => some c
    | some n, some b => if n < b.fired.getD 0 then some c else some b) none

/-- The comparators after a token is popped: its comparator is free again (R96). -/
def popToken (cs : List Comparator) : List Comparator :=
  match oldestToken cs with
  | some c => cs.erase c
  | none => cs

/-- What `wait` returns (R394). -/
def waitValue (cs : List Comparator) : Word :=
  match oldestToken cs with
  | some c => c.token.zeroExtend 32
  | none => 0x100

/-- `wait` (R97, R394). -/
def execWait (p : Pred) (d : Nat) (s : State) : Out :=
  .next (s.once slotScalar p (fun q => q.res.scalarsOk d 1) [] (fun _ _ => [])
    (fun q _ => (oldestToken q.res.comps).isNone && !q.res.comps.isEmpty)
    fun q s => s.modCur fun r => ({ r with comps := popToken r.comps }).setScalar d (waitValue q.res.comps))

end Sys2Proof.Machine
end

