-- ==== Sys2Proof/Machine/Copy.lean ====
section
/-! DEFINITION. The copy engine (R110 to R113, R153 to R162, R310 to R317, R345): the checks at issue, the queue, the units a
command moves, its completion and its stop. -/

namespace Sys2Proof.Machine

/-! ### Engine accesses -/

/-- What the check of an engine's accesses gives: they may go on, one waits for its translation, or one meets a fault, at a global address
where `va` names it. -/
inductive EngCheck where
  | ok
  | wait (va : Nat) (wr : Bool)
  | stop (va : Option Nat) (c : Cause)
  deriving DecidableEq, Repr

/-- A cause of an engine command (R198): the address of the access, and whether it writes the destination. -/
def engCause (code : Nat) (sp : Space) (a : Nat) (wr : Bool) : Cause :=
  { mkCause code (BitVec.ofNat 32 (if sp = .s then 0 else a / 2 ^ 32)) (BitVec.ofNat 32 a) (BitVec.ofNat 32 (bitNat wr)) 0
    with eng := true }

/-- Who a command acts for: the resident that issued it, at the level it was issued at (R77). -/
def State.cmdWho (s : State) (core rid : Nat) (reeve : Bool) : Who :=
  match s.resAt rid with
  | some r => { s.who r with core := core, reeve := reeve }
  | none => { core := core, ctx := 0, asid := 0, tenant := 0, root := 0, reeve := false }

/-- The tenant of a command's issuer. -/
def State.cmdTenant (s : State) (rid : Nat) : Nat := ((s.resAt rid).map fun r => r.launch.tenant).getD 0

/-- Poison of a mapped address (R209). -/
def State.vaPoisoned (s : State) (w : Who) (a n : Nat) : Bool :=
  match s.xlat w a with
  | .ok leaf size =>
    let pa := paOf leaf size a
    s.homePoisoned (homeSlice leaf size a pa) pa n
  | _ => false

/-- The first byte from an address up that a test finds poisoned: the access that meets it (R198). DEDUCED: log entry 25. -/
def firstBad (bad : Nat → Bool) (a n : Nat) : Nat := a + (((List.range n).find? fun k => bad (a + k)).getD 0)

/-- The check of one piece (R77, R79, R162, R209): `nopk` for a source that must not be packed. A command that reads a lost line, to write
it too, stops as at any poisoned source (R25). DESIGN CHOICE: log entry 29. -/
def State.engPiece (s : State) (w : Who) (sp : Space) (uid : Nat) (wr nopk : Bool) (a n : Nat) : EngCheck :=
  match sp with
  | .s => if !wr && (s.spadRead uid w.core a n).2 then
      .stop none (engCause 12 .s (firstBad (fun b => (s.spadRead uid w.core b 1).2) a n) wr)
    else .ok
  | .g =>
    match s.checkHome w (if wr then kindWrite else kindRead) a with
    | .fault => .wait a wr
    | .bad => .stop (some a) (engCause (if !wr && nopk && s.packedAt w a then 6 else 5) .g a wr)
    | .ok leaf =>
      if !wr && nopk && leafPk leaf then .stop (some a) (engCause 6 .g a wr)
      else if !wr && s.vaPoisoned w a n then .stop (some a) (engCause 12 .g (firstBad (fun b => s.vaPoisoned w b 1) a n) wr)
      else .ok

/-- The first piece of a list of ranges that does not pass. -/
def State.engCheck (s : State) (w : Who) (sp : Space) (uid : Nat) (wr nopk : Bool) (rs : List (Nat × Nat)) : EngCheck :=
  (rs.flatMap fun r => pieces128 r.1 r.2).foldl (fun c x => if c = .ok then s.engPiece w sp uid wr nopk x.1 x.2 else c) .ok

/-- The first of two checks that does not pass. -/
def EngCheck.and (a b : EngCheck) : EngCheck := if a = .ok then b else a

/-- An engine command makes one request for each line that it reads or writes at a home slice (R263): whether this one is new,
and the lines it has asked for. -/
def newLine (lines : List Nat) (a : Nat) : Traffic × List Nat := if lines.contains (a / 128) then (.again, lines) else (.request, a / 128 :: lines)

/-- The requester numbers of the two engines at the scratchpad's banks (R90). -/
def matrixRequester : Nat := 64
def copyRequester : Nat := 65

/-- Read ranges, line by line, at the destination or source port (R90, R111, R146): the cells and the lines asked for. -/
def State.engRead (s : State) (port : Nat) (w : Who) (sp : Space) (uid : Nat) (lines : List Nat) (rs : List (Nat × Nat)) :
    List Host.Cell × List Nat × State :=
  (rs.flatMap fun r => pieces128 r.1 r.2).foldl (fun (acc : List Host.Cell × List Nat × State) x =>
    match sp with
    | .s => (acc.1 ++ cellsFrom x.1 (acc.2.2.spadRead uid w.core x.1 x.2).1, acc.2.1, acc.2.2.bankServe w.core port x.1 x.2)
    | .g =>
      let (req, ls) := newLine acc.2.1 x.1
      let ((bs, _), s1) := acc.2.2.readAtHome req w x.1 x.2
      (acc.1 ++ cellsFrom x.1 bs, ls, s1)) ([], lines, s)

/-- Write bytes, line by line, at the destination port. -/
def State.engWrite (s : State) (w : Who) (sp : Space) (uid : Nat) (lines : List Nat) (ws : List (Nat × List Byte)) : List Nat × State :=
  ws.foldl (fun (acc : List Nat × State) x => match sp with
    | .s => (acc.1, (acc.2.bankServe w.core copyRequester x.1 x.2.length).spadWrite uid w.core x.1 x.2)
    | .g => (pieces128 x.1 x.2.length).foldl (fun (acc : List Nat × State) p =>
        let (req, ls) := newLine acc.1 p.1
        (ls, acc.2.writeAtHome req w p.1 ((x.2.drop (p.1 - x.1)).take p.2))) acc) (lines, s)

/-- The byte of an address among cells that have been read. -/
def cellByte (cs : List Host.Cell) (a : Nat) : Byte := ((cs.find? fun c => c.1 == a).map Prod.snd).getD 0

/-! ### Footprints (R110) -/

/-- Two footprints share a byte. -/
def Extent.clash (a b : Extent) : Bool := a.sp == b.sp && a.own == b.own && overlaps a.lo a.len b.lo b.len

/-- A range of the issuer's space as an extent. -/
def Resident.extent (r : Resident) (sp : Space) (lo len : Nat) : Extent :=
  { sp := sp, own := (if sp = .s then r.uid else r.launch.ctx), lo := lo, len := len }

/-- The planes of a descriptor as extents (R140). -/
def Resident.planes (r : Resident) (d : Desc) : List Extent :=
  d.planes.map fun p => r.extent (if d.spad then .s else .g) p.1 p.2

/-! ### Element operations -/

/-- Bytes of a `cacc` type (R313). -/
def accBytes : AccTy → Nat
  | .i32 => 4 | .i64 => 8 | .f32 => 4 | .bf16 => 2

/-- ⊕ of `cacc` on raw codes (R136, R157). -/
def accApply (op : AccOp) (ty : AccTy) (old x : Nat) : Nat :=
  let w := 8 * accBytes ty
  let float := fun F : FloatFmt => match op with
    | .add => (addF F .rne old x).1
    | .min => (minF F old x).1
    | .max => (maxF F old x).1
    | _ => x
  match ty with
  | .f32 => float fmtF32
  | .bf16 => float fmtBF16
  | _ => match op with
    | .add => (old + x) % 2 ^ w
    | .min => if sint w x < sint w old then x else old
    | .max => if sint w old < sint w x then x else old
    | .and => old &&& x
    | .or => old ||| x
    | .xor => old ^^^ x
    | .exch => x

/-- One byte into a CRC-32C register (R159). -/
def crcByte (c : Nat) (b : Byte) : Nat :=
  (List.range 8).foldl (fun c _ => if c % 2 = 1 then (c / 2) ^^^ 0x82F63B78 else c / 2) (c ^^^ b.toNat)

/-- `ccrc` (R159). -/
def crc32c (init : Nat) (bs : List Byte) : Nat := (bs.foldl crcByte (init ^^^ 0xFFFFFFFF)) ^^^ 0xFFFFFFFF

/-! ### What a command moves -/

/-- One unit of a command's traversal (R162): the ranges it reads, the destination ranges it reads first (R111), the ranges
it writes, and the bytes it writes from what it has read. -/
structure CopyUnit where
  src : List (Nat × Nat)
  olds : List (Nat × Nat)
  dst : List (Nat × Nat)
  write : (Nat → Byte) → (Nat → Byte) → List (Nat × List Byte)

/-- A unit that moves nothing. -/
def CopyUnit.none : CopyUnit := { src := [], olds := [], dst := [], write := fun _ _ => [] }

/-- Spaces of destination and source. -/
def CopyCmd.spaces (c : CopyCmd) : Space × Space :=
  match c.instr with
  | .cpy _ _ _ _ _ xs ys _ => (xs, ys)
  | .cpyt _ _ _ _ _ _ => (if c.td.spad then .s else .g, if c.ts.spad then .s else .g)
  | .cacc _ _ _ _ _ xs ys _ _ _ => (xs, ys)
  | .ccas _ _ _ _ _ xs _ _ => (xs, xs)
  | .cfill _ _ _ _ xs => (xs, xs)
  | .ccrc _ _ _ _ _ xs ys => (xs, ys)
  | _ => (.g, .g)

/-- A copy's rows: number, bytes, destination pitch, source pitch (R154, R312). -/
def CopyCmd.rows (c : CopyCmd) : Nat × Nat × Nat × Nat :=
  match c.instr with
  | .cpy _ _ _ _ _ _ _ true => (fld c.b0.toNat 16 16 + 1, fld c.b0.toNat 0 16 + 1, c.b1.toNat, c.b2.toNat)
  | _ => (1, c.b0.toNat, 0, 0)

/-- The pieces of a copy or a fill: destination, length, source (R162). -/
def CopyCmd.pieces (c : CopyCmd) : List (Nat × Nat × Nat) :=
  let (n, rb, dp, sp) := c.rows
  (List.range n).flatMap fun q =>
    (pieces128 (c.x + q * dp) rb).map fun p => (p.1, p.2, c.y + q * sp + (p.1 - (c.x + q * dp)))

/-- The destination rows of a copy as ranges. -/
def CopyCmd.dstRows (c : CopyCmd) : List (Nat × Nat) :=
  let (n, rb, dp, _) := c.rows
  (List.range n).map fun q => (c.x + q * dp, rb)

/-- The source rows of a copy as ranges. -/
def CopyCmd.srcRows (c : CopyCmd) : List (Nat × Nat) :=
  let (n, rb, _, sp) := c.rows
  (List.range n).map fun q => (c.y + q * sp, rb)

/-- Bytes of a copy's destination and source from first to last. -/
def CopyCmd.spans (c : CopyCmd) : Nat × Nat :=
  let (n, rb, dp, sp) := c.rows
  ((n - 1) * dp + rb, (n - 1) * sp + rb)

/-- Units of a command (R162). -/
def CopyCmd.unitCount (c : CopyCmd) : Nat :=
  match c.instr with
  | .cpy _ _ _ _ _ _ _ _ => c.pieces.length
  | .cfill _ _ _ _ _ => c.pieces.length
  | .cpyt _ _ _ _ _ _ => if c.td.fmt.isQuilt then c.td.tiles else c.td.lines.length
  | .cacc _ _ _ _ _ _ _ _ _ _ => c.b0.toNat
  | .ccrc _ _ _ _ _ _ _ => c.b0.toNat
  | _ => 1

/-- The operand of a `.imm` accumulate (R313). -/
def CopyCmd.immOperand (c : CopyCmd) (ty : AccTy) : Nat :=
  match ty with
  | .i64 => c.b2.toNat * 2 ^ 32 + c.b3.toNat
  | .bf16 => c.b3.toNat % 65536
  | _ => c.b3.toNat

/-- Compare and swap values of a `ccas` (R314). -/
def CopyCmd.casWords (c : CopyCmd) (w64 : Bool) : Nat × Nat :=
  if w64 then (c.b0.toNat * 2 ^ 32 + c.b1.toNat, c.b2.toNat * 2 ^ 32 + c.b3.toNat) else (c.b1.toNat, c.b3.toNat)

/-- The bytes of an accumulated element; one whose old value is poisoned keeps its mark, since it is written in parts. -/
def accWrites (a n v : Nat) (split : Bool) : List (Nat × List Byte) :=
  let bs := leBytes n v
  if split then [(a, bs.take 4), (a + 4, bs.drop 4)] else [(a, bs)]

/-- Unit u of a command. `marked` says that the old destination value carries a mark. -/
def CopyCmd.unit (c : CopyCmd) (u : Nat) (marked : Bool) : CopyUnit :=
  match c.instr with
  | .cpy _ _ _ _ _ _ _ _ =>
    match c.pieces[u]? with
    | some (d, n, a) =>
      { src := [(a, n)], olds := [], dst := [(d, n)], write := fun rd _ => [(d, (List.range n).map fun k => rd (a + k))] }
    | none => .none
  | .cfill _ _ _ _ _ =>
    match c.pieces[u]? with
    | some (d, n, _) =>
      { src := [], olds := [], dst := [(d, n)]
        write := fun _ _ => [(d, (List.range n).map fun k => (wordBytes c.b1).getD ((d + k - c.x) % 4) 0)] }
    | none => .none
  | .cpyt _ _ _ _ tr _ =>
    if c.td.fmt.isQuilt then
      { src := tileSources c.td c.ts tr u, olds := [], dst := c.td.tileRanges u, write := fun rd _ => tileWrites c.td c.ts tr u rd }
    else match c.td.lines[u]? with
      | some l =>
        { src := lineSources c.td c.ts tr l, olds := []
          dst := (c.td.inLine l).map fun e => (c.td.elemAddr e.1 e.2, c.td.fmt.bytes)
          write := fun rd _ => lineWrites c.td c.ts tr l rd }
      | none => .none
  | .cacc _ _ _ _ _ _ _ imm op ty =>
    let n := accBytes ty
    let d := c.x + u * n
    let a := c.y + u * n
    { src := if imm then [] else [(a, n)], olds := [(d, n)], dst := [(d, n)]
      write := fun rd old =>
        let x := if imm then c.immOperand ty else readLe rd a n
        accWrites d n (accApply op ty (readLe old d n) x) (marked && n == 8 && op != .exch) }
  | .ccas _ _ _ _ _ _ w64 _ =>
    let n := if w64 then 8 else 4
    let (cmp, swap) := c.casWords w64
    { src := [], olds := [(c.x, n)], dst := [(c.x, n)]
      write := fun _ old => if readLe old c.x n = cmp then [(c.x, leBytes n swap)] else [] }
  | .ccrc _ _ _ _ _ _ _ => { src := [(c.y + u, 1)], olds := [], dst := [], write := fun _ _ => [] }
  | _ => .none

/-- A `cred` is not withdrawn and never stops: it runs to completion (R162, R186). -/
def CopyCmd.stays (c : CopyCmd) : Bool :=
  match c.instr with
  | .cred _ _ _ _ _ _ _ => true
  | _ => false

/-- Sources that must not be packed (R79). -/
def CopyCmd.unpacked (c : CopyCmd) : Bool :=
  match c.instr with
  | .cpy _ _ _ _ _ _ _ _ => true
  | .cacc _ _ _ _ _ _ _ _ _ _ => true
  | .ccas _ _ _ _ _ _ _ _ => true
  | _ => false

/-- Source and destination overlap, in a command that reads its whole source first (R155, R157): by the bounding ranges of its
footprint, a ring's side by the whole claimed slot (DEDUCED: log entry 36), compared as virtual addresses (DESIGN CHOICE: log entry 42). -/
def CopyCmd.overlapping (c : CopyCmd) : Bool :=
  (match c.instr with
    | .cpy _ _ _ _ _ _ _ _ => true
    | .cacc _ _ _ _ _ _ _ imm _ _ => !imm
    | _ => false) && c.src.any fun a => c.dst.any a.clash

/-- Ranges of the whole source and the whole destination. -/
def CopyCmd.whole (c : CopyCmd) : List (Nat × Nat) × List (Nat × Nat) :=
  match c.instr with
  | .cacc _ _ _ _ _ _ _ _ _ ty => ([(c.y, c.b0.toNat * accBytes ty)], [(c.x, c.b0.toNat * accBytes ty)])
  | _ => (c.srcRows, c.dstRows)

/-! ### The queue -/

/-- A command that a core's copy engine can work on: none while the engine stands still (R230). -/
def State.copyAt (s : State) (core id : Nat) : Option CopyCmd :=
  if s.stopped then none else (s.coreAt core).cq.find? fun c => c.id == id

/-- Change a command. -/
def State.modCopy (s : State) (core : Nat) (c : CopyCmd) : State :=
  s.modCore core fun k => { k with cq := updIf (fun x => x.id == c.id) (fun _ => c) k.cq }

/-- Commands of a tenant in a core's copy engine. -/
def State.copyUsed (s : State) (core t : Nat) : Nat := ((s.coreAt core).cq.filter fun c => s.cmdTenant c.rid == t).length

/-- The engine, or the tenant's share of it, is full (R153, R193). -/
def State.copyFull (s : State) (q : Issue) : Bool :=
  let core := q.res.core
  decide (32 ≤ (s.coreAt core).cq.length + q.copyNeed) ||
    decide (s.engineShare core q.res.launch.tenant 32 ≤ s.copyUsed core q.res.launch.tenant + q.copyNeed)

/-- The flag has room for the bundle's ops before this one and this one (R56). -/
def Issue.flagBusy (q : Issue) (k : Nat) : Bool := decide (63 ≤ q.res.flags.getD k 0 + (q.flagNeed.filter (· == k)).length)

/-- Count a queue place and a flag a bundle needs, while its causes are collected. -/
def State.needEngine (s : State) (copy : Bool) (flag : Option Nat) : State :=
  s.modIss fun q =>
    if q.probe then { q with copyNeed := q.copyNeed + bitNat copy, flagNeed := q.flagNeed ++ flag.toList } else q

/-- The ring a copy names as its destination. -/
def CopyCmd.ringOf (c : CopyCmd) : Option Nat :=
  match c.instr with
  | .cpy _ _ _ _ _ _ _ _ => if c.b3.getLsbD 4 then some (fld c.b3.toNat 0 4) else none
  | _ => none

/-- Count a ring slot a bundle will claim, while its causes are collected. -/
def State.needRing (s : State) (ring : Option Nat) : State :=
  s.modIss fun q => if q.probe then { q with ringNeed := q.ringNeed ++ ring.toList } else q

/-- The physical byte ranges behind an extent of global addresses, page by page. -/
def State.physOf (s : State) (w : Who) (e : Extent) : List (Nat × Nat) :=
  if e.sp = .s then [] else (unitsOf (2 ^ 16) e.lo e.len).flatMap fun p =>
    let lo := max e.lo (2 ^ 16 * p)
    match s.xlat w lo with
    | .ok leaf size => [(paOf leaf size lo, min (e.lo + e.len) (2 ^ 16 * p + 2 ^ 16) - lo)]
    | _ => []

/-- Two footprints share a byte: at one address of one space, or at two addresses of one physical byte (R78, R110). -/
def State.clashes (s : State) (w w' : Who) (a b : Extent) : Bool :=
  a.clash b || ((s.physOf w a).any fun x => (s.physOf w' b).any fun y => overlaps x.1 x.2 y.1 y.2)

/-- The waits of R110: source on destination, destination on source or destination. -/
def State.footprintClash (s : State) (w w' : Who) (src dst src' dst' : List Extent) : Bool :=
  (src.any fun a => dst'.any (s.clashes w w' a)) || (dst.any fun a => (src' ++ dst').any (s.clashes w w' a))

/-- A line holds bytes of a footprint, under any virtual address (R78, R103, R113). -/
def L1Line.within (l : L1Line) (es : List Extent) (ph : List (Nat × Nat)) : Bool :=
  (es.any fun e => e.sp == .g && e.own == l.ctx && overlaps (l.tag * 128) 128 e.lo e.len) ||
    ph.any fun x => overlaps (l.pa * 128) 128 x.1 x.2

/-- Dirty bytes of the context within global footprints go home before the command (R113). -/
def State.flushFor (s : State) (w : Who) (es : List Extent) : State :=
  let ph := es.flatMap (s.physOf w)
  s.writeBackIf w.core fun l => l.ctx == w.ctx && l.within es ph

/-- The translations of the first and the last byte of each global range, made at issue where a check fails (R77). -/
def State.translateEnds (s : State) (r : Resident) (kind : Nat) (es : List Extent) : State :=
  es.foldl (fun s e => if e.sp = .s ∨ e.len = 0 then s else
    (s.translate (s.who r) true kind 1 e.lo).translate (s.who r) true kind 1 (e.lo + e.len - 1)) s

/-- The shape of every copy-engine command at issue (R311). `bad` is what the body and the descriptors break, `causes` the
other checks, `waits` the translations it needs at issue, `porch` the porch entries it takes in VLIW. -/
def State.copyIssue (s : State) (p : Pred) (set : Bool) (porch : Nat) (legal : Issue → Bool) (reads : List Nat) (mk : State → Issue → CopyCmd)
    (bad : State → Issue → CopyCmd → Bool) (causes : State → Issue → CopyCmd → List Cause)
    (waits : State → Issue → CopyCmd → List (Nat × Nat)) (send : State → Issue → CopyCmd → State) : State :=
  match s.iss with
  | none => s
  | some q =>
    let c := mk s q
    let t := q.taken p
    let illegal := !(q.slotPlace slotCopy && predOk q.res p && q.setOk set && legal q) || (t && bad s q c)
    let live := t && !illegal
    let pass := !live || ((causes s q c).isEmpty && (waits s q c).isEmpty)
    let s0 := if pass then s else (s.translateEnds q.res kindRead c.src).translateEnds q.res kindWrite c.dst
    (s0.attemptF (q.illegalIf illegal ++ q.scalarPoison p reads ++ (if live then causes s q c else []))
      (live && (s.copyFull q || q.flagBusy (q.flagOf set) || (porch != 0 && s.porchFull q porch))) (if live then waits s q c else []) fun q s =>
        if t then
          let c := { mk s q with id := s.nextId }
          let s1 := send ({ s with nextId := s.nextId + 1 }.flushFor (s.who q.res) (c.src ++ c.dst)) q c
          (s1.modCur fun r => r.flagUp (q.flagOf set)).modCore q.res.core fun k => { k with cq := k.cq ++ [c] }
        else s).needEngine live (if live then some (q.flagOf set) else none) |>.needPorch (if live then porch else 0) |>.needRing (if live then c.ringOf else none)

/-- A command as read at issue; `x` and `y` are addresses or offsets. -/
def State.copyBase (_s : State) (q : Issue) (i : Instr) (x y : Nat) (b : Option Nat) (set : Bool) : CopyCmd :=
  let r := q.res
  let body := fun k => match b with
    | some n => r.sreg (n + k)
    | none => 0
  { id := 0, rid := r.rid, uid := r.uid, reeve := r.reeve, instr := i, x := x, y := y, b0 := body 0, b1 := body 1,
    b2 := body 2, b3 := body 3, td := Desc.zero, ts := Desc.zero, flag := q.flagOf set, loadId := none, src := [],
    dst := [], ring := none, prog := 0, total := 0, state := .queued, fva := 0, fwr := false, buffer := [], lines := [],
    half := false, since := 0, linkLost := false }

/-- An engine address: a scalar pair for global memory, one scalar for the scratchpad (R154). -/
def Resident.engAddr (r : Resident) (sp : Space) (n : Nat) : Nat :=
  match sp with
  | .g => (r.sregPair n).toNat
  | .s => (r.sreg n).toNat

/-- The scalar registers an engine address is read from. -/
def engRegs (sp : Space) (n : Nat) : List Nat := if sp = .g then [n, n + 1] else [n]

/-- The four body registers (R310). -/
def bodyRegs (b : Nat) : List Nat := [b, b + 1, b + 2, b + 3]

/-- Registers named by a command lie within the allotment. -/
def Issue.regsOk (q : Issue) (ns : List Nat) : Bool := ns.all fun n => q.res.scalarsOk n 1

/-- The checks at issue of one range of an engine command (R311). A first or last byte whose translation faults holds nothing back: the
command is sent, waits in flight, and meets there what its page turns out to forbid. DESIGN CHOICE: log entry 42. -/
def State.engRange (s : State) (q : Issue) (sp : Space) (wr nopk : Bool) (a n : Nat) : List Cause :=
  match sp with
  | .s =>
    (if a + n ≤ q.res.launch.spad * 256 then [] else [mkCause 7 (BitVec.ofNat 32 a) 0 0 0]) ++
      (if !wr && nopk && (s.ctxOf q.res).packedSpad a n then [addrCause 6 a 0 0] else [])
  | .g => [a, a + n - 1].flatMap fun x =>
      match s.checkHome (s.who q.res) (if wr then kindWrite else kindRead) x with
      | .bad => (if !wr && nopk && s.packedAt (s.who q.res) x then [addrCause 6 x 0 0] else []) ++ [addrCause 5 x 0 kindEngine]
      | .ok leaf => if !wr && nopk && leafPk leaf then [addrCause 6 x 0 0] else []
      | .fault => []

/-- Code 3 of an engine operand. -/
def alignCause (a n : Nat) : List Cause := if a % n = 0 then [] else [addrCause 3 a 0 0]

/-! ### `cpy` and `cfill` (R155, R312) -/

/-- Ring misuse of a copy (R94, R366). -/
def State.copyRing (s : State) (q : Issue) (c : CopyCmd) : List Cause :=
  match c.ringOf with
  | none => []
  | some k =>
    let g := s.myRing q k
    if g.foreign q.res then ringMisuse k 1 else if g.prog then ringMisuse k 3 else []

/-- The offset of the slot a ring copy sent now will claim, behind those before it in its bundle: ring copies claim in arrival order. -/
def State.nextSlot (s : State) (q : Issue) (k : Nat) : Nat :=
  let core := q.res.core
  let g := s.ringOf core k
  let ahead := ((s.coreAt core).cq.filter fun c => c.ringOf == some k && c.ring.isNone).length + q.ringNeed.count k
  g.slotAt ((g.tail + ahead) % g.slots)

/-- The destination rows a wr bramble sees. -/
def State.copyDst (s : State) (q : Issue) (c : CopyCmd) : List (Nat × Nat) :=
  match c.ringOf with
  | none => c.dstRows
  | some k => c.dstRows.map fun r => (r.1 + s.nextSlot q k, r.2)

/-- A `cpy` as issued, with its footprint; a ring destination's is known when it is claimed. -/
def State.mkCpy (i : Instr) (x y b : Nat) (set : Bool) (xs ys : Space) (s : State) (q : Issue) : CopyCmd :=
  let c := s.copyBase q i (q.res.engAddr xs x) (q.res.engAddr ys y) (some b) set
  { c with
    src := [q.res.extent ys c.y c.spans.2]
    dst := if c.ringOf.isSome then [] else [q.res.extent xs c.x c.spans.1] }

/-- Body limits of `cpy` (R312). A disabled ring, or another unit's, has no slot of this unit's whose end a copy could pass: it takes the
ring-misuse trap. DEDUCED: log entry 17. -/
def State.cpyBad (twoD : Bool) (xs : Space) (s : State) (q : Issue) (c : CopyCmd) : Bool :=
  let (n, rb, _, _) := c.rows
  (if twoD then decide (65536 < n * rb) else decide (c.b0.toNat < 1 ∨ 65536 < c.b0.toNat) || c.b1 != 0 || c.b2 != 0) ||
  decide (32 ≤ c.b3.toNat) ||
  (match c.ringOf with
    | some k => xs == .g || (!(s.myRing q k).foreign q.res && decide ((s.myRing q k).slotBytes < c.x + c.spans.1))
    | none => false)

/-- `cpy` and `cpy.2d` (R155, R312). -/
def execCpy (p : Pred) (x y b : Nat) (set : Bool) (xs ys : Space) (twoD : Bool) (s : State) : Out :=
  let regs := engRegs xs x ++ engRegs ys y ++ bodyRegs b
  .next (s.copyIssue p set 0 (fun q => q.regsOk regs) regs (State.mkCpy (.cpy p x y b set xs ys twoD) x y b set xs ys)
    (State.cpyBad twoD xs)
    (fun s q c => s.copyRing q c ++ (if c.ringOf.isSome then [] else s.engRange q xs true false c.x c.spans.1) ++
      s.engRange q ys false true c.y c.spans.2 ++ (s.ctxOf q.res).brambleCause q.res true (xs == .s) (s.copyDst q c))
    (fun _ _ _ => []) fun s _ _ => s)

/-- `cfill` (R155, R312). -/
def execCfill (p : Pred) (x b : Nat) (set : Bool) (xs : Space) (s : State) : Out :=
  let regs := engRegs xs x ++ bodyRegs b
  .next (s.copyIssue p set 0 (fun q => q.regsOk regs) regs
    (fun s q =>
      let c := s.copyBase q (.cfill p x b set xs) (q.res.engAddr xs x) 0 (some b) set
      { c with dst := [q.res.extent xs c.x c.b0.toNat] })
    (fun _ _ c => decide (c.b0.toNat < 4 ∨ 65536 < c.b0.toNat ∨ c.b0.toNat % 4 ≠ 0) || c.b2 != 0 || c.b3 != 0)
    (fun s q c => alignCause c.x 4 ++ s.engRange q xs true false c.x c.b0.toNat ++
      (s.ctxOf q.res).brambleCause q.res true (xs == .s) [(c.x, c.b0.toNat)])
    (fun _ _ _ => []) fun s _ _ => s)

/-! ### `cacc`, `ccas`, `ccrc`, `cred` (R157 to R161, R313 to R317) -/

/-- Body limits of `cacc` (R154, R313). -/
def caccBad (imm : Bool) (op : AccOp) (ty : AccTy) (c : CopyCmd) : Bool :=
  decide (c.b0.toNat < 1 ∨ 65536 / accBytes ty < c.b0.toNat) || c.b1 != 0 || !op.fits ty ||
  (if !imm then c.b2 != 0 || c.b3 != 0
   else match ty with
    | .i64 => false
    | .bf16 => c.b2 != 0 || decide (65536 ≤ c.b3.toNat)
    | _ => c.b2 != 0)

/-- `cacc` (R157, R313). -/
def execCacc (p : Pred) (x y b : Nat) (set : Bool) (xs ys : Space) (imm : Bool) (op : AccOp) (ty : AccTy) (s : State) : Out :=
  let regs := engRegs xs x ++ (if imm then [] else engRegs ys y) ++ bodyRegs b
  let n := accBytes ty
  .next (s.copyIssue p set 0 (fun q => q.regsOk regs) regs
    (fun s q =>
      let c := s.copyBase q (.cacc p x y b set xs ys imm op ty) (q.res.engAddr xs x) (if imm then 0 else q.res.engAddr ys y) (some b) set
      { c with
        src := if imm then [] else [q.res.extent ys c.y (c.b0.toNat * n)]
        dst := [q.res.extent xs c.x (c.b0.toNat * n)] })
    (fun _ _ c => caccBad imm op ty c)
    (fun s q c => alignCause c.x n ++ (if imm then [] else alignCause c.y n) ++ s.engRange q xs true false c.x (c.b0.toNat * n) ++
      (if imm then [] else s.engRange q ys false true c.y (c.b0.toNat * n)))
    (fun _ _ _ => []) fun s _ _ => s)

/-- The registers `ccas` returns the old word to. -/
def casRegs (y : Nat) (w64 : Bool) : List Reg := if w64 then [.s y, .s (y + 1)] else [.s y]

/-- A VLIW `ccas` reserves one porch entry (R314). -/
def State.casPorch (s : State) (q : Issue) (c : CopyCmd) (y : Nat) (w64 : Bool) (land : Nat) : State :=
  if q.res.simt then s
  else s.modCur fun r => { r with porch := r.porch ++ [{ id := c.id, due := r.count + land, seq := 32 * r.count, lane := 0, dst := casRegs y w64, va := c.x, width := 4 * (casRegs y w64).length, scope := none, bank := false, data := none, arrived := false, fault := .none, again := false }] }

/-- `ccas` (R158, R314). The word at X counts as a source for packed pages. -/
def execCcas (p : Pred) (x y b : Nat) (set : Bool) (xs : Space) (w64 : Bool) (land : Nat) (s : State) : Out :=
  let n := if w64 then 8 else 4
  let regs := engRegs xs x ++ bodyRegs b
  .next (s.copyIssue p set 1 (fun q =>
      q.regsOk (regs ++ (if w64 then [y, y + 1] else [y])) && (if q.res.simt then land == bitNat set else decide (0 < land))) regs
    (fun s q =>
      let c := s.copyBase q (.ccas p x y b set xs w64 land) (q.res.engAddr xs x) y (some b) set
      { c with
        src := [q.res.extent xs c.x n], dst := [q.res.extent xs c.x n]
        loadId := if q.res.simt then none else some s.nextId })
    (fun _ _ c => !w64 && (c.b0 != 0 || c.b2 != 0))
    (fun s q c => alignCause c.x n ++ s.engRange q xs true false c.x n ++ s.engRange q xs false true c.x n)
    (fun _ _ _ => []) fun s q c => s.casPorch q c y w64 land)

/-- `ccrc` (R159, R315). -/
def execCcrc (p : Pred) (x y b : Nat) (set : Bool) (xs ys : Space) (s : State) : Out :=
  let regs := engRegs xs x ++ engRegs ys y ++ bodyRegs b
  .next (s.copyIssue p set 0 (fun q => q.regsOk regs) regs
    (fun s q =>
      let c := s.copyBase q (.ccrc p x y b set xs ys) (q.res.engAddr xs x) (q.res.engAddr ys y) (some b) set
      { c with src := [q.res.extent ys c.y c.b0.toNat], dst := [q.res.extent xs c.x 4] })
    (fun _ _ c => decide (c.b0.toNat < 1 ∨ 65536 < c.b0.toNat) || c.b2 != 0 || c.b3 != 0)
    (fun s q c => alignCause c.x 4 ++ s.engRange q xs true false c.x 4 ++ s.engRange q ys false false c.y c.b0.toNat)
    (fun _ _ _ => []) fun s _ _ => s)

/-- Bytes and largest count of a `cred` type (R317). -/
def credBytes : CredTy → Nat × Nat
  | .f32 => (4, 16384) | .i32 => (4, 16384) | .bf16 => (2, 32768)

/-- `cred` (R160, R317): at issue like every command; its completion is an event of its own. -/
def execCred (p : Pred) (x y b : Nat) (set : Bool) (op : RedOp) (ty : CredTy) (s : State) : Out :=
  let (n, most) := credBytes ty
  let regs := engRegs .g x ++ engRegs .g y ++ bodyRegs b
  .next (s.copyIssue p set 0 (fun q => q.regsOk regs) regs
    (fun s q =>
      let c := s.copyBase q (.cred p x y b set op ty) (q.res.engAddr .g x) (q.res.engAddr .g y) (some b) set
      { c with src := [q.res.extent .g c.y (c.b0.toNat * n)], dst := [q.res.extent .g c.x (c.b0.toNat * n)] })
    (fun _ _ c => decide (c.b0.toNat < 1 ∨ most < c.b0.toNat) || c.b1 != 0 || decide (256 ≤ c.b2.toNat))
    (fun s q c => alignCause c.x n ++ alignCause c.y n ++ s.engRange q .g true false c.x (c.b0.toNat * n) ++
      s.engRange q .g false false c.y (c.b0.toNat * n))
    (fun _ _ _ => []) fun s _ _ => s)

/-! ### `cpyt` (R112, R156, R316) -/

/-- The lines of a tile's header and payload (R112). -/
def Desc.commitLines (d : Desc) (t : Nat) : List Nat :=
  (unitsOf 128 (d.headerAddr t) 8 ++ unitsOf 128 (d.payloadAddr t 0) (tileBytes d.fmt)).map (· * 128)

/-- The home slices of a tile's lines, those that are mapped. -/
def State.commitSlices (s : State) (w : Who) (d : Desc) (t : Nat) : List Nat :=
  (d.commitLines t).filterMap fun a => match s.xlat w a with
    | .ok leaf size => some (homeSlice leaf size a (paOf leaf size a))
    | _ => none

/-- The checks of `.commit` at issue (R112): every tile's lines at one slice. Whether the pages between the ends may be written is
checked in flight (R77). -/
def State.commitCauses (s : State) (q : Issue) (d : Desc) : List Cause :=
  let w := s.who q.res
  (List.range d.tiles).flatMap fun t =>
    let gone := (d.commitLines t).filter q.res.refusedAt
    let mixed := match s.commitSlices w d t with
      | [] => false
      | k :: ks => ks.any (· != k)
    gone.map (fun a => addrCause 4 a 0 kindEngine) ++
      (if mixed then [addrCause 5 (d.headerAddr t) 0 kindEngine] else [])

/-- The translations `.commit` waits for at issue. -/
def State.commitWaits (s : State) (q : Issue) (d : Desc) : List (Nat × Nat) :=
  let w := s.who q.res
  ((List.range d.tiles).flatMap d.commitLines).filterMap fun a =>
    if s.checkHome w kindWrite a == .fault && !q.res.refusedAt a then some (kindEngine, a) else none

/-- The checks of a descriptor's planes (R139, R311). -/
def State.planeChecks (s : State) (q : Issue) (d : Desc) (wr : Bool) : List Cause :=
  d.planes.flatMap fun p => s.engRange q (if d.spad then .s else .g) wr false p.1 p.2

/-- `cpyt` (R156, R316). -/
def execCpyt (p : Pred) (td ts : Nat) (set : Bool) (tr commit : Bool) (s : State) : Out :=
  .next (s.copyIssue p set 0 (fun _ => true) []
    (fun s q =>
      let c := s.copyBase q (.cpyt p td ts set tr commit) 0 0 none set
      let d := (s.ctxOf q.res).desc td
      let a := (s.ctxOf q.res).desc ts
      { c with td := d, ts := a, src := q.res.planes a, dst := q.res.planes d })
    (fun _ _ c => !(cpytPair c.ts.fmt c.td.fmt && cpytShape c.td c.ts tr) || decide (65536 < c.td.bytes) ||
      (commit && (c.td.spad || !c.td.fmt.isQuilt)))
    (fun s q c => s.planeChecks q c.td true ++ s.planeChecks q c.ts false ++
      (s.ctxOf q.res).brambleCause q.res true c.td.spad c.td.ranges ++ (if commit then s.commitCauses q c.td else []))
    (fun s q c => if commit then s.commitWaits q c.td else []) fun s _ _ => s)

/-! ### `jdec` at issue (R345) -/

/-- `jdec` (R345): a command on the join counter of a record. -/
def execJdec (p : Pred) (x : Nat) (set : Bool) (s : State) : Out :=
  .next (s.copyIssue p set 0 (fun q => q.regsOk [x, x + 1]) [x, x + 1]
    (fun s q =>
      let c := s.copyBase q (.jdec p x set) (q.res.sregPair x).toNat 0 none set
      { c with dst := [q.res.extent .g (c.x + 48) 16] })
    (fun _ _ _ => false)
    (fun s q c => alignCause c.x 128 ++ s.engRange q .g true false (c.x + 48) 16 ++ s.engRange q .g false true (c.x + 48) 16)
    (fun _ _ _ => [])
    fun s q _ => s.writeBackIf q.res.core fun l => l.ctx == (s.ctxOf q.res).num)

/-! ### The engine's steps -/

/-- The slot a ring copy claims at its start. -/
def State.startSlot (s : State) (core : Nat) (c : CopyCmd) : Option (Nat × Ring) :=
  match c.ringOf, c.ring with
  | some k, none => some (k, s.ringOf core k)
  | _, _ => none

/-- The destination footprint of a command about to start: for a ring copy the slot it claims (R110). -/
def State.startDst (s : State) (core : Nat) (c : CopyCmd) : List Extent :=
  match s.startSlot core c with
  | some (_, g) => [{ sp := .s, own := c.uid, lo := g.slotAt g.tail, len := g.slotBytes }]
  | none => c.dst

/-- A command may start (R94, R110, R153): those before it have started, no footprint clashes, its ring has a slot. -/
def State.canStart (s : State) (core : Nat) (c : CopyCmd) : Bool :=
  let before := (s.coreAt core).cq.takeWhile fun x => x.id != c.id
  let w := s.cmdWho core c.rid c.reeve
  before.all (fun x => x.state != .queued && !s.footprintClash w (s.cmdWho core x.rid x.reeve) c.src (s.startDst core c) x.src x.dst) &&
  (match s.startSlot core c with
    | some (_, g) => g.enabled && !g.prog && decide (0 < g.free)
    | none => true)

/-- The links that serve a peer group: those of its participants' entries (R223, R233). -/
def PeerGroup.links (g : PeerGroup) : BitVec 18 := g.entries.foldl (fun m e => m ||| (e.ushiftRight 8).setWidth 18) 0

/-- The peer group that a `cred` names, if it is configured (R233). -/
def State.groupOf (s : State) (c : CopyCmd) : Option PeerGroup := s.peerGroups.find? fun g => g.group == c.b2.toNat

/-- A link of the group is down (R233). -/
def State.groupDown (s : State) (g : PeerGroup) : Bool := g.links &&& ~~~s.links != 0

/-- A command starts: its ring slot is claimed, its units are counted, and the time of a `cred` begins to run. -/
def State.beginCopy (s : State) (core : Nat) (c : CopyCmd) : CopyCmd × State :=
  match s.startSlot core c with
  | some (k, g) =>
    let c1 := { c with x := g.slotAt g.tail + c.x, ring := some (k, g.tail), dst := s.startDst core c, state := .running }
    ({ c1 with total := c1.unitCount }, s.modRing core k fun g => g.claim false)
  | none => ({ c with state := .running, total := c.unitCount, since := s.timebase, linkLost := (s.groupOf c).any s.groupDown }, s)

/-- A command meets a translation that waits or a fault: it goes no further (R87, R162). What its walk has found is in the TLB, as for
any access (R77, R84). -/
def State.engWaits (s : State) (w : Who) (k : EngCheck) : Option (EngState × Nat × Bool × State) :=
  match k with
  | .ok => none
  | .wait a wr =>
    let (f, s1) := (s.translate w true kindEngine 1 a).joinMerge w kindEngine a
    some (.faultWait f, a, wr, s1)
  | .stop va c => some (.faultWait (.refused c), c.i0.toNat * 2 ^ 32 + c.i1.toNat, c.i2 != 0,
      (va.map fun a => s.translate w true kindEngine 1 a).getD s)

/-- The data a `ccas` returns goes to its porch entry, wherever the entry is kept (R314). -/
def Resident.fillPorch (r : Resident) (id : Nat) (cells : List RegCell) : Resident :=
  let f := fun es : List Porch => updIf (fun e => e.id == id) (fun e => { e with data := some cells, arrived := true }) es
  { r with porch := f r.porch, trap := { r.trap with hidden := r.trap.hidden.map fun h => { h with porch := f h.porch } } }

/-- The cells a `ccas` writes. -/
def CopyCmd.casCells (c : CopyCmd) : List RegCell :=
  match c.instr with
  | .ccas _ _ y _ _ _ w64 _ => loadCells (casRegs y w64) (c.buffer.map Prod.snd) false
  | _ => []

/-- A tile of tD without `.commit` is written in two steps: its payload, with a scale in QK4, then its header (R112, R255). -/
def CopyCmd.twoSteps (c : CopyCmd) : Bool :=
  match c.instr with
  | .cpyt _ _ _ _ _ commit => !commit && c.td.fmt.isQuilt
  | _ => false

/-- The tiles of a packed source that a line of a plain tD is made from. Each is read whole, once, as one unit (R112). -/
def CopyCmd.lineTiles (c : CopyCmd) (u : Nat) : List Nat :=
  match c.instr, c.td.lines[u]? with
  | .cpyt _ _ _ _ tr _, some l =>
    if c.td.fmt.isQuilt || !c.ts.fmt.isQuilt then []
    else ((c.td.inLine l).map fun e => if tr then e.2 / 8 * c.ts.tcols + e.1 / 8 else e.1 / 8 * c.ts.tcols + e.2 / 8).eraseDups
  | _, _ => []

/-- The ranges that a unit has still to read: for a packed source the tiles that it has not read whole before. -/
def CopyCmd.unread (c : CopyCmd) (u : CopyUnit) : List (Nat × Nat) :=
  match c.lineTiles c.prog with
  | [] => u.src
  | ts =>
    let missing := (u.src.flatMap fun r => (List.range r.2).map (r.1 + ·)).filter fun a => !c.buffer.any fun x => x.1 == a
    (ts.map c.ts.tileRanges).flatMap fun rs => if rs.any fun r => missing.any fun a => decide (r.1 ≤ a ∧ a < r.1 + r.2) then rs else []

/-- The header of a tile whose payload has been written (R255). -/
def State.copyHeader (s : State) (core : Nat) (c : CopyCmd) : CopyCmd × State :=
  let w := s.cmdWho core c.rid c.reeve
  let (xs, _) := c.spaces
  let u := c.unit c.prog false
  match s.engWaits w (s.engCheck w xs c.uid true false (u.dst.take 1)) with
  | some (st, a, wr, s1) => ({ c with state := st, fva := a, fwr := wr, half := false, buffer := [] }, s1)
  | none =>
    let (ls, s1) := s.engWrite w xs c.uid c.lines ((u.write (cellByte c.buffer) (cellByte [])).take 1)
    ({ c with prog := c.prog + 1, buffer := [], half := false, lines := ls }, s1)

/-- One unit of a running command, or the part of it that comes first. Its source is checked before its destination; the S plane of a QK4
`cpyt.commit` is written with header and payload. DESIGN CHOICE: log entry 42. -/
def State.copyUnit (s : State) (core : Nat) (c : CopyCmd) : CopyCmd × State :=
  if c.half then s.copyHeader core c else
  let w := s.cmdWho core c.rid c.reeve
  let (xs, ys) := c.spaces
  let ahead := c.overlapping
  let marked := match (c.unit c.prog false).olds with
    | [(a, n)] => if xs = .s then (s.spadRead c.uid core a n).2 else s.vaPoisoned w a n
    | _ => false
  let u := c.unit c.prog marked
  let cas := match c.instr with
    | .ccas _ _ _ _ _ _ _ _ => true
    | _ => false
  let check :=
    if ahead then (if c.buffer.isEmpty then
        (s.engCheck w ys c.uid false c.unpacked c.whole.1).and (s.engCheck w xs c.uid true false c.whole.2) else .ok)
    else (((s.engCheck w ys c.uid false c.unpacked u.src).and
        (if cas then s.engCheck w xs c.uid false true u.olds else .ok)).and (s.engCheck w xs c.uid true false u.dst))
  match s.engWaits w check with
  | some (st, a, wr, s1) => ({ c with state := st, fva := a, fwr := wr }, s1)
  | none =>
    let (buf, l1, s1) := if ahead then (if c.buffer.isEmpty then s.engRead copyRequester w ys c.uid c.lines c.whole.1 else (c.buffer, c.lines, s))
      else s.engRead copyRequester w ys c.uid c.lines (c.unread u)
    let have_ := if (c.lineTiles c.prog).isEmpty then buf else buf ++ c.buffer
    let (olds, l2, s2) := s1.engRead copyRequester w xs c.uid l1 u.olds
    let all := u.write (cellByte have_) (cellByte olds)
    let (l3, s3) := s2.engWrite w xs c.uid l2 (if c.twoSteps then all.drop 1 else all)
    let keep := if ahead || c.twoSteps then buf else if !(c.lineTiles c.prog).isEmpty then have_ else if cas then olds else match c.instr with
      | .ccrc _ _ _ _ _ _ _ => c.buffer ++ buf
      | _ => []
    let c1 := { c with prog := if c.twoSteps then c.prog else c.prog + 1, half := c.twoSteps, buffer := keep, lines := l3 }
    (c1, if cas then s3.modRes c.rid fun r => r.fillPorch c.id c1.casCells else s3)

/-- Up to n units of a running command. -/
def State.copyUnits (s : State) (core : Nat) (c : CopyCmd) : Nat → CopyCmd × State
  | 0 => (c, s)
  | n + 1 =>
    if c.state = .running ∧ c.prog < c.total then
      let (c1, s1) := s.copyUnit core c
      s1.copyUnits core c1 n
    else (c, s)

/-- COPY_COMMAND_START: a command starts, or goes on, and moves up to `units` units of its traversal. `jdec` and `cred`
only start: what they do is a step of its own. -/
def execCopyCommandStart (core id units : Nat) (s : State) : Out :=
  .next (match s.copyAt core id with
    | none => s
    | some c =>
      let n := match c.instr with
        | .jdec _ _ _ => 0
        | .cred _ _ _ _ _ _ _ => 0
        | _ => units
      if c.state = .queued then
        if s.canStart core c then
          let (c1, s1) := s.beginCopy core c
          let (c2, s2) := s1.copyUnits core c1 n
          s2.modCopy core c2
        else s
      else if c.state = .running then
        let (c1, s1) := s.copyUnits core c n
        s1.modCopy core c1
      else s)

/-- Lines of the issuing core's L1 that overlap a global destination go home and out (R113). -/
def State.dropFor (s : State) (w : Who) (es : List Extent) : State :=
  let ph := es.flatMap (s.physOf w)
  s.flushIf w.core fun l => l.within es ph

/-- Commit the slot a ring copy claimed (R94). -/
def Ring.commitSlot (g : Ring) (slot : Nat) : Ring :=
  let first := (g.tail + g.slots - g.claims.length % g.slots) % g.slots
  g.commitAt ((slot + g.slots - first) % g.slots)

/-- A command leaves the engine: its flag's count falls and its ring slot commits. -/
def State.endCopy (s : State) (core : Nat) (c : CopyCmd) : State :=
  let s1 := s.dropFor (s.cmdWho core c.rid c.reeve) c.dst
  let s2 := match c.ring with
    | some (k, slot) => s1.modRing core k fun g => g.commitSlot slot
    | none => s1
  let s3 := s2.modCore core fun k => { k with cq := k.cq.filter fun x => x.id != c.id }
  s3.modRes c.rid fun r => r.flagDown c.flag

/-- In SIMT a `ccas` lands as its flag's count falls (R58, R314); a porch entry takes its data in VLIW. -/
def Resident.landCas (r : Resident) (c : CopyCmd) : Resident :=
  match c.instr with
  | .ccas _ _ _ _ _ _ _ _ => if c.loadId.isNone then { r with regs := r.regs.putAll c.casCells } else r
  | _ => r

/-- COPY_COMMAND_COMPLETE: a command whose units are all moved completes; `ccrc` writes its result first. -/
def execCopyCommandComplete (core id : Nat) (s : State) : Out :=
  .next (match s.copyAt core id with
    | none => s
    | some c =>
      if c.state = .running ∧ c.prog = c.total then
        match c.instr with
        | .jdec _ _ _ => s
        | .cred _ _ _ _ _ _ _ => s
        | .ccrc _ _ _ _ _ xs _ =>
          let w := s.cmdWho core c.rid c.reeve
          match s.engWaits w (s.engCheck w xs c.uid true false [(c.x, 4)]) with
          | some (st, a, wr, s1) => s1.modCopy core { c with state := st, fva := a, fwr := wr }
          | none => (s.engWrite w xs c.uid c.lines [(c.x, leBytes 4 (crc32c c.b1.toNat (c.buffer.map Prod.snd)))]).2.endCopy core c
        | _ => (s.modRes c.rid fun r => r.landCas c).endCopy core c
      else s)

/-- The cause a stopped command delivers (R148, R162, R198). -/
def stopCause (c : Cause) (id prog info3 : Nat) : Cause :=
  { c with eng := true, prog := prog, i3 := BitVec.ofNat 32 info3, cmd := some id }

/-- COPY_COMMAND_STOP: a command whose next unit meets a fault stops and delivers it (R162); a `cred` never does (R317). -/
def execCopyCommandStop (core id : Nat) (s : State) : Out :=
  .next (match s.copyAt core id with
    | none => s
    | some c => match c.state with
      | .faultWait (.refused k) =>
        if c.stays then s else (s.modCopy core { c with state := .stopped }).modRes c.rid fun r => { r with async := r.async ++ [stopCause k id c.prog c.prog] }
      | _ => s)

/-! ### Collectives (R116, R160, R161, R233) -/

/-- The operator and type of a `cred` as those of a `cacc` (R160). -/
def credAcc (op : RedOp) (ty : CredTy) : AccOp × AccTy :=
  (match op with | .add => .add | .min => .min | .max => .max, match ty with | .f32 => .f32 | .bf16 => .bf16 | .i32 => .i32)

/-- One step of a reduction: the elements so far, and those of the next rank, each step rounding as `cacc` does (R136, R157, R160). -/
def credStep (op : RedOp) (ty : CredTy) (count : Nat) (acc x : List Byte) : List Byte :=
  let n := (credBytes ty).1
  (List.range count).flatMap fun k =>
    leBytes n (accApply (credAcc op ty).1 (credAcc op ty).2 (leNat ((acc.drop (n * k)).take n)) (leNat ((x.drop (n * k)).take n)))

/-- The reduction of contributions in ascending rank (R160). -/
def credFold (op : RedOp) (ty : CredTy) (count : Nat) (parts : List CredPart) : List Byte :=
  match sortBy (fun a b => decide (a.rank ≤ b.rank)) parts with
  | [] => []
  | p :: ps => ps.foldl (fun acc x => credStep op ty count acc x.data) p.data

/-- The rank of a group's participant that is not among others: this device's, where the others are all there (R233). -/
def PeerGroup.ownRank (g : PeerGroup) (parts : List CredPart) : Option Nat :=
  let ranks := g.entries.map fun e => fld e.toNat 0 8
  match ranks.filter fun k => !parts.any fun p => p.rank == k with
  | [k] => if parts.length + 1 = ranks.length ∧ parts.all (fun p => ranks.contains p.rank) then some k else none
  | _ => none

/-- The status a `cred` ends with before its contributions meet (R161, R233): no group; a link of it lost; its time is up; a failure that
another participant or the switch reports. -/
def State.credFails (s : State) (c : CopyCmd) (status : Nat) : Option Nat :=
  let us := if c.b3 = 0 then 65535 else c.b3.toNat
  match s.groupOf c with
  | none => some 4
  | some g =>
    if c.linkLost || s.groupDown g then some 2
    else if decide (c.since + 700 * us ≤ s.timebase) then some 1
    else if 0 < status then some status
    else none

/-- A `cred` ends with a status: its flag falls, and %cstat takes it. Where its issuer has come to another core meanwhile, the lines of that
core go too (R113, R116). -/
def State.endCred (s : State) (core : Nat) (c : CopyCmd) (status : Nat) : State :=
  let s1 := match s.resAt c.rid with
    | some r => if r.core = core then s else s.dropFor (s.cmdWho r.core c.rid c.reeve) c.dst
    | none => s
  (s1.modRes c.rid fun r => { r with cstat := BitVec.ofNat 4 status }).endCopy core c

/-- CRED_COMPLETE: a collective that has started ends, or does not yet. `status` is what the switch reports, 0 for no failure, and `parts`
are the other participants' contributions: inputs, log entry 18. With every one there, and all of the same count, operator and
type, the own elements at Y are read at home and the full reduction is written at X; a failure leaves X as it is. A page of
either that waits or is refused holds it until its time is up. -/
def execCredComplete (core id status : Nat) (parts : List CredPart) (s : State) : Out :=
  .next (match s.copyAt core id with
    | none => s
    | some c => match c.instr with
      | .cred _ _ _ _ _ op ty =>
        if c.state = .queued then s
        else match s.credFails c status, (s.groupOf c).bind fun g => g.ownRank parts with
        | some st, _ => s.endCred core c st
        | none, none => s
        | none, some rank =>
          let n := c.b0.toNat
          if parts.any fun p => p.count != n || p.op != op || p.ty != ty then s.endCred core c 3
          else
            let w := s.cmdWho core c.rid c.reeve
            let bytes := n * (credBytes ty).1
            match s.engWaits w ((s.engCheck w .g c.uid false false [(c.y, bytes)]).and (s.engCheck w .g c.uid true false [(c.x, bytes)])) with
            | some (st, a, wr, s1) => s1.modCopy core { c with state := st, fva := a, fwr := wr }
            | none =>
              let (cells, ls, s1) := s.engRead copyRequester w .g c.uid c.lines [(c.y, bytes)]
              let own : CredPart := { rank := rank, count := n, op := op, ty := ty, data := cells.map Prod.snd }
              (s1.engWrite w .g c.uid ls [(c.x, credFold op ty n (own :: parts))]).2.endCred core c 0
      | _ => s)

end Sys2Proof.Machine
end

