-- ==== Sys2Proof/Machine/Matrix.lean ====
section
/-! DEFINITION. The matrix engine (R114, R141 to R152, R297 to R299, R357, R358), its acc hits (R212), and `tset` (R138,
R139, R388). -/

namespace Sys2Proof.Machine

/-! ### The queue -/

/-- An operation that a core's matrix engine can work on: none while the engine stands still (R230). -/
def State.matAt (s : State) (core id : Nat) : Option MatCmd :=
  if s.stopped then none else (s.coreAt core).mq.find? fun m => m.id == id

/-- Change an operation. -/
def State.modMat (s : State) (core : Nat) (m : MatCmd) : State :=
  s.modCore core fun k => { k with mq := updIf (fun x => x.id == m.id) (fun _ => m) k.mq }

/-- An operation leaves the queue. -/
def State.dropMat (s : State) (core id : Nat) : State := s.modCore core fun k => { k with mq := k.mq.filter fun x => x.id != id }

/-- Operations of a tenant in a core's matrix engine. -/
def State.matUsed (s : State) (core t : Nat) : Nat := ((s.coreAt core).mq.filter fun m => s.cmdTenant m.rid == t).length

/-- The queue of 8, or the tenant's share of it, is full (R142, R193). -/
def State.matFull (s : State) (q : Issue) : Bool :=
  let core := q.res.core
  decide (8 ≤ (s.coreAt core).mq.length) || decide (s.engineShare core q.res.launch.tenant 8 ≤ s.matUsed core q.res.launch.tenant)

/-- A tile is held by an acc hit from everyone but the handler that serves it (R212). -/
def State.tileHeld (s : State) (core : Nat) (m : MatCmd) : Bool :=
  match s.unitOf m.uid core with
  | some u => u.held.any fun h => h.1 == m.tile && !(h.2 == m.rid && m.inHandler)
  | none => false

/-- Operations that arrived earlier on the same tile have retired, and no hold stands in the way (R114, R212). The
handler's own operations pass those that wait behind the hold. -/
def State.tileReady (s : State) (core : Nat) (m : MatCmd) : Bool :=
  let before := (s.coreAt core).mq.takeWhile fun x => x.id != m.id
  !s.tileHeld core m && before.all fun x => x.uid != m.uid || x.tile != m.tile || s.tileHeld core x

/-- An operation as issued. -/
def State.matBase (s : State) (q : Issue) (i : Instr) (t : Nat) : MatCmd :=
  let r := q.res
  { id := s.nextId, rid := r.rid, instr := i, uid := r.uid, tile := t, ta := Desc.zero, tb := Desc.zero, kfirst := 0, kcount := 0,
    row := 0, mask := 0, vals := [], flag := none, inHandler := r.trap.inh, reeve := r.reeve, due := 0, prog := 0, total := 0,
    state := .queued, fva := 0, fwr := false, lines := [] }

/-- An operation arrives (R142). -/
def State.sendMat (s : State) (q : Issue) (m : MatCmd) : State :=
  { s with nextId := s.nextId + 1 }.modCore q.res.core fun k => { k with mq := k.mq ++ [m] }

/-! ### `mma` at issue (R143, R358) -/

/-- Classes of R143: 0 eight-bit float, 1 INT8, 2 four-bit, 3 sixteen-bit, 4 FP32. -/
def mmaClass : Fmt → Option Nat
  | .qt8 | .e4m3 | .e5m2 => some 0
  | .int8 => some 1
  | .qt4 | .qk4 => some 2
  | .bf16 | .fp16 => some 3
  | .fp32 => some 4
  | .int32 => none

/-- Formats that may meet in one `mma`. -/
def mmaPair (a b : Fmt) : Bool := (mmaClass a).isSome && mmaClass a == mmaClass b

/-- The K range as read at issue (R357). -/
def Resident.kRange (r : Resident) : KRange → Nat × Nat
  | .imm f c => (16 * f, 16 * (c + 1))
  | .regs n => ((r.sreg n).toNat, (r.sreg (n + 1)).toNat)

/-- Registers of a K range. -/
def kRegs : KRange → List Nat
  | .imm _ _ => []
  | .regs n => [n, n + 1]

/-- The limits of R143. -/
def mmaOk (m : MatCmd) : Bool :=
  m.ta.spad && decide (64 ≤ m.ta.rows) && decide (m.kfirst + m.kcount ≤ m.ta.cols) && decide (m.kfirst + m.kcount ≤ m.tb.rows) &&
  decide (64 ≤ m.tb.cols) && decide (1 ≤ m.kcount ∧ m.kcount ≤ 1024) && mmaPair m.ta.fmt m.tb.fmt &&
  (!(m.ta.fmt.isQuilt || m.tb.fmt.isQuilt) || decide (m.kfirst % 8 = 0 ∧ m.kcount % 8 = 0))

/-- Byte ranges of the elements in a block of rows and columns, headers and scales left out. -/
def Desc.blockRanges (d : Desc) (r0 nr c0 nc : Nat) : List (Nat × Nat) :=
  if d.fmt.isQuilt then
    (List.range ((nr + 7) / 8)).flatMap fun i => (List.range ((nc + 7) / 8)).flatMap fun j =>
      let t := (r0 / 8 + i) * d.tcols + c0 / 8 + j
      if d.rot = 0 then [(d.payloadAddr t 0, tileBytes d.fmt)]
      else (List.range (tileBytes d.fmt / 8)).map fun k => (d.payloadAddr t (8 * k), 8)
  else (List.range nr).flatMap fun i =>
    if d.rot = 0 then [(d.elemAddr (r0 + i) c0, nc * d.fmt.bytes)]
    else (List.range nc).map fun j => (d.elemAddr (r0 + i) (c0 + j), d.fmt.bytes)

/-- Byte ranges read for a block, headers and scales among them. -/
def Desc.blockReads (d : Desc) (r0 nr c0 nc : Nat) : List (Nat × Nat) :=
  (if d.fmt.isQuilt then
    (List.range ((nr + 7) / 8)).flatMap fun i => (List.range ((nc + 7) / 8)).flatMap fun j =>
      let t := (r0 / 8 + i) * d.tcols + c0 / 8 + j
      (d.headerAddr t, 8) :: (if d.fmt = .qk4 then [(d.scaleAddr t, 4)] else [])
   else []) ++ d.blockRanges r0 nr c0 nc

/-- `mma` as issued. -/
def State.mkMma (i : Instr) (ta tb : Nat) (k : KRange) (set : Bool) (t : Nat) (s : State) (q : Issue) : MatCmd :=
  let c := s.ctxOf q.res
  let kr := q.res.kRange k
  { s.matBase q i t with
    ta := c.desc ta, tb := c.desc tb, kfirst := kr.1, kcount := kr.2, total := (kr.2 + 15) / 16, flag := some (q.flagOf set) }

/-- Brambles of an `mma`'s operands (R211). -/
def State.mmaBrambles (s : State) (q : Issue) (m : MatCmd) : List Cause :=
  let c := s.ctxOf q.res
  c.brambleCause q.res false true (m.ta.blockRanges 0 64 m.kfirst m.kcount ++
      (if m.tb.spad then m.tb.blockRanges m.kfirst m.kcount 0 64 else [])) ++
    (if m.tb.spad then [] else c.brambleCause q.res false false (m.tb.blockRanges m.kfirst m.kcount 0 64))

/-- `mma` (R143, R358). -/
def execMma (p : Pred) (ta tb : Nat) (k : KRange) (set : Bool) (t : Nat) (kend : Bool) (s : State) : Out :=
  .next (match s.iss with
    | none => s
    | some q =>
      let mk := State.mkMma (.mma p ta tb k set t kend) ta tb k set t
      let m := mk s q
      let tk := q.taken p
      let illegal := !(q.slotPlace slotMatrix && predOk q.res p && q.setOk set && q.regsOk (kRegs k) && decide (t < q.res.launch.acc)) ||
        (tk && !mmaOk m)
      let live := tk && !illegal
      let checks := if live then s.planeChecks q m.ta false ++ s.planeChecks q m.tb false ++ s.mmaBrambles q m else []
      let s0 := if checks.isEmpty then s else s.translateEnds q.res kindRead (q.res.planes m.ta ++ q.res.planes m.tb)
      (s0.attempt (q.illegalIf illegal ++ q.scalarPoison p (kRegs k) ++ checks)
        (live && (s.matFull q || q.flagBusy (q.flagOf set))) fun q s =>
          if tk then ((s.flushFor (s.who q.res) (q.res.planes m.ta ++ q.res.planes m.tb)).sendMat q (mk s q)).modCur fun r => r.flagUp (q.flagOf set) else s).needEngine false
            (if live then some (q.flagOf set) else none))

/-- `mzero` (R152, R358). -/
def execMzero (p : Pred) (t : Nat) (s : State) : Out :=
  .next (s.once slotMatrix p (fun q => decide (t < q.res.launch.acc)) [] (fun _ _ => []) (fun q s => s.matFull q)
    fun q s => s.sendMat q (s.matBase q (.mzero p t) t))

/-! ### Row transfers at issue (R149 to R151, R297 to R299) -/

/-- Columns each thread or cluster holds (R149). -/
def Resident.rowRegs (r : Resident) : Nat := 64 / r.width

/-- Who takes part (R149): every thread whose predicate holds, or every cluster unless the op is predicated off. -/
def Issue.participants (q : Issue) (p : Pred) : List Nat :=
  if q.res.simt then q.res.activeLanes.filter fun c => q.res.effect true p c
  else if q.taken p then q.res.lanes else []

/-- The row as read at issue. -/
def Resident.rowOf (r : Resident) : RowSel → Nat
  | .s n => (r.sreg n).toNat % 64
  | .imm k => k

/-- Registers a row selector reads. -/
def rowReads : RowSel → List Nat
  | .s n => [n]
  | .imm _ => []

/-- A row transfer as issued; `due` is the count an `acrd` lands at in VLIW. -/
def State.mkRow (i : Instr) (n : Nat) (row : RowSel) (mask : DWord) (t : Nat) (reads : Bool) (p : Pred) (s : State) (q : Issue) : MatCmd :=
  let k := q.res.rowRegs
  { s.matBase q i t with
    row := q.res.rowOf row, mask := mask, due := (if q.res.simt then 0 else q.res.count + 12), total := 1
    vals := (q.participants p).map fun c => (c, if reads then (List.range k).map fun m => q.res.regs.read (.v c (n + m)) else []) }

/-- The shape of a row transfer (R298, R299): `poison` are the registers it reads in a participant. The mask of an `acwr` or `apatch` that
meets poison names participants, for a scalar register all of them. -/
def State.rowOp (s : State) (p : Pred) (n : Nat) (row : RowSel) (t : Nat) (extra : List Nat) (pend : Bool)
    (poison : Issue → Nat → List Nat) (mk : State → Issue → MatCmd) : State :=
  match s.iss with
  | none => s
  | some q =>
    let k := q.res.rowRegs
    let cs := q.participants p
    let illegal := !(q.slotPlace slotMatrix && predOk q.res p && decide (t < q.res.launch.acc) &&
      decide (n + k ≤ q.res.allotV) && q.regsOk (rowReads row ++ extra))
    let marks := (List.range k).flatMap fun m => q.res.poisonCauses [.v (n + m)] (cs.filter fun c => (poison q c).contains m)
    let readers := if pend then [q.onceLane] else cs
    s.attemptAs (if pend then Issue.named else Issue.namedBut 12)
      (q.illegalIf illegal ++ (if cs.isEmpty then [] else q.res.poisonCauses ((rowReads row ++ extra).map Src.s) readers) ++ marks)
      (!cs.isEmpty && s.matFull q) [] fun q s =>
        if cs.isEmpty then s
        else (s.sendMat q (mk s q)).modCur fun r =>
          if pend && r.simt then
            { r with acrdPending := r.acrdPending ++ cs.flatMap fun c => (List.range k).map fun m => Reg.v c (n + m) }
          else r

/-- `acrd` (R150, R298). -/
def execAcrd (p : Pred) (n : Nat) (r : RowSel) (t : Nat) (s : State) : Out :=
  .next (s.rowOp p n r t [] true (fun _ _ => []) (State.mkRow (.acrd p n r t) n r 0 t false p))

/-- `acwr` (R150, R298). -/
def execAcwr (p : Pred) (n : Nat) (r : RowSel) (t : Nat) (s : State) : Out :=
  .next (s.rowOp p n r t [] false (fun q _ => List.range q.res.rowRegs) (State.mkRow (.acwr p n r t) n r 0 t true p))

/-- `apatch` (R151, R298): only registers whose column has its mask bit set are read. -/
def execApatch (p : Pred) (n : Nat) (r : RowSel) (mask t : Nat) (op : PatchOp) (s : State) : Out :=
  .next (s.rowOp p n r t [mask, mask + 1] false
    (fun q c => (List.range q.res.rowRegs).filter fun m => (q.res.sregPair mask).getLsbD (c * q.res.rowRegs + m))
    fun s q => State.mkRow (.apatch p n r mask t op) n r (q.res.sregPair mask) t true p s q)

/-! ### The engine's steps -/

/-- Change a tile of a unit. -/
def State.modTile (s : State) (core uid t : Nat) (f : Tile → Tile) : State :=
  s.modUnit uid core fun u => { u with tiles := modAt u.tiles t f }

/-- A tile of a unit. -/
def State.tileOf (s : State) (core uid t : Nat) : Tile :=
  match s.unitOf uid core with
  | some u => u.tiles.getD t Tile.zero
  | none => Tile.zero

/-- Group g of an `mma` on one element (R134, R135, R144): `xs` are the decoded values of its row of A and column of B. -/
def groupElem (int : Bool) (old : Word) (xs : List (XR × XR)) : Word :=
  if int then
    ofInt32 ((xs.map fun x => (x.1.mul x.2)).foldl (fun a x => a + truncTerm 0 x) old.toInt)
  else BitVec.ofNat 32 (groupSum (fmtF32.decode old.toNat :: xs.map fun x => x.1.mul x.2))

/-- The element indices of a tile. -/
def tileIdx : List Nat := List.range 4096

/-- A tile after one group: a mark stays with its element (R144). -/
def groupTile (m : MatCmd) (rda rdb : Nat → Byte) (t : Tile) : Tile :=
  let k0 := m.kfirst + 16 * m.prog
  let n := min 16 (m.kcount - 16 * m.prog)
  t.setAll (tileIdx.map fun e =>
    let c := t.get e
    let xs := (List.range n).map fun k => (m.ta.value rda (e / 64) (k0 + k), m.tb.value rdb (k0 + k) (e % 64))
    { c with val := groupElem (m.ta.fmt == .int8) c.val xs })

/-- MMA_GROUP: the engine computes the next group of an `mma` whose turn on its tile has come (R114, R144, R146); a poisoned value of A
stops it as R148 says of one of B. DESIGN CHOICE: log entry 42. -/
def execMmaGroup (core id : Nat) (s : State) : Out :=
  .next (match s.matAt core id with
    | none => s
    | some m =>
      if (m.state = .queued ∨ m.state = .running) ∧ m.flag.isSome ∧ m.prog < m.total ∧ s.tileReady core m then
        let w := s.cmdWho core m.rid m.reeve
        let k0 := m.kfirst + 16 * m.prog
        let n := min 16 (m.kcount - 16 * m.prog)
        let ra := m.ta.blockReads 0 64 k0 n
        let rb := m.tb.blockReads k0 n 0 64
        let bs : Space := if m.tb.spad then .s else .g
        match s.engWaits w ((s.engCheck w .s m.uid false false ra).and (s.engCheck w bs m.uid false false rb)) with
        | some (st, a, wr, s1) => s1.modMat core { m with state := st, fva := a, fwr := wr }
        | none =>
          let (ca, l1, s1) := s.engRead matrixRequester w .s m.uid m.lines ra
          let (cb, l2, s2) := s1.engRead matrixRequester w bs m.uid l1 rb
          (s2.modTile core m.uid m.tile (groupTile m (cellByte ca) (cellByte cb))).modMat core
            { m with state := .running, prog := m.prog + 1, lines := l2 }
      else s)

/-- Brambles of a context that watch a tile (R210, R212), with the first element of the lowest. -/
def Context.accHits (c : Context) (t : Nat) : List (Nat × Nat) :=
  (List.range 8).filterMap fun k => match c.brambles[k]? with
    | some b => if b.valid && b.acc && b.num == t then some (k, b.row0 * 2 ^ 16 + b.col0) else none
    | none => none

/-- The asynchronous cause of an acc hit (R198, R212). -/
def accCause (hits : List (Nat × Nat)) (t : Nat) : Cause :=
  mkCause 11 (BitVec.ofNat 32 (hits.foldl (fun m h => m + 2 ^ h.1) 0)) 4 (BitVec.ofNat 32 t)
    (BitVec.ofNat 32 ((hits.map Prod.snd).headD 0))

/-- The `.kend` qualifier. -/
def Instr.isKend : Instr → Bool
  | .mma _ _ _ _ _ _ e => e
  | _ => false

/-- MMA_RETIRE: an `mma` whose groups are all done clears its flag (R145). With `.kend` on a watched tile, outside a
handler, it holds the tile and traps its issuer (R212). -/
def execMmaRetire (core id : Nat) (s : State) : Out :=
  .next (match s.matAt core id with
    | none => s
    | some m => match m.flag with
      | none => s
      | some k =>
        if m.state = .running ∧ m.prog = m.total then
          let s1 := (s.dropMat core id).modRes m.rid fun r => r.flagDown k
          match s.resAt m.rid with
          | none => s1
          | some r =>
            let hits := (s.ctxOf r).accHits m.tile
            if Instr.isKend m.instr && !m.inHandler && !hits.isEmpty then
              (s1.modUnit m.uid core fun u => { u with held := u.held ++ [(m.tile, m.rid)] }).modRes m.rid fun r =>
                { r with async := r.async ++ [accCause hits m.tile] }
            else s1
        else s)

/-- MMA_STOP: an `mma` whose next group meets a fault stops before it and delivers it (R148). -/
def execMmaStop (core id : Nat) (s : State) : Out :=
  .next (match s.matAt core id with
    | none => s
    | some m => match m.state with
      | .faultWait (.refused k) =>
        (s.modMat core { m with state := .stopped }).modRes m.rid fun r =>
          { r with async := r.async ++ [stopCause k id m.prog m.tile] }
      | _ => s)

/-- The cells of a row read into registers; a marked element's register is poisoned (R299). -/
def MatCmd.readCells (m : MatCmd) (n k : Nat) (t : Tile) (c : Nat) : List RegCell :=
  (List.range k).map fun j =>
    let e := t.get (64 * m.row + c * k + j)
    { reg := .v c (n + j), val := e.val, poison := e.poison }

/-- An `acrd`'s row reaches the registers: at once in SIMT (R57, log entry 8), at its count in VLIW; in the captured
results where a trap has been taken since it issued (R206, R299). -/
def Resident.landRow (r : Resident) (m : MatCmd) (n k : Nat) (t : Tile) : Resident :=
  m.vals.foldl (fun r v =>
    let f : Flight := { due := m.due, seq := 32 * (m.due - 12) + 17, writes := m.readCells n k t v.1, lane := v.1, ys := [], ff := 0 }
    if m.due = 0 then { r.land f with acrdPending := r.acrdPending.filter fun x => !f.writes.any fun c => c.reg == x }
    else if !m.inHandler && r.trap.inh then
      { r with trap := { r.trap with hidden := r.trap.hidden.map fun h => { h with flights := h.flights ++ [f] } } }
    else { r with flights := r.flights ++ [f] }) r

/-- The tile after the participants' columns of a row are written. -/
def MatCmd.writeRow (m : MatCmd) (f : Nat → Word → TileCell → Option TileCell) (t : Tile) : Tile :=
  t.setAll (m.vals.flatMap fun v =>
    let k := v.2.length
    (List.range k).filterMap fun j =>
      let col := v.1 * k + j
      f col (v.2.getD j 0) (t.get (64 * m.row + col)))

/-- An element patched (R151, R299). -/
def patchCell (op : PatchOp) (mask : DWord) (col : Nat) (x : Word) (c : TileCell) : Option TileCell :=
  if !mask.getLsbD col then none
  else match op with
    | .rep => some { c with val := x, poison := false }
    | .addF32 => some { c with val := BitVec.ofNat 32 (addF fmtF32 .rne c.val.toNat x.toNat).1 }
    | .addI32 => some { c with val := c.val + x }

/-- ROW_TRANSFER_PERFORM: a row transfer or an `mzero` whose turn on its tile has come is performed and retires (R114,
R150 to R152). A row for a resident that a failed unit has lost reaches nothing (R25). -/
def execRowTransferPerform (core id : Nat) (s : State) : Out :=
  .next (match s.matAt core id with
    | none => s
    | some m =>
      if s.tileReady core m ∧ m.state = .queued then
        let t := s.tileOf core m.uid m.tile
        let done := s.dropMat core id
        match m.instr with
        | .mzero _ _ => done.modTile core m.uid m.tile fun _ => Tile.zero
        | .acrd _ n _ _ => done.modRes m.rid fun r => if s.onFailed r then r else r.landRow m n r.rowRegs t
        | .acwr _ _ _ _ => done.modTile core m.uid m.tile (m.writeRow fun _ x c => some { c with val := x, poison := false })
        | .apatch _ _ _ _ _ op => done.modTile core m.uid m.tile (m.writeRow (patchCell op m.mask))
        | _ => s
      else s)

/-- The domain of a wide thread stands still until the row transfers it has issued are performed (R298). -/
def State.rowStall (s : State) (r : Resident) : Bool :=
  !r.simt && (s.coreAt r.core).mq.any fun m => m.rid == r.rid && m.due != 0 && m.inHandler == r.trap.inh

/-! ### `tset` (R138, R139, R388) -/

/-- A descriptor in twelve scalar registers (R138). -/
def Resident.descAt (r : Resident) (b : Nat) : Desc :=
  { d0 := r.sregPair b, d1 := r.sregPair (b + 2), d2 := r.sregPair (b + 4), d3 := r.sregPair (b + 6), d4 := r.sregPair (b + 8),
    d5 := r.sregPair (b + 10) }

/-- Reserved bits and codes of a descriptor (R137, R138, first check). -/
def Desc.reservedOk (d : Desc) : Bool :=
  decide (d.fmtCode < 10) && fld d.d0.toNat 56 7 == 0 && fld d.d1.toNat 48 16 == 0 && fld d.d1.toNat 8 8 == 0 &&
  fld d.d3.toNat 56 8 == 0 && fld d.d4.toNat 56 8 == 0 && d.d5 == 0 && (!d.spad || fld d.d0.toNat 32 24 == 0) &&
  d.rot != 7 && (d.rot == 0 || d.spad)

/-- The shape limits of a quilt or a plain descriptor (R138, second and third check). A quilt may have any hbase, which R138's
table of checks refuses and R137, R138's alignment row and R140's worked case use. DEDUCED: log entry 35. -/
def Desc.shapeOk (d : Desc) : Bool :=
  if d.fmt.isQuilt then
    let n := if d.fmt = .qk4 then 16 else 8
    d.rows % n == 0 && d.cols % n == 0 && d.tpitch % 32 == 0 && decide (tileBytes d.fmt ≤ d.tpitch) && d.pitch == 0 &&
      (d.fmt == .qk4 || d.sbase == 0)
  else decide (d.cols * d.fmt.bytes ≤ d.pitch) && d.pitch % d.fmt.bytes == 0 && d.tpitch == 0 && d.hbase == 0 && d.sbase == 0

/-- The addresses a descriptor's alignment binds, each with its alignment (R91, R138, fourth check). -/
def Desc.alignments (d : Desc) : List (Nat × Nat) :=
  if d.fmt.isQuilt then
    [(d.base, 128), (d.hbase, 128)] ++ (if d.fmt = .qk4 then [(d.sbase, 128)] else []) ++
      (if d.rot = 0 then [] else [(d.base, 512), (d.tpitch, 512)])
  else [(d.base, d.fmt.bytes)] ++ (if d.rot = 0 then [] else [(d.base, 512), (d.pitch, 512)])

/-- The outcome of `tset`'s checks in their order (R138): none when all pass. The trap carries the value that is misaligned, or the start
of the plane that passes the allotment. DESIGN CHOICE: log entry 40. -/
def Desc.setCauses (d : Desc) (q : Issue) : List Cause :=
  if !(d.reservedOk && d.shapeOk) then [q.illegal]
  else match d.alignments.find? fun x => x.1 % x.2 != 0 with
    | some x => [addrCause 3 x.1 0 0]
    | none =>
      if d.spad then match d.planes.find? fun p => decide (q.res.launch.spad * 256 < p.1 + p.2) with
        | some p => [mkCause 7 (BitVec.ofNat 32 p.1) 0 0 0]
        | none => []
      else []

/-- Write a descriptor entry of a context. -/
def Context.setDesc (c : Context) (n : Nat) (d : Desc) : Context := { c with descs := putBy (fun x => x.1 == n) (n, d) c.descs }

/-- The effect of `tset` for the issuing resident. -/
def State.effTset (s : State) (n b : Nat) : State :=
  match s.iss with
  | none => s
  | some q => s.modCtx q.res.launch.ctx fun c => c.setDesc n (q.res.descAt b)

/-- `tset` (R138, R199, R388): a poisoned register comes before any other check but those with cause 1. -/
def execTset (p : Pred) (n b : Nat) (s : State) : Out :=
  let regs := (List.range 12).map (b + ·)
  .next (s.once slotScalar p (fun q => q.regsOk regs) regs
    (fun q _ => (q.res.descAt b).setCauses q)
    (fun _ _ => false) fun _ s => s.atEnd (.tset p n b) fun s => s.effTset n b)

end Sys2Proof.Machine
end

