-- ==== Sys2Proof/Machine/Queue.lean ====
section
/-! DEFINITION. Launch records (R36, R37, R403, R404), the three levels of launch queue (R163 to R165), placement of units
(R28, R166 to R169) and join counters (R42, R346). -/

namespace Sys2Proof.Machine

/-! ### Records (R36, R37, R404) -/

/-- The sixteen words of a record, where the context can read it (R403). A record lies in one page. -/
def State.recordWords (s : State) (c : Context) (va : Nat) : Option (List Nat) :=
  (s.ctxPhys c va false).map fun pa => (List.range 16).map fun k => leNat (s.homeBytes (pa + 8 * k) 8)

/-- A level descriptor (R36). -/
def levelOf (x : Nat) : Level := { domain := fld x 0 3, coRes := fld x 3 1 == 1, extent := fld x 4 12 + 1 }

/-- A record as the device reads it; depth and tenant are those the device writes. -/
def launchOf (lid va ctx tenant depth : Nat) (ws : List Nat) : Launch :=
  let w := fun k => ws.getD k 0
  { lid := lid, va := va, ctx := ctx, tenant := tenant, code := fld (w 0) 0 56, frame := fld (w 1) 0 56, simt := fld (w 2) 0 2 == 0,
    shape := fld (w 2) 2 2, pin := fld (w 2) 4 1 == 1, cls := fld (w 2) 5 2, depth := depth, vblk := fld (w 3) 0 6,
    sblk := fld (w 3) 6 4, spad := fld (w 3) 16 13, acc := fld (w 3) 29 7, flags := BitVec.ofNat 12 (fld (w 3) 36 12),
    levels := (List.range (fld (w 2) 8 3 + 1)).map fun k => levelOf (fld (w (4 + k / 4)) (16 * (k % 4)) 16),
    cbank := fld (w 8) 0 56, cbsize := fld (w 9) 0 32 }

/-- The join counter of a record. -/
def joinOf (ws : List Nat) : Nat := fld (ws.getD 6 0) 0 32

/-- Level-0 units in the launch (R39). -/
def Launch.total (l : Launch) : Nat := extentBelow l.levels l.levels.length

/-- The capacity of a domain in level-0 units (R39); none: unbounded. -/
def domainCapacity (simt : Bool) (shape domain : Nat) : Option Nat :=
  let lg := if simt then 256 else match shape with | 0 => 16 | 1 => 2 | _ => 4
  match domain with
  | 0 => some 1
  | 1 => some 16
  | 2 => some lg
  | 3 => some (16 * lg)
  | 4 => some (8 * 16 * lg)
  | 5 => some (12 * 8 * 16 * lg)
  | 6 => some (2 * 12 * 8 * 16 * lg)
  | _ => none

/-- The most level-0 units of a co-resident unit (R37). -/
def coResidentMax (simt : Bool) (shape : Nat) : Nat := if simt then 65536 else match shape with | 0 => 4096 | 1 => 8192 | _ => 16384

/-- What R37 asks of level k. -/
def Launch.levelOk (l : Launch) (k : Nat) : Bool :=
  match l.levels[k]? with
  | none => true
  | some x =>
    let n := extentBelow l.levels k
    (match l.levels[k - 1]? with
      | some y => k == 0 || decide (y.domain ≤ x.domain)
      | none => true) &&
    (l.simt || x.domain != 1) &&
    (match domainCapacity l.simt l.shape x.domain with
      | some m => decide (n ≤ m)
      | none => true) &&
    (!x.coRes || (decide (x.domain < 6) && decide (n ≤ coResidentMax l.simt l.shape)))

/-- The checks of R37. -/
def recordOk (l : Launch) (ws : List Nat) : Bool :=
  let mode := fld (ws.getD 2 0) 0 2
  decide (mode < 2) && decide (l.shape < 3) && (mode == 1 || l.shape == 0) && l.code % 8 == 0 && decide (1 ≤ l.vblk ∧ l.vblk ≤ 48) &&
  decide (1 ≤ l.sblk ∧ l.sblk ≤ 8) && decide (l.spad ≤ 7168) && decide (l.acc ≤ 64) && ((List.range 8).all l.levelOk) &&
  decide (l.total ≤ 2 ^ 32)

/-- The innermost level bound to a domain at or beyond d. -/
def Launch.levelFrom (l : Launch) (d : Nat) : Option Nat := (List.range l.levels.length).find? fun k =>
  match l.levels[k]? with
  | some x => decide (d ≤ x.domain)
  | none => false

/-- The outermost level bound to a domain from 2 to d. -/
def Launch.levelWithin (l : Launch) (d : Nat) : Option Nat := (List.range l.levels.length).reverse.find? fun k =>
  match l.levels[k]? with
  | some x => decide (2 ≤ x.domain ∧ x.domain ≤ d)
  | none => false

/-- Threads of one unit of the level W within which waves are cut (R404). -/
def Launch.cut (l : Launch) : Nat :=
  match l.levelFrom 1 with
  | some k => extentBelow l.levels k
  | none => l.total

/-- Residents of n level-0 units (R404): waves of 16 threads within each unit of W, or one wide thread each. -/
def Launch.residentsOf (l : Launch) (n : Nat) : Nat := if l.simt then n / l.cut * ((l.cut + 15) / 16) else n

/-- Residents of a launch and of one unit of a level. -/
def Launch.residents (l : Launch) : Nat := l.residentsOf l.total
def Launch.levelResidents (l : Launch) (k : Nat) : Nat := max 1 (l.residentsOf (extentBelow l.levels k))

/-- First thread and number of threads of the launch's resident number n, in ascending order (R404). -/
def Launch.residentAt (l : Launch) (n : Nat) : Nat × Nat :=
  if l.simt then
    let per := (l.cut + 15) / 16
    (n / per * l.cut + 16 * (n % per), min 16 (l.cut - 16 * (n % per)))
  else (n, 1)

/-- The outermost co-resident level, whose units are placed whole (R38). -/
def Launch.coLevel (l : Launch) : Option Nat := (List.range l.levels.length).reverse.find? fun k =>
  match l.levels[k]? with
  | some x => x.coRes && decide (1 ≤ x.domain)
  | none => false

/-- Residents placed at once (log entry 14), and the domain that holds them (R168). -/
def Launch.batch (l : Launch) : Nat × Nat :=
  match l.coLevel with
  | some k => (l.levelResidents k, match l.levels[k]? with
    | some x => x.domain
    | none => 3)
  | none => (1, 3)

/-! ### Places -/

/-- The quarters of a lane group a column set covers. -/
def shapeQuarters (shape slot : Nat) : List Nat :=
  match shape with | 0 => [0, 1, 2, 3] | 1 => [2 * slot, 2 * slot + 1] | _ => [slot]

/-- The quarters a resident stands on. -/
def Resident.quarters (r : Resident) : List Nat := shapeQuarters r.launch.shape r.slot

/-- The quarters of a core a resident stands on, numbered 4 lane group + quarter. -/
def Resident.coreQuarters (r : Resident) : List Nat := r.quarters.map (4 * r.lgrp + ·)

/-- Residents that stand on a core, on a lane group. -/
def State.onCore (s : State) (core : Nat) : List Resident := s.allRes.filter fun r => r.core == core && r.away == .here
def State.onLg (s : State) (core lg : Nat) : List Resident := (s.onCore core).filter fun r => r.lgrp == lg

/-- The resource a quarter belongs to (R185): the whole core when the row gives the core whole, else the column set of the
partial entry that gives it. -/
def Row.resource (r : Row) (core lg q : Nat) : List Nat :=
  if r.encls.any (fun e => e.val && e.cores.getLsbD core) then List.range 64
  else match r.division core lg with
    | some 1 => [4 * lg + q / 2 * 2, 4 * lg + q / 2 * 2 + 1]
    | some _ => [4 * lg + q]
    | none => (List.range 4).map (4 * lg + ·)

/-- The resource a quarter belongs to now; while no row is in force every core is held whole (R181). -/
def State.resourceOf (s : State) (core lg q : Nat) : List Nat :=
  match s.rowNow with
  | some r => r.resource core lg q
  | none => List.range 64

/-- A resource is free of its previous owner (R188, R189). -/
def State.freeOfOthers (s : State) (t core : Nat) (qs : List Nat) : Bool :=
  (s.onCore core).all (fun r => r.launch.tenant == t || !(r.coreQuarters.any qs.contains)) &&
  (qs.length != 64 || s.units.all fun u => u.core != core || u.away || ((s.ctxAt u.ctx).map Context.tenant).getD t == t)

/-- A lane group may take a shape (R28): one the row divides it into, else that of the residents it holds. -/
def State.shapeOk (s : State) (core lg shape : Nat) : Bool :=
  (match s.rowNow with
    | some r => match r.division core lg with
      | some d => d == shape
      | none => true
    | none => true) && (s.onLg core lg).all fun r => r.launch.shape == shape

/-- Scratchpad bytes under a setting of R17. -/
def spadBytes (setting : Nat) : Nat := (1792 - 256 * setting) * 1024

/-- Where new allotments must end: before the SRAM a pending request converts (R99). -/
def Core.spadLimit (c : Core) : Nat := if c.carvePend then min (spadBytes c.carveCur) (spadBytes c.carveReq) else spadBytes c.carveCur

/-- Allotments that stand on a core. -/
def State.unitsOn (s : State) (core : Nat) : List Unit44 := s.units.filter fun u => u.core == core && !u.away

/-- The lowest free range of a core's scratchpad that starts at a multiple of 512 (R166). -/
def State.freeSpad (s : State) (core len : Nat) : Option Nat :=
  let us := s.unitsOn core
  let starts := 0 :: us.map fun u => (u.base + u.size + 511) / 512 * 512
  let ok := starts.filter fun b => decide (b + len ≤ (s.coreAt core).spadLimit) && us.all fun u => !overlaps b len u.base u.size
  ok.foldl (fun m b => match m with
    | none => some b
    | some x => some (min x b)) none

/-- Accumulator tiles taken on a core. -/
def State.tilesUsed (s : State) (core : Nat) : Nat := ((s.unitsOn core).map fun u => u.tiles.length).foldl (· + ·) 0

/-- Room for an allotment and its tiles (R166). -/
def State.unitFits (s : State) (core spad acc : Nat) : Bool := (s.freeSpad core spad).isSome && decide (s.tilesUsed core + acc ≤ 64)

/-- A unit that owns nothing holds nobody to its core. -/
def Unit44.hollow (u : Unit44) : Bool := u.size == 0 && u.tiles.isEmpty && u.rings.isEmpty

/-- A saved unit may come back to a core: its bytes and tiles fit, its ring numbers are free there (log entry 14), and on another core
no operation on its tiles is left in the engine (R299). -/
def State.unitReturns (s : State) (u : Unit44) (core : Nat) : Bool :=
  s.unitFits core u.size u.tiles.length && (u.rings.all fun g => (s.ringOf core g.1).owner.isNone) &&
  (u.core == core || ((s.unitOf u.uid core).isNone && (s.coreAt u.core).mq.all fun m => m.uid != u.uid))

/-- Two places lie in one instance of a domain (R39). -/
def sameInstance (domain core lg core' lg' : Nat) : Bool :=
  match domain with
  | 2 => core' == core && lg' == lg
  | 3 => core' == core
  | 4 => hamOf core' == hamOf core
  | 5 => dieOf core' == dieOf core
  | _ => true

/-- The launch under way that a number names. -/
def State.runningOf (s : State) (lid : Nat) : Option Running := s.running.find? fun x => x.launch.lid == lid

/-- Where a unit of a launch has been placed last. -/
def State.homeOf (s : State) (lid k unit : Nat) : Option (Nat × Nat) :=
  (s.runningOf lid).bind fun x => (x.homes.find? fun h => h.1 == k && h.2.1 == unit).map fun h => h.2.2

/-- A resident of a unit holds the unit to an instance of its domain: the one it stands in or, once it is off, that of the core it must
return to, which its pin or an allotment that has stayed there names (R36, R44). -/
def State.holdsUnit (s : State) (domain core lg : Nat) (r : Resident) : Bool :=
  if r.away == .here then sameInstance domain core lg r.core r.lgrp
  else if r.launch.pin || ((s.unitOf r.uid r.core).any fun u => !u.away && !u.hollow) then sameInstance (max 3 domain) core lg r.core r.lgrp
  else true

/-- The level-k unit a launch's resident belongs to is held to one instance of its domain (R39): that of its residents that
stand or must return; with none of those, any; with no resident left, the one it was placed in. -/
def State.instanceOk (s : State) (l : Launch) (tid0 rid core lg : Nat) : Bool :=
  (List.range l.levels.length).all fun k => match l.levels[k]? with
    | none => true
    | some x =>
      let mates := s.allRes.filter fun r => r.launch.lid == l.lid && unitIndex l.levels k r.tid0 == unitIndex l.levels k tid0
      if mates.isEmpty then match s.homeOf l.lid k (unitIndex l.levels k tid0) with
        | some h => sameInstance x.domain core lg h.1 h.2
        | none => true
      else (mates.filter fun r => r.rid != rid).all (s.holdsUnit x.domain core lg)

/-- A resident placed on a lane group makes it the home of its units (R39). -/
def State.setHomes (s : State) (l : Launch) (tid0 core lg : Nat) : State :=
  { s with running := updIf (fun x => x.launch.lid == l.lid) (fun x =>
      { x with homes := (List.range l.levels.length).foldl (fun hs k =>
          putBy (fun h => h.1 == k && h.2.1 == unitIndex l.levels k tid0) (k, unitIndex l.levels k tid0, core, lg) hs) x.homes }) s.running }

/-- The lowest free resident slot or column set of a lane group that fits a resident of a launch (R166). -/
def State.slotFor (s : State) (l : Launch) (core lg : Nat) : Option Nat :=
  let here := s.onLg core lg
  let n := match l.shape with | 0 => 16 | 1 => 2 | _ => 4
  let room := decide ((here.map fun r => r.allotS).foldl (· + ·) 0 + 16 * l.sblk ≤ 2048) &&
    (l.shape != 0 || decide ((here.map fun r => r.allotV).foldl (· + ·) 0 + 32 * l.vblk ≤ 1536))
  if !(s.shapeOk core lg l.shape && room) then none
  else (List.range n).find? fun k =>
    here.all (fun r => r.slot != k) &&
    (shapeQuarters l.shape k).all fun q =>
      s.holder core lg q == some l.tenant && s.freeOfOthers l.tenant core (s.resourceOf core lg q)

/-! ### Placing -/

/-- The level whose unit owns the scratchpad and tiles (R44), with the unit's index; none: the resident itself. -/
def Launch.owner (l : Launch) (tid0 : Nat) : Option Nat := (l.levelFrom 2).map fun k => unitIndex l.levels k tid0

/-- The allotment of a resident's unit that already stands on a core. -/
def State.unitHere (s : State) (l : Launch) (tid0 core : Nat) : Option Unit44 :=
  match l.owner tid0 with
  | none => none
  | some i => s.units.find? fun u => u.lid == l.lid && u.index == i && u.core == core && !u.away

/-- The number of a resident's unit, where some core already knows it. -/
def State.unitNumber (s : State) (l : Launch) (tid0 : Nat) : Option Nat :=
  match l.owner tid0 with
  | none => none
  | some i => (s.units.find? fun u => u.lid == l.lid && u.index == i).map Unit44.uid

/-- What is left of clean ranges once a range is taken. -/
def cutRanges (rs : List (Nat × Nat)) (a n : Nat) : List (Nat × Nat) :=
  rs.flatMap fun r =>
    if overlaps r.1 r.2 a n then
      (if r.1 < a then [(r.1, a - r.1)] else []) ++ (if a + n < r.1 + r.2 then [(a + n, r.1 + r.2 - (a + n))] else [])
    else [r]

/-- Bytes of a range that lie in no clean range. -/
def dirtyIn (rs : List (Nat × Nat)) (a n : Nat) : List (Nat × Nat) :=
  rs.foldl (fun left r => cutRanges left r.1 r.2) [(a, n)]

/-- A range has been zeroed whole. -/
def rangeClean (rs : List (Nat × Nat)) (a n : Nat) : Bool := (dirtyIn rs a n).all fun x => x.2 == 0

/-- The zeroed bytes of a range that is not clean whole, as cells of the allotment it becomes (R99 step 3, R189). -/
def zeroCells (rs : List (Nat × Nat)) (a n : Nat) : List Host.Cell :=
  if rangeClean rs a n then []
  else (List.range n).filterMap fun k =>
    if rs.any fun r => decide (r.1 ≤ a + k ∧ a + k < r.1 + r.2) then some (k, 0) else none

/-- A unit that is bound to one core at most has one allotment and one set of tiles wherever it is; a wider one has its own on each core
(R44). -/
def Launch.oneAllotment (l : Launch) : Bool := match l.levelFrom 2 with
  | some k => (l.levels[k]?).any fun x => decide (x.domain ≤ 3)
  | none => true

/-- The saved allotment of a resident's unit that its placement on a core brings back (R44, R186). -/
def State.unitSaved (s : State) (l : Launch) (tid0 core : Nat) : Option Unit44 :=
  match l.owner tid0 with
  | none => none
  | some i => s.units.find? fun u => u.lid == l.lid && u.index == i && u.away && (u.core == core || l.oneAllotment)

/-- A saved unit comes to a core with its rings, which keep their numbers; its residents that are off belong there from now on. -/
def State.returnUnit (s : State) (u : Unit44) (core : Nat) : State :=
  let base := (s.freeSpad core u.size).getD 0
  let s1 := u.rings.foldl (fun s g => s.modRing core g.1 fun _ => g.2) s
  let moved := fun x : Unit44 => { x with core := core, base := base, away := false, rings := [] }
  let s2 := { s1 with units := updIf (fun x => x.uid == u.uid && x.core == u.core) moved s1.units }
  (s2.mapRes fun x => if x.uid = u.uid ∧ x.core = u.core ∧ x.away ≠ .here then { x with core := core } else x).modCore core fun c =>
    { c with cleanSpad := cutRanges c.cleanSpad base u.size, dirtyTiles := c.dirtyTiles - u.tiles.length }

/-- A new allotment on a core, with its tiles: what has been zeroed since the last owner reads 0 (R99, R189), anything else
is free (log entry 5). -/
def State.newUnit (s : State) (l : Launch) (tid0 uid core : Nat) : State :=
  let c := s.coreAt core
  let len := l.spad * 256
  let base := (s.freeSpad core len).getD 0
  let u : Unit44 :=
    { uid := uid, core := core, ctx := l.ctx, lid := l.lid, index := (l.owner tid0).getD tid0, base := base, size := len,
      spad := { fill := if rangeClean c.cleanSpad base len then .zero else .free uid
                cells := zeroCells c.cleanSpad base len, poison := [] },
      tiles := (List.range l.acc).map fun k => { fill := if c.dirtyTiles = 0 then .zero else .free (uid * 64 + k), cells := [] },
      held := [], rings := [], away := false }
  { s with units := s.units ++ [u] }.modCore core fun c =>
    { c with cleanSpad := cutRanges c.cleanSpad base len, dirtyTiles := c.dirtyTiles - l.acc }

/-- A resident as placement makes it (R32, R36, R39, R200, R293): lanes without a thread have exited. -/
def Launch.newResident (l : Launch) (rid uid tid0 threads core lg slot now : Nat) (fill : Fill) : Resident :=
  let mask : BitVec 16 := if l.simt then BitVec.ofNat 16 (2 ^ threads - 1) else 0xFFFF
  { rid := rid, launch := l, uid := uid, tid0 := tid0, core := core, lgrp := lg, slot := slot, simt := l.simt,
    regs := { fill := fill, cells := [] }, flags := List.replicate 12 0, regions := [], fflags := 0, hdr := l.code, place := 0, clause := none,
    loops := [], div := [], active := mask, exited := ~~~mask, count := 0, clkh := 0, ectrsel := 0, ectrhi := 0, occsel := 0,
    cstat := 0, reeve := false, trap := Trap.reset, exempt := false, flights := [], porch := [], loads := [], acrdPending := [],
    comps := [], pin := none, ended := false, closing := .none, stop := .none, wait := .none, away := .here, waitSince := now,
    async := [], asyncHeld := [], refused := [], takeOff := none, ovn := none, released := none, heldCopies := [], heldMats := [],
    placedAt := now, age := now, waited := 0, starve := 0 }

/-- How long a record has been ready and unplaced (R167). -/
def QRec.waiting (q : QRec) (now : Nat) : Nat := q.waited + (if q.ready then now - q.since else 0)

/-- There is a place on a core for the unit of a resident to be placed: the allotment that stands there, room for the saved one, or room
for a new one (R44, R166). -/
def State.unitPlace (s : State) (l : Launch) (tid0 core : Nat) : Bool :=
  match s.unitHere l tid0 core, s.unitSaved l tid0 core with
  | some _, _ => true
  | none, some u => s.unitReturns u core
  | none, none => s.unitFits core (l.spad * 256) l.acc

/-- The unit of a resident to be placed stands on the core. -/
def State.takeUnit (s : State) (l : Launch) (tid0 uid core : Nat) : State :=
  match s.unitHere l tid0 core, s.unitSaved l tid0 core with
  | some _, _ => s
  | none, some u => s.returnUnit u core
  | none, none => s.newUnit l tid0 uid core

/-- Place one resident of a record on a lane group, if it fits (R166). Its registers read 0 where its column sets have been zeroed
and no resident has left them since (R189). -/
def State.placeOne (s : State) (q : QRec) (core lg : Nat) (x : Nat × Nat) : Option State :=
  let l := q.launch
  if !(s.instanceOk l x.1 0 core lg && s.unitPlace l x.1 core) then none
  else (s.slotFor l core lg).map fun slot =>
    let uid := (s.unitNumber l x.1).getD s.nextId
    let qs := (shapeQuarters l.shape slot).map (4 * lg + ·)
    let fill : Fill := if qs.all (s.coreAt core).clean.contains then .zero else .free (s.nextId + 1)
    let r := { l.newResident (s.nextId + 1) uid x.1 x.2 core lg slot s.timebase fill with age := q.age, waited := q.waiting s.timebase }
    let s1 := s.takeUnit l x.1 uid core
    let s2 := { s1 with residents := s1.residents ++ [r], nextId := s.nextId + 2 }.setHomes l x.1 core lg
    if q.acquire then s2.markStale core l.ctx else s2

/-- A list in parts of n elements; the first argument bounds the number of parts. -/
def chunksOf {α : Type} : Nat → Nat → List α → List (List α)
  | 0, _, _ => []
  | f + 1, n, xs => if xs.isEmpty then [] else xs.take n :: chunksOf f n (xs.drop n)

/-- The residents of a batch grouped by the units that one instance of domain d must hold. -/
def Launch.groups (l : Launch) (d : Nat) (xs : List (Nat × Nat)) : List (List (Nat × Nat)) :=
  chunksOf xs.length (max 1 ((l.levelWithin d).map l.levelResidents |>.getD 1)) xs

/-- Place residents, every one on this lane group. -/
def State.placeLg (s : State) (q : QRec) (core lg : Nat) (xs : List (Nat × Nat)) : Option State :=
  xs.foldl (fun o x => o.bind fun s => s.placeOne q core lg x) (some s)

/-- Place residents on this core, each unit that one lane group must hold on the lowest lane group that fits it; not on a core
that is to be avoided (R167). -/
def State.placeCore (s : State) (q : QRec) (avoid : Nat → Bool) (core : Nat) (xs : List (Nat × Nat)) : Option State :=
  if avoid core then none
  else (q.launch.groups 2 xs).foldl (fun o g => o.bind fun s => (List.range 16).findSome? fun lg => s.placeLg q core lg g) (some s)

/-- Place residents in this hamlet, on the lowest-numbered cores that fit (R168). -/
def State.placeHam (s : State) (q : QRec) (avoid : Nat → Bool) (ham : Nat) (xs : List (Nat × Nat)) : Option State :=
  (q.launch.groups 3 xs).foldl (fun o g => o.bind fun s => (List.range 8).findSome? fun k => s.placeCore q avoid (8 * ham + k) g) (some s)

/-- Place residents on this die. -/
def State.placeDie (s : State) (q : QRec) (avoid : Nat → Bool) (die : Nat) (xs : List (Nat × Nat)) : Option State :=
  (q.launch.groups 4 xs).foldl (fun o g => o.bind fun s => (List.range 12).findSome? fun k => s.placeHam q avoid (12 * die + k) g) (some s)

/-- The residents the next unit of a record consists of. -/
def QRec.batch (q : QRec) : List (Nat × Nat) := (List.range q.launch.batch.1).map fun k => q.launch.residentAt (q.next + k)

/-- Place the next unit of a record in a round of a core (R166, R168). -/
def State.placeUnit (s : State) (q : QRec) (avoid : Nat → Bool) (core : Nat) : Option State :=
  match q.launch.batch.2 with
  | 5 => s.placeDie q avoid (dieOf core) q.batch
  | 4 => s.placeHam q avoid (hamOf core) q.batch
  | _ => s.placeCore q avoid core q.batch

/-- No core is to be avoided. -/
def anyCore (_ : Nat) : Bool := false

/-! ### Resuming a resident that has been taken off (R176, R186, R207) -/

/-- The allotment of a resident, saved or standing. -/
def State.unitOfRes (s : State) (r : Resident) : Option Unit44 := s.unitOf r.uid r.core

/-- The same unit on the core a resident comes to, where another of its residents has brought it there (R39). -/
def State.unitMet (s : State) (u : Unit44) (core : Nat) : Option Unit44 := if core = u.core then none else s.unitOf u.uid core

/-- Whether a resident may come back to a core, as far as its unit goes: to the core that keeps the allotment, or to any
with room once the unit has been saved. A unit that owns nothing lets its residents join it where it stands. -/
def State.unitAllows (s : State) (r : Resident) (core : Nat) : Bool :=
  match s.unitOfRes r with
  | none => true
  | some u => match s.unitMet u core with
    | some v => u.hollow && (!v.away || s.unitReturns v core)
    | none =>
      if u.away then s.unitReturns u core
      else core == r.core || (u.hollow && (s.coreAt r.core).mq.all fun m => m.uid != u.uid)

/-- Bring a resident's unit to a core. -/
def State.bringUnit (s : State) (r : Resident) (core : Nat) : State :=
  match s.unitOfRes r with
  | none => s
  | some u => match s.unitMet u core with
    | some v => if v.away then s.returnUnit v core else s
    | none =>
      if u.away then s.returnUnit u core
      else if core = r.core then s
      else { s with units := s.units ++ [{ u with core := core, base := 0 }] }

/-- A unit that owns nothing leaves no trace on a core that its last resident has left. -/
def State.forgetHollow (s : State) (uid core : Nat) : State :=
  if s.allRes.any fun x => x.uid == uid && x.core == core then s
  else { s with units := s.units.filter fun u => !(u.hollow && u.uid == uid && u.core == core) }

/-- A withdrawn command re-enters the queue of the core its issuer is placed on, behind those there (R186), also where others have
taken its place meanwhile and the engine then holds more than its number: R15 and R186 do not say. A footprint in the scratchpad lies in
the issuer's unit. DESIGN CHOICE: log entry 25. -/
def State.reenter (s : State) (core : Nat) (r : Resident) : State :=
  s.modCore core fun c => { c with cq := c.cq ++ r.heldCopies, mq := c.mq ++ r.heldMats }

/-- Put a resident back onto a lane group: its commands first, then the phase it left a barrier with (R176, R186, R218). The
core's lines of its context are stale, so that it reads nothing older than it has read or written before (R103, R104). -/
def State.putBack (s : State) (r : Resident) (core lg slot : Nat) : State :=
  let s1 := (s.bringUnit r core).reenter core r
  let notice := match r.ovn with
    | some us => if (s.ctxOf r).tctl then [mkCause 13 (BitVec.ofNat 32 us) 0 0 0] else []
    | none => []
  let s2 := s1.modRes r.rid fun x => { x with
    core := core, lgrp := lg, slot := slot, away := .here, heldCopies := [], heldMats := [], async := x.async ++ notice
    ovn := none, released := none }
  let s4 := ((s2.forgetHollow r.uid r.core).setHomes r.launch r.tid0 core lg).markStale core r.launch.ctx
  match r.released with
  | some k => s4.phaseAt core r.launch.ctx k
  | none => s4

/-- Place a resident that waits to be resumed on a core, on its first core if the record says so (R36). -/
def State.resumeOn (s : State) (r : Resident) (core : Nat) : Option State :=
  if (r.launch.pin && core != r.core) || !s.unitAllows r core then none
  else (List.range 16).findSome? fun lg =>
    if s.instanceOk r.launch r.tid0 r.rid core lg then (s.slotFor r.launch core lg).map fun slot => s.putBack r core lg slot else none

/-! ### The queues (R163, R164) -/

/-- Every queue entry of the device. -/
def State.allRecs (s : State) : List QRec :=
  s.dieQ ++ (s.hamlets.flatMap fun h => h.queue.flatMap Block.recs) ++ (s.cores.flatMap fun c => c.queue.flatMap Block.recs)

/-- Change the entries of a list of blocks; empty blocks are free. -/
def mapBlocks (f : QRec → Option QRec) (bs : List Block) : List Block :=
  (bs.map fun b => { b with recs := b.recs.filterMap f }).filter fun b => !b.recs.isEmpty

/-- Change or drop queue entries wherever they are. -/
def State.mapRecs (s : State) (f : QRec → Option QRec) : State :=
  { s with
    dieQ := s.dieQ.filterMap f
    hamlets := s.hamlets.map fun h => { h with queue := mapBlocks f h.queue }
    cores := s.cores.map fun c => { c with queue := mapBlocks f c.queue } }

/-- Change one entry. -/
def State.modRec (s : State) (qid : Nat) (f : QRec → QRec) : State := s.mapRecs fun q => some (if q.qid = qid then f q else q)

/-- An entry leaves every queue. -/
def State.dropRec (s : State) (qid : Nat) : State := s.mapRecs fun q => if q.qid = qid then none else some q

/-- Records of a tenant in a die queue. -/
def State.dieCount (s : State) (die t : Nat) : Nat := (s.dieQ.filter fun q => q.die == die && q.launch.tenant == t).length

/-- A tenant holds something on a core, in a hamlet, under the row in force. -/
def State.holdsCore (s : State) (t core : Nat) : Bool := decide (0 < s.turns core t)
def State.holdsHam (s : State) (t ham : Nat) : Bool := (List.range 8).any fun k => s.holdsCore t (8 * ham + k)

/-- Younger first: by age, and between equal ages, which R164 leaves open, the higher record address. DESIGN CHOICE: log
entry 27. -/
def QRec.younger (a b : QRec) : Bool := decide (b.age < a.age) || (a.age == b.age && decide (b.launch.va < a.launch.va))

/-- A record enters blocks of which `cap` may be in use by its tenant's taking a new one (R164): what stays, and the block
that moves up, the incoming record with the seven youngest of the others. -/
def enterBlocks (cap : Nat) (bs : List Block) (q : QRec) : List Block × List QRec :=
  let t := q.launch.tenant
  match (bs.filter fun b => b.tenant == t).getLast? with
  | none => if bs.length < cap then (bs ++ [{ tenant := t, recs := [q] }], []) else (bs, [q])
  | some last =>
    if last.recs.length < 8 then
      let k := bs.length - 1 - bs.reverse.findIdx fun b => b.tenant == t
      (modAt bs k fun b => { b with recs := b.recs ++ [q] }, [])
    else
      let mine := (bs.filter fun b => b.tenant == t).flatMap Block.recs
      let up := (sortBy QRec.younger mine).take 7
      (mapBlocks (fun x => if up.any (fun y => y.qid == x.qid) then none else some x) bs, sortBy QRec.younger (q :: up))

/-- Blocks of a hamlet a tenant may have in use: one is kept for every other tenant that holds something there and has none
(R164). -/
def State.hamCap (s : State) (ham t : Nat) : Nat :=
  32 - ((List.range 16).filter fun u => u != t && s.holdsHam u ham && (s.hamAt ham).queue.all fun b => b.tenant != u).length

/-- The cap on the blocks of a hamlet that are in use where a tenant takes a new one: the reserve binds a tenant that has a block
there, and one that holds nothing there and for which none is kept. -/
def State.newBlockCap (s : State) (ham t : Nat) : Nat :=
  if (s.hamAt ham).queue.any (fun b => b.tenant == t) || !s.holdsHam t ham then s.hamCap ham t else 32

/-- Records move up into a die queue. A move that no rule lets fail enters also a queue that holds its 4,096: log entry 27. -/
def State.enterDie (s : State) (die : Nat) (qs : List QRec) : State :=
  { s with dieQ := s.dieQ ++ qs.map fun q => { q with die := die } }

/-- An event asks a core, or every core of a hamlet, for a placement round (R166); events before the next round ask for that one together.
DESIGN CHOICE: log entry 14. -/
def State.askRound (s : State) (core : Nat) : State := s.modCore core fun c => { c with roundDue := true }
def State.askRounds (s : State) (ham : Nat) : State := (List.range 8).foldl (fun s k => s.askRound (8 * ham + k)) s

/-- The cores in whose rounds an entry may be a candidate are asked for one: it has become ready where it stands, which counts as
entering. DEDUCED: log entry 14. -/
def State.askFor (s : State) (p : QRec → Bool) : State :=
  let holds := fun bs : List Block => bs.any fun b => b.recs.any p
  (List.range 192).foldl (fun s k => if holds (s.coreAt k).queue || holds (s.hamAt (hamOf k)).queue then s.askRound k else s) s

/-- A single record enters a hamlet's queue (R164). -/
def State.enterHam (s : State) (ham : Nat) (q : QRec) : State :=
  let (bs, up) := enterBlocks (s.newBlockCap ham q.launch.tenant) (s.hamAt ham).queue q
  ((s.modHam ham fun h => { h with queue := bs }).enterDie (ham / 12) up).askRounds ham

/-- A block enters a hamlet's queue (R164). Where none is free there, which the spec leaves open, it goes on to the die queue.
DESIGN CHOICE: log entry 27. -/
def State.enterHamBlock (s : State) (ham t : Nat) (qs : List QRec) : State :=
  if (s.hamAt ham).queue.length < s.newBlockCap ham t then
    (s.modHam ham fun h => { h with queue := h.queue ++ [{ tenant := t, recs := qs }] }).askRounds ham
  else s.enterDie (ham / 12) qs

/-- A record enters a core's queue (R164); what overflows is a block of eight, or the record alone. -/
def State.enterCore (s : State) (core : Nat) (q : QRec) : State :=
  let (bs, up) := enterBlocks 4 (s.coreAt core).queue q
  let s1 := (s.modCore core fun c => { c with queue := bs }).askRound core
  match up with
  | [] => s1
  | [x] => s1.enterHam (hamOf core) x
  | _ => s1.enterHamBlock (hamOf core) q.launch.tenant up

/-- A queue entry for a record. -/
def State.newRec (s : State) (l : Launch) (die : Nat) (ready acquire : Bool) (rid : Option Nat) (age : Nat) : QRec :=
  { qid := s.nextId, launch := l, die := die, age := age, ready := ready, acquire := acquire, rid := rid, next := 0, rounds := 0,
    cls := l.cls, reserving := false, waited := 0, since := s.timebase }

/-- The device writes a record's state word; a page that is not writable drops the write (R403). -/
def State.writeState (s : State) (l : Launch) (k : Nat) : State :=
  match s.ctxAt l.ctx with
  | some c => s.ctxPoke c (l.va + 56) [BitVec.ofNat 64 k]
  | none => s

/-- An event about a record to its tenant's reeve. -/
def State.recordEvent (s : State) (ctx code va w3 : Nat) : State :=
  match s.ctxAt ctx with
  | some c => s.reeveEvent c code (BitVec.ofNat 64 va) (BitVec.ofNat 64 w3)
  | none => s

/-- The record as the placement hardware reads it (R163, R403), if it can: the queue entry holds its address, its tenant, its depth and
its footprint, memory the rest, which is not checked again (R376). The mode and the levels stay as they are once a unit is placed.
DEDUCED: log entry 14. -/
def State.reread (s : State) (l : Launch) : Option Launch :=
  ((s.ctxAt l.ctx).bind fun c => s.recordWords c l.va).map fun ws =>
    let x := { launchOf l.lid l.va l.ctx l.tenant l.depth ws with
      shape := l.shape, vblk := l.vblk, sblk := l.sblk, spad := l.spad, acc := l.acc, flags := l.flags }
    match s.runningOf l.lid with
    | some n => { x with simt := n.launch.simt, levels := n.launch.levels }
    | none => x

/-- A ready entry with its record as it is read now. -/
def State.refresh (s : State) (q : QRec) : QRec :=
  if q.ready then { q with launch := (s.reread q.launch).getD q.launch } else q

/-! ### Unplaceable records (R169) -/

/-- A record that can never be placed: state 5, out of every queue, an event; what is placed runs on. -/
def State.unplaceable (s : State) (q : QRec) : State :=
  let s1 := ((s.writeState q.launch 5).dropRec q.qid).recordEvent q.launch.ctx 2 q.launch.va 0
  { s1 with running := updIf (fun x => x.launch.lid == q.launch.lid) (fun x => { x with dead := true }) s1.running }

/-- The device with nothing placed and a given row in force from now on. -/
def State.emptyAt (s : State) (row : Nat) : State :=
  { s with residents := [], units := [], iss := none, running := [], rota := { s.rota with row := row, debits := [], donated := [] } }

/-- Some core could hold the next unit of a record if nothing else were placed, in some row of the table. -/
def State.everFits (s : State) (q : QRec) : Bool :=
  (List.range s.rota.rows.length).any fun k => (List.range 192).any fun core => ((s.emptyAt k).placeUnit q anyCore core).isSome

/-- Judge a record under the first case of R169; not applied while no table runs. -/
def State.judge (s : State) (qid : Nat) : State :=
  match s.allRecs.find? fun q => q.qid == qid with
  | some q => if 2 ≤ s.rota.state ∧ s.rota.rows ≠ [] ∧ q.ready ∧ q.rid.isNone ∧ !s.everFits (s.refresh q) then s.unplaceable q else s
  | none => s

/-- Every record in a queue is judged: at the go that starts a table, and when a unit has failed (R25, R169). -/
def State.judgeAll (s : State) : State := (s.allRecs.map QRec.qid).foldl State.judge s

/-- A record becomes ready (R38): state 1, the tick is its age, and it is judged. -/
def State.makeReady (s : State) (qid : Nat) (acquire : Bool) : State :=
  match s.allRecs.find? fun q => q.qid == qid with
  | some q =>
    let s1 := (s.modRec qid fun q => { q with ready := true, acquire := acquire, age := s.timebase, since := s.timebase }).askFor fun x => x.qid == qid
    (s1.writeState q.launch 1).judge qid
  | none => s

/-- A record as the device takes it in (R36, R37): depth, tenant and state written, then checked. `enter` puts it into a
queue. A record that R37 refuses gets state 4 and an event. `ws` are its words. -/
def State.acceptRecord (s : State) (c : Context) (va depth : Nat) (ws : List Nat) (acquire : Bool) (enter : State → QRec → State) (die : Nat) :
    Bool × State :=
  let w2 := ws.getD 2 0
  let w2' := w2 - fld w2 11 3 * 2 ^ 11 - fld w2 16 4 * 2 ^ 16 + depth * 2 ^ 11 + c.tenant * 2 ^ 16
  let l := launchOf s.nextId va c.num c.tenant depth ws
  let s1 := (s.ctxPoke c (va + 16) [BitVec.ofNat 64 w2']).ctxPoke c (va + 56) [0]
  if recordOk l ws then
    let q := { s1 with nextId := s.nextId + 1 }.newRec l die false acquire none s.timebase
    let s2 := enter { s1 with nextId := s.nextId + 2 } q
    (true, if joinOf ws = 0 then s2.makeReady q.qid acquire else s2)
  else (false, (s1.writeState l 4).recordEvent c.num 1 va 0)

/-- A record that the host submits, if the context can read it (R403). -/
def State.takeRecord (s : State) (c : Context) (va depth : Nat) (acquire : Bool) (enter : State → QRec → State) (die : Nat) :
    Bool × State :=
  match s.recordWords c va with
  | none => (false, s)
  | some ws => s.acceptRecord c va depth ws acquire enter die

/-! ### Placement rounds (R166, R167) -/

/-- A record's class and reservation at a time (R167); it reserves until it is placed. -/
def QRec.aged (q : QRec) (now : Nat) : QRec :=
  if !q.ready then q
  else
    { q with
      cls := min 3 (q.launch.cls + q.waiting now / 700000)
      reserving := q.reserving || decide ((3 - q.launch.cls + 1) * 700000 ≤ q.waiting now) }

/-- The first thread of what an entry places next: its own resident's, or that of the record's next unit. -/
def State.firstThread (s : State) (q : QRec) : Nat :=
  match q.rid.bind s.resAt with
  | some r => r.tid0
  | none => (q.launch.residentAt q.next).1

/-- The order in which a round takes candidates: class, age, address, and within a record its units in ascending order (R166). -/
def State.before (s : State) (a b : QRec) : Bool :=
  decide (b.cls < a.cls) || (a.cls == b.cls && (decide (a.age < b.age) || (a.age == b.age &&
    (decide (a.launch.va < b.launch.va) || (a.launch.va == b.launch.va && decide (s.firstThread a ≤ s.firstThread b))))))

/-- The candidates of a core's round, in order. -/
def State.candidates (s : State) (core : Nat) : List QRec :=
  sortBy s.before ((((s.coreAt core).queue ++ (s.hamAt (hamOf core)).queue).flatMap Block.recs).filter fun q =>
    q.ready && s.holdsCore q.launch.tenant core)

/-- A core whose enclosure share could hold what an entry places next, were nothing else there (R167): the unit of a resident that
resumes, where it may return, or the record's next. -/
def State.couldHold (s : State) (q : QRec) (core : Nat) : Bool :=
  let e := s.emptyAt s.rota.row
  match q.rid.bind s.resAt with
  | some r =>
    (core == r.core || !(r.launch.pin || (s.unitOfRes r).any fun u => !u.away && !u.hollow)) &&
    e.unitFits core (r.launch.spad * 256) r.launch.acc && (List.range 16).any fun lg => (e.slotFor r.launch core lg).isSome
  | none => (e.placeUnit q anyCore core).isSome

/-- Another record of the tenant reserves this core (R167). -/
def State.reserved (s : State) (core : Nat) (q : QRec) : Bool :=
  match sortBy (fun a b => QRec.younger b a) (s.allRecs.filter fun x => x.reserving && x.launch.tenant == q.launch.tenant) with
  | [] => false
  | x :: _ => x.launch.lid != q.launch.lid && s.couldHold x core

/-- The launch of a record is under way, with nothing placed yet. -/
def State.underWay (s : State) (l : Launch) : State :=
  if (s.runningOf l.lid).isSome then s
  else { s with running := s.running ++ [{ launch := l, placed := 0, total := l.residents, retired := [], homes := [], left := false, dead := false }] }

/-- A record's next residents are placed: its launch is under way, and a record placed whole leaves the queue with state 2
(R166). -/
def State.placed (s : State) (q : QRec) : State :=
  let n := q.next + q.launch.batch.1
  let all := decide (q.launch.residents ≤ n)
  let s1 := { s with running := updIf (fun x => x.launch.lid == q.launch.lid) (fun x => { x with placed := n, left := all }) s.running }
  if all then (s1.dropRec q.qid).writeState q.launch 2 else s1.modRec q.qid fun q => { q with next := n, rounds := 0 }

/-- Place the next unit of one candidate, or resume the resident it stands for; not on a core that another record of the tenant
reserves (R167). -/
def State.tryPlace (s : State) (core : Nat) (q : QRec) : Option State :=
  match q.rid with
  | some rid => match s.resAt rid with
    | some r =>
      if s.reserved core q then none
      else (s.resumeOn r core).map fun s1 => (s1.modRes rid fun x => { x with waited := q.waiting s.timebase }).dropRec q.qid
    | none => none
  | none => (s.reread q.launch).bind fun l =>
    ((s.underWay l).placeUnit { q with launch := l } (fun c => s.reserved c q) core).map fun s1 => s1.placed q

/-- A candidate of which nothing is left to place leaves its queue: its record cannot be read any more (log entry 14), or its resident
has ended where it was. -/
def State.weed (s : State) (q : QRec) : State :=
  match q.rid with
  | some rid => if (s.resAt rid).isNone then s.dropRec q.qid else s
  | none => if (s.reread q.launch).isNone then s.unplaceable q else s

/-- The cores whose rounds see a record: its core, or those of its hamlet that its tenant holds something on. -/
def State.candidateCores (s : State) (core : Nat) (q : QRec) : List Nat :=
  if (s.coreAt core).queue.any (fun b => b.recs.any fun x => x.qid == q.qid) then [core]
  else ((List.range 8).map (8 * hamOf core + ·)).filter fun k => s.holdsCore q.launch.tenant k

/-- A round, begun in `before`, in which nothing of a tenant stands in a record's way and which still does not fit it, counts
(R169). -/
def State.countRound (s before : State) (core : Nat) (q : QRec) : State :=
  if q.rid.isSome ∨ (before.placeUnit q anyCore core).isSome then s.modRec q.qid fun q => { q with rounds := 0 }
  else
    let quiet := (before.candidateCores core q).all fun k => (before.onCore k).all fun r => r.launch.tenant != q.launch.tenant
    if !quiet then s.modRec q.qid fun q => { q with rounds := 0 }
    else if 1024 ≤ q.rounds + 1 then s.unplaceable q
    else s.modRec q.qid fun q => { q with rounds := q.rounds + 1 }

/-- A core's round is due (R166): an event has asked for one, or 64 cycles, which are ticks of the timebase (log entry 7), have
passed while its queues hold a candidate. -/
def State.roundDue (s : State) (core : Nat) : Bool :=
  let c := s.coreAt core
  c.roundDue || (decide (64 ≤ s.timebase - c.roundAt) && !(s.candidates core).isEmpty)

/-- PLACEMENT_ROUND: a core's round (R166): candidates of which nothing is left go; the best that fits has its next unit placed; the others
have found no fit, or keep their count (R169). -/
def execPlacementRound (core : Nat) (s : State) : Out :=
  .next (if s.stopped ∨ s.stage ≠ 2 ∨ (s.coreAt core).failed ∨ !s.roundDue core then s
    else
      let s0 := s.modCore core fun c => { c with roundDue := false, roundAt := s.timebase }
      let s1 := s0.mapRecs fun q => some ((s0.refresh q).aged s.timebase)
      let s2 := (s1.candidates core).foldl State.weed s1
      let cs := s2.candidates core
      match cs.findSome? fun q => (s2.tryPlace core q).map fun s3 => (q, s3) with
      | some (q, s3) => (cs.filter fun x => x.qid != q.qid).foldl (fun s x => s.countRound s2 core x) s3
      | none => cs.foldl (fun s x => s.countRound s2 core x) s2)

/-- CLASS_AGEING: a record's class rises with the time it has been ready (R167). -/
def execClassAgeing (qid : Nat) (s : State) : Out := .next (s.modRec qid fun q => (s.refresh q).aged s.timebase)

/-- The oldest ready records of the tenant whose oldest is oldest, up to eight (R164). -/
def oldestBlock (qs : List QRec) : List QRec :=
  match sortBy (fun a b => QRec.younger b a) qs with
  | [] => []
  | q :: rest => (q :: rest.filter fun x => x.launch.tenant == q.launch.tenant).take 8

/-- QUEUE_UNDERFLOW_MOVE: an empty block of a core is filled from its hamlet, one of a hamlet from its die (R164), where the tenant
whose oldest record is oldest may take one. DESIGN CHOICE: log entry 27. -/
def execQueueUnderflowMove (hamletLevel : Bool) (n : Nat) (s : State) : Out :=
  .next (
    let from_ := if hamletLevel then s.dieQ.filter fun q => q.die == n / 12 && s.holdsHam q.launch.tenant n
      else ((s.hamAt (hamOf n)).queue.flatMap Block.recs).filter fun q => s.holdsCore q.launch.tenant n
    let qs := oldestBlock (from_.filter QRec.ready)
    match qs with
    | [] => s
    | q :: _ =>
      let new : Block := { tenant := q.launch.tenant, recs := qs }
      let room := if hamletLevel then decide ((s.hamAt n).queue.length < s.newBlockCap n q.launch.tenant)
        else decide ((s.coreAt n).queue.length < 4)
      if !room then s
      else
        let s1 := qs.foldl (fun s q => s.dropRec q.qid) s
        if hamletLevel then (s1.modHam n fun h => { h with queue := h.queue ++ [new] }).askRounds n
        else (s1.modCore n fun c => { c with queue := c.queue ++ [new] }).askRound n)

/-! ### Join counters (R42, R346) -/

/-- JDEC_APPLY: the engine decrements a join counter at its home slice, in one step (R111, R346). -/
def execJdecApply (core id : Nat) (s : State) : Out :=
  .next (match s.copyAt core id with
    | none => s
    | some c => match c.instr with
      | .jdec _ _ _ =>
        if c.state = .running then
          let w := s.cmdWho core c.rid c.reeve
          let at_ := c.x + 48
          match s.engWaits w ((s.engCheck w .g c.uid false true [(at_, 16)]).and (s.engCheck w .g c.uid true false [(at_, 16)])) with
          | some (st, a, wr, s1) => s1.modCopy core { c with state := st, fva := a, fwr := wr }
          | none =>
            let (cells, ls, s1) := s.engRead copyRequester w .g c.uid c.lines [(at_, 16)]
            let w6 := readLe (cellByte cells) at_ 8
            let w7 := readLe (cellByte cells) (at_ + 8) 8
            let j := w6 % 2 ^ 32
            let st := w7 % 8
            if 1 < st ∨ j = 0 then (s1.recordEvent w.ctx 3 c.x st).endCopy core c
            else
              let (ls, s2) := s1.engWrite w .g c.uid ls [(at_, leBytes 4 (j - 1))]
              let s3 := if j = 1 then
                  let (_, s3) := s2.engWrite w .g c.uid ls [(at_ + 8, leBytes 8 (w7 - st + 1))]
                  match s3.allRecs.find? fun q => q.launch.ctx == w.ctx && q.launch.va == c.x && !q.ready && q.rid.isNone with
                  | some q => s3.makeReady q.qid true
                  | none => s3
                else s2
              s3.endCopy core c
        else s
      | _ => s)

end Sys2Proof.Machine
end

