-- ==== Sys2Proof/Machine/Lifecycle.lean ====
section
/-! DEFINITION. How residents leave their lane groups: snapshots, parking and take-offs with the save area (R176, R183, R184,
R186, R207, R221), barriers (R115, R174 to R176), retirement (R44). -/

namespace Sys2Proof.Machine

/-! ### The save area (R207, R221) -/

/-- Bytes of a resident's image. -/
def Resident.imageBytes (r : Resident) : Nat := 2048 * r.launch.vblk + 4096

/-- Bytes of a unit's scratchpad and tiles. -/
def Unit44.imageBytes (u : Unit44) : Nat := u.size + 16384 * u.tiles.length

/-- Bytes of the save area a context needs once these residents and units are saved too, with 4 KiB for each core. -/
def State.saveNeed (s : State) (ctx : Nat) (rs : List Resident) (us : List Unit44) : Nat :=
  let rs := rs ++ s.allRes.filter fun r => r.launch.ctx == ctx && r.away != .here
  let us := us ++ s.units.filter fun u => u.ctx == ctx && u.away
  let cores := (rs.map Resident.core ++ us.map Unit44.core).eraseDups
  (rs.map Resident.imageBytes).foldl (· + ·) 0 + (us.map Unit44.imageBytes).foldl (· + ·) 0 + 4096 * cores.length

/-- Bytes of the save area the host has allotted. -/
def Context.saveBytes (c : Context) : Nat := (c.saveAreas.map Prod.snd).foldl (· + ·) 0

/-- The image goes to the save area in the device's own layout (R207, R221): what the area's bytes hold afterwards is open, so
each is a free value. The captured state itself stays in the resident: log entry 26. -/
def State.drainImage (s : State) (c : Context) : State :=
  { c.saveAreas.foldl (fun s a => s.pokeBytes a.1 ((List.range a.2).map fun k => Config.imageByte s.fresh (a.1 + k))) s with
    fresh := s.fresh + 1 }

/-! ### Taking a resident off -/

/-- A command as it is saved: it starts again from its progress (R186). A stopped one stays stopped. -/
def savedState : EngState → EngState
  | .running => .queued
  | .faultWait (.refused c) => .faultWait (.refused c)
  | .faultWait _ => .queued
  | e => e

/-- An operation of the matrix engine is withdrawn with its resident (R186, R299): an `mma`, and what the resident has sent after
it to the same tile, which cannot be completed without it. Other row transfers keep their place and complete. DEDUCED: log
entry 25. -/
def withdraws (mq : List MatCmd) (rid : Nat) (m : MatCmd) : Bool :=
  m.rid == rid && (m.flag.isSome || (mq.takeWhile fun x => x.id != m.id).any fun x =>
    x.rid == rid && x.flag.isSome && x.uid == m.uid && x.tile == m.tile)

/-- A resident's copies that are between a tile's payload and its header finish the tile (R186, R255). -/
def State.finishTiles (s : State) (r : Resident) : State :=
  ((s.coreAt r.core).cq.filter fun x => x.rid == r.rid && x.half).foldl (fun s x =>
    let (c, s1) := s.copyHeader r.core x
    s1.modCopy r.core c) s

/-- Withdraw a resident's commands from the engines of its core, a copy after its current tile (R186). -/
def State.withdraw (s0 : State) (r : Resident) : State :=
  let s := s0.finishTiles r
  let c := s.coreAt r.core
  let cs := c.cq.filter fun x => x.rid == r.rid && !x.stays
  let ms := c.mq.filter (withdraws c.mq r.rid)
  (s.modCore r.core fun c =>
    { c with cq := c.cq.filter fun x => !(x.rid == r.rid && !x.stays), mq := c.mq.filter fun x => !withdraws c.mq r.rid x }).modRes r.rid fun x =>
      { x with
        heldCopies := x.heldCopies ++ cs.map fun k => { k with state := savedState k.state }
        heldMats := x.heldMats ++ ms.map fun k => { k with state := savedState k.state } }

/-- A unit of a core none of whose residents stands there (beside the one leaving). -/
def State.lastOf (s : State) (r : Resident) : Bool :=
  (s.onCore r.core).all fun x => x.rid == r.rid || x.uid != r.uid

/-- Save a unit with its rings; its bytes on the core are zeroed (R186, R189). -/
def State.saveUnit (s : State) (uid core : Nat) : State :=
  match s.unitOf uid core with
  | none => s
  | some u =>
    if u.away then s
    else
      let rs := (List.range 16).filterMap fun k => if (s.ringOf core k).owner = some uid then some (k, s.ringOf core k) else none
      let s1 := s.modUnit uid core fun u => { u with away := true, rings := rs }
      let s2 := rs.foldl (fun s g => s.modRing core g.1 fun _ => Ring.off) s1
      (s2.modCore core fun c => { c with cleanSpad := c.cleanSpad ++ [(u.base, u.size)] }).askRound core

/-! ### Changes of owner (R188, R189) -/

/-- Save a unit that an edge leaves without residents, unless the save area is short (R186, R221). -/
def State.saveIdle (s : State) (u : Unit44) : State :=
  match s.ctxAt u.ctx with
  | none => s.saveUnit u.uid u.core
  | some c =>
    let need := s.saveNeed c.num [] [u]
    if c.saveBytes < need then s.hostEvent 17 c.tenant c.num (BitVec.ofNat 64 u.core) (BitVec.ofNat 64 need)
    else s.saveUnit u.uid u.core

/-- The tenant of a unit. -/
def State.unitTenant (s : State) (u : Unit44) : Nat := ((s.ctxAt u.ctx).map Context.tenant).getD 0

/-- A core's scratchpad outside the allotments that stand there. -/
def State.freeRanges (s : State) (core : Nat) : List (Nat × Nat) :=
  (s.unitsOn core).foldl (fun rs u => cutRanges rs u.base u.size) [(0, spadBytes (s.coreAt core).carveCur)]

/-- What a change of owner leaves on a core (R189). A tenant is gone once it holds nothing there and none of its residents stands there:
its units are saved. A tenant that has lost a column set is out once none of its residents stands on a changed one: its lines go
home and out, its code with them. As column sets empty, they are zeroed, with the free scratchpad and the free tiles, and the turns
of the banks begin anew: nothing else keeps state from one owner to the next. DEDUCED: log entry 5. -/
def State.emptyCore (s : State) (core : Nat) : State :=
  let here := s.onCore core
  let old := s.coreAt core
  let gone := fun t : Nat => s.turns core t == 0 && here.all fun r => r.launch.tenant != t
  let out := fun t : Nat => gone t || (old.losers.contains t && here.all fun r => r.launch.tenant != t || !r.coreQuarters.any old.changed.contains)
  let s1 := ((s.unitsOn core).filter fun u => gone (s.unitTenant u)).foldl State.saveIdle s
  let s2 := s1.flushIf core fun l => out l.tenant
  let left := old.changed.filter fun k => here.any fun r => r.coreQuarters.contains k
  let freed := old.changed.filter fun k => !left.contains k
  s2.modCore core fun c =>
    { c with
      icache := c.icache.filter fun l => !out l.tenant
      losers := c.losers.filter fun t => !out t
      clean := (c.clean ++ freed).eraseDups
      changed := left
      cleanSpad := if freed.isEmpty then c.cleanSpad else s2.freeRanges core
      dirtyTiles := if freed.isEmpty then c.dirtyTiles else 0
      bankPtr := if freed.isEmpty then c.bankPtr else List.replicate 64 0 }

/-- A debit of a tenant on a resource, or a longer one in its place; the µs by which it has grown. It is due from the next row on. -/
def State.addDebit (s : State) (t core : Nat) (qs : List Nat) (us : Nat) : Nat × State :=
  let hit := fun d : Debit => d.tenant == t && d.core == core && d.quarters == qs && !d.due
  let old := ((s.rota.debits.find? hit).map Debit.us).getD 0
  if us ≤ old then (0, s)
  else
    let d : Debit := { tenant := t, core := core, quarters := qs, us := us, due := false }
    (us - old, { s with rota := { s.rota with debits := putBy hit d s.rota.debits } })

/-- A resident of its tenant, or, on a core that the tenant no longer holds, a unit of it, still stands on an overrun's resource. -/
def State.overruns (s : State) (x : Overrun) : Bool :=
  ((s.onCore x.core).any fun r => r.launch.tenant == x.tenant && r.takeOff.any fun t => t.qs == x.quarters) ||
  (s.turns x.core x.tenant == 0 && (s.unitsOn x.core).any fun u => s.unitTenant u == x.tenant)

/-- The last is off: the time since T + H is the debit on the resource, which the event of a resident that has overrun names, and its
notice if it has not been placed again (R188, R218). DEDUCED: log entry 22. -/
def State.endOverrun (s : State) (x : Overrun) : State :=
  let us := max 1 ((s.timebase - x.deadline + 699) / 700)
  let (more, s1) := s.addDebit x.tenant x.core x.quarters us
  let s2 := (s1.countBy x.tenant 12 more).modRes x.rid fun r => { r with ovn := r.ovn.map fun _ => us }
  match s.ctxAt x.ctx with
  | some c => s2.reeveEvent c 4 (BitVec.ofNat 64 (x.core + x.lgrp * 2 ^ 8 + x.cset * 2 ^ 12)) (BitVec.ofNat 64 us)
  | none => s2

/-- What comes about on a core as residents leave it in a change of owner: what they leave is emptied, and overruns that are over are
reported. -/
def State.settleCore (s : State) (core : Nat) : State :=
  let s1 := s.emptyCore core
  let ended := s1.rota.overruns.filter fun x => x.core == core && !s1.overruns x
  ended.foldl State.endOverrun { s1 with rota := { s1.rota with overruns := s1.rota.overruns.filter fun x => !ended.contains x } }

/-- The same where a change of owner is under way on the core. -/
def State.settleChange (s : State) (core : Nat) : State :=
  if (s.coreAt core).changed.isEmpty && (s.coreAt core).losers.isEmpty && s.rota.overruns.all (fun x => x.core != core) then s
  else s.settleCore core

/-- Units of which no resident is left are freed, and their rings disabled (R44, R93); their tiles are free and not zeroed (R189),
and their core may run a round (R166). -/
def State.freeUnits (s : State) : State :=
  let used := fun u : Unit44 => s.allRes.any fun r => r.uid == u.uid && r.core == u.core
  let gone := s.units.filter fun u => !used u
  gone.foldl (fun s u => s.modCore u.core fun c =>
      { c with
        rings := c.rings.map fun g => if g.owner = some u.uid then Ring.off else g
        dirtyTiles := if u.away then c.dirtyTiles else c.dirtyTiles + u.tiles.length
        roundDue := c.roundDue || !u.away })
    { s with units := s.units.filter used }

/-- A queue entry for a resident that is off, with its original age (R163, R176, R186). -/
def State.requeue (s : State) (r : Resident) (die : Bool) (ready : Bool) : State :=
  let q := { s.newRec r.launch (dieOf r.core) ready false (some r.rid) r.age with waited := r.waited }
  let s1 := { s with nextId := s.nextId + 1 }
  if die then s1.enterDie (dieOf r.core) [q] else s1.enterCore r.core q

/-- The entry of a resident that is off becomes ready again (R176, R207, R208), which asks for rounds (R166). -/
def State.wakeRec (s : State) (rid : Nat) : State :=
  (s.mapRecs fun q => some (if q.rid = some rid ∧ !q.ready then { q with ready := true, since := s.timebase } else q)).askFor fun q =>
    q.rid == some rid

/-- A resident has left its column sets: what it wrote is there until they are zeroed (R189). -/
def State.leaveQuarters (s : State) (r : Resident) : State :=
  s.modCore r.core fun c => { c with clean := c.clean.filter fun k => !r.coreQuarters.contains k }

/-- Take a resident off by full snapshot (R176, R186, R207, R208). A save area that is too short stops it where it stands
and tells the host (R221). -/
def State.snapshotOff (s : State) (rid : Nat) (how : Away) (ready : Bool) : Bool × State :=
  match s.resAt rid with
  | none => (false, s)
  | some r =>
    let off := how == .takenOff && s.lastOf r
    let us := if off then (s.units.filter fun u => u.uid == r.uid && u.core == r.core && !u.away) else []
    let need := s.saveNeed r.launch.ctx [r] us
    if (s.ctxOf r).saveBytes < need then
      (false, (s.modRes rid fun x => { x with stop := if x.stop = .none then .saveShort else x.stop }).hostEvent 17 r.launch.tenant
        r.launch.ctx (BitVec.ofNat 64 r.core) (BitVec.ofNat 64 need))
    else
      let s1 := ((s.withdraw r).phaseAt r.core r.launch.ctx .dev).modRes rid fun x =>
        { x.fixLoads with
          away := how, takeOff := none, pin := none, starve := 0
          stop := if x.stop = .saveShort then .none else x.stop }
      let s2 := (if off then s1.saveUnit r.uid r.core else s1).drainImage (s.ctxOf r)
      let s3 := (s2.leaveQuarters r).requeue r (how == .takenOff || how == .snapshot || r.takeOff.isSome) ready
      (true, if how = .takenOff then s3 else s3.settleChange r.core)

/-! ### Barriers (R115, R174 to R176) -/

/-- The scope of a level of a launch. -/
def Launch.scope (l : Launch) (k : Nat) : Scope :=
  match l.levels[k]? with
  | some x => domainScope x.domain
  | none => .lg

/-- A level whose barrier completes at issue (R175): bound to thread, or in SIMT to wave. -/
def Launch.trivial (l : Launch) (k : Nat) : Bool :=
  match l.levels[k]? with
  | some x => x.domain == 0 || (l.simt && x.domain == 1)
  | none => true

/-- A barrier of a level of a resident's unit. -/
def Barrier.isOf (b : Barrier) (r : Resident) (k : Nat) : Bool :=
  b.lid == r.launch.lid && b.level == k && b.unit == unitIndex r.launch.levels k r.tid0

/-- The generation in progress, or an empty one. -/
def State.barrierOf (s : State) (r : Resident) (k : Nat) : Barrier :=
  (s.barriers.find? fun b => b.isOf r k).getD
    { lid := r.launch.lid, level := k, unit := unitIndex r.launch.levels k r.tid0, need := none, arrived := [] }

/-- A generation is complete (R174): its arrivals have reached the count of `barv`; for `bar`, every resident of the unit has arrived
or retired. -/
def State.barrierDone (s : State) (b : Barrier) : Bool :=
  match b.need with
  | some c => decide (c ≤ b.arrived.length)
  | none => match s.runningOf b.lid with
    | some x =>
      let gone := (x.retired.filter fun t => unitIndex x.launch.levels b.level t == b.unit).length
      let arrived := (b.arrived.filter fun rid => (s.resAt rid).isSome).length
      decide (x.launch.levelResidents b.level ≤ arrived + gone)
    | none => true

/-- Every resident of the unit has been placed (R176), be it that some are off again since. DESIGN CHOICE: log entry 14. -/
def State.unitPlaced (s : State) (b : Barrier) : Bool :=
  match s.runningOf b.lid with
  | some x => decide ((b.unit + 1) * x.launch.levelResidents b.level ≤ x.placed)
  | none => true

/-- A waiter leaves: at once where it stands, with the phase of R115; one that is off when it is placed again, and a parked
one becomes ready (R176). -/
def State.leaveBarrier (s : State) (k : Nat) (rid : Nat) : State :=
  match s.resAt rid with
  | none => s
  | some r =>
    let sc := r.launch.scope k
    let s1 := s.modRes rid fun x => { x with
      wait := if x.wait = .barrier k then .none else x.wait
      released := if x.away = .here then x.released else some sc
      trap := { x.trap with hidden := x.trap.hidden.map fun h => { h with barrier := if h.barrier = some k then none else h.barrier } } }
    if r.away = .here then s1.phaseAt r.core r.launch.ctx sc
    else if r.away = .parkedBarrier then s1.wakeRec rid
    else s1

/-- A generation completes: every waiter leaves, and the next generation begins empty (R174). -/
def State.settleBarrier (s : State) (b : Barrier) : State :=
  if s.barrierDone b then
    b.arrived.foldl (fun s rid => s.leaveBarrier b.level rid)
      { s with barriers := s.barriers.filter fun x => !(x.lid == b.lid && x.level == b.level && x.unit == b.unit) }
  else s

/-- The arrivals with one more; a resident arrives once in a generation, also where its handler comes to the barrier that it waits
at. DEDUCED: log entry 14. -/
def arrivals (rids : List Nat) (rid : Nat) : List Nat := if rids.contains rid then rids else rids ++ [rid]

/-- A resident arrives at a barrier (R115, R174): its phase, its arrival, and then it leaves, waits or is parked. -/
def State.arrive (s : State) (k : Nat) (need : Option Nat) : State :=
  match s.iss with
  | none => s
  | some q =>
    let r := q.res
    let sc := r.launch.scope k
    let s1 := s.phaseAt r.core r.launch.ctx sc
    if r.launch.trivial k then s1
    else
      let b0 := s1.barrierOf r k
      let b := { b0 with arrived := arrivals b0.arrived r.rid, need := if b0.arrived.isEmpty then need else b0.need }
      let s2 := { s1 with barriers := putBy (fun x => x.isOf r k) b s1.barriers }.modRes r.rid fun x => { x with wait := .barrier k }
      if s2.barrierDone b then s2.settleBarrier b
      else if s2.unitPlaced b then s2
      else (s2.snapshotOff r.rid .parkedBarrier false).2

/-- Uses of a barrier that take the illegal-encoding path (R175). -/
def barrierBad (r : Resident) (k : Nat) (count : Bool) : Bool :=
  match r.launch.levels[k]? with
  | some x => x.domain == 7 || (count && k == 0)
  | none => true

/-- The barrier trap (R175). -/
def barrierCause (reason : Nat) : List Cause := [mkCause 17 (BitVec.ofNat 32 reason) 0 0 0]

/-- `bar` (R174, R303, R304). -/
def execBar (k : Nat) (s : State) : Out :=
  .next (s.once slotScalar .always (fun q => !barrierBad q.res k false) []
    (fun q _ => if q.res.simt && !q.res.div.isEmpty then barrierCause 1 else []) (fun _ _ => false)
    fun _ s => s.atEnd (.bar k) fun s => s.arrive k none)

/-- The count of a `barv`. -/
def State.barvCount (s : State) (q : Issue) (c : Src) : Nat := (s.opnd q.res .int c q.onceLane).toNat

/-- The effect of `barv` for the issuing resident. -/
def State.effBarv (s : State) (k : Nat) (c : Src) : State :=
  match s.iss with
  | none => s
  | some q => s.arrive k (some (s.barvCount q c))

/-- `barv` (R174, R175, R303, R304); a count that is out of range and also another than the first gives reason 3; at a level of one thread
or wave no count traps, but divergence does. DESIGN CHOICE: log entry 17. -/
def execBarv (k : Nat) (c : Src) (s : State) : Out :=
  .next (s.once slotScalar .always (fun q => !barrierBad q.res k true && q.res.srcOk c) (scalarNums [c])
    (fun q s =>
      let n := s.barvCount q c
      let b := s.barrierOf q.res k
      (if q.res.simt && !q.res.div.isEmpty then barrierCause 1 else []) ++
      (if q.res.launch.trivial k then [] else
        (if n = 0 ∨ q.res.launch.levelResidents k < n then barrierCause 3 else []) ++
        (if !b.arrived.isEmpty && b.need != some n then barrierCause 2 else [])))
    (fun _ _ => false)
    fun _ s => s.atEnd (.barv k c) fun s => s.effBarv k c)

/-! ### Retirement (R44) -/

/-- The engines hold none of a resident's commands. -/
def State.enginesFree (s : State) (r : Resident) : Bool :=
  (s.coreAt r.core).cq.all (fun c => c.rid != r.rid) && (s.coreAt r.core).mq.all fun m => m.rid != r.rid

/-- Everything that a resident's end waits for has come about (R44): results in flight are written. One that is being taken off and
has not ended by T + H is frozen then (R186). -/
def State.mayRetire (s : State) (r : Resident) : Bool :=
  r.away == .here && r.ended && r.stop == .none && r.wait == .none && r.closing == .none && r.async.isEmpty && r.acrdPending.isEmpty &&
  r.flights.isEmpty && r.porch.isEmpty && (r.takeOff.all fun t => decide (s.timebase < t.deadline)) && s.enginesFree r

/-- A launch all of whose units have retired: state 3, unless a failed unit or an unplaceable record has fixed the state
(R25, R44, R169). -/
def State.finishLaunch (s : State) (x : Running) : State :=
  if x.left ∧ x.launch.residents ≤ x.retired.length then
    let run := s.running.filter fun y => y.launch.lid != x.launch.lid
    let bar := s.barriers.filter fun b => b.lid != x.launch.lid
    let s1 := { s with running := run, barriers := bar }
    if x.dead then s1 else s1.writeState x.launch 3
  else s

/-- Tiles that an acc hit holds for a resident's handler are released (R212). -/
def State.releaseTiles (s : State) (rid : Nat) : State :=
  { s with units := s.units.map fun u => { u with held := u.held.filter fun h => h.2 != rid } }

/-- A resident is gone: its registers, comparators, tokens and waiting data with it; its unit is freed if it was the last
(R44, R96). An arrival at a barrier that it has made stays made (R174). -/
def State.remove (s : State) (r : Resident) : State :=
  let res := s.residents.filter fun x => x.rid != r.rid
  let run := updIf (fun x => x.launch.lid == r.launch.lid) (fun x => { x with retired := x.retired ++ [r.tid0] }) s.running
  let s1 := { s with residents := res, running := run }
  let s2 := ((((s1.releaseTiles r.rid).freeUnits).leaveQuarters r).askRound r.core).settleChange r.core
  let s3 := (s2.barriers.filter fun b => b.lid == r.launch.lid).foldl (fun s b => s.settleBarrier b) s2
  match s3.runningOf r.launch.lid with
  | some x => s3.finishLaunch x
  | none => s3

/-! ### Stiles (R182 to R184, R186) -/

/-- The registers a live-state list names (R183), as a test. -/
def liveReg (ws : List Nat) : Reg → Bool
  | .s n => if n < 64 then fld (ws.getD 1 0) n 1 == 1 else fld (ws.getD 0 0) (n - 64) 1 == 1
  | .v _ n => (List.range 8).any fun k =>
      let x := fld (ws.getD (2 + k / 2) 0) (32 * (k % 2)) 32
      decide (fld x 16 11 ≤ n ∧ n < fld x 16 11 + fld x 0 12)
  | .o _ _ => fld (ws.getD 6 0) 7 1 == 1
  | .y _ _ => fld (ws.getD 6 0) 8 1 == 1
  | .p _ n => fld (ws.getD 6 0) n 1 == 1

/-- A register file after a stile: registers that are not named read 0 (R183). Values of registers a list names and nothing
has written stay what they were. -/
def RegFile.keep (f : RegFile) (live : Reg → Bool) (all : List Reg) : RegFile :=
  { fill := .zero
    cells := (all.filter live).map fun x => { reg := x, val := f.read x, poison := f.poisoned x } }

/-- Every register a resident owns. -/
def Resident.allRegs (r : Resident) : List Reg :=
  ((List.range r.allotS).map Reg.s) ++ r.lanes.flatMap fun c =>
    ((List.range r.allotV).map (Reg.v c)) ++ ((List.range 8).map (Reg.o c)) ++ ((List.range 2).map (Reg.y c)) ++ (List.range 7).map (Reg.p c)

/-- The live-state list that a stile header names, read from the registered object (R183); none for code that is not
registered, all of whose registers are kept (log entry 17). -/
def State.liveList (s : State) (r : Resident) (idx : Nat) : Option (List Nat) :=
  let c := s.ctxOf r
  match c.codes.find? fun o => decide (o.lo ≤ r.hdr ∧ r.hdr < o.hi) with
  | none => none
  | some o => some ((List.range 8).map fun k => ((s.ctxWord c (o.liveBase + 64 * idx + 8 * k)).getD 0).toNat)

/-- A resident at a stile may be taken off: every flag clear, every interlocked result written (R186). -/
def State.stileReady (s : State) (r : Resident) : Bool :=
  r.flagsClear && r.acrdPending.isEmpty && s.enginesFree r && r.place == 0 && !r.ended

end Sys2Proof.Machine
end

