-- ==== Sys2Proof/Machine/System.lean ====
section
/-! DEFINITION. Work, regions, watchpoints and system instructions (R41, R197 to R203, R210 to R214, R318 to R320, R367, R374
to R376, R383 to R387, R397 to R399), special-register writes with effects of their own (R92, R93, R98, R216), and the two
steps of the fetch unit. -/

namespace Sys2Proof.Machine

/-! ### `spawn` (R41, R374, R375) -/

/-- Records a die queue holds of one tenant (R163). -/
def dieCapacity : Nat := 4096

/-- The checks of one of the two 128-byte ranges of a `spawn`, and whether its translation still waits. -/
def State.spawnRange (s : State) (r : Resident) (kind a : Nat) : List Cause × Bool :=
  if a % 128 ≠ 0 then ([addrCause 3 a 0 0], false)
  else if r.refusedAt a then ([addrCause 4 a 0 kind], false)
  else match s.checkHome (s.who r) kind a with
    | .ok leaf => (if kind = 0 ∧ leafPk leaf then [addrCause 6 a 0 0] else [], false)
    | .bad => ((if kind = 0 ∧ s.packedAt (s.who r) a then [addrCause 6 a 0 0] else []) ++ [addrCause 5 a 0 kind], false)
    | .fault => ([], true)

/-- The words of a template with the three fields that the device sets (R375). -/
def childWords (ws : List Nat) (depth tenant : Nat) : List Nat :=
  let w2 := ws.getD 2 0
  (ws.set 2 (w2 - fld w2 11 3 * 2 ^ 11 - fld w2 16 4 * 2 ^ 16 + depth * 2 ^ 11 + tenant * 2 ^ 16)).set 7 0

/-- The effect of a `spawn`: the phase, the copy, and the child's entry into a queue. -/
def State.spawned (s : State) (r : Resident) (dst tpl : Nat) : State :=
  let w := s.who r
  let c := s.ctxOf r
  let s1 := s.phaseAt r.core c.num .dev
  let ((bytes, _), s2) := s1.readAtHome .request w tpl 128
  let ws := (List.range 16).map fun k => leNat ((bytes.drop (8 * k)).take 8)
  let child := childWords ws (r.launch.depth + 1) c.tenant
  let s3 := s2.writeAtHome .request w dst (child.flatMap fun x => leBytes 8 x)
  let enter := fun (s : State) (q : QRec) => if joinOf ws = 0 then s.enterCore r.core q else s.enterDie (dieOf r.core) [q]
  (s3.acceptRecord c dst (r.launch.depth + 1) child true enter (dieOf r.core)).2

/-- The words of a template, as the copy of a `spawn` reads them. -/
def State.template (s : State) (r : Resident) (tpl : Nat) : List Nat :=
  let bytes := (((s.phaseAt r.core (s.ctxOf r).num .dev).readAtHome .request (s.who r) tpl 128).1).1
  (List.range 16).map fun k => leNat ((bytes.drop (8 * k)).take 8)

/-- The child would have to enter a full die queue (R165): a waiting child, whatever R37 says of it, as its own die queue stands
(R375), and a ready one as the queues stand with it in them. -/
def State.spawnFull (s : State) (r : Resident) (dst tpl : Nat) : Bool :=
  let d := dieOf r.core
  let tenant := (s.ctxOf r).tenant
  if joinOf (s.template r tpl) ≠ 0 then decide (dieCapacity ≤ s.dieCount d tenant)
  else
    let t := s.spawned r dst tpl
    (t.dieQ.any fun q => q.launch.lid == s.nextId) && decide (dieCapacity < t.dieCount d tenant)

/-- The causes of a `spawn` and the accesses it waits for. -/
def State.spawnChecks (s : State) (r : Resident) (dst tpl : Nat) : List Cause × List (Nat × Nat) :=
  let a := s.spawnRange r kindRead tpl
  let b := s.spawnRange r kindWrite dst
  let waits := (if a.2 then [(kindRead, tpl)] else []) ++ (if b.2 then [(kindWrite, dst)] else [])
  let cs := (b.1.filter fun c => c.code == 3) ++ a.1 ++ (b.1.filter fun c => c.code != 3)
  let late :=
    if !(cs.isEmpty && waits.isEmpty) then []
    else if 4 ≤ r.launch.depth then [mkCause 18 0 0 0 0]
    else if s.spawnFull r dst tpl then [mkCause 19 (BitVec.ofNat 32 (dieOf r.core)) 0 0 0] else []
  (cs ++ late, waits)

/-- `spawn` (R374, R375). -/
def execSpawn (p : Pred) (d a : Nat) (s : State) : Out :=
  .next (match s.iss with
    | none => s
    | some q =>
      let ok := q.slotPlace slotScalar && predOk q.res p && q.res.scalarsOk d 2 && q.res.scalarsOk a 2
      let dst := (q.res.sregPair d).toNat
      let tpl := (q.res.sregPair a).toNat
      let chk := if ok && q.taken p then s.spawnChecks q.res dst tpl else ([], [])
      let pass := !(ok && q.taken p) || ((s.spawnRange q.res kindRead tpl == ([], false)) && (s.spawnRange q.res kindWrite dst == ([], false)))
      let s0 := if pass then s else (s.translate (s.who q.res) true kindRead 128 tpl).translate (s.who q.res) true kindWrite 128 dst
      s0.attemptAs (Issue.namedBut 3) (q.illegalIf (!ok) ++ q.scalarPoison p [d, d + 1, a, a + 1] ++ chk.1) false chk.2 fun q s =>
        if q.taken p then s.spawned q.res dst tpl else s)

/-! ### The region stack and halts (R213, R214, R367) -/

/-- A halt request that covers a resident and has not halted it yet (R214). -/
def HaltReq.covers (h : HaltReq) (r : Resident) : Bool :=
  (match h.core with
    | some k => k == r.core
    | none => true) && !h.done.contains r.rid

/-- Some halt request covers a resident. -/
def Context.halting (c : Context) (r : Resident) : Bool := c.halts.any fun h => h.covers r

/-- The halt requests of a context that cover a resident have halted it. -/
def Context.markHalted (c : Context) (r : Resident) : Context :=
  { c with halts := updIf (fun h => h.covers r) (fun h => { h with done := h.done ++ [r.rid], holds := h.holds ++ [r.rid] }) c.halts }

/-- The issuing resident reaches a point at which a halt lands (R214). -/
def State.landHalt (s : State) : State :=
  match s.iss with
  | none => s
  | some q =>
    if (s.ctxOf q.res).halting q.res then
      (s.modCtx q.res.launch.ctx fun c => c.markHalted q.res).modCur fun r => { r with stop := .halted }
    else s

/-- A trace record (R213). -/
def traceRecord (tick : Nat) (r : Resident) (dir : Nat) : List DWord :=
  let top := fun k => (r.regions.getD k 0).toNat
  [BitVec.ofNat 64 tick,
   BitVec.ofNat 64 (top 0 * 2 ^ 48 + top 1 * 2 ^ 32 + top 2 * 2 ^ 16 + r.core * 2 ^ 8 + r.lgrp * 2 ^ 4 + dir)]

/-- Write a trace record where the context's region tracing is enabled. -/
def State.traceRegion (s : State) (dir : Nat) : State :=
  match s.iss with
  | none => s
  | some q =>
    let c := s.ctxOf q.res
    match c.traceRing with
    | some ring => if c.traceOn then s.ringAppend (.virt c) ring (traceRecord s.timebase q.res dir) else s
    | none => s

/-- The shape of `renter` and `rleave`: the stack's trap (code 20), the change, the record, and the halt point. -/
def State.regionOp (s : State) (p : Pred) (bad : List (BitVec 16) → Option Nat) (f : List (BitVec 16) → List (BitVec 16)) (dir : Nat) :
    State :=
  match s.iss with
  | none => s
  | some q =>
    let ok := q.slotPlace slotScalar && predOk q.res p
    let stack := match bad q.res.regions with
      | some k => if q.taken p then [mkCause 20 (BitVec.ofNat 32 k) 0 0 0] else []
      | none => []
    s.attempt (q.illegalIf (!ok) ++ stack) false fun q s =>
      (if q.taken p then (s.modCur fun r => { r with regions := f r.regions }).traceRegion dir else s).landHalt

/-- `renter` (R213, R367). -/
def execRenter (p : Pred) (id : BitVec 16) (s : State) : Out :=
  .next (s.regionOp p (fun st => if 8 ≤ st.length then some 1 else none) (fun st => id :: st) 1)

/-- `rleave` (R213, R367). -/
def execRleave (p : Pred) (s : State) : Out :=
  .next (s.regionOp p (fun st => if st.isEmpty then some 2 else none) List.tail 0)

/-! ### Watchpoints (R210, R397 to R399) -/

/-- The bramble that a body asks for (R398), clipped to the descriptor's geometry (R399). -/
def Context.brambleAt (c : Context) (b0 b1 b2 : Nat) : Bramble :=
  let n := fld b0 8 8
  let acc := fld b0 2 1 == 1
  let d := if acc then Desc.zero else c.desc n
  { valid := true, rd := fld b0 0 1 == 1, wr := fld b0 1 1 == 1, acc := acc, num := n, desc := d
    row0 := fld b1 16 16, row1 := if acc then fld b1 0 16 else min (fld b1 0 16) (d.rows - 1)
    col0 := fld b2 16 16, col1 := if acc then fld b2 0 16 else min (fld b2 0 16) (d.cols - 1) }

/-- The first check of R399 fails. -/
def Context.wsetBad (c : Context) (b0 b1 b2 b3 : Nat) : Bool :=
  let acc := fld b0 2 1 == 1
  fld b0 16 16 != 0 || fld b0 3 5 != 0 || b3 != 0 || fld b0 0 3 == 0 || (acc && fld b0 0 2 != 0) ||
  decide (fld b1 0 16 < fld b1 16 16) || decide (fld b2 0 16 < fld b2 16 16) ||
  (if acc then decide (63 < fld b0 8 8) || decide (63 < fld b1 0 16) || decide (63 < fld b2 0 16)
   else !(c.desc (fld b0 8 8)).watch)

/-- Replace a bramble of a context. -/
def Context.setBramble (c : Context) (k : Nat) (b : Bramble) : Context := { c with brambles := modAt c.brambles k fun _ => b }

/-- The effect of `wset` for the issuing resident. -/
def State.effWset (s : State) (k b : Nat) : State :=
  match s.iss with
  | none => s
  | some q =>
    let w := fun j => (q.res.sreg (b + j)).toNat
    s.modCtx q.res.launch.ctx fun c => c.setBramble k (c.brambleAt (w 0) (w 1) (w 2))

/-- `wset` (R397 to R399). -/
def execWset (p : Pred) (k b : Nat) (s : State) : Out :=
  .next (s.once slotScalar p (fun q => q.regsOk (bodyRegs b)) (bodyRegs b)
    (fun q s =>
      let w := fun j => (q.res.sreg (b + j)).toNat
      q.illegalIf ((s.ctxOf q.res).wsetBad (w 0) (w 1) (w 2) (w 3)))
    (fun _ _ => false) fun _ s => s.atEnd (.wset p k b) fun s => s.effWset k b)

/-- The effect of `wclr` for the issuing resident. -/
def State.effWclr (s : State) (k : Nat) : State :=
  match s.iss with
  | none => s
  | some q => s.modCtx q.res.launch.ctx fun c => c.setBramble k Bramble.off

/-- `wclr` (R397, R399). -/
def execWclr (p : Pred) (k : Nat) (s : State) : Out :=
  .next (s.once slotScalar p (fun _ => true) [] (fun _ _ => []) (fun _ _ => false)
    fun _ s => s.atEnd (.wclr p k) fun s => s.effWclr k)

/-! ### `tret` (R203, R386, R387) -/

/-- Engine commands of a resident that stand stopped end as they are (R148, R162, R203). -/
def State.endStopped (s : State) (r : Resident) (only : Nat → Bool) : State :=
  let c := s.coreAt r.core
  let cs := c.cq.filter fun x => x.rid == r.rid && x.state == .stopped && only x.id
  let ms := c.mq.filter fun x => x.rid == r.rid && x.state == .stopped && only x.id
  let s1 := cs.foldl (fun s x => s.endCopy r.core x) s
  ms.foldl (fun s m => (s.dropMat r.core m.id).modRes r.rid fun r => match m.flag with
    | some k => r.flagDown k
    | none => r) s1

/-- A stopped engine command goes on from its progress (R203). -/
def State.resumeCmd (s : State) (core id : Nat) : State :=
  s.modCore core fun c =>
    { c with
      cq := updIf (fun x => x.id == id && x.state == .stopped) (fun x => { x with state := .running }) c.cq
      mq := updIf (fun x => x.id == id && x.state == .stopped) (fun x => { x with state := .running }) c.mq }

/-- RESIDENT_RETIRE: a resident whose fetch has ended and whose work is complete retires (R44). On a failed unit no handler
can run, so that commands that have stopped end there (R25). -/
def execResidentRetire (rid : Nat) (s : State) : Out :=
  .next (match s.residents.find? fun r => r.rid == rid with
    | none => s
    | some r =>
      if s.stopped then s
      else if s.onFailed r then
        let s1 := (s.endStopped r fun _ => true).modRes rid fun r => { r with async := [] }
        match s1.residents.find? fun r => r.rid == rid with
        | some r => if s1.mayRetire r then s1.remove r else s1
        | none => s1
      else if s.mayRetire r then s.remove r else s)

/-- A captured porch entry as the return re-injects it (R203, R206): shifted to the resumed counts; the one that faulted is
issued again by `.retry` and dropped by `.skip`, and so is the entry of a skipped engine command. -/
def replayPorch (k : TretKind) (p : TrapPoint) (shift : Nat) (e : Porch) : Option Porch :=
  let e1 := { e with due := e.due + shift }
  match p with
  | .deferred ids =>
    if ids.contains e.id then (if k = TretKind.retry then some { e1 with fault := .none, data := none, arrived := false, again := true } else none) else some e1
  | .engine id => if e.id = id ∧ k = TretKind.skip then none else some e1
  | _ => some e1

/-- A trap between instructions, which leaves nothing to execute again. -/
def TrapPoint.between : TrapPoint → Bool
  | .asynchronous => true
  | .engine _ => true
  | _ => false

/-- The resident as `.retry` or `.skip` restores it (R202, R203); a re-execution that brambles do not check is still to come where a trap
came before it. -/
def Resident.restore (r : Resident) (k : TretKind) (h : Hidden) : Resident :=
  let shift := r.count - h.count
  let again := k == TretKind.retry
  { r with
    trap := { r.trap with inh := false, hidden := none }
    reeve := h.reeve, active := h.active, div := h.div, loops := h.loops, closing := h.closing
    wait := (match h.barrier with
      | some n => .barrier n
      | none => .none)
    flights := h.flights.map fun f => { f with due := f.due + shift }
    porch := h.porch.filterMap (replayPorch k h.point shift)
    loads := h.loads ++ r.loads
    hdr := (if again then h.hdr else h.skipHdr)
    place := (if again then h.place else h.skipPlace)
    ended := (if again then h.ended else h.skipEnded)
    exempt := (again && h.point == .atIssue && h.code == 11) || (h.exempt && (again || h.point.between))
    async := r.asyncHeld ++ r.async
    asyncHeld := [] }

/-- Row transfers issued before the trap fall due at the shifted counts too (R206). -/
def State.shiftRows (s : State) (r : Resident) (shift : Nat) : State :=
  s.modCore r.core fun c =>
    { c with mq := updIf (fun m => m.rid == r.rid && m.due != 0 && !m.inHandler) (fun m => { m with due := m.due + shift }) c.mq }

/-- The resident as `.kill` ends it; SIMT loads that were captured are outstanding again. -/
def Resident.killed (r : Resident) : Resident :=
  { r with
    trap := { r.trap with inh := false, hidden := none }
    loads := ((r.trap.hidden.map Hidden.loads).getD []) ++ r.loads
    ended := true, closing := .none, wait := .none, async := [], asyncHeld := [] }

/-- A handler ends with its resident (R203, R323): what an acc hit holds for it is released, and commands that stand stopped end
as they are. -/
def State.killNow (s : State) : State :=
  match s.iss with
  | none => s
  | some q => ((s.releaseTiles q.res.rid).endStopped q.res fun _ => true).modCur Resident.killed

/-- `exit` (R322, R323): when the last thread of a wave exits inside a handler, the handler ends with it. That it ends as by
`tret.kill` is DEDUCED: log entry 25. -/
def execExit (p : Pred) (s : State) : Out :=
  .next (match s.iss with
    | none => s
    | some q => s.attempt (q.illegalIf (!(q.simtLast && predOk q.res p))) false fun q s =>
        let r := q.res.exitThreads (q.res.taking p)
        let s1 := s.modCur fun _ => r
        if r.ended && r.active == 0 && r.trap.inh then s1.killNow else s1)

/-- A handler's `tret` comes about (R203, R387), for the issuing resident. -/
def State.tretNow (s : State) (k : TretKind) : State :=
  match s.iss with
  | none => s
  | some q =>
    let r := q.res
    let s0 := s.releaseTiles r.rid
    match k, r.trap.hidden with
    | .kill, _ => s.killNow
    | _, none => s0.modCur fun r => { r with trap := { r.trap with inh := false } }
    | _, some h =>
      let s1 := match h.point with
        | .engine id => if k = TretKind.retry then s0.resumeCmd r.core id else s0.endStopped r fun x => x == id
        | _ => s0
      (s1.shiftRows r (r.count - h.count)).modCur fun r => r.restore k h

/-- A row transfer that the handler has issued is still to be performed (R252, R387): `tret` waits for it. -/
def State.handlerRows (s : State) (r : Resident) : Bool :=
  (s.coreAt r.core).mq.any fun m => m.rid == r.rid && m.inHandler && (match m.instr with
    | .acrd _ _ _ _ => true
    | .acwr _ _ _ _ => true
    | .apatch _ _ _ _ _ _ => true
    | _ => false)

/-- `tret` (R386, R387): in a bundle the return comes once every result of the handler is written. -/
def execTret (k : TretKind) (s : State) : Out :=
  .next (match s.iss with
    | none => s
    | some q =>
      let r := q.res
      let place := if r.simt then q.idx + 1 == q.hdr.count else q.slot == 16
      let priv := if r.trap.inh && r.trap.emu && k == TretKind.retry then [mkCause 2 0xFFFF 0 0 0] else []
      s.attempt (q.illegalIf (!(place && r.trap.inh)) ++ priv) (r.simt && s.handlerRows r) fun q s =>
        if q.res.simt then s.tretNow k else s.modCur fun r => { r with closing := .tret k })

/-! ### Special registers (R197, R318 to R320) -/

/-- The privilege trap for a register or, with 0xFFFF, an instruction. -/
def privilegeCause (n : Nat) : Cause := mkCause 2 (BitVec.ofNat 32 n) 0 0 0

/-- The shape of `csrr` (R319): the privilege check does not ask whether the instruction is taken. -/
def State.readCsr (s : State) (p : Pred) (d : Dst) (n : Nat) : State :=
  match s.iss with
  | none => s
  | some q =>
    let ok := (q.res.simt || (q.slot == 16 && dstScalar d)) && predOk q.res p && q.res.dstOk d
    let cs := q.lanes p (dstScalar d)
    s.attempt (q.illegalIf (!ok) ++ (if csrHidden n && !q.res.reeve then [privilegeCause n] else [])) false fun q s =>
      { s.modCur fun r =>
          (if cs.isEmpty then id else s.latchCsr n) (r.writeLanes 1 d (fun c => Result.plain (s.csrValue q.res c n)) cs)
        with fresh := s.fresh + 1 }

/-- `csrr` (R319). -/
def execCsrr (p : Pred) (d : Dst) (n : Nat) (s : State) : Out := .next (s.readCsr p d n)

/-- `csrr` of %clk, which latches %clkh (R293, R319). -/
def execClkRead (p : Pred) (d : Dst) (s : State) : Out := .next (s.readCsr p d 0x10)

/-- `csrr` of %ectrlo, which latches %ectrhi (R195, R319). -/
def execEctrloRead (p : Pred) (d : Dst) (s : State) : Out := .next (s.readCsr p d 0x19)

/-- Registers with a field that software may write (R292); %rgcfgk, %carve and %wdctl have instructions of their own. -/
def csrWritable (n : Nat) : Bool :=
  n == 0x14 || n == 0x18 || n == 0x1B || n == 0x1D || n == 0x1E || n == 0x100 || n == 0x101 || n == 0x10B || n == 0x10E

/-- User level may not write a register: it is read-only there, or hidden (R292, R320). %rgstatk is read-only by R292's table,
though R92 calls it writable. DEDUCED: log entry 33. -/
def csrDenied (n : Nat) : Bool := !csrWritable n || csrHidden n

/-- Set the low or the high word of a handler address. -/
def setLo (v : BitVec 56) (x : Word) : BitVec 56 := BitVec.ofNat 56 (v.toNat / 2 ^ 32 * 2 ^ 32 + x.toNat)
def setHi (v : BitVec 56) (x : Word) : BitVec 56 := BitVec.ofNat 56 (v.toNat % 2 ^ 32 + fld x.toNat 0 24 * 2 ^ 32)

/-- A context's register as a write leaves it (R200, R201, R208, R218). -/
def Context.writeCsr (c : Context) (n : Nat) (x : Word) : Context :=
  match n with
  | 0x1D => { c with emuvec := setLo c.emuvec x }
  | 0x1E => { c with emuvec := setHi c.emuvec x }
  | 0x100 => { c with tvec := setLo c.tvec x }
  | 0x101 => { c with tvec := setHi c.tvec x }
  | 0x10B => { c with fwait := x.setWidth 16 }
  | 0x10E => { c with tctl := x.getLsbD 0 }
  | _ => c

/-- A resident's own register as a write leaves it (R51, R195). -/
def Resident.writeCsr (r : Resident) (n : Nat) (x : Word) : Resident :=
  match n with
  | 0x14 => { r with fflags := r.fflags &&& ~~~(x.setWidth 5) }
  | 0x18 => { r with ectrsel := fld x.toNat 0 4 }
  | 0x1B => { r with occsel := fld x.toNat 0 11 }
  | _ => r

/-- The value a `csrw` writes. -/
def State.csrwValue (s : State) (q : Issue) (a : Src) : Word := s.opnd q.res .int a q.onceLane

/-- The effect of `csrw` for the issuing resident. -/
def State.effCsrw (s : State) (n : Nat) (a : Src) : State :=
  match s.iss with
  | none => s
  | some q =>
    let x := s.csrwValue q a
    (s.modCtx q.res.launch.ctx fun c => c.writeCsr n x).modCur fun r => r.writeCsr n x

/-- The handler address that a write of a lo word names. -/
def State.vecAddr (s : State) (q : Issue) (n : Nat) (x : Word) : Nat :=
  let c := s.ctxOf q.res
  if n = 0x1D then (setLo c.emuvec x).toNat else (setLo c.tvec x).toNat

/-- The shape of `csrw` (R320): `denied` at user level whether or not it is taken; `causes` and the effect when it is. -/
def State.writeCsrOp (s : State) (p : Pred) (n : Nat) (a : Src) (denied : Bool) (causes : Issue → State → Word → List Cause)
    (i : Instr) (eff : State → State) : State :=
  match s.iss with
  | none => s
  | some q =>
    let ok := q.slotPlace slotScalar && predOk q.res p && q.res.srcOk a
    s.attempt (q.illegalIf (!ok) ++ (if denied && !q.res.reeve then [privilegeCause n] else []) ++ q.scalarPoison p (scalarNums [a]) ++
        (if ok && q.taken p then causes q s (s.csrwValue q a) else [])) false fun q s =>
      if q.taken p then s.atEnd i eff else s

/-- `csrw` (R320). -/
def execCsrw (p : Pred) (n : Nat) (a : Src) (s : State) : Out :=
  .next (s.writeCsrOp p n a (csrDenied n)
    (fun q s x => if (n == 0x1D || n == 0x100) && x.toNat % 8 != 0 then [addrCause 3 (s.vecAddr q n x) 0 0] else [])
    (.csrw p n a) fun s => s.effCsrw n a)

/-- A request for a setting of R17, with the outcome of the last one in status (R98, R99). -/
def Core.request (c : Core) (x now : Nat) : Core :=
  let req := fld x 2 2
  if c.carvePend then { c with carveStatus := 3 }
  else if req = c.carveCur then { c with carveReq := req, carveStatus := 0 }
  else { c with carveReq := req, carveStatus := 1, carvePend := true, carveSince := now }

/-- The effect of a write to %carve for the issuing resident. -/
def State.effCarve (s : State) (a : Src) : State :=
  match s.iss with
  | none => s
  | some q => s.modCore q.res.core fun c => c.request (s.csrwValue q a).toNat s.timebase

/-- CARVE_WRITE: `csrw` of %carve (R98, R99), for the reeve of a tenant that holds the whole core. -/
def execCarveWrite (p : Pred) (a : Src) (s : State) : Out :=
  .next (s.writeCsrOp p 0x10A a true
    (fun q s _ => if s.turns q.res.core q.res.launch.tenant = 64 then [] else [privilegeCause 0x10A])
    (.carveWrite p a) fun s => s.effCarve a)

/-- Ring misuse of a write to a ring's configuration (R93, R366). -/
def State.rgcfgCauses (s : State) (q : Issue) (k : Nat) (x : Word) : List Cause :=
  let g := s.myRing q k
  let n := Ring.configured x none
  if g.owner.isSome && g.owner != some q.res.uid then ringMisuse k 1
  else if 1024 < fld x.toNat 8 11 then ringMisuse k 6
  else if q.res.launch.spad * 256 < n.base + n.slotBytes * n.slots then ringMisuse k 7 else []

/-- The effect of a write to %rgcfgk for the issuing resident (R92, R93). -/
def State.effRgcfg (s : State) (k : Nat) (a : Src) : State :=
  match s.iss with
  | none => s
  | some q =>
    let x := s.csrwValue q a
    s.modRing q.res.core k fun _ => Ring.configured x (if fld x.toNat 8 11 = 0 then none else some q.res.uid)

/-- RGCFG_WRITE: `csrw` of %rgcfgk (R92, R93). -/
def execRgcfgWrite (p : Pred) (k : Nat) (a : Src) (s : State) : Out :=
  .next (s.writeCsrOp p (0x20 + k) a false (fun q s x => s.rgcfgCauses q k x) (.rgcfgWrite p k a) fun s => s.effRgcfg k a)

/-- A context's watchdog as a write to %wdctl leaves it (R216). -/
def Context.setWatchdog (c : Context) (x : Word) : Context :=
  { c with wden := x.getLsbD 31, wdlimit := fld x.toNat 0 31, wdcnt := 0 }

/-- The effect of a write to %wdctl for the issuing resident. -/
def State.effWdctl (s : State) (a : Src) : State :=
  match s.iss with
  | none => s
  | some q => s.modCtx q.res.launch.ctx fun c => c.setWatchdog (s.csrwValue q a)

/-- WDCTL_WRITE: `csrw` of %wdctl (R216). -/
def execWdctlWrite (p : Pred) (a : Src) (s : State) : Out :=
  .next (s.writeCsrOp p 0x10C a true (fun _ _ _ => []) (.wdctlWrite p a) fun s => s.effWdctl a)

/-! ### `tlbi` (R383, R384) -/

/-- What a `tlbi` covers: one page by an address in it, or every page of the context. -/
def pageCovered (addr : Option Nat) (a size : Nat) : Bool :=
  match addr with
  | none => true
  | some x => a / size == x / size

/-- TLB entries and L1 lines of the covered pages go, in every hamlet (R86, R384). -/
def State.tlbFlush (s : State) (w : Who) (addr : Option Nat) : State :=
  let s1 := { s with hamlets := s.hamlets.map fun h =>
    { h with tlb := h.tlb.filter fun e => !(e.tenant == w.tenant && e.asid == w.asid && pageCovered addr e.page e.size) } }
  (List.range 192).foldl (fun s core =>
    s.flushIf core fun l => l.ctx == w.ctx && pageCovered addr (l.tag * 128) l.size) s1

/-- The effect of `tlbi` for the issuing resident. -/
def State.effTlbi (s : State) (k : TlbiKind) : State :=
  match s.iss with
  | none => s
  | some q =>
    let w := s.who q.res
    (s.phaseAt q.res.core w.ctx .dev).tlbFlush w (match k with
      | .page a => some (q.res.sregPair a).toNat
      | .ctx => none)

/-- The scalar registers a `tlbi` reads. -/
def tlbiRegs : TlbiKind → List Nat
  | .page a => [a, a + 1]
  | .ctx => []

/-- `tlbi` (R383, R384): the privilege check comes before the question whether it is taken. -/
def execTlbi (p : Pred) (k : TlbiKind) (s : State) : Out :=
  .next (match s.iss with
    | none => s
    | some q =>
      let ok := q.slotPlace slotScalar && predOk q.res p && q.regsOk (tlbiRegs k)
      s.attempt (q.illegalIf (!ok) ++ (if q.res.reeve then [] else [privilegeCause 0xFFFF]) ++ q.scalarPoison p (tlbiRegs k)) false
        fun q s => if q.taken p then s.atEnd (.tlbi p k) fun s => s.effTlbi k else s)

/-! ### The fetch unit (R54, R55, R291) -/

/-- EMPTY_BUNDLE: a header without presence bits does nothing for one count (R54); the count and a loop end are those of
every bundle. -/
def execEmptyBundle (_hdr : DWord) (s : State) : Out := .next s

/-- ILLEGAL_ENCODING_PATH: a header, or a word that decodes to no instruction, traps with code 1 (R55, R291). -/
def execIllegalEncodingPath (word : DWord) (slot : Nat) (s : State) : Out :=
  .next (s.attempt [illegalCause word slot] false fun _ s => s)

end Sys2Proof.Machine
end

