-- ==== Sys2Proof/Machine/Events.lean ====
section
/-! DEFINITION. Steps that no instruction takes: loads landing (R58, R65), the merge table and the fault ring (R87, R194,
R208, R225), carve-out changes (R99), the watchdog (R216), sampling (R215). -/

namespace Sys2Proof.Machine

/-- A resident whose results may land: it stands on its lane group and nothing has stopped it (R206). -/
def State.landing (s : State) (r : Resident) : Bool := r.away == .here && r.stop == .none && !s.stopped

/-! ### Loads -/

/-- SIMT_LOAD_LANDING: a long-latency load writes its destination in every thread as its flag's count falls (R58). -/
def execSimtLoadLanding (rid k : Nat) (s : State) : Out :=
  .next (match s.resAt rid with
    | none => s
    | some r =>
      match r.loads.find? fun l => l.id == k with
      | some l =>
        if s.landing r then
          s.modRes rid fun r => { (r.flagDown l.flag) with
            regs := r.regs.putAll l.writes, loads := r.loads.filter fun x => x.id != k }
        else s
      | none => s)

/-- A word of an outstanding plain load of a wave is read once more, at this time: it was not performed before. Where its page may not be
read any more, what has been read stays. -/
def State.readWord (s : State) (rid k j : Nat) : State :=
  match s.resAt rid with
  | none => s
  | some r => match (r.loads.find? fun l => l.id == k).bind fun l => l.words[j]? with
    | none => s
    | some (a, g) =>
      match s.landing r, s.checkLane (s.who r) kindRead a 4 with
      | true, .ok leaf =>
        if leafPk leaf then s
        else
          let ((bs, poison), s1) := s.readScoped (s.who r) none a 4
          let cell : RegCell := { reg := g, val := wordOf bs, poison := poison }
          s1.modRes rid fun r => { r with loads := updIf (fun l => l.id == k) (fun l =>
            { l with writes := updIf (fun c => c.reg == g) (fun _ => cell) l.writes, words := l.words.filter (· != (a, g)) }) r.loads }
      | _, _ => s

/-- The copy engine still holds, for a resident, the command that fills a porch entry (R314). -/
def State.casOutstanding (s : State) (r : Resident) (id : Nat) : Bool :=
  ((s.coreAt r.core).cq.any fun c => c.id == id) || r.heldCopies.any fun c => c.id == id

/-- Change one porch entry. -/
def Resident.setPorch (r : Resident) (e : Porch) : Resident := { r with porch := updIf (fun x => x.id == e.id) (fun _ => e) r.porch }

/-- A load of a bundle that is not performed waits for those of earlier bundles that are not (R106, R107), but not for a refused one
that is due later, whose trap it precedes (R66). -/
def State.mustFollow (s : State) (r : Resident) (e : Porch) : Bool :=
  r.porch.any fun x => decide (x.seq / 32 < e.seq / 32) && x.data.isNone && !s.casOutstanding r x.id &&
    (x.refusal.isNone || decide (x.due ≤ e.due))

/-- The phases that followed a load which was refused and is issued again run again with it (R106). -/
def State.phasesAgain (s : State) (w : Who) (again : Bool) : State := if again then s.markStale w.core w.ctx else s

/-- Perform the load of a porch entry whose data is not known yet: after a wait for its translation or a re-issue (R66, R89,
R206). -/
def State.porchLoad (s : State) (r : Resident) (e : Porch) : State :=
  let w := s.who r
  let fault := fun (s : State) (f : FaultWait) => s.modRes r.rid fun r => r.setPorch { e with fault := f }
  let s0 := s.translate w (scopeHome e.scope) kindRead e.width e.va
  match (if scopeHome e.scope then s.checkHome w kindRead e.va else s.checkLane w kindRead e.va e.width) with
  | .ok leaf =>
    if leafPk leaf then fault s0 (.refused (e.cause 6 0))
    else
      let ((bs, poison), s1) := s.readScoped w e.scope e.va e.width
      ((s1.acquire w e.scope).phasesAgain w e.again).modRes r.rid fun r =>
        r.setPorch { e with data := some (loadCells e.dst bs poison), arrived := true }
  | .bad => fault s0 (.refused (if s.packedAt w e.va then e.cause 6 0 else e.cause 5 kindRead))
  | .fault =>
    let (f, s1) := s0.joinMerge w kindRead e.va
    fault s1 f

/-- LATE_DATA_ARRIVAL: the data of a load comes into the porch (R65). -/
def execLateDataArrival (rid k : Nat) (s : State) : Out :=
  .next (match s.resAt rid with
    | none => s
    | some r =>
      match r.porch.find? fun e => e.id == k with
      | some e =>
        if s.landing r ∧ e.fault = .none ∧ !s.casOutstanding r k ∧ !s.mustFollow r e then
          match e.data with
          | some _ => s.modRes rid fun r => r.setPorch { e with arrived := true }
          | none => s.porchLoad r e
        else s
      | none => s)

/-! ### Results that fall due -/

/-- The order in which results that fall due together are written (R61). -/
def Flight.before (a b : Flight) : Bool := decide (a.due < b.due) || (a.due == b.due && decide (a.seq ≤ b.seq))

/-- An arrived porch entry as a result. -/
def Porch.flight (e : Porch) : Flight :=
  { due := e.due, seq := e.seq, writes := e.data.getD [], lane := e.lane, ys := [], ff := 0 }

/-- A result that falls due: a latency, or a porch entry. -/
inductive Due where
  | flight (f : Flight)
  | porch (e : Porch)
  deriving DecidableEq, Repr

/-- What it writes. -/
def Due.result : Due → Flight
  | .flight f => f
  | .porch e => e.flight

/-- The registers it writes, the newest last result of its lane among them. -/
def Due.regs : Due → List Reg
  | .flight f => f.writes.map RegCell.reg ++ (if f.ys.isEmpty then [] else [.y f.lane 0])
  | .porch e => e.dst

/-- It is not there yet. -/
def Due.late : Due → Bool
  | .flight _ => false
  | .porch e => !e.arrived

/-- A result stays in flight. -/
def Resident.keepDue (r : Resident) : Due → Resident
  | .flight f => { r with flights := r.flights ++ [f] }
  | .porch e => { r with porch := r.porch ++ [e] }

/-- Write results in their order; one that writes a register which an earlier one has still to write waits behind it (R61). -/
def Resident.landList (r : Resident) (behind : List Reg) : List Due → Resident
  | [] => r
  | d :: ds =>
    if d.late || d.regs.any behind.contains then (r.keepDue d).landList (behind ++ d.regs) ds
    else (r.land d.result).landList behind ds

/-- Write the results whose count satisfies a test: latencies and porch entries (R59, R61, R63, R64). -/
def Resident.landDue (r : Resident) (p : Nat → Bool) : Resident :=
  let due := (r.flights.filter fun f => p f.due).map Due.flight ++ (r.porch.filter fun e => p e.due).map Due.porch
  { r with flights := r.flights.filter fun f => !p f.due, porch := r.porch.filter fun e => !p e.due }.landList []
    (sortBy (fun a b => Flight.before a.result b.result) due)

/-! ### The next header -/

/-- The header that a resident stands at, where it can be read: a look at it that waits for nothing. -/
def State.headerWord (s : State) (r : Resident) : Option DWord × State :=
  let w := s.who r
  match s.checkFetch w r.hdr with
  | .ok _ =>
    let (x, s1) := s.fetchWord w r.hdr
    (some x, s1)
  | _ => (none, s)

/-! ### The merge table (R87, R89, R194) -/

/-- The wait of a resident after some of its accesses are answered: over once none is left; pages refused, to an access or to a fetch, are
kept for the instruction when it is executed again (R89). -/
def Resident.answerWait (r : Resident) (hit : FaultWait → Option FaultWait) (refused : Option Nat) : Resident :=
  match r.wait with
  | .fault fs =>
    let left := fs.filter fun f => (hit f).isNone
    if left.length = fs.length then r
    else { r with
      wait := (if left.isEmpty then .none else .fault left)
      refused := r.refused ++ (match refused with
        | some p => [(p, refusedData)]
        | none => []) }
  | .fetch f =>
    if (hit f).isNone then r
    else { r with
      wait := .none
      refused := r.refused ++ (match refused with
        | some p => [(p, refusedFetch)]
        | none => []) }
  | .landing fs =>
    let left := fs.filter fun f => (hit f).isNone
    { r with wait := if left.isEmpty then .none else .landing left }
  | _ => r

/-- A resident is in a fault wait (R87, R208). -/
def Resident.faultWaits (r : Resident) : Bool :=
  match r.wait with
  | .fault _ => true
  | .fetch _ => true
  | .landing _ => true
  | _ => false

/-- A resident's waits and its porch entries, those captured by a trap among them, after an answer. -/
def Resident.answer (r : Resident) (hit : FaultWait → Option FaultWait) (porchHit : Porch → FaultWait) (refused : Option Nat) :
    Resident :=
  let f := fun e : Porch => if (hit e.fault).isSome then { e with fault := porchHit e } else e
  let r1 := r.answerWait hit refused
  { r1 with
    porch := r.porch.map f
    trap := { r.trap with hidden := r.trap.hidden.map fun h => { h with porch := h.porch.map f } } }

/-- An engine command's wait after an answer. -/
def answerEng (hit : FaultWait → Option FaultWait) (st : EngState) : EngState :=
  match st with
  | .faultWait f => match hit f with
    | some (.refused c) => .faultWait (.refused c)
    | some _ => .running
    | none => st
  | _ => st

/-- A core's engine commands after an answer; the test is told the issuer. -/
def Core.answerCmds (c : Core) (hit : Nat → FaultWait → Option FaultWait) : Core :=
  { c with
    cq := c.cq.map fun x => { x with state := answerEng (hit x.rid) x.state }
    mq := c.mq.map fun x => { x with state := answerEng (hit x.rid) x.state } }

/-- Every engine command after an answer. -/
def State.answerCmds (s : State) (hit : Nat → FaultWait → Option FaultWait) : State :=
  { s with cores := s.cores.map fun c => c.answerCmds hit }

/-- A parked resident whose wait becomes ready again (R208). -/
def State.wakeParked (s : State) : State :=
  let ids := (s.allRes.filter fun r => r.away == .parkedFault && r.wait == .none).map Resident.rid
  let woken := fun q : QRec => !q.ready && q.rid.any ids.contains
  (s.askFor woken).mapRecs fun q => some (if woken q then { q with ready := true, since := s.timebase } else q)

/-- A tenant has room in a hamlet's merge table for a page (R87, R194). -/
def State.mergeRoom (s : State) (ham tenant asid page : Nat) : Bool :=
  let h := s.hamAt ham
  (h.merge.any fun m => m.tenant == tenant && m.asid == asid && m.page == page) ||
  (decide (h.merge.length < 256) && decide ((h.merge.filter fun m => m.tenant == tenant).length < s.mergeBound ham tenant))

/-- A wait for a place in a hamlet's table that has become free. -/
def State.fullOver (s : State) (ham : Nat) (r : Resident) (f : FaultWait) : Option FaultWait :=
  match f with
  | .full h page _ => if h = ham ∧ s.mergeRoom ham r.launch.tenant (s.ctxOf r).asid page then some .none else none
  | _ => none

/-- The same for the issuer of an engine command. -/
def State.fullOverCmd (s : State) (ham rid : Nat) (f : FaultWait) : Option FaultWait :=
  match s.resAt rid with
  | some r => s.fullOver ham r f
  | none => none

/-- MERGE_ENTRY_FREED_WAIT: accesses that wait for a place in the merge table try again once there is one (R87). -/
def execMergeEntryFreedWait (hamlet : Nat) (s : State) : Out :=
  .next (
    let s1 := s.mapRes fun r => r.answer (s.fullOver hamlet r) (fun _ => .none) none
    (s1.answerCmds (s.fullOverCmd hamlet)).wakeParked)

/-- FAULT_RECORD_DELIVER: the oldest fault record of a hamlet is written once the fault ring has room (R87, R225). -/
def execFaultRecordDeliver (hamlet : Nat) (s : State) : Out :=
  .next (match s.host.fltRing, (s.hamAt hamlet).records with
    | some ring, rec :: rest =>
      if s.ringRoom .phys ring then
        let ds := (List.range 4).map fun k => dwordOf ((rec.drop (8 * k)).take 8)
        let s1 := s.modHam hamlet fun h => { h with records := rest }
        ((s1.ringAppend .phys ring ds).msix 2).countBy (fld (ds.getD 1 0).toNat 16 4) 9 1
      else s
    | _, _ => s)

/-- FAULT_WAIT_SNAPSHOT: a fault wait longer than %fwait becomes a snapshot, and the resident is parked (R208). -/
def execFaultWaitSnapshot (rid : Nat) (s : State) : Out :=
  .next (match s.resAt rid with
    | none => s
    | some r =>
      let limit := (s.ctxOf r).fwait.toNat
      if r.faultWaits ∧ s.landing r ∧ r.takeOff.all (fun t => decide (s.timebase < t.deadline)) ∧ limit ≠ 0 ∧ limit * 700 < s.timebase - r.waitSince then (s.snapshotOff rid .parkedFault false).2
      else s)

/-! ### The carve-out (R99, R100) -/

/-- The lines of a core's L1 that its ways no longer hold, the most recently used of each set and tenant kept. Which way
holds a line is not part of the state: log entry 10. -/
def State.l1Excess (s : State) (core : Nat) : List L1Line :=
  let ls := (s.coreAt core).l1
  (List.range ls.length).filterMap fun k => match ls[k]? with
    | none => none
    | some l =>
      let ahead := ((ls.take k).filter fun x => x.tag % 1024 == l.tag % 1024 && x.tenant == l.tenant).length
      if ahead < s.l1Ways core l.tenant then none else some l

/-- A core's carve-out stands at its requested setting (R99 steps 3 and 4): lines of lost ways go home first, and new
scratchpad bytes read zero. -/
def State.carveDone (s : State) (core : Nat) : State :=
  let c := s.coreAt core
  let old := spadBytes c.carveCur
  let new := spadBytes c.carveReq
  let s1 := s.modCore core fun c =>
    { c with
      carveCur := c.carveReq, carvePend := false, carveStatus := 0
      cleanSpad := if old < new then c.cleanSpad ++ [(old, new - old)] else cutRanges c.cleanSpad new (old - new) }
  (s1.l1Excess core).foldl (fun s l => s.flushLine core l) s1

/-- CARVE_CHANGE_TAKE_EFFECT: the change comes once no allotment overlaps the converted SRAM (R99 step 2). -/
def execCarveChangeTakeEffect (core : Nat) (s : State) : Out :=
  .next (
    let c := s.coreAt core
    if c.carvePend ∧ (s.unitsOn core).all (fun u => decide (u.base + u.size ≤ min (spadBytes c.carveCur) (spadBytes c.carveReq))) then
      s.carveDone core
    else s)

/-- CARVE_TIMEOUT: a request that has been pending for 100 ms is rejected (R99 step 5). -/
def execCarveTimeout (core : Nat) (s : State) : Out :=
  .next (
    let c := s.coreAt core
    if c.carvePend ∧ 70000000 ≤ s.timebase - c.carveSince then
      s.modCore core fun c => { c with carvePend := false, carveStatus := 2 }
    else s)

/-! ### The watchdog (R216) -/

/-- WATCHDOG_EXPIRY: the count has reached the limit: en is cleared and every resident of the context takes code 14 before
its next issue. -/
def execWatchdogExpiry (ctx : Nat) (s : State) : Out :=
  .next (match s.ctxAt ctx with
    | none => s
    | some c =>
      if c.wden ∧ c.wdlimit ≤ c.wdcnt then
        (s.modCtx ctx fun c => { c with wden := false }).mapRes fun r =>
          if r.launch.ctx = ctx then { r with async := r.async ++ [mkCause 14 (BitVec.ofNat 32 c.wdlimit) 0 0 0] } else r
      else s)

/-! ### Sampling (R215) -/

/-- The oldest of a list of residents. -/
def oldestRes (rs : List Resident) : Option Resident :=
  rs.foldl (fun b r => match b with
    | none => some r
    | some x => if r.placedAt < x.placedAt ∨ (r.placedAt = x.placedAt ∧ r.slot < x.slot) then some r else b) none

/-- The region entries of a sample record: those of the oldest resident on the lowest-numbered busy core. -/
def State.sampleRegions (s : State) (tenant : Nat) : DWord :=
  let mine := s.allRes.filter fun r => r.launch.tenant == tenant && r.away == .here
  match mine with
  | [] => 0
  | r0 :: _ =>
    let core := mine.foldl (fun m r => min m r.core) r0.core
    match oldestRes (mine.filter fun r => r.core == core) with
    | none => 0
    | some r =>
      let top := fun k => (r.regions.getD k 0).toNat
      BitVec.ofNat 64 (top 0 * 2 ^ 48 + top 1 * 2 ^ 32 + top 2 * 2 ^ 16)

/-- The sample record of a tenant at a latch tick. -/
def State.sampleRecord (s : State) (x : Sampler) (tick : Nat) : List DWord :=
  [BitVec.ofNat 64 tick, BitVec.ofNat 64 (x.seq + x.tenant * 2 ^ 32)] ++
  ((List.range 16).map fun k => BitVec.ofNat 64 (s.counterOf x.tenant k)) ++ [s.sampleRegions x.tenant, 0]

/-- One tenant's latch, where a multiple of its period has passed since the last one. -/
def State.sampleOne (s : State) (x : Sampler) : State :=
  let tick := s.timebase / 2 ^ x.k * 2 ^ x.k
  if x.last < tick then
    let s1 := s.ringAppend .phys x.ring (s.sampleRecord x tick)
    { s1 with
      samplers := updIf (fun y => y.tenant == x.tenant) (fun y => { y with seq := (y.seq + 1) % 2 ^ 32, last := tick }) s.samplers
      fresh := s.fresh + 1 }
  else s

/-- SAMPLE_LATCH: the counters of every sampled enclosure latch at a multiple of the period. -/
def execSampleLatch (s : State) : Out := .next (s.samplers.foldl State.sampleOne s)

end Sys2Proof.Machine
end

