-- ==== Sys2Proof/Machine/Digest.lean ====
section
/-! DEFINITION. SHA-256, which R235 names for the digests of an attestation report and leaves to its own standard. PRESUMED: log entry
15. -/

namespace Sys2Proof.Machine

/-! ### Constants -/

/-- The largest number below 2^36 whose k-th power does not exceed x. -/
def rootBelow (k x : Nat) : Nat := (List.range 36).reverse.foldl (fun r i => if (r + 2 ^ i) ^ k ≤ x then r + 2 ^ i else r) 0

/-- The first 32 bits of the fraction of a number's k-th root. -/
def rootFraction (k p : Nat) : Word := BitVec.ofNat 32 (rootBelow k (p * 2 ^ (32 * k)))

/-- The first 64 primes. -/
def digestPrimes : List Nat := (List.range 312).filter fun n => decide (2 ≤ n) && (List.range n).all fun d => decide (d < 2) || n % d != 0

/-- The constants of the 64 rounds. -/
def digestRounds : List Word := digestPrimes.map (rootFraction 3)

/-- The chaining value that a message starts with. -/
def digestStart : List Word := (digestPrimes.take 8).map (rootFraction 2)

/-! ### One block -/

/-- Three rotations of a word, combined. -/
def spin (x : Word) (i j k : Nat) : Word := x.rotateRight i ^^^ x.rotateRight j ^^^ x.rotateRight k

/-- Two rotations and a shift of a word, combined. -/
def slide (x : Word) (i j k : Nat) : Word := x.rotateRight i ^^^ x.rotateRight j ^^^ (x >>> k)

/-- Four bytes as a word, the first the highest. -/
def wordFrom (bs : List Byte) : Word := BitVec.ofNat 32 (bs.foldl (fun n b => n * 256 + b.toNat) 0)

/-- The bytes of a word, the highest first. -/
def bigEndian (x : Word) : List Byte := (List.range 4).map fun k => x.extractLsb' (24 - 8 * k) 8

/-- The message schedule, the last word first, made longer by n words. -/
def digestSchedule : Nat → List Word → List Word
  | 0, ws => ws
  | n + 1, ws => digestSchedule n ((slide (ws.getD 1 0) 17 19 10 + ws.getD 6 0 + slide (ws.getD 14 0) 7 18 3 + ws.getD 15 0) :: ws)

/-- One round on the eight working words: `x` is the round's constant with its word of the schedule. -/
def digestRound (v : List Word) (x : Word) : List Word :=
  let at_ := fun k => v.getD k 0
  let choose := (at_ 4 &&& at_ 5) ^^^ (~~~(at_ 4) &&& at_ 6)
  let most := (at_ 0 &&& at_ 1) ^^^ (at_ 0 &&& at_ 2) ^^^ (at_ 1 &&& at_ 2)
  let t := at_ 7 + spin (at_ 4) 6 11 25 + choose + x
  [t + spin (at_ 0) 2 13 22 + most, at_ 0, at_ 1, at_ 2, at_ 3 + t, at_ 4, at_ 5, at_ 6]

/-- A block of 64 bytes added to a chaining value. -/
def digestBlock (h : List Word) (block : List Byte) : List Word :=
  let first := (List.range 16).map fun k => wordFrom ((block.drop (4 * k)).take 4)
  let ws := (digestSchedule 48 first.reverse).reverse
  let v := (List.zipWith (· + ·) digestRounds ws).foldl digestRound h
  List.zipWith (· + ·) h v

/-! ### A message -/

/-- A message with its end mark and its length in bits, in whole blocks. -/
def digestPadded (m : List Byte) : List Byte :=
  m ++ [0x80] ++ List.replicate ((119 - m.length % 64) % 64) 0 ++ (leBytes 8 (8 * m.length)).reverse

/-- SHA-256 of a message: 32 bytes. -/
def sha256 (m : List Byte) : List Byte :=
  let p := digestPadded m
  (((List.range (p.length / 64)).map fun k => (p.drop (64 * k)).take 64).foldl digestBlock digestStart).flatMap bigEndian

end Sys2Proof.Machine
end

