-- ==== Sys2Proof/Machine/Rota.lean ====
section
/-! DEFINITION. The Rota (R178 to R190): the table and its checks, slot edges and changes of owner, take-offs at stiles,
overruns with their debits, and donated slack. -/

namespace Sys2Proof.Machine

/-! ### The table (R179) -/

/-- The 256 words of row k of the table. -/
def State.rowWords (s : State) (k : Nat) : List Nat :=
  let bs := s.homeBytes (s.rota.base + 2048 * k) 2048
  (List.range 256).map fun j => leNat ((bs.drop (8 * j)).take 8)

/-- The enclosure record of a tenant. -/
def enclOf (ws : List Nat) (t : Nat) : Encl :=
  let e := fun j => ws.getD (8 + 8 * t + j) 0
  { cores := BitVec.ofNat 192 (e 0 + e 1 * 2 ^ 64 + e 2 * 2 ^ 128)
    parts := [fld (e 3) 0 32, fld (e 3) 32 32, fld (e 4) 0 32, fld (e 4) 32 32]
    val := fld (e 5) 32 1 == 1
    quota := fld (e 5) 16 8
    ways := BitVec.ofNat 16 (fld (e 5) 0 16)
    links := (List.range 16).map (fun n => fld (e 6) (4 * n) 4) ++ [fld (e 7) 0 4, fld (e 7) 4 4] }

/-- A row of the table. -/
def rowOfWords (ws : List Nat) : Row :=
  let h := ws.getD 0 0
  { dur := fld h 0 16, hedge := fld h 16 16, strict := fld h 37 1 == 1, bval := fld h 36 1 == 1, benef := fld h 32 4
    encls := (List.range 16).map (enclOf ws) }

/-- The hedge window in µs. -/
def Row.window (r : Row) : Nat := if r.hedge = 0 then 20 else r.hedge

/-! ### The checks (R180) -/

/-- The valid partial entries of a row with their tenants. -/
def Row.parts (r : Row) : List (Nat × Nat) :=
  (List.range 16).flatMap fun t => match r.encls[t]? with
    | some e => (e.parts.filter fun x => fld x 31 1 == 1).map fun x => (t, x)
    | none => []

/-- Core, lane group and shape of a partial entry. -/
def partCore (x : Nat) : Nat := fld x 23 8
def partLg (x : Nat) : Nat := fld x 19 4
def partShape (x : Nat) : Nat := fld x 17 2

/-- A record names something to hold. -/
def Encl.hasResources (e : Encl) : Bool := e.cores != 0 || e.parts.any fun x => !(partQuarters x (partCore x) (partLg x)).isEmpty

/-- Two enclosures of different tenants satisfy a relation. -/
def Row.clash (r : Row) (p : Encl → Encl → Bool) : Bool :=
  (List.range 16).any fun t => (List.range t).any fun u => match r.encls[t]?, r.encls[u]? with
    | some a, some b => p a b
    | _, _ => false

/-- Quarters of a core that an enclosure names. -/
def Encl.quartersOn (e : Encl) (core : Nat) : Nat :=
  if e.cores.getLsbD core then 64
  else ((List.range 64).filter fun k => e.parts.any fun x => (partQuarters x core (k / 4)).contains (k % 4)).length

/-- The failures of R180, in order from 1. `ways` gives a core's L1 ways. -/
def Row.failures (r : Row) (ws : List Nat) (ways : Nat → Nat) : List Bool :=
  let ps := r.parts
  let present := r.encls.filter Encl.val
  let twoOf := fun p : Nat × Nat → Nat × Nat → Bool => ps.any fun a => ps.any fun b => p a b
  let sameLg := fun a b : Nat × Nat => partCore a.2 == partCore b.2 && partLg a.2 == partLg b.2
  let cores := (ps.map fun a => partCore a.2).eraseDups
  let shares := fun c => (r.encls.map fun e => e.quartersOn c).filter (0 < ·)
  [ decide (r.dur < 16) || decide (r.dur ≤ r.window),
    r.clash (fun a b => a.cores &&& b.cores != 0) || (ps.any fun a => r.encls.any fun e => e.cores.getLsbD (partCore a.2)) ||
      twoOf fun a b => a.1 != b.1 && sameLg a b && (partQuarters a.2 (partCore a.2) (partLg a.2)).any
        (partQuarters b.2 (partCore b.2) (partLg b.2)).contains,
    (twoOf fun a b => sameLg a b && partShape a.2 != partShape b.2) || (ps.any fun a => match partShape a.2 with
      | 0 => fld a.2 13 4 != 1
      | 1 => decide (3 < fld a.2 13 4)
      | 2 => false
      | _ => true),
    (r.clash fun a b => a.val && b.val && a.ways &&& b.ways != 0) || (present.any fun e => e.hasResources && e.ways == 0),
    decide (256 < (present.map Encl.quota).foldl (· + ·) 0) || (present.any fun e => e.hasResources && e.quota == 0),
    (List.range 18).any fun n => decide (16 < (r.encls.map fun e => e.links.getD n 0).foldl (· + ·) 0),
    cores.any fun c => decide (4 < (shares c).length) || (decide (1 < (shares c).length) && (shares c).any fun n => n * ways c / 64 == 0),
    r.bval && !((r.encls[r.benef]?).map Encl.val).getD false,
    fld (ws.getD 0 0) 38 26 != 0 || ((List.range 7).any fun k => ws.getD (k + 1) 0 != 0) || ((List.range 120).any fun k => ws.getD (136 + k) 0 != 0) ||
      ((List.range 16).any fun t =>
        let e := fun j => ws.getD (8 + 8 * t + j) 0
        fld (e 5) 33 31 != 0 || fld (e 5) 24 8 != 0 || fld (e 7) 8 56 != 0) ||
      (r.encls.any fun e => e.parts.any fun x => fld x 0 13 != 0) || (ps.any fun a => decide (191 < partCore a.2)) ||
      (r.encls.any fun e => !e.val && (e.hasResources || e.quota != 0)) ]

/-- The outcome of a row's check (R180): 0, or the lowest failure. -/
def Row.check (r : Row) (ws : List Nat) (ways : Nat → Nat) : Nat :=
  match (r.failures ws ways).findIdx? id with
  | some k => k + 1
  | none => 0

/-! ### Changes of owner (R185 to R189) -/

/-- The owner of a quarter under a row; with no row in force tenant 0 holds everything (R181). -/
def ownerUnder (r : Option Row) (core lg q : Nat) : Option Nat :=
  match r with
  | some r => r.owner core lg q
  | none => some 0

/-- The division of a lane group under a row. -/
def divisionUnder (r : Option Row) (core lg : Nat) : Option Nat :=
  match r with
  | some r => r.division core lg
  | none => none

/-- A quarter changes owner from one row to the next (R185). -/
def ownerChanges (old new : Option Row) (core lg q : Nat) : Bool :=
  ownerUnder old core lg q != ownerUnder new core lg q || divisionUnder old core lg != divisionUnder new core lg

/-- A resident must leave its lane group at an edge (R185, R190). -/
def Resident.mustLeave (r : Resident) (old new : Option Row) : Bool :=
  r.quarters.any fun q => ownerChanges old new r.core r.lgrp q || ownerUnder new r.core r.lgrp q != some r.launch.tenant

/-- Settle every core. -/
def State.settleAll (s : State) : State := (List.range 192).foldl State.settleCore s

/-- Blocks of tenants that hold nothing on a core or in a hamlet move up (R164); a core's block goes past a hamlet of which its tenant
holds nothing either. -/
def State.moveBlocks (s : State) : State :=
  let s1 := (List.range 24).foldl (fun s ham =>
    let up := (s.hamAt ham).queue.filter fun b => !s.holdsHam b.tenant ham
    up.foldl (fun s b => s.enterDie (ham / 12) b.recs)
      (s.modHam ham fun h => { h with queue := h.queue.filter fun b => !up.contains b })) s
  (List.range 192).foldl (fun s core =>
    let up := (s.coreAt core).queue.filter fun b => !s.holdsCore b.tenant core
    up.foldl (fun s b => if s.holdsHam b.tenant (hamOf core) then s.enterHamBlock (hamOf core) b.tenant b.recs else s.enterDie (dieOf core) b.recs)
      (s.modCore core fun c => { c with queue := c.queue.filter fun b => !up.contains b })) s1

/-- The resource of a resident under a row (R185); with no row in force every core is held whole (R181). -/
def resourceUnder (r : Option Row) (core lg q : Nat) : List Nat :=
  match r with
  | some r => r.resource core lg q
  | none => List.range 64

/-- Column sets of a core are another's from now on, and what `losers` have there goes (R189). -/
def State.markChanged (s : State) (core : Nat) (qs losers : List Nat) : State :=
  s.modCore core fun c => { c with changed := (c.changed ++ qs).eraseDups, losers := (c.losers ++ losers).eraseDups }

/-- A resident begins to be taken off a resource (R186). -/
def Resident.leaving (r : Resident) (deadline : Nat) (qs : List Nat) : Resident :=
  { r with takeOff := some { deadline := deadline, atStile := false, qs := qs } }

/-- A change of owner at an edge (R185, R186): residents begin to be taken off, and queued blocks move; every core may run a round
(R166). The new row is in force already. -/
def State.changeOwners (s : State) (old new : Option Row) (window edge : Nat) : State :=
  let s1 := s.mapRes fun r =>
    if r.away = .here ∧ r.takeOff.isNone ∧ !s.onFailed r ∧ r.mustLeave old new then
      r.leaving (edge + 700 * window) (resourceUnder old r.core r.lgrp r.quarter)
    else r
  let marks := fun core => (List.range 64).filter fun k => ownerChanges old new core (k / 4) (k % 4)
  let s2 := (List.range 192).foldl (fun s core =>
    let qs := marks core
    (s.markChanged core qs (qs.filterMap fun k => ownerUnder old core (k / 4) (k % 4))).askRound core) s1
  s2.moveBlocks.settleAll

/-- So many µs of a debit have been paid: the beneficiary has had them as donated slack (R188, R190, R195). -/
def State.countPaid (s : State) (r : Row) (d : Debit) (us : Nat) : State :=
  match r.benefOf d.tenant with
  | some b => (s.countBy d.tenant 13 us).countBy b 14 us
  | none => s

/-- The quarters of a core that a row's beneficiary has had as donated slack (R188, R190). -/
def State.lent (s : State) (r : Row) (core : Nat) : List Nat :=
  (List.range 64).filter fun k => (r.owner core (k / 4) (k % 4)).any fun t =>
    (r.benefOf t).isSome && (s.rota.donated.contains t || s.rota.debits.any fun d =>
      r.pays d && d.tenant == t && d.core == core && d.quarters.contains k)

/-- At the end of a row the beneficiary loses what it has had as donated slack (R189, R190). -/
def State.endLoans (s : State) (r : Row) : State :=
  if s.rota.donated.isEmpty ∧ s.rota.debits.isEmpty then s
  else (List.range 192).foldl (fun t core => t.markChanged core (s.lent r core) (if (s.lent r core).isEmpty then [] else [r.benef])) s

/-- What is left of a debit after a row, due from the next row on. -/
def Row.unpaid (r : Row) (d : Debit) : Option Debit :=
  if r.pays d then (if d.us ≤ r.dur then none else some { d with us := d.us - r.dur }) else some { d with due := true }

/-- A row ends: what its beneficiary has had as donated slack is counted and lost (R188 to R190, R195). -/
def State.payDebits (s : State) (r : Row) : State :=
  (s.rota.debits.filter r.pays).foldl (fun s d => s.countPaid r d (min d.us r.dur)) (s.endLoans r)

/-- The edge at the end of a row of a running table (R181). -/
def State.nextEdge (s : State) (r : Row) (edge : Nat) : State :=
  let k := (s.rota.row + 1) % s.rota.rows.length
  let s0 := s.payDebits r
  let s1 := { s0 with rota := { s.rota with row := k, since := edge, debits := s.rota.debits.filterMap r.unpaid, donated := [] } }
  s1.changeOwners (some r) s.rota.rows[k]? r.window edge

/-- The edge at which the table stops (R181). -/
def State.stopEdge (s : State) (r : Row) (edge : Nat) : State :=
  let s0 := s.payDebits r
  let s1 := { s0 with rota := { s.rota with row := 0, rows := [], debits := [], donated := [], since := edge } }
  s1.changeOwners (some r) none r.window edge

/-- A debit has been paid: the resource is its tenant's, and the beneficiary's residents are taken off it as at an edge (R188, R190).
DEDUCED: log entry 22. -/
def State.debitPaid (s : State) (r : Row) (d : Debit) : State :=
  let s1 := { s with rota := { s.rota with debits := s.rota.debits.filter (· != d) } }.countPaid r d d.us
  let s2 := s1.mapRes fun x =>
    if x.core = d.core ∧ x.coreQuarters.any d.quarters.contains ∧ x.away = .here ∧ x.takeOff.isNone ∧ !s.onFailed x ∧
        x.quarters.any (fun q => s1.holder x.core x.lgrp q != some x.launch.tenant) then
      x.leaving (s.rota.since + 700 * (d.us + r.window)) (r.resource x.core x.lgrp x.quarter)
    else x
  match r.benefOf d.tenant with
  | some b => (s2.markChanged d.core d.quarters [b]).settleCore d.core
  | none => s2

/-- Every debit that has been paid by now. -/
def State.debitEnds (s : State) (r : Row) : State :=
  (s.rota.debits.filter fun d => r.pays d && decide (s.rota.since + 700 * d.us ≤ s.timebase)).foldl (fun s d => s.debitPaid r d) s

/-- At the end of a row the next one begins, or the table stops; a stopping table is stopped once its take-offs are done (R181). -/
def State.slotEdge (s : State) : State :=
  if s.stopped then s
  else match s.rowNow with
  | some r =>
    let edge := s.rota.since + 700 * r.dur
    if edge ≤ s.timebase then (if s.rota.state = 3 then s.stopEdge r edge else s.nextEdge r edge) else s.debitEnds r
  | none =>
    if s.rota.state = 3 ∧ s.allRes.all (fun r => r.takeOff.isNone) then { s with rota := { s.rota with state := 0 } } else s

/-- SLOT_EDGE. -/
def execSlotEdge (s : State) : Out := .next s.slotEdge

/-- Ticks until the row in force or a debit that it pays ends (R181, R188); none while no row is in force or the cores stand still. -/
def State.toSlotEdge (s : State) : Option Nat :=
  if s.stopped then none
  else s.rowNow.map fun r =>
    (((s.rota.debits.filter r.pays).map fun d => s.rota.since + 700 * d.us).filter (s.timebase < ·)).foldl min (s.rota.since + 700 * r.dur) - s.timebase

/-! ### ROTA_CTL (R178, R180, R181) -/

/-- The check of the table: the lowest failing row with its outcome. -/
def State.checkTable (s : State) : Option (Nat × Nat) :=
  (List.range (s.rota.last + 1)).findSome? fun k =>
    let ws := s.rowWords k
    match (rowOfWords ws).check ws (fun c => 2 * ((s.coreAt c).carveCur + 1)) with
    | 0 => none
    | e => some (k, e)

/-- A table that has passed its checks starts at row 0 (R180): counters begin anew (R195), and every ready record is judged
(R169). -/
def State.startTable (s : State) : State :=
  let rows := (List.range (s.rota.last + 1)).map fun k => rowOfWords (s.rowWords k)
  let s1 := { s with
    rota := { s.rota with
      rows := rows, row := 0, state := 2, since := s.timebase, goTick := s.timebase, debits := [], donated := [], erow := 0, ecode := 0 }
    counters := List.replicate 16 (List.replicate 16 0) }
  let s2 := s1.changeOwners none rows[0]? ((rows[0]?).map Row.window |>.getD 20) s.timebase
  s2.judgeAll

/-- A write of 1 to go: ignored while the state is not 0 and before stage C (R180, R227). -/
def State.go (s : State) : State :=
  if s.rota.state ≠ 0 ∨ s.stage ≠ 2 then s
  else match s.checkTable with
    | some (k, e) => { s with rota := { s.rota with erow := k, ecode := e } }
    | none => s.startTable

/-- A write to ROTA_CTL: last, then go, and stop as the state stood at the write. -/
def State.rotaCtl (s : State) (v : Word) : State :=
  let s1 := { s with rota := { s.rota with last := fld v.toNat 8 6 } }
  let s2 := if v.getLsbD 0 then s1.go else s1
  if v.getLsbD 1 ∧ s.rota.state = 2 then { s2 with rota := { s2.rota with state := 3 } } else s2

/-- ROTA_STAT (R178). -/
def Rota.stat (r : Rota) : Nat := r.state + r.row * 2 ^ 6 + r.ecode * 2 ^ 12 + r.erow * 2 ^ 16

/-- ROTA_GO: a write to ROTA_CTL with go set. -/
def execRotaGo (v : Word) (s : State) : Out := .next (s.rotaCtl (v ||| 1))

/-- ROTA_STOP: a write to ROTA_CTL with stop set and go clear. -/
def execRotaStop (v : Word) (s : State) : Out := .next (s.rotaCtl ((v ||| 2) &&& ~~~1))

/-! ### Take-offs (R183, R184, R186, R188) -/

/-- The registers a stile take-off keeps (R183, R184): inside a handler, and for code that is not registered, all of them. -/
def State.stileRegs (s : State) (r : Resident) : RegFile :=
  if r.trap.inh then r.regs
  else match s.liveList r (fld (s.fetchWord (s.who r) r.hdr).1.toNat 11 8) with
    | some ws => r.regs.keep (liveReg ws) r.allRegs
    | none => r.regs

/-- The next header a resident is to issue is a stile, though it does not get to issue it: it is stopped there, or waits at a barrier just
before it (R186). One in a fault wait or on late data stays frozen (R187). -/
def State.standsAtStile (s : State) (r : Resident) : Bool :=
  r.async.isEmpty && r.closing == .none && r.porch.isEmpty && (r.flights.all fun f => decide (f.due ≤ r.count)) &&
  (match r.wait with
    | .none => true
    | .barrier _ => true
    | _ => false) &&
  match (s.headerWord r).1 with
  | some w => ((if r.simt then decodeClauseHeader w.toNat else decodeBundleHeader w.toNat).toOption.map Header.stile).getD false
  | none => false

/-- STILE_TAKE_OFF: a resident that stands at a stile with its flags clear is taken off (R186). -/
def execStileTakeOff (rid : Nat) (s : State) : Out :=
  .next (match s.resAt rid with
    | none => s
    | some r0 => match r0.takeOff with
      | none => s
      | some t =>
        let r := if t.atStile then r0 else r0.landDue fun due => decide (due ≤ r0.count)
        if ((t.atStile ∧ r.stop = .none) ∨ s.standsAtStile r0) ∧ s.timebase ≤ t.deadline ∧ s.stileReady r ∧ r.away = .here ∧ !s.stopped then
          let regs := s.stileRegs r
          let (ok, s1) := (s.modRes rid fun _ => r).snapshotOff rid .takenOff true
          if ok then
            ((s1.modRes rid fun r => { r with regs := regs }).countBy r.launch.tenant 15 1).settleCore r.core
          else s1
        else s)

/-- The column set of a resident. -/
def Resident.columnSet (r : Resident) : Nat := if r.launch.shape = 0 then 0 else r.slot

/-- OVERRUN_SNAPSHOT: a resident that is not off at T + H is taken off by a full snapshot, once a `cred` of its own has run to completion;
its event and the debit on the resource come with the last that is off (R186, R188). -/
def execOverrunSnapshot (rid : Nat) (s : State) : Out :=
  .next (match s.resAt rid with
    | none => s
    | some r => match r.takeOff with
      | none => s
      | some t =>
        if t.deadline ≤ s.timebase ∧ r.away = .here ∧ r.stop ≠ .saveShort ∧ !s.stopped then
          if (s.coreAt r.core).cq.any fun c => c.rid == rid && c.stays then s.withdraw r
          else
          let us := max 1 ((s.timebase - t.deadline + 699) / 700)
          let (ok, s1) := s.snapshotOff rid .takenOff true
          if ok then
            let x : Overrun :=
              { tenant := r.launch.tenant, ctx := r.launch.ctx, rid := rid, core := r.core, lgrp := r.lgrp, cset := r.columnSet
                quarters := t.qs, deadline := t.deadline }
            let s2 := s1.modRes rid fun r => { r with ovn := some us }
            ({ s2 with rota := { s2.rota with overruns := s2.rota.overruns ++ [x] } }.countBy r.launch.tenant 15 1).settleCore r.core
          else s1
        else s)

/-! ### Donated slack (R190) -/

/-- A resident stands on resources that a row gives a tenant. -/
def Resident.standsOn (x : Resident) (r : Row) (t : Nat) : Bool := x.quarters.any fun q => r.owner x.core x.lgrp q == some t

/-- An engine command of a core is outstanding on the resources of a tenant: any on a core that the tenant holds whole, and on
column sets that of a resident that stands there or has left it behind as it left them. -/
def State.commandOn (s : State) (r : Row) (t core rid : Nat) : Bool :=
  (r.encls[t]?).any (fun e => e.val && e.cores.getLsbD core) ||
  match s.resAt rid with
  | some x => x.core == core && x.standsOn r t
  | none => false

/-- A core on which a tenant's resources are at rest: no resident, take-off or command there. -/
def State.restsOn (s : State) (r : Row) (t core : Nat) : Bool :=
  (s.onCore core).all (fun x => !x.standsOn r t) &&
  ((s.coreAt core).cq.all fun c => !s.commandOn r t core c.rid) && ((s.coreAt core).mq.all fun m => !s.commandOn r t core m.rid)

/-- A ready record of a tenant waits in a queue from which its resources could be fed. -/
def State.couldFeed (s : State) (t : Nat) : Bool :=
  let here := fun q : QRec => q.ready && q.launch.tenant == t
  (s.dieQ.any fun q => here q && (List.range 12).any fun k => s.holdsHam t (12 * q.die + k)) ||
  (s.hamlets.any fun h => h.queue.any fun b => b.recs.any here) || (s.cores.any fun c => c.queue.any fun b => b.recs.any here)

/-- A tenant's enclosure is wholly idle (R190). -/
def State.whollyIdle (s : State) (r : Row) (t : Nat) : Bool :=
  (List.range 192).all (s.restsOn r t) && !s.couldFeed t &&
  s.rota.debits.all fun d => d.tenant != t || !r.pays d

/-- A tenant's resources pass to the beneficiary, core by core: a change of owner, which leaves nothing of the tenant there, its idle units
saved (R189, R190). -/
def State.donate (s : State) (r : Row) (t : Nat) : State :=
  (List.range 192).foldl (fun s core =>
    let qs := (List.range 64).filter fun k => r.owner core (k / 4) (k % 4) == some t
    if qs.isEmpty then s else (s.markChanged core qs [t]).settleCore core) { s with rota := { s.rota with donated := s.rota.donated ++ [t] } }

/-- SLACK_DONATION: the rest of the slot of a wholly idle tenant passes to the row's beneficiary (R190). -/
def execSlackDonation (tenant : Nat) (s : State) : Out :=
  .next (match s.rowNow with
    | none => s
    | some r => match r.benefOf tenant, r.encls[tenant]? with
      | some b, some e =>
        if e.val ∧ e.hasResources ∧ !s.rota.donated.contains tenant ∧ s.whollyIdle r tenant ∧ !s.stopped then
          let left := (s.rota.since + 700 * r.dur - s.timebase) / 700
          ((s.donate r tenant).countBy tenant 13 left).countBy b 14 left
        else s
      | _, _ => s)

end Sys2Proof.Machine
end

