-- ==== Sys2Proof/Machine/Register.lean ====
section
/-! DEFINITION. Registering a code object (R182, R282): the layout of the object, and the check of its paths between
stiles. -/

namespace Sys2Proof.Machine

/-! ### The object (R282) -/

/-- A code object as the command reads it: its words from the magic on, and the fields of its header. -/
structure ObjHeader where
  ok : Bool
  cbase : Nat
  csize : Nat
  dsize : Nat
  entry : Nat
  shape : Nat
  nlive : Nat
  ntarg : Nat
  nlbound : Nat
  deriving DecidableEq, Repr

/-- The header in its eight words; its reserved bits are ignored (R5). -/
def objHeader (w : Nat → Nat) : ObjHeader :=
  { ok := fld (w 0) 0 32 == 0x6E797767 && fld (w 0) 32 32 == 1 && w 2 % 8 == 0 && decide (fld (w 5) 32 2 < 3)
    cbase := w 1, csize := w 2, dsize := w 4, entry := fld (w 5) 0 32, shape := fld (w 5) 32 2, nlive := fld (w 6) 0 32
    ntarg := fld (w 6) 32 32, nlbound := fld (w 7) 0 32 }

/-- Where the parts of an object at an address lie: live-state lists, targets, loop bounds. -/
def ObjHeader.lists (o : ObjHeader) (va : Nat) : Nat := va + 64 + o.csize + o.dsize
def ObjHeader.targets (o : ObjHeader) (va : Nat) : Nat := o.lists va + 64 * o.nlive
def ObjHeader.bounds (o : ObjHeader) (va : Nat) : Nat := o.targets va + 8 * o.ntarg

/-! ### Paths (R182) -/

/-- An innermost loop on a path: how many iterations, with this one, come before the last stages − 1, where a bound gives them, and,
once there, how many are left with this one. A bounded loop runs that many, neither more nor fewer (R182, R238). Iterations
beyond 4,097 change nothing the check asks. -/
structure PathLoop where
  start : Nat
  exit : Nat
  stages : Nat
  left : Option Nat
  drain : Nat
  deriving DecidableEq, Repr

/-- Where a path stands. A divergence entry holds its rejoin address and the path still to be run. -/
structure PathKey where
  addr : Nat
  simt : Bool
  div : List (Nat × Option Nat)
  loops : List PathLoop
  deriving DecidableEq, Repr

/-- A path's place, the headers passed since the last stile, and the counts until the last result in flight is written. -/
structure PathNode where
  key : PathKey
  run : Nat
  due : Nat
  deriving DecidableEq, Repr

/-- Predicate and latency of an op whose result falls due later than the next count (R59, R63). -/
def Instr.lands : Instr → Pred × Nat
  | .fadd p .. => (p, 4) | .fsub p .. => (p, 4) | .fmul p .. => (p, 4) | .ffma p .. => (p, 4)
  | .fmin p .. => (p, 4) | .fmax p .. => (p, 4) | .fcmp p .. => (p, 4) | .fcvt p .. => (p, 4) | .frnd p .. => (p, 4)
  | .hadd2 p .. => (p, 4) | .hmul2 p .. => (p, 4) | .hfma2 p .. => (p, 4)
  | .frcp p _ _ g => (p, gradeLat g) | .frsq p _ _ g => (p, gradeLat g) | .fsqrt p _ _ g _ => (p, gradeLat g)
  | .fdiv p _ _ _ g _ => (p, gradeLat g) | .fex2 p _ _ g => (p, gradeLat g) | .flg2 p _ _ g => (p, gradeLat g)
  | .fsin p _ _ g => (p, gradeLat g) | .fcos p _ _ g => (p, gradeLat g) | .ftanh p _ _ g => (p, gradeLat g)
  | .fsigm p _ _ g => (p, gradeLat g)
  | .xmov p .. => (p, 2) | .xbc p .. => (p, 3)
  | .ldSp32 p .. => (p, 8) | .ldSp64 p .. => (p, 8) | .ldc p .. => (p, 8) | .acrd p .. => (p, 12)
  | .ldG32 p _ _ n _ => (p, n) | .ldG64 p _ _ n _ => (p, n) | .ldo32 p _ _ n _ _ => (p, n) | .ldo64 p _ _ n _ _ => (p, n)
  | .ccas p _ _ _ _ _ _ n => (p, n)
  | _ => (.always, 1)
where
  gradeLat : Grade → Nat
    | .f => 6
    | .a => 14

/-- An op is treated as issuing (R182). -/
def pathIssues (loops : List PathLoop) (p : Pred) : Bool :=
  match p with
  | .gate k => match loops with
    | [] => false
    | e :: _ => e.drain == 0 || decide (e.stages ≤ e.drain + k)
  | _ => true

/-- What a path does at the end of a loop's body. -/
def pathLoopEnd (next : Nat) (k : PathKey) : List PathKey :=
  match k.loops with
  | [] => []
  | e :: es =>
    let again := fun e : PathLoop => { k with addr := e.start, loops := e :: es }
    let out := { k with addr := next, loops := es }
    if e.drain = 0 then
      let last := if 1 < e.stages then again { e with drain := e.stages - 1 } else out
      match e.left with
      | some n => [if 1 < n then again { e with left := some (n - 1) } else last]
      | none => [again e, last]
    else if 1 < e.drain then [again { e with drain := e.drain - 1 }] else [out]

/-- What the check knows of an object while it follows paths. -/
structure PathEnv where
  lo : Nat
  words : List Nat
  nlive : Nat
  bound : Nat → Option Nat

/-- The instruction of a word of the code. -/
def PathEnv.instr (e : PathEnv) (a : Nat) : Option Instr :=
  match decodeWord (e.words.getD ((a - e.lo) / 8) 0) with
  | .ok i => some i
  | .error _ => none

/-- The header at an address of the code, in a mode; none outside the code. -/
def PathEnv.header (e : PathEnv) (a : Nat) (simt : Bool) : Option (Except DecodeError Header) :=
  if a < e.lo ∨ e.lo + 8 * e.words.length ≤ a then none
  else
    let w := e.words.getD ((a - e.lo) / 8) 0
    some (if simt then decodeClauseHeader w else decodeBundleHeader w)

/-- A relative target. -/
def pathTarget (a : Nat) (off : BitVec 32) : Nat := (BitVec.ofNat 64 a + off.signExtend 64 * 8).toNat

/-- Where a path goes at a `loop`, each with whether the two idle counts of a transfer pass (R69, R182): without a bound to the exit and
into the body; with one into the body, for the bound's iterations and the last stages − 1, or past it where there are none; to the
exit as well where its predicate may be false. -/
def pathLoop (e : PathEnv) (k : PathKey) (next exit : Nat) (p : Pred) (stages : Nat) : List (PathKey × Bool) :=
  let out : PathKey × Bool := ({ k with addr := exit }, true)
  let body : PathLoop := { start := next, exit := exit, stages := stages, left := (e.bound exit).map (min 4097), drain := 0 }
  let into := fun x : PathLoop => if 8 ≤ k.loops.length then [] else [({ k with addr := next, loops := x :: k.loops }, false)]
  match e.bound exit with
  | none => out :: into body
  | some 0 => if stages ≤ 1 then [out] else (if p = .always then [] else [out]) ++ into { body with left := none, drain := stages - 1 }
  | some _ => (if p = .always then [] else [out]) ++ into body

/-- The places a path goes to after a transfer, each with whether it is a transfer that is taken, with its two idle counts (R62), and
whether the path goes on when it is not (R182). -/
def pathTaken (e : PathEnv) (k : PathKey) (next : Nat) (i : Option Instr) : List (PathKey × Bool) × Bool :=
  let goTo := fun a : Nat => [({ k with addr := a }, true)]
  let wave := fun ks : List PathKey => ks.map fun k => (k, true)
  let onward := fun p : Pred => p != .always
  match i with
  | some (.bra p off) => (goTo (pathTarget k.addr off), onward p)
  | some (.call p off _) => (goTo (pathTarget k.addr off), onward p)
  | some (.brx p _) => ([], onward p)
  | some (.callr p _ _) => ([], onward p)
  | some (.ret p _) => ([], onward p)
  | some (.exit p) => ([], onward p)
  | some (.tret _) => ([], false)
  | some (.bdiv p off rj) =>
    let target := pathTarget k.addr off
    let rejoin := (BitVec.ofNat 64 k.addr + rj.signExtend 64 * 8).toNat
    if 8 ≤ k.div.length then ([], false)
    else (wave ({ k with addr := target, div := (rejoin, none) :: k.div } ::
      (if p = .always then [] else [{ k with addr := next, div := (rejoin, some target) :: k.div },
        { k with addr := next, div := (rejoin, none) :: k.div }])), false)
  | some .join => (wave (match k.div with
    | [] => []
    | (rj, some t) :: es => [{ k with addr := t, div := (rj, none) :: es }]
    | (rj, none) :: es => [{ k with addr := rj, div := es }]), false)
  | some .fold => (wave [{ k with addr := next, simt := false, div := [], loops := [] }], false)
  | some (.loop p off st _) => (pathLoop e k next (pathTarget k.addr off) p st, false)
  | some (.lexit p) => (match k.loops with
    | [] => []
    | x :: xs => [({ k with addr := x.exit, loops := xs }, true)], onward p)
  | _ => ([], true)

/-- One header of a path: whether it offends, whether it decodes, and where paths go from it. -/
def PathEnv.visit (e : PathEnv) (n : PathNode) : Bool × Bool × List PathNode :=
  let k := n.key
  match e.header k.addr k.simt with
  | none => (false, true, [])
  | some (.error _) => (false, false, [])
  | some (.ok h) =>
    let run := if h.stile then 0 else n.run + 1
    let bad := (h.stile && (decide (0 < n.due) || decide (e.nlive ≤ h.live))) || decide (4096 < run)
    if 4096 < run ∨ h.last then (bad, true, [])
    else if k.simt then
      let next := k.addr + 8 * (1 + h.count)
      let (ahead, onward) := pathTaken e k next (e.instr (k.addr + 8 * h.count))
      (bad, true, (ahead.map Prod.fst ++ if onward then [{ k with addr := next }] else []).map fun k => { key := k, run := run, due := 0 })
    else
      let slots := h.slots
      let next := k.addr + 8 * (1 + slots.length)
      let ops := (List.range slots.length).map fun j => (slots.getD j 0, e.instr (k.addr + 8 * (j + 1)))
      let due := ops.foldl (fun m x => match x.2 with
        | some i => let l := Instr.lands i; if pathIssues k.loops l.1 then max m l.2 else m
        | none => m) n.due
      let sc := (ops.find? fun x => x.1 == 16).bind Prod.snd
      if sc = some .unfold then (bad, true, [{ key := { k with addr := next, simt := true, loops := [], div := [] }, run := run, due := 0 }])
      else
        let (ahead, onward) := pathTaken e k next sc
        let on := if !onward then [] else if h.lend then pathLoopEnd next k else [{ k with addr := next }]
        (bad, true, (ahead.map fun x => { key := x.1, run := run, due := if x.2 then due - 3 else due - 1 }) ++
          on.map fun x => { key := x, run := run, due := due - 1 })

/-- Follow paths until nothing new is found: the addresses that offend, and whether every header met decodes. The first
argument bounds the number of places visited. -/
def PathEnv.explore (e : PathEnv) : Nat → List PathNode → List PathNode → List Nat → Bool → List Nat × Bool
  | 0, _, _, bad, ok => (bad, ok)
  | f + 1, work, seen, bad, ok =>
    match work with
    | [] => (bad, ok)
    | n :: rest =>
      let old := seen.find? fun x => x.key == n.key
      let run := match old with
        | some x => max x.run n.run
        | none => n.run
      let due := match old with
        | some x => max x.due n.due
        | none => n.due
      if (match old with
        | some x => decide (n.run ≤ x.run ∧ n.due ≤ x.due)
        | none => false) then e.explore f rest seen bad ok
      else
        let m : PathNode := { key := n.key, run := run, due := due }
        let (b, dec, next) := e.visit m
        e.explore f (next ++ rest) (putBy (fun x => x.key == n.key) m seen) (if b then n.key.addr :: bad else bad) (ok && dec)

/-- The check of an object whose roots are read in one mode: offending addresses, and whether every header decodes. A root
that is no stile offends. -/
def PathEnv.checkMode (e : PathEnv) (roots : List Nat) (simt : Bool) : List Nat × Bool :=
  let start := roots.map fun a => { key := { addr := a, simt := simt, div := [], loops := [] }, run := 0, due := 0 }
  let stiles := roots.filter fun a => match e.header a simt with
    | some (.ok h) => !h.stile
    | _ => true
  e.explore (2 ^ 40) start [] stiles true

/-- The first offending header of an object; none when the check passes. The layout does not say in which mode the roots
are read (log entry 23): full-shape code passes when one reading that decodes throughout passes. -/
def PathEnv.firstBad (e : PathEnv) (roots : List Nat) (shape : Nat) : Option Nat :=
  let both := if shape = 0 then [e.checkMode roots true, e.checkMode roots false] else [e.checkMode roots false]
  let sound := both.filter Prod.snd
  let readings := if sound.isEmpty then both else sound
  if readings.any fun r => r.1.isEmpty then none
  else match readings with
    | [] => none
    | r :: _ => r.1.foldl (fun m a => match m with
      | none => some a
      | some x => some (min x a)) none

/-- Read n 8-byte words of a context; none where one is not readable. -/
def State.ctxWords (s : State) (c : Context) (va n : Nat) : Option (List Nat) :=
  (List.range n).foldl (fun acc k => match acc, s.ctxWord c (va + 8 * k) with
    | some ws, some x => some (ws ++ [x.toNat])
    | _, _ => none) (some [])

/-- Register the object at an address of a context: status, result, and the context with the object (R182, R223). -/
def State.registerObject (s : State) (c : Context) (va : Nat) : Nat × Nat × State :=
  match s.ctxWords c va 8 with
  | none => (2, 0, s)
  | some hw =>
    let o := objHeader fun k => hw.getD k 0
    if !o.ok then (2, 0, s)
    else match s.ctxWords c (va + 64) (o.csize / 8), s.ctxWords c (o.targets va) o.ntarg, s.ctxWords c (o.bounds va) o.nlbound with
      | some code, some targets, some bounds =>
        let pairs := bounds.map fun b => (o.cbase + fld b 0 32, fld b 32 32)
        let env : PathEnv := { lo := o.cbase, words := code, nlive := o.nlive, bound := fun x => (pairs.find? fun b => b.1 == x).map Prod.snd }
        match env.firstBad ((o.entry :: targets).map (o.cbase + ·)) o.shape with
        | some a => (2, a - o.cbase, s)
        | none =>
          let new : CodeObj := { lo := o.cbase, hi := o.cbase + o.csize, lives := o.nlive, liveBase := o.lists va, bounds := pairs }
          (0, 0, s.modCtx c.num fun c => { c with codes := putBy (fun x => x.lo == new.lo) new c.codes })
      | _, _, _ => (2, 0, s)

end Sys2Proof.Machine
end

