-- ==== Sys2Proof/Machine/Host.lean ====
section
/-! DEFINITION. The host's side (R220 to R235, R282, R405): the registers of BAR0, the BAR2 window, the command and completion
rings, and the 22 commands. -/

namespace Sys2Proof.Machine

/-! ### Registers of BAR0 (R178, R220, R222, R405) -/

/-- Change the host's registers. -/
def State.modHost (s : State) (f : HostRegs → HostRegs) : State := { s with host := f s.host }

/-- A device address register keeps bits hi − 1 to lo of what is written. -/
def keepBits (v lo n : Nat) : Nat := fld v lo n * 2 ^ lo

/-- The low word that was staged for a 64-bit register, 0 where none was. -/
def HostRegs.stagedLow (h : HostRegs) (off : Nat) : Nat :=
  match h.staged.find? fun x => x.1 == off with
  | some x => x.2.toNat
  | none => 0

/-- Offsets of the 64-bit registers. -/
def wideRegs : List Nat := [0x0000, 0x0100, 0x0118, 0x0140, 0x0150, 0x0200, 0x0210, 0x0300]

/-- A 64-bit register takes its value, at the write of its high word (R222). -/
def State.applyWide (s : State) (off v : Nat) : State :=
  let s1 := s.modHost fun h => { h with staged := h.staged.filter fun x => x.1 != off }
  match off with
  | 0x0000 => { s1 with rota := { s1.rota with base := keepBits v 11 41 } }
  | 0x0100 => s1.modHost fun h => { h with cmdBase := keepBits v 12 40 }
  | 0x0118 => s1.modHost fun h => { h with cplBase := keepBits v 12 40 }
  | 0x0140 => s1.modHost fun h => { h with fltBase := keepBits v 12 40 }
  | 0x0150 => s1.modHost fun h => { h with evBase := keepBits v 12 40 }
  | 0x0200 => s1.modHost fun h => { h with winBase := keepBits v 36 16 }
  | 0x0210 => s1.modHost fun h => { h with hwinBase := fld v 30 34 }
  | 0x0300 => s1.modHost fun h => { h with rcAddr := keepBits v 7 45 }
  | _ => s

/-- The doorbell: a write of HCMDTAIL (R220). The device reads the commands as steps of its own. -/
def State.doorbell (s : State) (v : Word) : State := s.modHost fun h => { h with cmdTail := fld v.toNat 0 16 }

/-- A write of HRINGSZ empties both rings (R220). -/
def State.setRingSize (s : State) (v : Word) : State :=
  s.modHost fun h => { h with ringSz := fld v.toNat 0 16, cmdTail := 0, cmdHead := 0, cplTail := 0, cplHead := 0 }

/-- A write of HFLTSIZE sets the host fault ring up (R222, R225). -/
def State.setFaultRing (s : State) (v : Word) : State :=
  let ring : MemRing := { base := s.host.fltBase, recs := fld v.toNat 0 16 + 1 }
  (s.modHost fun h => { h with fltSize := fld v.toNat 0 16, fltRing := some ring }).ringInit .phys ring

/-- A write of HEVSIZE sets the host event ring up (R222, R225). -/
def State.setEventRing (s : State) (v : Word) : State :=
  let ring : MemRing := { base := s.host.evBase, recs := fld v.toNat 0 16 + 1 }
  (s.modHost fun h => { h with evSize := fld v.toNat 0 16, evRing := some ring }).ringInit .phys ring

/-- A write of HCPLHEAD (R220, R224). -/
def State.setCplHead (s : State) (v : Word) : State := s.modHost fun h => { h with cplHead := fld v.toNat 0 16 }

/-- Units that have failed, at self-test or in service, a link that is down after it was up among them (R25, R228). -/
def State.faulty (s : State) : Nat :=
  s.failedUnits + s.testFails + ((List.range 18).filter fun k => s.badLinks.getLsbD k).length

/-- The roll-call record (R228). -/
def State.rollRecord (s : State) : List Byte :=
  let errs := (List.range 7).flatMap fun k =>
    let e := s.errs.getD k (0, 0)
    leBytes 2 (min e.1 65535) ++ leBytes 2 (min e.2 65535)
  leBytes 4 s.stage ++ leBytes 4 s.fwVersion.toNat ++ leBytes 4 s.host.cmdHead ++ leBytes 4 s.host.cmdTail ++ leBytes 8 s.host.cseq ++
  leBytes 4 s.rota.stat ++ leBytes 4 s.links.toNat ++ leBytes 4 s.contexts.length ++ leBytes 4 s.faulty ++ errs ++ leBytes 4 0 ++
  leBytes 56 0

/-- A roll call: RCADDR takes its high word, and the record goes to that host address with MSI-X vector 0 (R228). -/
def State.roll (s : State) (hi : Word) : State :=
  let s1 := s.applyWide 0x0300 (s.host.stagedLow 0x0300 + hi.toNat * 2 ^ 32)
  (s1.modHost fun h => { h with hostWrites := h.hostWrites ++ cellsFrom h.rcAddr s1.rollRecord }).msix 0

/-- A 32-bit write of the host at an offset of BAR0 (R222): offsets not listed, the upper halves of 32-bit registers and
read-only registers ignore it. -/
def State.bar0Write (s : State) (off : Nat) (v : Word) : State :=
  if wideRegs.contains off then s.modHost fun h => { h with staged := putBy (fun x => x.1 == off) (off, v) h.staged }
  else if off = 0x0304 then s.roll v
  else if 4 ≤ off ∧ wideRegs.contains (off - 4) then s.applyWide (off - 4) (s.host.stagedLow (off - 4) + v.toNat * 2 ^ 32)
  else match off with
    | 0x0008 => s.rotaCtl v
    | 0x0108 => s.doorbell v
    | 0x0120 => s.setRingSize v
    | 0x0130 => s.setCplHead v
    | 0x0148 => s.setFaultRing v
    | 0x0158 => s.setEventRing v
    | 0x0218 => s.modHost fun h => { h with hwinSize := fld v.toNat 0 20 }
    | _ => s

/-- A 64-bit register's value as the host reads it. -/
def State.wideValue (s : State) (off : Nat) : Nat :=
  match off with
  | 0x0000 => s.rota.base
  | 0x0100 => s.host.cmdBase
  | 0x0118 => s.host.cplBase
  | 0x0140 => s.host.fltBase
  | 0x0150 => s.host.evBase
  | 0x0200 => s.host.winBase
  | 0x0210 => s.host.hwinBase * 2 ^ 30
  | 0x0300 => s.host.rcAddr
  | 0x0400 => s.timebase
  | _ => 0

/-- What a 32-bit read of BAR0 gives (R222). The certificate and the thermal record are free values (log entry 15). -/
def State.bar0Read (s : State) (off : Nat) : Word :=
  if 0x1000 ≤ off ∧ off < 0x2000 then wordOf ((List.range 4).map fun k => Config.certificateByte (off - 0x1000 + k))
  else if 0x2000 ≤ off ∧ off < 0x2100 then wordOf ((List.range 4).map fun k => Config.thermalByte s.fresh (off - 0x2000 + k))
  else match off with
    | 0x0008 => BitVec.ofNat 32 (s.rota.last * 2 ^ 8)
    | 0x0010 => BitVec.ofNat 32 s.rota.stat
    | 0x0108 => BitVec.ofNat 32 s.host.cmdTail
    | 0x0110 => BitVec.ofNat 32 s.host.cmdHead
    | 0x0120 => BitVec.ofNat 32 s.host.ringSz
    | 0x0128 => BitVec.ofNat 32 s.host.cplTail
    | 0x0130 => BitVec.ofNat 32 s.host.cplHead
    | 0x0148 => BitVec.ofNat 32 s.host.fltSize
    | 0x0158 => BitVec.ofNat 32 s.host.evSize
    | 0x0218 => BitVec.ofNat 32 s.host.hwinSize
    | _ => if off % 8 = 0 then BitVec.ofNat 32 (s.wideValue off) else if off % 8 = 4 then BitVec.ofNat 32 (s.wideValue (off - 4) / 2 ^ 32) else 0

/-- COMMAND_DOORBELL. -/
def execCommandDoorbell (v : Word) (s : State) : Out := .next (s.doorbell v)

/-- RING_SIZE_WRITE. -/
def execRingSizeWrite (v : Word) (s : State) : Out := .next (s.setRingSize v)

/-- FAULT_RING_SETUP. -/
def execFaultRingSetup (v : Word) (s : State) : Out := .next (s.setFaultRing v)

/-- EVENT_RING_SETUP. -/
def execEventRingSetup (v : Word) (s : State) : Out := .next (s.setEventRing v)

/-- HCPLHEAD_WRITE. -/
def execHcplheadWrite (v : Word) (s : State) : Out := .next (s.setCplHead v)

/-- ROLL_CALL: the write of RCADDR's high word. -/
def execRollCall (hi : Word) (s : State) : Out := .next (s.roll hi)

/-- REGISTER_WRITE: a write of any register of BAR0. -/
def execRegisterWrite (off : Nat) (v : Word) (s : State) : Out := .next (s.bar0Write off v)

/-- BAR2_ACCESS: the host reads or writes device memory through the window (R220, R222); past device memory a read gives
ones and a write is dropped. -/
def execBar2Access (write : Bool) (off : Nat) (data : List Byte) (s : State) : Out :=
  .next (
    let pa := s.host.winBase + off
    let inside := min data.length (hostBase - pa)
    if write then s.pokeBytes pa (data.take inside)
    else s.modHost fun h =>
      { h with readBack := (if pa < hostBase then s.homeBytes pa inside else []) ++ List.replicate (data.length - inside) 0xFF })

/-! ### Commands and completions (R220, R221, R224, R227) -/

/-- Statuses of a completion (R221). -/
def stDone : Nat := 0
def stFull : Nat := 1
def stBad : Nat := 2
def stBusy : Nat := 3
def stStage : Nat := 4
def stSign : Nat := 5

/-- Slots of each ring. -/
def HostRegs.slots (h : HostRegs) : Nat := h.ringSz + 1

/-- The completion ring is full (R224). -/
def HostRegs.cplFull (h : HostRegs) : Bool := (h.cplTail + 1) % h.slots == h.cplHead

/-- A command's completion (R224): its record, the tail, MSI-X vector 1. -/
def State.complete (s : State) (seq op status result : Nat) : State :=
  let s1 := s.pokeBytes (s.host.cplBase + 16 * s.host.cplTail) (leBytes 8 (seq + op * 2 ^ 32 + status * 2 ^ 48) ++ leBytes 8 result)
  (s1.modHost fun h =>
    { h with cplTail := (h.cplTail + 1) % h.slots, cseq := seq, cmdsDone := h.cmdsDone + 1 }).msix 1

/-- The device can answer a command now: not while the completion ring is full (R224) or after the cut-off (R231). -/
def State.canAnswer (s : State) : Bool := !s.host.cplFull && s.stage != 3

/-- Commands that need a resident to issue or to be drained wait while the state is P3 (R230). -/
def commandNeedsIssue : Instr → Bool
  | .halt .. => true
  | .snapshot .. => true
  | _ => false

/-- A command waits to be read. -/
def State.commandWaits (s : State) (i : Instr) : Bool := !s.canAnswer || (s.power == 3 && commandNeedsIssue i)

/-- The shape of a command: its stage, then its check and effect with status and result, then its completion. -/
def State.command (s : State) (h : CmdHead) (i : Instr) (stage : Nat) (f : State → Nat × Nat × State) : State :=
  if s.commandWaits i then s
  else if s.stage < stage then s.complete h.seq (commandOpcode i) stStage 0
  else
    let (status, result, s1) := f s
    s1.complete h.seq (commandOpcode i) status result

/-- A command on the context its head names. -/
def State.onContext (s : State) (n : Nat) (f : Context → Nat × Nat × State) : Nat × Nat × State :=
  match s.ctxAt n with
  | some c => f c
  | none => (stBad, 0, s)

/-! ### Submission and contexts -/

/-- Submit (R403, R164, R165). -/
def State.submitRecord (s : State) (n va die : Nat) : Nat × Nat × State :=
  s.onContext n fun c =>
    if va % 128 ≠ 0 ∨ (s.ctxPhys c va false).isNone ∨ (s.ctxPhys c va true).isNone then (stBad, 0, s)
    else if dieCapacity ≤ s.dieCount die c.tenant then (stFull, 0, s)
    else
      let (ok, s1) := s.takeRecord c va 0 false (fun s q => s.enterDie die [q]) die
      (if ok then stDone else stBad, 0, s1)

/-- SUBMIT. -/
def execSubmit (h : CmdHead) (va : DWord) (die : Nat) (s : State) : Out :=
  .next (s.command h (.submit h va die) 2 fun s => s.submitRecord h.ctx va.toNat die)

/-- A handler address a context may hold: 8-byte aligned, below 2^56 (R200). -/
def handlerOk (a : Nat) : Bool := a % 8 == 0 && decide (a < 2 ^ 56)

/-- The lowest context number, from 1, that is not in use. -/
def State.freeContext (s : State) : Option Nat := (List.range (s.contexts.length + 1)).findSome? fun k =>
  if k + 1 < 2 ^ 16 && s.contexts.all (fun c => c.num != k + 1) then some (k + 1) else none

/-- A new context (R137, R200, R201, R210). -/
def Context.new (n root asid tenant tvec emuvec : Nat) (ring : Option MemRing) : Context :=
  { num := n, root := root, asid := asid, tenant := tenant, descs := [], brambles := List.replicate 8 Bramble.off
    tvec := BitVec.ofNat 56 tvec, emuvec := BitVec.ofNat 56 emuvec, fwait := 100, tctl := false, wden := false, wdlimit := 0
    wdcnt := 0, saveAreas := [], evRing := ring, traceRing := none, traceOn := false, halts := [], codes := [] }

/-- Context create (R201, R223, R225). -/
def State.createContext (s : State) (root asid tenant tvec emuvec ring ringLast : Nat) : Nat × Nat × State :=
  if !(handlerOk tvec && handlerOk emuvec) then (stBad, 0, s)
  else match s.freeContext with
    | none => (stBusy, 0, s)
    | some n =>
      let r : Option MemRing := if ring = 0 then none else some { base := ring, recs := ringLast + 1 }
      let c := Context.new n root asid tenant tvec emuvec r
      let s1 := { s with contexts := s.contexts ++ [c] }
      (stDone, n, match r with
        | some r => s1.ringInit (.virt c) r
        | none => s1)

/-- CONTEXT_CREATE. -/
def execContextCreate (h : CmdHead) (root : DWord) (asid tenant : Nat) (tvec emuvec ring : DWord) (ringLast : Nat) (s : State) : Out :=
  .next (s.command h (.contextCreate h root asid tenant tvec emuvec ring ringLast) 1 fun s =>
    s.createContext root.toNat asid tenant tvec.toNat emuvec.toNat ring.toNat ringLast)

/-- CONTEXT_DESTROY: status 3 while residents or queued records of the context remain (R223). -/
def execContextDestroy (h : CmdHead) (s : State) : Out :=
  .next (s.command h (.contextDestroy h) 1 fun s => s.onContext h.ctx fun _ =>
    if s.allRes.any (fun r => r.launch.ctx == h.ctx) ∨ s.allRecs.any (fun q => q.launch.ctx == h.ctx) then (stBusy, 0, s)
    else (stDone, 0, { s with contexts := s.contexts.filter fun c => c.num != h.ctx }))

/-- SAVE_AREA_ALLOT (R221). -/
def execSaveAreaAllot (h : CmdHead) (pa bytes : DWord) (s : State) : Out :=
  .next (s.command h (.saveAreaAllot h pa bytes) 1 fun s => s.onContext h.ctx fun _ =>
    (stDone, 0, s.modCtx h.ctx fun c => { c with saveAreas := c.saveAreas ++ [(pa.toNat, bytes.toNat)] }))

/-- CODE_OBJECT_REGISTER (R182, R282). -/
def execCodeObjectRegister (h : CmdHead) (va : DWord) (s : State) : Out :=
  .next (s.command h (.codeObjectRegister h va) 1 fun s => s.onContext h.ctx fun c => s.registerObject c va.toNat)

/-! ### Faults and code -/

/-- What the host's answer makes of a wait on an entry (R89). -/
def resolveHit (ham entry : Nat) (refuse : Bool) (f : FaultWait) : Option FaultWait :=
  if f = .entry ham entry then some (if refuse then .refused Cause.zero else .none) else none

/-- A porch entry's wait after the answer. -/
def porchResolved (refuse : Bool) (e : Porch) : FaultWait :=
  if refuse then .refused (e.cause 4 kindRead) else .none

/-- An engine command's state after the answer. -/
def engResolved (ham entry : Nat) (refuse : Bool) (st : EngState) (va : Nat) (wr : Bool) : EngState :=
  if st = .faultWait (.entry ham entry) then (if refuse then .faultWait (.refused (engCause 4 .g va wr)) else .running) else st

/-- A core's engine commands after the answer. -/
def Core.resolveCmds (c : Core) (ham entry : Nat) (refuse : Bool) : Core :=
  { c with
    cq := c.cq.map fun x => { x with state := engResolved ham entry refuse x.state x.fva x.fwr }
    mq := c.mq.map fun x => { x with state := engResolved ham entry refuse x.state x.fva x.fwr } }

/-- The host answers a merge entry: it frees, and every waiter walks afresh or raises code 4 (R89). -/
def State.resolve (s : State) (ham entry : Nat) (refuse : Bool) : Nat × Nat × State :=
  match (s.hamAt ham).merge.find? fun m => m.entry == entry with
  | none => (stBad, 0, s)
  | some m =>
    let s1 := s.modHam ham fun h => { h with merge := h.merge.filter fun x => x.entry != entry }
    let s2 := s1.mapRes fun r =>
      r.answer (resolveHit ham entry refuse) (porchResolved refuse) (if refuse then some m.page else none)
    let s3 := { s2 with cores := s2.cores.map fun c : Core => c.resolveCmds ham entry refuse }
    (stDone, 0, s3.wakeParked)

/-- FAULT_RESOLVE. -/
def execFaultResolve (h : CmdHead) (hamlet entry : Nat) (refuse : Bool) (s : State) : Out :=
  .next (s.command h (.faultResolve h hamlet entry refuse) 1 fun s => s.resolve hamlet entry refuse)

/-- CODE_PATCH: every instruction cache is invalidated (R219). -/
def execCodePatch (h : CmdHead) (s : State) : Out :=
  .next (s.command h (.codePatch h) 1 fun s =>
    (stDone, 0, { s with cores := s.cores.map fun c => { c with icache := [] } }))

/-! ### Stopping residents (R204, R205, R207, R214) -/

/-- A command's core field: 0xFF for every core. -/
def coreField (n : Nat) : Option Nat := if n = 255 then none else some n

/-- HALT: a request that stays in force (R214). -/
def execHalt (h : CmdHead) (core : Nat) (s : State) : Out :=
  .next (s.command h (.halt h core) 2 fun s => s.onContext h.ctx fun _ =>
    if 192 ≤ core ∧ core ≠ 255 then (stBad, 0, s)
    else (stDone, 0, s.modCtx h.ctx fun c => { c with halts := c.halts ++ [{ core := coreField core, done := [], holds := [] }] }))

/-- The resident of a context at a place (R223); `how` says whether it stands there or has been snapshotted there. One that a failed unit
has lost does neither (R25). -/
def State.named (s : State) (ctx : Nat) (n : ResName) (how : Away) : Option Resident :=
  s.allRes.find? fun r => r.launch.ctx == ctx && r.core == n.core && r.lgrp == n.lgrp && r.slot == n.slot && r.away == how &&
    !(how == .here && s.onFailed r)

/-- FREEZE (R205). -/
def execFreeze (h : CmdHead) (r : ResName) (s : State) : Out :=
  .next (s.command h (.freeze h r) 2 fun s => match s.named h.ctx r .here with
    | none => (stBad, 0, s)
    | some x => (stDone, 0, s.modRes x.rid fun x => { x with stop := if x.stop = .none then .frozen else x.stop, starve := 0 }))

/-- Withdraw a context's halt requests for a core field and release what they still halt, and no request that stays in force does
(R214). -/
def State.withdrawHalt (s : State) (ctx core : Nat) : Nat × Nat × State :=
  s.onContext ctx fun c =>
    let hit := fun q : HaltReq => q.core == coreField core
    let held := fun qs : List HaltReq => qs.flatMap HaltReq.holds
    let rest := c.halts.filter fun q => !hit q
    let freed := fun rid => (held (c.halts.filter hit)).contains rid && !(held rest).contains rid
    let s1 := s.modCtx ctx fun c => { c with halts := rest }
    (stDone, 0, s1.mapRes fun r => if r.launch.ctx = ctx ∧ freed r.rid ∧ r.stop = .halted then { r with stop := .none } else r)

/-- The host releases a resident: nothing stops it, and no halt request holds it any more (R204, R205, R214). -/
def State.unstop (s : State) (r : Resident) : State :=
  (s.modRes r.rid fun x => { x with stop := .none }).modCtx r.launch.ctx fun c =>
    { c with halts := c.halts.map fun q => { q with holds := q.holds.filter (· != r.rid) } }

/-- Release one resident; a snapshotted one becomes ready to be placed again (R204, R207). -/
def State.release1 (s : State) (ctx : Nat) (n : ResName) : Nat × Nat × State :=
  match s.named ctx n .here, s.named ctx n .snapshot with
  | some x, _ => (stDone, 0, s.unstop x)
  | none, some x => (stDone, 0, (s.unstop x).wakeRec x.rid)
  | none, none => (stBad, 0, s)

/-- RESUME. -/
def execResume (h : CmdHead) (withdraw : Bool) (r : ResName) (s : State) : Out :=
  .next (s.command h (.resume h withdraw r) 2 fun s =>
    if withdraw then s.withdrawHalt h.ctx r.core else s.release1 h.ctx r)

/-- SNAPSHOT (R207). -/
def execSnapshot (h : CmdHead) (r : ResName) (s : State) : Out :=
  .next (s.command h (.snapshot h r) 2 fun s => match s.named h.ctx r .here with
    | none => (stBad, 0, s)
    | some x =>
      let (ok, s1) := s.snapshotOff x.rid .snapshot false
      (if ok then stDone else stBad, 0, s1))

/-! ### State access (R223) -/

/-- The register a specifier names for a write by the host. -/
def hostReg (a : Src) (lane : Nat) : Option Reg :=
  match a with
  | .v n => some (.v lane n)
  | .o n => some (.o lane n)
  | .s n => some (.s n)
  | .p n => some (.p lane n)
  | _ => none

/-- A special register as a host write leaves it: read-only ones ignore it (R20), and the host may always write %carve
(R98). -/
def State.hostCsr (s : State) (r : Resident) (n : Nat) (x : Word) : Nat × State :=
  if 0x20 ≤ n ∧ n ≤ 0x2F then
    let g := s.ringOf r.core (n - 0x20)
    let g' := Ring.configured x (if fld x.toNat 8 11 = 0 then none else some r.uid)
    if (g.owner.isSome && g.owner != some r.uid) || decide (1024 < fld x.toNat 8 11) || decide (r.launch.spad * 256 < g'.base + g'.slotBytes * g'.slots) then (stBad, s)
    else (stDone, s.modRing r.core (n - 0x20) fun _ => g')
  else if n = 0x10A then (stDone, s.modCore r.core fun c => c.request x.toNat s.timebase)
  else if n = 0x10C then (stDone, s.modCtx r.launch.ctx fun c => c.setWatchdog x)
  else if (n = 0x1D ∨ n = 0x100) ∧ x.toNat % 8 ≠ 0 then (stBad, s)
  else (stDone, (s.modCtx r.launch.ctx fun c => c.writeCsr n x).modRes r.rid fun r => r.writeCsr n x)

/-- Read or write a register of a stopped resident. -/
def State.accessState (s : State) (r : Resident) (isCsr : Bool) (reg lane : Nat) (v : Nat) (write : Bool) : Nat × Nat × State :=
  let x := BitVec.ofNat 32 v
  if r.width ≤ lane then (stBad, 0, s)
  else if isCsr then
    if !isSpecialNumber reg then (stBad, 0, s)
    else if write then let (st, s1) := s.hostCsr r reg x; (st, 0, s1)
    else (stDone, (s.csrValue r lane reg).toNat, { s with fresh := s.fresh + 1 }.modRes r.rid (s.latchCsr reg))
  else match readSrc reg with
    | .error _ => (stBad, 0, s)
    | .ok a =>
      if !(a.wf && r.srcOk a) then (stBad, 0, s)
      else if write then match hostReg a lane with
        | some g => (stDone, 0, s.modRes r.rid fun r => { r with regs := r.regs.write g x })
        | none => (stBad, 0, s)
      else (stDone, (s.opnd r .int a lane).toNat, s)

/-- STATE_ACCESS: of a stopped resident; of one that runs it is busy. DEDUCED: log entry 23. -/
def execStateAccess (h : CmdHead) (r : ResName) (isCsr : Bool) (reg lane : Nat) (v : DWord) (write : Bool) (s : State) : Out :=
  .next (s.command h (.stateAccess h r isCsr reg lane v write) 2 fun s => match s.named h.ctx r .here with
    | none => (stBad, 0, s)
    | some x => if x.stop = .none then (stBusy, 0, s) else s.accessState x isCsr reg lane v.toNat write)

/-- CONTEXT_REGISTER: a register of R201. %wdcnt is read-only. -/
def execContextRegister (h : CmdHead) (reg : Nat) (v : DWord) (s : State) : Out :=
  .next (s.command h (.contextRegister h reg v) 1 fun s => s.onContext h.ctx fun _ =>
    let x : Word := v.setWidth 32
    if reg = 0x10C then (stDone, 0, s.modCtx h.ctx fun c => c.setWatchdog x)
    else if reg = 0x10D then (stDone, 0, s)
    else if !(reg == 0x1D || reg == 0x1E || reg == 0x100 || reg == 0x101 || reg == 0x10B || reg == 0x10E) then (stBad, 0, s)
    else if (reg = 0x1D ∨ reg = 0x100) ∧ x.toNat % 8 ≠ 0 then (stBad, 0, s)
    else (stDone, 0, s.modCtx h.ctx fun c => c.writeCsr reg x))

/-! ### Sampling, tracing, power, start (R213, R215, R227, R229, R230) -/

/-- SAMPLING: a period 2^k with k from 12 to 26, or 0 to stop (R215). -/
def execSampling (h : CmdHead) (k tenant : Nat) (pa : DWord) (last : Nat) (s : State) : Out :=
  .next (s.command h (.sampling h k tenant pa last) 2 fun s =>
    let rest := s.samplers.filter fun x => x.tenant != tenant
    if k = 0 then (stDone, 0, { s with samplers := rest })
    else if k < 12 ∨ 26 < k then (stBad, 0, s)
    else
      let ring : MemRing := { base := pa.toNat, recs := last + 1 }
      let new : Sampler := { tenant := tenant, k := k, ring := ring, seq := 0, last := s.timebase }
      (stDone, 0, { s with samplers := rest ++ [new] }.ringInit .phys ring))

/-- TRACE_CONFIGURE (R213, R225). -/
def execTraceConfigure (h : CmdHead) (enable : Bool) (va : DWord) (last : Nat) (s : State) : Out :=
  .next (s.command h (.traceConfigure h enable va last) 2 fun s => s.onContext h.ctx fun c =>
    if enable then
      let ring : MemRing := { base := va.toNat, recs := last + 1 }
      (stDone, 0, (s.modCtx h.ctx fun c => { c with traceRing := some ring, traceOn := true }).ringInit (.virt c) ring)
    else (stDone, 0, s.modCtx h.ctx fun c => { c with traceOn := false }))

/-- POWER: P3 is refused while the table runs or stops (R230). -/
def execPower (h : CmdHead) (p : Nat) (s : State) : Out :=
  .next (s.command h (.power h p) 0 fun s =>
    if p = 3 ∧ 2 ≤ s.rota.state then (stBusy, 0, s) else (stDone, 0, { s with power := p }))

/-- Cores that fail their self-test on the way to stage B. -/
def State.selfTestFails (s : State) : Nat := ((List.range 192).filter fun k => !Config.selfTest s.fresh k).length

/-- Links that train on the way to stage C. -/
def State.trainAll (s : State) : BitVec 18 :=
  BitVec.ofNat 18 (((List.range 18).filter fun k => Config.linkTrains s.fresh k).foldl (fun m k => m + 2 ^ k) 0)

/-- The next stage (R227, R234). -/
def State.advance (s : State) : Nat × Nat × State :=
  let f := { s with fresh := s.fresh + 1 }
  match s.stage with
  | 0 =>
    if s.fwDigest.isNone ∨ s.cfgDigest.isNone then (stStage, 0, s)
    else if s.selfTestFails = 0 then (stDone, 1, { f with stage := 1, testFails := 0 })
    else (stBad, 0, { f with testFails := s.selfTestFails })
  | 1 => (stDone, 2, { f with stage := 2, links := s.trainAll })
  | n => (stBad, n, s)

/-- ADVANCE_STAGE. -/
def execAdvanceStage (h : CmdHead) (s : State) : Out := .next (s.command h (.advanceStage h) 0 fun s => s.advance)

/-! ### Firmware and attestation (R228, R234, R235) -/

/-- A digest in a report, zero where nothing is loaded. -/
def digestOr (d : Option (List Byte)) : List Byte := d.getD (List.replicate 32 0)

/-- The report's signed part (log entry 15 for its layout). -/
def State.reportBody (s : State) (nonce : List Byte) : List Byte :=
  nonce ++ digestOr s.fwDigest ++ digestOr s.cfgDigest ++ leBytes 4 s.fwVersion.toNat ++ sha256 (Config.deviceKey s.starts)

/-- A command that reads memory where it names it; an access violation there fails it (R221, R405). DESIGN CHOICE: log entry 11. -/
def State.reading (s : State) (pa n : Nat) (f : List Byte → Nat × Nat × State) : Nat × Nat × State :=
  if s.rangeReachable pa n then f (s.homeBytes pa n) else (stBad, 0, s)

/-- ATTEST: the report for a nonce (R235). -/
def execAttest (h : CmdHead) (nonce report : DWord) (s : State) : Out :=
  .next (s.command h (.attest h nonce report) 0 fun s => s.reading nonce.toNat 32 fun x =>
    let body := s.reportBody x
    let bytes := body ++ Config.deviceSign s.starts body
    if s.rangeReachable report.toNat bytes.length then (stDone, bytes.length, s.pokeBytes report.toNat bytes) else (stBad, 0, s))

/-- FIRMWARE_LOAD: a signature that does not verify gives status 5 (R234). -/
def execFirmwareLoad (h : CmdHead) (pa bytes : DWord) (s : State) : Out :=
  .next (s.command h (.firmwareLoad h pa bytes) 0 fun s => s.reading pa.toNat bytes.toNat fun image =>
    if Config.signatureValid image then
      (stDone, 0, { s with fwDigest := some (sha256 image), fwVersion := Config.firmwareVersion image })
    else (stSign, 0, s))

/-- CONFIGURATION_LOAD (R234). -/
def execConfigurationLoad (h : CmdHead) (pa bytes : DWord) (s : State) : Out :=
  .next (s.command h (.configurationLoad h pa bytes) 0 fun s => s.reading pa.toNat bytes.toNat fun image =>
    if Config.signatureValid image then (stDone, 0, { s with cfgDigest := some (sha256 image) }) else (stSign, 0, s))

/-! ### Links and peer groups (R223, R233) -/

/-- PEER_GROUP_CONFIGURE: the participants' table is read from device memory; the reserved bits of an entry are ignored (R5). -/
def execPeerGroupConfigure (h : CmdHead) (group : Nat) (pa : DWord) (entries : Nat) (s : State) : Out :=
  .next (s.command h (.peerGroupConfigure h group pa entries) 2 fun s => s.reading pa.toNat (8 * entries) fun bs =>
    let es := (List.range entries).map fun k => dwordOf ((bs.drop (8 * k)).take 8)
    (stDone, 0, { s with peerGroups := putBy (fun g => g.group == group) { group := group, entries := es } s.peerGroups }))

/-- LINK_RETRAIN: a link that trains comes up, and counts as faulty no more; otherwise it stays down. DESIGN CHOICE: log entry 24. -/
def execLinkRetrain (h : CmdHead) (link : Nat) (s : State) : Out :=
  .next (s.command h (.linkRetrain h link) 2 fun s =>
    if 18 ≤ link then (stBad, 0, s)
    else
      let s1 := { s with fresh := s.fresh + 1 }
      if Config.linkTrains s.fresh link then (stDone, 0, { s1 with links := s.links ||| BitVec.ofNat 18 (2 ^ link), badLinks := s.badLinks &&& ~~~(BitVec.ofNat 18 (2 ^ link)) }) else (stBad, 0, s1))

end Sys2Proof.Machine
end

