-- ==== Sys2Proof/Machine/World.lean ====
section
/-! DEFINITION. The physical world (R25, R209, R227, R231 to R233): reset, the thermal cut-off, uncorrectable errors, units
that fail in service, links that go down. -/

namespace Sys2Proof.Machine

/-- POWER_GOOD_RESET: stage A with every register at its reset value (R22, R227). Error counts run since power-good
(R228), and memory keeps its contents over a reset without it (log entry 21). -/
def execPowerGoodReset (powerGood : Bool) (s : State) : Out :=
  .next (
    let s1 := { State.reset with agenda := s.agenda, oracle := s.oracle, fresh := s.fresh + 1, nextId := s.nextId, starts := s.starts + 1 }
    if powerGood then s1 else { s1 with mem := s.mem, hbmPoison := s.hbmPoison, errs := s.errs, regErrs := s.regErrs })

/-- THERMAL_CUTOFF: all state is lost but the registers of BAR0, and roll call reports stage 3 until a reset (R231). -/
def execThermalCutoff (s : State) : Out :=
  .next { State.reset with
    stage := 3, host := s.host, timebase := s.timebase, errs := s.errs, agenda := s.agenda, oracle := s.oracle
    fresh := s.fresh + 1, nextId := s.nextId, starts := s.starts
    rota := { Rota.reset with
      base := s.rota.base, last := s.rota.last, erow := s.rota.erow, ecode := s.rota.ecode, row := s.rota.row, state := s.rota.state } }

/-! ### Uncorrectable errors (R209, R232) -/

/-- Count an uncorrectable error of a structure, in the row order of R232; counts saturate (R228). -/
def State.countError (s : State) (k : Nat) : State :=
  { s with errs := modAt s.errs k fun e => (e.1, min 65535 (e.2 + 1)) }

/-- Add a mark to a list of marks. -/
def addMark (ms : List Nat) (k : Nat) : List Nat := if ms.contains k then ms else k :: ms

/-- Poison one register of a resident and count the lane group's register error (R209). -/
def State.poisonReg (s : State) (rid : Nat) (g : Reg) : State :=
  match s.resAt rid with
  | none => s
  | some r =>
    let hit := fun x : Nat × Nat × Nat => x.1 == r.core && x.2.1 == r.lgrp
    let n := ((s.regErrs.find? hit).map fun x => x.2.2).getD 0
    let s1 := s.modRes rid fun r => { r with regs := r.regs.put g (r.regs.read g) true }
    { s1 with regErrs := putBy hit (r.core, r.lgrp, n + 1) s.regErrs }.countError 2

/-- Poison the 8-byte word of an address in its L1 line. -/
def Core.poisonL1 (c : Core) (va asid tenant : Nat) : Core :=
  let mark := fun l : L1Line => { l with poison := l.poison ||| BitVec.ofNat 16 (2 ^ (va % 128 / 8)) }
  { c with l1 := updIf (fun l => l.tag == va / 128 && l.asid == asid && l.tenant == tenant) mark c.l1 }

/-- Poison both elements of a word of the accumulator store. -/
def Tile.poisonPair (t : Tile) (elem : Nat) : Tile :=
  [elem / 2 * 2, elem / 2 * 2 + 1].foldl (fun t k => t.set { t.get k with poison := true }) t

/-- UNCORRECTABLE_ERROR: a check finds an error: the unit of the check is poisoned, an instruction cache line goes, or what a
fabric, a link or the host port carries is sent again (R209, R232). -/
def execUncorrectableError (w : ErrSite) (s : State) : Out :=
  .next (match w with
    | .hbm pa => if pa < hostBase then (let s1 := { s with hbmPoison := addMark s.hbmPoison (pa / 32) }; s1.countError 0) else s
    | .l2 pa => if s.inL2 (pa / 128) then (let s1 := { s with l2Poison := addMark s.l2Poison (pa / 8) }; s1.countError 1) else s
    | .l1 core va asid tenant =>
      (s.modCore core fun c => c.poisonL1 va asid tenant).countError 1
    | .spad core unit off =>
      (s.modUnit unit core fun u => { u with spad := { u.spad with poison := addMark u.spad.poison (off / 8) } }).countError 1
    | .acc core unit tile elem =>
      (s.modTile core unit tile fun t => t.poisonPair elem).countError 1
    | .vreg rid lane n => s.poisonReg rid (.v lane n)
    | .oreg rid lane n => s.poisonReg rid (.o lane n)
    | .sreg rid n => s.poisonReg rid (.s n)
    | .icache core va asid tenant =>
      (s.modCore core fun c =>
        { c with icache := c.icache.filter fun l => !(l.tag == va / 128 && l.asid == asid && l.tenant == tenant) }).countError 3
    | .fabric => s.countError 4
    | .olisal => s.countError 5
    | .hostPort => s.countError 6)

/-- A check corrects an error: only the count shows it (R228, R232). -/
def State.corrected (s : State) (k : Nat) : State :=
  { s with errs := modAt s.errs k fun e => (min 65535 (e.1 + 1), e.2) }

/-! ### Failed units (R25) -/

/-- Residents that stand on a failed unit, and not yet on one that failed before, are lost: each ends as by `tret.kill`, what it had in flight and a take-off of it with it, its
launch's record keeps its state, and the reeve hears of it. R25 speaks of the reeve of each tenant; event rings belong to contexts, so each context that had residents there gets
one event with their number. DESIGN CHOICE: log entry 30. -/
def State.loseResidents (s : State) (core : Nat) (lgrp : Option Nat) : State :=
  let lost := (s.onCore core).filter fun r => match lgrp with
    | some k => r.lgrp == k
    | none => !(s.coreAt core).failedLg.contains r.lgrp
  let ctxs := (lost.map fun r => r.launch.ctx).eraseDups
  let s1 := lost.foldl (fun s r => ((s.releaseTiles r.rid).endStopped r fun _ => true).modRes r.rid fun r =>
    { r.killed with stop := .none, takeOff := none, flights := [], porch := [], loads := [], acrdPending := [] }) s
  let s2 := { s1 with running := updIf (fun x => lost.any fun r => r.launch.lid == x.launch.lid) (fun x => { x with dead := true }) s1.running }
  ctxs.foldl (fun s n => match s.ctxAt n with
    | some c => s.reeveEvent c 5 (BitVec.ofNat 64 (core + (match lgrp with
        | some k => k * 2 ^ 8
        | none => 2 ^ 12))) (BitVec.ofNat 64 (lost.filter fun r => r.launch.ctx == n).length)
    | none => s) s2

/-- A unit-failed event (R226). -/
def State.unitEvent (s : State) (kind unit : Nat) : State := s.hostEvent 19 0 0 (BitVec.ofNat 64 (kind + unit * 2 ^ 16)) 0

/-- A unit-failed event, and the count that roll call reports. -/
def State.failEvent (s : State) (kind unit : Nat) : State := { s with failedUnits := s.failedUnits + 1 }.unitEvent kind unit

/-- UNIT_FAILED (R25): a record that fits nowhere else becomes unplaceable (R169). A lane group's unit number is 16 core + lane group: log entry 24. -/
def execUnitFailed (u : FailUnit) (s : State) : Out :=
  .next (
    if s.stage = 3 then s
    else match u with
    | .core n =>
      if 192 ≤ n ∨ (s.coreAt n).failed then s
      else (((s.modCore n fun c => { c with failed := true }).failEvent 0 n).loseResidents n none).moveBlocks.judgeAll
    | .laneGroup n k =>
      if 192 ≤ n ∨ 16 ≤ k ∨ (s.coreAt n).failed ∨ (s.coreAt n).failedLg.contains k then s
      else (((s.modCore n fun c => { c with failedLg := k :: c.failedLg }).failEvent 1 (16 * n + k)).loseResidents n (some k)).moveBlocks.judgeAll
    | .slice n => if 1536 ≤ n ∨ s.failedSlices.contains n then s else { s with failedSlices := n :: s.failedSlices }.failEvent 2 n
    | .channel n => if 256 ≤ n ∨ s.failedChannels.contains n then s else { s with failedChannels := n :: s.failedChannels }.failEvent 3 n)

/-- A running `cred` whose peer group a link serves has lost it (R233). -/
def CopyCmd.loseLink (c : CopyCmd) (gs : List PeerGroup) (link : Nat) : CopyCmd :=
  if c.stays && c.state != .queued && gs.any (fun g => g.group == c.b2.toNat && g.links.getLsbD link) then { c with linkLost := true } else c

/-- LINK_DOWN: after eight failed retries a link goes down and stays down, with a link-down and a unit-failed event; the reductions
that run over it fail (R25, R232, R233). R226 lists no kind for a link: log entry 24. -/
def execLinkDown (link : Nat) (s : State) : Out :=
  .next (
    if link < 18 ∧ s.links.getLsbD link then
      let bit := BitVec.ofNat 18 (2 ^ link)
      let lose := fun c : Core => { c with cq := c.cq.map fun x => x.loseLink s.peerGroups link }
      let s1 := { s with links := s.links &&& ~~~bit, badLinks := s.badLinks ||| bit, cores := s.cores.map lose }
      (s1.hostEvent 18 0 0 (BitVec.ofNat 64 link) 8).unitEvent Config.linkKind.toNat link
    else s)

end Sys2Proof.Machine
end

