-- ==== Sys2Proof/Machine/Dispatch.lean ====
section
/-! DEFINITION. One arm for each constructor of `Instr`: a direct call of its meaning. -/

namespace Sys2Proof.Machine

/-- What an instruction, a command or an event does to the machine. -/
def exec (i : Instr) (s : State) : Host.Outcome State Fault Refusal :=
  match i with
  | .nop p => Sys2Proof.Machine.execNop p s
  | .mov p d a => Sys2Proof.Machine.execMov p d a s
  | .movi p d k => Sys2Proof.Machine.execMovi p d k s
  | .sel p d a b c neg => Sys2Proof.Machine.execSel p d a b c neg s
  | .lea p d a b sh sx => Sys2Proof.Machine.execLea p d a b sh sx s
  | .iadd p d a b sat => Sys2Proof.Machine.execIadd p d a b sat s
  | .iadd64 p d a b ext => Sys2Proof.Machine.execIadd64 p d a b ext s
  | .imul p d a b => Sys2Proof.Machine.execImul p d a b s
  | .imulhi p d a b u => Sys2Proof.Machine.execImulhi p d a b u s
  | .imad p d a b c => Sys2Proof.Machine.execImad p d a b c s
  | .iabs p d a sat => Sys2Proof.Machine.execIabs p d a sat s
  | .imin p d a b u => Sys2Proof.Machine.execImin p d a b u s
  | .imax p d a b u => Sys2Proof.Machine.execImax p d a b u s
  | .and p d a b => Sys2Proof.Machine.execAnd p d a b s
  | .or p d a b => Sys2Proof.Machine.execOr p d a b s
  | .xor p d a b => Sys2Proof.Machine.execXor p d a b s
  | .andn p d a b => Sys2Proof.Machine.execAndn p d a b s
  | .shl p d a b => Sys2Proof.Machine.execShl p d a b s
  | .shr p d a b arith => Sys2Proof.Machine.execShr p d a b arith s
  | .rot p d a b right => Sys2Proof.Machine.execRot p d a b right s
  | .clz p d a => Sys2Proof.Machine.execClz p d a s
  | .popc p d a => Sys2Proof.Machine.execPopc p d a s
  | .brev p d a => Sys2Proof.Machine.execBrev p d a s
  | .bfx p d a ctl sx => Sys2Proof.Machine.execBfx p d a ctl sx s
  | .bfi p d a base ctl => Sys2Proof.Machine.execBfi p d a base ctl s
  | .icmp p d a b cc => Sys2Proof.Machine.execIcmp p d a b cc s
  | .idp4 p d a b c k => Sys2Proof.Machine.execIdp4 p d a b c k s
  | .fadd p d a b m => Sys2Proof.Machine.execFadd p d a b m s
  | .fsub p d a b m => Sys2Proof.Machine.execFsub p d a b m s
  | .fmul p d a b m => Sys2Proof.Machine.execFmul p d a b m s
  | .ffma p d a b c m => Sys2Proof.Machine.execFfma p d a b c m s
  | .fmin p d a b => Sys2Proof.Machine.execFmin p d a b s
  | .fmax p d a b => Sys2Proof.Machine.execFmax p d a b s
  | .fcmp p d a b cc => Sys2Proof.Machine.execFcmp p d a b cc s
  | .fcvt p d a dt st m => Sys2Proof.Machine.execFcvt p d a dt st m s
  | .frnd p d a m => Sys2Proof.Machine.execFrnd p d a m s
  | .hadd2 p d a b f m => Sys2Proof.Machine.execHadd2 p d a b f m s
  | .hmul2 p d a b f m => Sys2Proof.Machine.execHmul2 p d a b f m s
  | .hfma2 p d a b f m => Sys2Proof.Machine.execHfma2 p d a b f m s
  | .frcp p d a g => Sys2Proof.Machine.execFrcp p d a g s
  | .frsq p d a g => Sys2Proof.Machine.execFrsq p d a g s
  | .fsqrt p d a g m => Sys2Proof.Machine.execFsqrt p d a g m s
  | .fdiv p d a b g m => Sys2Proof.Machine.execFdiv p d a b g m s
  | .fex2 p d a g => Sys2Proof.Machine.execFex2 p d a g s
  | .flg2 p d a g => Sys2Proof.Machine.execFlg2 p d a g s
  | .fsin p d a g => Sys2Proof.Machine.execFsin p d a g s
  | .fcos p d a g => Sys2Proof.Machine.execFcos p d a g s
  | .ftanh p d a g => Sys2Proof.Machine.execFtanh p d a g s
  | .fsigm p d a g => Sys2Proof.Machine.execFsigm p d a g s
  | .pand p d a b na nb => Sys2Proof.Machine.execPand p d a b na nb s
  | .por p d a b na nb => Sys2Proof.Machine.execPor p d a b na nb s
  | .pxor p d a b na nb => Sys2Proof.Machine.execPxor p d a b na nb s
  | .pmov p d a na => Sys2Proof.Machine.execPmov p d a na s
  | .shfl p d a b m mode => Sys2Proof.Machine.execShfl p d a b m mode s
  | .vote p d a m mode => Sys2Proof.Machine.execVote p d a m mode s
  | .wred p d a m op ty => Sys2Proof.Machine.execWred p d a m op ty s
  | .bra p off => Sys2Proof.Machine.execBra p off s
  | .bdiv p off rejoin => Sys2Proof.Machine.execBdiv p off rejoin s
  | .join => Sys2Proof.Machine.execJoin s
  | .brx p a => Sys2Proof.Machine.execBrx p a s
  | .call p off link => Sys2Proof.Machine.execCall p off link s
  | .callr p link a => Sys2Proof.Machine.execCallr p link a s
  | .ret p a => Sys2Proof.Machine.execRet p a s
  | .exit p => Sys2Proof.Machine.execExit p s
  | .loop p off stages cnt => Sys2Proof.Machine.execLoop p off stages cnt s
  | .lexit p => Sys2Proof.Machine.execLexit p s
  | .mark p n => Sys2Proof.Machine.execMark p n s
  | .trap p code => Sys2Proof.Machine.execTrap p code s
  | .brk p code => Sys2Proof.Machine.execBrk p code s
  | .fold => Sys2Proof.Machine.execFold s
  | .unfold => Sys2Proof.Machine.execUnfold s
  | .xmov p d a j => Sys2Proof.Machine.execXmov p d a j s
  | .xbc p d a j m => Sys2Proof.Machine.execXbc p d a j m s
  | .ldG32 p d a land off => Sys2Proof.Machine.execLdG32 p d a land off s
  | .ldG64 p d a land off => Sys2Proof.Machine.execLdG64 p d a land off s
  | .ldSp32 p d a off => Sys2Proof.Machine.execLdSp32 p d a off s
  | .ldSp64 p d a off => Sys2Proof.Machine.execLdSp64 p d a off s
  | .stG32 p d a off => Sys2Proof.Machine.execStG32 p d a off s
  | .stG64 p d a off => Sys2Proof.Machine.execStG64 p d a off s
  | .stSp32 p d a off => Sys2Proof.Machine.execStSp32 p d a off s
  | .stSp64 p d a off => Sys2Proof.Machine.execStSp64 p d a off s
  | .ldc p d a off => Sys2Proof.Machine.execLdc p d a off s
  | .pf p a l2 off => Sys2Proof.Machine.execPf p a l2 off s
  | .phase p k => Sys2Proof.Machine.execPhase p k s
  | .ifence p k => Sys2Proof.Machine.execIfence p k s
  | .arm p lo hi tok => Sys2Proof.Machine.execArm p lo hi tok s
  | .wait p d => Sys2Proof.Machine.execWait p d s
  | .rget p d k => Sys2Proof.Machine.execRget p d k s
  | .rgetW p d k => Sys2Proof.Machine.execRgetW p d k s
  | .rput p k => Sys2Proof.Machine.execRput p k s
  | .rdone p k => Sys2Proof.Machine.execRdone p k s
  | .ldo32 p d a land off k => Sys2Proof.Machine.execLdo32 p d a land off k s
  | .ldo64 p d a land off k => Sys2Proof.Machine.execLdo64 p d a land off k s
  | .sto32 p d a off k => Sys2Proof.Machine.execSto32 p d a off k s
  | .sto64 p d a off k => Sys2Proof.Machine.execSto64 p d a off k s
  | .cpy p x y b set xs ys twoD => Sys2Proof.Machine.execCpy p x y b set xs ys twoD s
  | .cpyt p td ts set tr commit => Sys2Proof.Machine.execCpyt p td ts set tr commit s
  | .cacc p x y b set xs ys imm op ty => Sys2Proof.Machine.execCacc p x y b set xs ys imm op ty s
  | .ccas p x y b set xs w64 land => Sys2Proof.Machine.execCcas p x y b set xs w64 land s
  | .cfill p x b set xs => Sys2Proof.Machine.execCfill p x b set xs s
  | .ccrc p x y b set xs ys => Sys2Proof.Machine.execCcrc p x y b set xs ys s
  | .cred p x y b set op ty => Sys2Proof.Machine.execCred p x y b set op ty s
  | .jdec p x set => Sys2Proof.Machine.execJdec p x set s
  | .mma p ta tb k set t kend => Sys2Proof.Machine.execMma p ta tb k set t kend s
  | .mzero p t => Sys2Proof.Machine.execMzero p t s
  | .acrd p n r t => Sys2Proof.Machine.execAcrd p n r t s
  | .acwr p n r t => Sys2Proof.Machine.execAcwr p n r t s
  | .apatch p n r mask t op => Sys2Proof.Machine.execApatch p n r mask t op s
  | .tset p n b => Sys2Proof.Machine.execTset p n b s
  | .spawn p d a => Sys2Proof.Machine.execSpawn p d a s
  | .bar k => Sys2Proof.Machine.execBar k s
  | .barv k c => Sys2Proof.Machine.execBarv k c s
  | .renter p id => Sys2Proof.Machine.execRenter p id s
  | .rleave p => Sys2Proof.Machine.execRleave p s
  | .wset p k b => Sys2Proof.Machine.execWset p k b s
  | .wclr p k => Sys2Proof.Machine.execWclr p k s
  | .tret k => Sys2Proof.Machine.execTret k s
  | .csrr p d n => Sys2Proof.Machine.execCsrr p d n s
  | .csrw p n a => Sys2Proof.Machine.execCsrw p n a s
  | .tlbi p k => Sys2Proof.Machine.execTlbi p k s
  | .simtLoadLanding rid k => Sys2Proof.Machine.execSimtLoadLanding rid k s
  | .lateDataArrival rid k => Sys2Proof.Machine.execLateDataArrival rid k s
  | .mergeEntryFreedWait hamlet => Sys2Proof.Machine.execMergeEntryFreedWait hamlet s
  | .faultRecordDeliver hamlet => Sys2Proof.Machine.execFaultRecordDeliver hamlet s
  | .copyCommandStart core id units => Sys2Proof.Machine.execCopyCommandStart core id units s
  | .copyCommandComplete core id => Sys2Proof.Machine.execCopyCommandComplete core id s
  | .copyCommandStop core id => Sys2Proof.Machine.execCopyCommandStop core id s
  | .jdecApply core id => Sys2Proof.Machine.execJdecApply core id s
  | .mmaGroup core id => Sys2Proof.Machine.execMmaGroup core id s
  | .mmaRetire core id => Sys2Proof.Machine.execMmaRetire core id s
  | .mmaStop core id => Sys2Proof.Machine.execMmaStop core id s
  | .rowTransferPerform core id => Sys2Proof.Machine.execRowTransferPerform core id s
  | .credComplete core id status parts => Sys2Proof.Machine.execCredComplete core id status parts s
  | .residentRetire rid => Sys2Proof.Machine.execResidentRetire rid s
  | .placementRound core => Sys2Proof.Machine.execPlacementRound core s
  | .classAgeing qid => Sys2Proof.Machine.execClassAgeing qid s
  | .queueUnderflowMove hamletLevel n => Sys2Proof.Machine.execQueueUnderflowMove hamletLevel n s
  | .slotEdge => Sys2Proof.Machine.execSlotEdge s
  | .stileTakeOff rid => Sys2Proof.Machine.execStileTakeOff rid s
  | .overrunSnapshot rid => Sys2Proof.Machine.execOverrunSnapshot rid s
  | .slackDonation tenant => Sys2Proof.Machine.execSlackDonation tenant s
  | .faultWaitSnapshot rid => Sys2Proof.Machine.execFaultWaitSnapshot rid s
  | .watchdogExpiry ctx => Sys2Proof.Machine.execWatchdogExpiry ctx s
  | .sampleLatch => Sys2Proof.Machine.execSampleLatch s
  | .carveWrite p a => Sys2Proof.Machine.execCarveWrite p a s
  | .carveChangeTakeEffect core => Sys2Proof.Machine.execCarveChangeTakeEffect core s
  | .carveTimeout core => Sys2Proof.Machine.execCarveTimeout core s
  | .rgcfgWrite p k a => Sys2Proof.Machine.execRgcfgWrite p k a s
  | .wdctlWrite p a => Sys2Proof.Machine.execWdctlWrite p a s
  | .ectrloRead p d => Sys2Proof.Machine.execEctrloRead p d s
  | .clkRead p d => Sys2Proof.Machine.execClkRead p d s
  | .commandDoorbell v => Sys2Proof.Machine.execCommandDoorbell v s
  | .ringSizeWrite v => Sys2Proof.Machine.execRingSizeWrite v s
  | .faultRingSetup v => Sys2Proof.Machine.execFaultRingSetup v s
  | .eventRingSetup v => Sys2Proof.Machine.execEventRingSetup v s
  | .rollCall hi => Sys2Proof.Machine.execRollCall hi s
  | .rotaGo v => Sys2Proof.Machine.execRotaGo v s
  | .rotaStop v => Sys2Proof.Machine.execRotaStop v s
  | .registerWrite off v => Sys2Proof.Machine.execRegisterWrite off v s
  | .bar2Access write off data => Sys2Proof.Machine.execBar2Access write off data s
  | .submit h va die => Sys2Proof.Machine.execSubmit h va die s
  | .contextCreate h root asid tenant tvec emuvec ring ringLast => Sys2Proof.Machine.execContextCreate h root asid tenant tvec emuvec ring ringLast s
  | .contextDestroy h => Sys2Proof.Machine.execContextDestroy h s
  | .saveAreaAllot h pa bytes => Sys2Proof.Machine.execSaveAreaAllot h pa bytes s
  | .codeObjectRegister h va => Sys2Proof.Machine.execCodeObjectRegister h va s
  | .faultResolve h hamlet entry refuse => Sys2Proof.Machine.execFaultResolve h hamlet entry refuse s
  | .codePatch h => Sys2Proof.Machine.execCodePatch h s
  | .halt h core => Sys2Proof.Machine.execHalt h core s
  | .freeze h r => Sys2Proof.Machine.execFreeze h r s
  | .resume h withdraw r => Sys2Proof.Machine.execResume h withdraw r s
  | .snapshot h r => Sys2Proof.Machine.execSnapshot h r s
  | .stateAccess h r isCsr reg lane v write => Sys2Proof.Machine.execStateAccess h r isCsr reg lane v write s
  | .contextRegister h reg v => Sys2Proof.Machine.execContextRegister h reg v s
  | .sampling h k tenant pa last => Sys2Proof.Machine.execSampling h k tenant pa last s
  | .traceConfigure h enable va last => Sys2Proof.Machine.execTraceConfigure h enable va last s
  | .power h p => Sys2Proof.Machine.execPower h p s
  | .advanceStage h => Sys2Proof.Machine.execAdvanceStage h s
  | .attest h nonce report => Sys2Proof.Machine.execAttest h nonce report s
  | .firmwareLoad h pa bytes => Sys2Proof.Machine.execFirmwareLoad h pa bytes s
  | .configurationLoad h pa bytes => Sys2Proof.Machine.execConfigurationLoad h pa bytes s
  | .peerGroupConfigure h group pa entries => Sys2Proof.Machine.execPeerGroupConfigure h group pa entries s
  | .linkRetrain h link => Sys2Proof.Machine.execLinkRetrain h link s
  | .powerGoodReset powerGood => Sys2Proof.Machine.execPowerGoodReset powerGood s
  | .thermalCutoff => Sys2Proof.Machine.execThermalCutoff s
  | .uncorrectableError w => Sys2Proof.Machine.execUncorrectableError w s
  | .unitFailed u => Sys2Proof.Machine.execUnitFailed u s
  | .linkDown link => Sys2Proof.Machine.execLinkDown link s
  | .emptyBundle hdr => Sys2Proof.Machine.execEmptyBundle hdr s
  | .illegalEncodingPath word slot => Sys2Proof.Machine.execIllegalEncodingPath word slot s
  | .hcplheadWrite v => Sys2Proof.Machine.execHcplheadWrite v s

end Sys2Proof.Machine
end

