-- ==== Sys2Proof/Machine/Issuing.lean ====
section
/-! DEFINITION. How a resident issues: results that fall due (R59, R61, R63 to R66), asynchronous causes (R198), fetch (R71,
R83, R87, R219), headers (R31, R53 to R55, R291), one SIMT instruction (R53 to R58) or one bundle as a unit (R54, R69, R72,
R102), and the lane group's choice (R170, R171). -/

namespace Sys2Proof.Machine

/-- Go on from a next state. -/
def andThen (o : Out) (f : State → Out) : Out :=
  match o with
  | .next s => f s
  | x => x

/-! ### The latch -/

/-- A header without fields, for a latch that holds no instruction. -/
def Header.blank : Header := Header.mk 0 0 15 15 false false 0 0 false false false false false 0

/-- A latch for a resident at a header; `r` stands past what is issued. -/
def Issue.start (r : Resident) (hdrAddr : Nat) (hdr : Header) (idx slot : Nat) (word : DWord) : Issue :=
  { res := r, hdrAddr := hdrAddr, hdr := hdr, idx := idx, slot := slot, word := word, probe := false, commit := false, raised := [],
    held := false, faults := [], trapped := false, moved := false, post := none, porchNeed := 0, copyNeed := 0, ringNeed := [], flagNeed := [],
    stores := [], after := [], lines := [], inOrder := false }

/-- A resident back in its place: residents stand in the order of their numbers. -/
def insertRes (r : Resident) : List Resident → List Resident
  | [] => [r]
  | x :: xs => if r.rid < x.rid then r :: x :: xs else x :: insertRes r xs

/-- Take the resident of a latch out of the list. -/
def State.latch (s : State) (q : Issue) : State :=
  { s with residents := s.residents.filter fun x => x.rid != q.res.rid, iss := some q }

/-- Put the resident in the latch back, changed. -/
def State.unlatch (s : State) (f : Resident → Resident) : State :=
  match s.iss with
  | none => s
  | some q => { s with residents := insertRes (f q.res) s.residents, iss := none }

/-- Change a resident that is not being issued. -/
def State.setRes (s : State) (r : Resident) : State := s.modRes r.rid fun _ => r

/-! ### Loads of a wide thread -/

/-- A load that is held behind a refused one (R106, R107). -/
def Resident.holdsLoad (r : Resident) (e : Porch) : Bool := e.data.isNone && e.fault == .none && r.behindRefused e.due (e.seq / 32)

/-- Porch entries that keep a domain waiting (R65): neither arrived nor refused, and not held until a trap that comes first. -/
def Resident.late (r : Resident) (e : Porch) : Bool := !e.arrived && e.refusal.isNone && !r.holdsLoad e

/-- The deferred trap of refused loads (R66): those of the earliest bundle are reported together under the cause R199 takes
first. DEDUCED: log entry 25. -/
def deferredCause (es : List Porch) : Option (Cause × List Nat) :=
  match es.filter fun e => e.refusal.isSome with
  | [] => none
  | e0 :: bad =>
    let first := bad.foldl (fun m e => min m (e.seq / 32)) (e0.seq / 32)
    let same := (e0 :: bad).filter fun e => e.seq / 32 == first
    let of := fun (c : Cause) (e : Porch) => e.refusal.any fun k => k.code == c.code
    (pickCause (same.filterMap Porch.refusal)).map fun c => (c, (same.filter (of c)).map Porch.id)

/-- Take a trap in a resident that stands between instructions. -/
def State.trapAt (s : State) (r : Resident) (c : Cause) (point : TrapPoint) : State :=
  let (r', s') := s.takeTrap r c r.hdr r.hdr r.place r.ended point
  s'.setRes r'

/-- The same where a skip passes over words, as far as the header can be read (R200, R203). DEDUCED: log entry 25. -/
def State.trapOver (s : State) (header : Option DWord) (r : Resident) (c : Cause) (point : TrapPoint) (past : DWord → Resident) : State :=
  match header with
  | some h =>
    let (r', s') := s.takeTrap (past h) c r.hdr r.hdr r.place r.ended point
    s'.setRes r'
  | none => s.trapAt r c point

/-! ### Asynchronous causes (R198) -/

/-- A pending cause is taken before the next issue. Inside a handler it is a double trap, and is pending again once the handler
has returned; without a handler it stays pending (R204). -/
def State.takeAsync (s : State) (r : Resident) (c : Cause) (rest : List Cause) : State :=
  let point : TrapPoint := match c.cmd with
    | some k => .engine k
    | none => .asynchronous
  if r.trap.inh then s.trapAt { r with async := rest, asyncHeld := r.asyncHeld ++ [c] } c point
  else if s.noHandler r c.code then s.trapAt r c point
  else s.trapAt { r with async := rest } c point

/-! ### Fetch -/

/-- What a fetch gives. -/
inductive Fetched where
  | words (ws : List DWord)
  | trap (c : Cause)
  | wait (f : FaultWait)
  deriving DecidableEq, Repr

/-- The mask of a cause that concerns a resident as one. -/
def Resident.wholeMask (r : Resident) : Nat := if r.simt then r.active.toNat else 1

/-- Fetch words through the instruction cache. -/
def State.fetchWords (s : State) (r : Resident) : List Nat → Fetched × State
  | [] => (.words [], s)
  | a :: as_ =>
    let w := s.who r
    if r.fetchRefused a then (.trap (addrCause 4 a r.wholeMask kindFetch), s)
    else match s.checkFetch w a with
    | .bad => (.trap (addrCause 5 a r.wholeMask kindFetch), s.translate w false kindFetch 8 a)
    | .fault =>
      let (f, s1) := (s.translate w false kindFetch 8 a).joinMerge w kindFetch a
      (.wait f, s1)
    | .ok _ =>
      let (x, s1) := s.fetchWord w a
      match s1.fetchWords r as_ with
      | (.words xs, s2) => (.words (x :: xs), s2)
      | y => y

/-- The addresses of n words. -/
def wordAddrs (a n : Nat) : List Nat := (List.range n).map fun k => a + 8 * k

/-- Fetch a header and the words it says follow it. -/
def State.fetchBlock (s : State) (r : Resident) (len : DWord → Nat) : Fetched × State :=
  match s.fetchWords r [r.hdr] with
  | (.words [h], s1) => s1.fetchWords r (wordAddrs r.hdr (1 + len h))
  | y => y

/-- Words that follow a clause header, as its field says (R53). -/
def clauseLen (h : DWord) : Nat := fld h.toNat 48 3

/-- The words of the clause a wave stands in: those fetched when it began. -/
def State.clauseWords (s : State) (r : Resident) : Fetched × State :=
  match r.clause with
  | some (a, ws) => if r.place ≠ 0 ∧ a = r.hdr then (.words ws, s) else s.fetchBlock r clauseLen
  | none => s.fetchBlock r clauseLen

/-- The words of the bundle a wide thread stands at: from its pinned range while it stays there (R71). -/
def State.bundleWords (s : State) (r : Resident) : Fetched × State :=
  match r.pin.bind fun p => p.bundles.find? fun b => b.1 == r.hdr with
  | some b => (.words b.2, s)
  | none => s.fetchBlock r bundleLen

/-- The pin after a bundle: one of the range that could not be captured at the `mark` is captured as it issues in its turn; a
bundle elsewhere leaves the range. -/
def LoopPin.follow (p : LoopPin) (a : Nat) (ws : List DWord) : Option LoopPin :=
  if p.bundles.any fun b => b.1 == a then some p
  else if 0 < p.left ∧ p.next = a then
    some { left := p.left - 1, next := a + 8 * ws.length, bundles := p.bundles ++ [(a, ws)] }
  else none

/-! ### What may issue (R170) -/

/-- A resident that may issue as far as its own state goes: one that is being taken off stands at its stile, and is frozen once its
window has passed (R186). -/
def State.canIssue (s : State) (r : Resident) : Bool :=
  s.landing r && !s.onFailed r && r.takeOff.all fun t => !t.atStile && decide (s.timebase < t.deadline)

/-- The set fields of a header name flags of the record (R55). -/
def Resident.setsOk (r : Resident) (h : Header) : Bool :=
  let ok := fun x : Nat => x == 15 || r.launch.flags.getLsbD x
  ok h.seta && ok h.setb

/-- A word's opcode, its sense bit aside (R285). What R31 and R55 ask of a clause's or bundle's words is asked of the opcode and of the
fields themselves, since a word that is no instruction has its turn later (R291). -/
def wordOp (w : DWord) : Nat := 2 * fld w.toNat 56 8

/-- Control transfers, `fold` and `join`, which stand last in their clause (R55, R386). -/
def standsLast (op : Nat) : Bool := (decide (0x090 ≤ op ∧ op ≤ 0x09E)) || op == 0x0AA || op == 0x160

/-- The set a long-latency operation selects (R57, R288): true for set B. A load of a bundle selects none. -/
def selectsSet (simt : Bool) (w : DWord) : Option Bool :=
  let f := fields w.toNat
  let op := wordOp w
  if op = 0x0C0 ∨ op = 0x0C2 ∨ (0x0F0 ≤ op ∧ op ≤ 0x0FA) ∨ (0x100 ≤ op ∧ op ≤ 0x10A) then
    (if simt ∧ f.land < 2 then some (f.land == 1) else none)
  else if (0x130 ≤ op ∧ op ≤ 0x13C) ∨ op = 0x140 ∨ op = 0x156 then some (f.set == 1)
  else none

/-- The kind of slot that R290 gives opcodes, by ranges: 16 the scalar slot, 17 the matrix slot, 18 the copy slots, 0 a lane slot
(R339 of `icmp`); 1 is a lane slot or, with scalar operands, the scalar slot. -/
def opSlots : List (Nat × Nat × Nat) :=
  [(0x002, 0x00A, 1), (0x010, 0x02C, 1), (0x030, 0x038, 1), (0x03A, 0x03A, 0), (0x03C, 0x03C, 1), (0x040, 0x056, 0), (0x060, 0x072, 0),
   (0x080, 0x086, 0), (0x090, 0x090, 16), (0x096, 0x09C, 16), (0x0A0, 0x0A8, 16), (0x0AC, 0x0AC, 16), (0x0B0, 0x0B2, 0), (0x0C0, 0x0D2, 1),
   (0x0D4, 0x0DA, 16), (0x0E0, 0x0E4, 16)] ++
  [(0x0F0, 0x0FA, 1), (0x100, 0x10A, 1), (0x110, 0x11A, 1), (0x120, 0x12A, 1), (0x130, 0x13C, 18), (0x140, 0x148, 17), (0x14A, 0x14A, 16),
   (0x150, 0x154, 16), (0x156, 0x156, 18), (0x158, 0x166, 16)]

/-- The kind of an opcode; none where it is unassigned or has no VLIW slot, which is a case of the op itself. -/
def slotKind (op : Nat) : Option Nat := (opSlots.find? fun x => decide (x.1 ≤ op ∧ op ≤ x.2.1)).map fun x => x.2.2

/-- The destination registers an instruction names, both of a pair. -/
def dstsOf : Instr → List Dst
  | .mov _ d _ | .movi _ d _ | .sel _ d _ _ _ _ | .iadd _ d _ _ _ | .imul _ d _ _ | .imulhi _ d _ _ _ | .imad _ d _ _ _ | .iabs _ d _ _ |
    .imin _ d _ _ _ | .imax _ d _ _ _ | .and _ d _ _ | .or _ d _ _ | .xor _ d _ _ | .andn _ d _ _ | .shl _ d _ _ | .shr _ d _ _ _ |
    .rot _ d _ _ _ | .clz _ d _ | .popc _ d _ | .brev _ d _ | .bfx _ d _ _ _ | .bfi _ d _ _ _ | .icmp _ d _ _ _ | .idp4 _ d _ _ _ _ |
    .fadd _ d _ _ _ | .fsub _ d _ _ _ | .fmul _ d _ _ _ | .ffma _ d _ _ _ _ | .fmin _ d _ _ | .fmax _ d _ _ | .fcmp _ d _ _ _ |
    .fcvt _ d _ _ _ _ | .frnd _ d _ _ | .hadd2 _ d _ _ _ _ | .hmul2 _ d _ _ _ _ | .hfma2 _ d _ _ _ _ | .frcp _ d _ _ | .frsq _ d _ _ |
    .fsqrt _ d _ _ _ | .fdiv _ d _ _ _ _ | .fex2 _ d _ _ | .flg2 _ d _ _ | .fsin _ d _ _ | .fcos _ d _ _ | .ftanh _ d _ _ |
    .fsigm _ d _ _ | .pand _ d _ _ _ _ | .por _ d _ _ _ _ | .pxor _ d _ _ _ _ | .pmov _ d _ _ | .shfl _ d _ _ _ _ | .vote _ d _ _ _ |
    .wred _ d _ _ _ _ | .xmov _ d _ _ | .xbc _ d _ _ _ | .ldG32 _ d _ _ _ | .ldSp32 _ d _ _ | .ldc _ d _ _ | .ldo32 _ d _ _ _ _ |
    .csrr _ d _ | .ectrloRead _ d | .clkRead _ d => [d]
  | .lea _ d _ _ _ _ | .iadd64 _ d _ _ _ | .ldG64 _ d _ _ _ | .ldSp64 _ d _ _ | .ldo64 _ d _ _ _ _ => [d, Dst.next d]
  | _ => []

/-- The sources an instruction names, both registers of a pair. -/
def srcsOf : Instr → List Src
  | .mov _ _ a | .iabs _ _ a _ | .clz _ _ a | .popc _ _ a | .brev _ _ a | .fcvt _ _ a _ _ _ | .frnd _ _ a _ | .frcp _ _ a _ |
    .frsq _ _ a _ | .fsqrt _ _ a _ _ | .fex2 _ _ a _ | .flg2 _ _ a _ | .fsin _ _ a _ | .fcos _ _ a _ | .ftanh _ _ a _ |
    .fsigm _ _ a _ | .xmov _ _ a _ | .pmov _ _ a _ | .ldSp32 _ _ a _ | .ldSp64 _ _ a _ | .ldc _ _ a _ | .barv _ a | .csrw _ _ a |
    .carveWrite _ a | .rgcfgWrite _ _ a | .wdctlWrite _ a => [a]
  | .iadd _ _ a b _ | .imul _ _ a b | .imulhi _ _ a b _ | .imin _ _ a b _ | .imax _ _ a b _ | .and _ _ a b | .or _ _ a b |
    .xor _ _ a b | .andn _ _ a b | .shl _ _ a b | .shr _ _ a b _ | .rot _ _ a b _ | .bfx _ _ a b _ | .icmp _ _ a b _ |
    .fadd _ _ a b _ | .fsub _ _ a b _ | .fmul _ _ a b _ | .fmin _ _ a b | .fmax _ _ a b | .fcmp _ _ a b _ | .hadd2 _ _ a b _ _ |
    .hmul2 _ _ a b _ _ | .hfma2 _ _ a b _ _ | .fdiv _ _ a b _ _ | .pand _ _ a b _ _ | .por _ _ a b _ _ | .pxor _ _ a b _ _ |
    .vote _ _ a b _ | .wred _ _ a b _ _ | .xbc _ _ a _ b | .stSp32 _ a b _ => [a, b]
  | .sel _ _ a b c _ | .imad _ _ a b c | .bfi _ _ a b c | .idp4 _ _ a b c _ | .ffma _ _ a b c _ | .shfl _ _ a b c _ | .arm _ a b c =>
    [a, b, c]
  | .lea _ _ a b _ _ => pairSrcs a ++ [b]
  | .iadd64 _ _ a b e => pairSrcs a ++ (if e = .pair then pairSrcs b else [b])
  | .ldG32 _ _ a _ _ | .ldG64 _ _ a _ _ | .ldo32 _ _ a _ _ _ | .ldo64 _ _ a _ _ _ | .pf _ a _ _ => pairSrcs a
  | .stG32 _ d a _ | .sto32 _ d a _ _ => d :: pairSrcs a
  | .stG64 _ d a _ | .sto64 _ d a _ _ => pairSrcs d ++ pairSrcs a
  | .stSp64 _ d a _ => pairSrcs d ++ [a]
  | _ => []

/-- The source fields of an integer or memory op; a store's data stands in D. -/
def srcFields (op : Nat) (f : Fields) : List Nat :=
  if op = 0x002 ∨ op = 0x006 then []
  else if op = 0x004 ∨ op = 0x01A ∨ (0x030 ≤ op ∧ op ≤ 0x034) ∨ (0x0C0 ≤ op ∧ op ≤ 0x0C6) ∨ (0x0D0 ≤ op ∧ op ≤ 0x10A) then [f.a]
  else if op = 0x008 ∨ op = 0x018 ∨ op = 0x038 ∨ op = 0x03C then [f.a, f.b, f.c]
  else if 0x0C8 ≤ op then [f.d, f.a]
  else [f.a, f.b]

/-- D names a destination of an integer or memory op. -/
def writesD (op : Nat) : Bool := op != 0x002 && op != 0x0D2 && !(decide ((0x0C8 ≤ op ∧ op ≤ 0x0CE) ∨ 0x110 ≤ op))

/-- The operands are those that the scalar slot asks of an integer or memory op (R290): no source of the vector or operand-file class, and
a destination of the scalar class. -/
def scalarOperands (w : DWord) : Bool :=
  let f := fields w.toNat
  (!writesD (wordOp w) || decide (0xA00 ≤ f.d ∧ f.d < 0xB00)) && (srcFields (wordOp w) f).all fun x => decide (0x900 ≤ x)

/-- A slot is of the kind R290 gives the opcode. -/
def slotAllowed (w : DWord) (slot : Nat) : Bool :=
  match slotKind (wordOp w) with
  | none => true
  | some 0 => decide (slot < 16)
  | some 1 => decide (slot < 16) || (slot == 16 && scalarOperands w)
  | some 18 => slot == 18 || slot == 19
  | some k => slot == k

/-- The cluster a cross-cluster op names (R31). -/
def clusterNamed (w : DWord) : Nat := if wordOp w = 0x0B0 ∨ wordOp w = 0x0B2 then (fields w.toNat).b else 0

/-- The set of a long-latency operation is not 15 (R55, R57). -/
def longOk (h : Header) (simt : Bool) (w : DWord) : Bool :=
  match selectsSet simt w with
  | some b => decide ((if b then h.setb else h.seta) < 12)
  | none => true

/-- The instructions that words stand for; none for a word that is no instruction, which is reported when its turn comes. -/
def wordsRead (ws : List DWord) : List (Option Instr) := ws.map fun w => (decodeWord w.toNat).toOption

/-- A `fold`, of either sense, whose predicate field is not 7, which R33 has found at the clause. DEDUCED: log entry 17. -/
def foldPredicated (w : DWord) : Bool := wordOp w == 0x0AA && fld w.toNat 50 5 != 7

/-- The words of a clause are no case of R55, nor of R33. -/
def clauseWordsOk (h : Header) (ws : List DWord) : Bool :=
  ws.all (fun w => !foldPredicated w) && (ws.dropLast.all fun w => !standsLast (wordOp w)) && ws.all (longOk h true)

/-- The words of a bundle are no case of R31 and R55. -/
def bundleWordsOk (h : Header) (width : Nat) (ws : List DWord) : Bool :=
  (h.slots.zip ws).all fun x => slotAllowed x.2 x.1 && longOk h false x.2 && decide (clusterNamed x.2 < width)

/-- A bundle header fits the column set (R31). -/
def Resident.bundleOk (r : Resident) (h : Header) : Bool :=
  h.shape == r.launch.shape && fld h.lanes r.width 16 == 0 && !(h.cp1 && h.shape == 2) && r.setsOk h

/-- A resident at a stile: one that is being taken off issues nothing more (R186), a halt lands (R214). -/
def State.stileStop (s : State) (r : Resident) : Option State :=
  match r.takeOff with
  | some t => some (s.setRes { r with takeOff := some { t with atStile := true } })
  | none =>
    if (s.ctxOf r).halting r then
      some ((s.modCtx r.launch.ctx fun c => c.markHalted r).setRes { r with stop := .halted })
    else none

/-- The vector registers among destinations and sources. -/
def dstVec : Dst → Option Nat
  | .v n => some n
  | _ => none

/-- The vector register a source names. -/
def srcVec : Src → Option Nat
  | .v n => some n
  | _ => none

/-- The vector registers an instruction reads or writes; a row transfer names k of them (R149). -/
def vecUses (k : Nat) (i : Instr) : List Nat :=
  (dstsOf i).filterMap dstVec ++ (srcsOf i).filterMap srcVec ++ (match i with
    | .acrd _ n _ _ | .acwr _ n _ _ | .apatch _ n _ _ _ _ => (List.range k).map (n + ·)
    | _ => [])

/-- Reads and writes of registers that an `acrd` of the wave has still to write are interlocked, and nothing else is (R57,
R298). -/
def Resident.interlocked (r : Resident) (i : Instr) : Bool :=
  r.acrdPending.any fun g => match g with
    | .v _ n => (vecUses r.rowRegs i).contains n
    | _ => false

/-! ### The end of an issue -/

/-- The accesses a hold waits for join the merge table (R87, R351). -/
def State.joinAll (s : State) (w : Who) : List (Nat × Nat) → List FaultWait × State
  | [] => ([], s)
  | (kind, a) :: rest =>
    let (f, s1) := s.joinMerge w kind a
    let (fs, s2) := s1.joinAll w rest
    (f :: fs, s2)

/-- A resident in a fault wait. -/
def State.waitFor (s : State) (r : Resident) (fs : List FaultWait) : State :=
  if fs.isEmpty then s.setRes r else s.setRes { r with wait := .fault fs, waitSince := s.timebase }

/-- A resident whose fetch waits. -/
def State.fetchWait (s : State) (r : Resident) (f : FaultWait) : State := s.setRes { r with wait := .fetch f, waitSince := s.timebase }

/-- A wide thread whose domain loads hold: its wait is for the translations that they wait for, if any (R87). -/
def State.waitLanding (s : State) (r : Resident) (es : List Porch) : State :=
  let fs := (es.map Porch.fault).filter fun f => match f with
    | .entry _ _ => true
    | .full _ _ _ => true
    | _ => false
  if fs.isEmpty then s.setRes r else s.setRes { r with wait := .landing fs, waitSince := s.timebase }

/-- A hold: the resident stands where it stood; accesses whose translation waits are in the table. -/
def State.heldBack (s : State) (r : Resident) (faults : List (Nat × Nat)) : State :=
  let s1 := s.unlatch fun _ => r
  let (fs, s2) := s1.joinAll (s1.who r) faults
  s2.waitFor r fs

/-- The instruction or bundle has completed: raised by `trap` and `brk`, whose handler runs after it (R309). -/
def Issue.completed (q : Issue) : Bool :=
  !q.trapped || (q.res.stop != .doubleTrap && (q.res.trap.hidden.any fun h => h.point == .completed))

/-- A resident whose instruction or bundle has issued or trapped: bookkeeping that ends with it. `before` is the resident as it
stood. -/
def Resident.issued (r before : Resident) : Resident :=
  { r with refused := [], exempt := r.exempt && !before.exempt, starve := 0 }

/-! ### Headers -/

/-- A resident past the words that a header says follow it. -/
def Resident.pastWords (r : Resident) (h : DWord) (len : Nat) : Resident :=
  { r with hdr := r.hdr + 8 * (1 + len), place := 0, ended := h.getLsbD 23 }

/-- The illegal-encoding path at a header (R55, R291): slot 31, the fields read from the header. A skip goes past the words that
the header says follow it. -/
def State.headerTrap (s : State) (r : Resident) (h : DWord) (len : Nat) : Out :=
  andThen (exec (.illegalEncodingPath h 31) (s.latch (Issue.start (r.pastWords h len) r.hdr Header.blank r.place 31 h))) fun s1 =>
    .next (s1.unlatch fun x => x.issued r)

/-- What a word stands for in its slot. -/
def wordInstr (w : DWord) (slot : Nat) : Instr :=
  match decodeWord w.toNat with
  | .ok i => i
  | .error _ => .illegalEncodingPath w slot

/-! ### SIMT -/

/-- A wave past an instruction of its clause. -/
def Resident.pastInstr (r : Resident) (h : Header) : Resident :=
  if r.place + 1 < h.count then { r with place := r.place + 1 }
  else { r with hdr := r.hdr + 8 * (1 + h.count), place := 0, ended := h.last }

/-- The trap of a fetch: nothing of what follows the header issues, and a skip passes over the instruction (R203). -/
def State.fetchTrapSimt (s : State) (r : Resident) (c : Cause) : State :=
  let (hw, s1) := s.headerWord r
  s1.trapOver hw { r with refused := [] } c .atIssue fun w => match decodeClauseHeader w.toNat with
    | .ok h => { r with refused := [] }.pastInstr h
    | .error _ => { r with refused := [] }.pastWords w (clauseLen w)

/-- The end of a SIMT instruction: the instruction count rises by one for each that completes (R293). -/
def State.finishSimt (s : State) (r : Resident) : State :=
  match s.iss with
  | none => s
  | some q =>
    if q.held then s.heldBack r q.faults
    else
      let s1 := if r.place = 0 then s.countBy r.launch.tenant 1 1 else s
      s1.unlatch fun x =>
        let y := x.issued r
        if q.completed then { y with count := y.count + 1 } else y

/-- Loads of global memory. -/
def loadsGlobal : Instr → Bool
  | .ldG32 .. | .ldG64 .. | .ldo32 .. | .ldo64 .. | .ldc .. => true
  | _ => false

/-- Accesses and orderings that come after the loads of their own bundle (R102, R106, R107, R115, R342, R375, R384), and the
engine commands, which read and write memory after them. -/
def followsLoads : Instr → Bool
  | .stG32 .. | .stG64 .. | .sto32 .. | .sto64 .. | .phase .. | .ifence .. | .bar .. | .barv .. | .spawn .. | .tlbi .. |
    .cpy .. | .cpyt .. | .cacc .. | .ccas .. | .cfill .. | .ccrc .. | .cred .. | .jdec .. | .mma .. => true
  | _ => false

/-- What follows a wave's outstanding loads in program order, for the words of them that are open: other accesses of global memory, what
orders them, and a `fold`. -/
def fixesLoads : Instr → Bool
  | .fold => true
  | i => followsLoads i || loadsGlobal i

/-- Issue one instruction of a clause whose header is in order. -/
def State.issueInstr (s : State) (r : Resident) (h : Header) (hw : DWord) (ws : List DWord) : Out :=
  let w := ws.getD r.place 0
  if r.interlocked (wordInstr w r.place) then .next s
  else
    let r1 := if fixesLoads (wordInstr w r.place) then r.fixLoads else r
    let here := { r1 with clause := some (r.hdr, hw :: ws), pin := none }
    andThen (exec (wordInstr w r.place) (s.latch (Issue.start (here.pastInstr h) r.hdr h r.place r.place w))) fun s1 =>
      .next (s1.finishSimt here)

/-- Issue from a wave. -/
def State.issueSimt (s : State) (r : Resident) : Out :=
  match s.clauseWords r with
  | (.trap c, s1) => .next (s1.fetchTrapSimt r c)
  | (.wait f, s1) => .next (s1.fetchWait r f)
  | (.words [], s1) => .next s1
  | (.words (hw :: ws), s1) =>
    match decodeClauseHeader hw.toNat with
    | .error _ => s1.headerTrap r hw (clauseLen hw)
    | .ok h =>
      if !r.setsOk h || !clauseWordsOk h ws then s1.headerTrap r hw (clauseLen hw)
      else if r.place = 0 then
        match (if h.stile then s1.stileStop r else none) with
        | some s2 => .next s2
        | none => if r.waitOk h.waitMask then s1.issueInstr r h hw ws else .next s1
      else s1.issueInstr r h hw ws

/-! ### VLIW -/

/-- A trap at the bundle that is due and has not issued, of its fetch or of refused loads (R66); a skip passes over it. -/
def State.trapBundle (s : State) (r : Resident) (c : Cause) (point : TrapPoint) : State :=
  let (hw, s1) := s.headerWord r
  s1.trapOver hw r c point fun w => r.pastWords w (bundleLen w)

/-- Results of an op take its slot as their place in the bundle (R61). -/
def Resident.tag (r : Resident) (flights porch slot : Nat) : Resident :=
  { r with
    flights := r.flights.take flights ++ (r.flights.drop flights).map fun f => { f with seq := f.seq / 32 * 32 + slot }
    porch := r.porch.take porch ++ (r.porch.drop porch).map fun e => { e with seq := e.seq / 32 * 32 + slot } }

/-- Accesses of the scratchpad and of its rings and comparators, which come after an `ldo` of the same bundle (R107). -/
def localAccess : Instr → Bool
  | .stSp32 .. | .stSp64 .. | .rget .. | .rgetW .. | .rput .. | .rdone .. | .wait .. => true
  | _ => false

/-- The same, and the loads, which come after an `ldo` of an earlier bundle. -/
def localLater : Instr → Bool
  | .ldSp32 .. | .ldSp64 .. => true
  | i => localAccess i

/-- An ordered load (R107). -/
def ordersAll : Instr → Bool
  | .ldo32 .. | .ldo64 .. => true
  | _ => false

/-- A bundle with an access that must follow the bundle's own loads (R102, R107). -/
def bundleInOrder (ops : List Instr) : Bool := ops.any followsLoads || (ops.any ordersAll && ops.any localAccess)

/-- The loads of a wide thread that are not performed yet: each waits for its translation, or its data has not arrived (R65, R87,
R206). Later accesses wait behind it at their issue, a stall that changes no result (R60). A refused load holds nobody's issue: every
bundle before its count issues, with its accesses and an arrival at a barrier, as R66 says, although R106, R107 and R115 have them wait
until the load is performed, which a retry does later. DEDUCED: log entry 6. -/
def State.loadsOpen (s : State) (r : Resident) : List Porch :=
  r.porch.filter fun e => e.data.isNone && e.refusal.isNone && !s.casOutstanding r e.id && !r.holdsLoad e

/-- The count from which a load of an op is due at (R63, R64). -/
def loadLand : Instr → Option Nat
  | .ldG32 _ _ _ n _ | .ldG64 _ _ _ n _ | .ldo32 _ _ _ n _ _ | .ldo64 _ _ _ n _ _ => some n
  | .ldc _ _ _ _ => some 8
  | _ => none

/-- A bundle's accesses wait for those loads: accesses of global memory for any, those of the scratchpad for an `ldo` (R103 to R107). -/
def waitsBehind (es : List Porch) (ops : List Instr) : Bool :=
  !es.isEmpty && (ops.any (fun i => followsLoads i || loadsGlobal i) || (es.any (fun e => e.scope.isSome) && ops.any localLater))

/-- Held loads are performed before a bundle that must not pass them issues: one with accesses that follow its own loads, or with a load
that is not held itself, or, behind an `ldo`, with accesses of the scratchpad. -/
def Resident.heldFirst (r : Resident) (ops : List Instr) : Bool :=
  let es := r.porch.filter r.holdsLoad
  !es.isEmpty && (bundleInOrder ops || (es.any (fun e => e.scope.isSome) && ops.any localLater) ||
    (ops.filterMap loadLand).any fun n => !r.behindRefused (r.count + n) r.count)

/-- Perform the loads held behind a refused one, in their order. -/
def State.performHeld (s : State) (r : Resident) : State := (r.porch.filter r.holdsLoad).foldl (fun s e => s.porchLoad r e) s

/-- Run the ops of a bundle in word order, each in its slot. -/
def State.runOps (s : State) : List (Nat × DWord) → Out
  | [] => .next s
  | (slot, w) :: rest =>
    let nf := (s.iss.map fun q => q.res.flights.length).getD 0
    let np := (s.iss.map fun q => q.res.porch.length).getD 0
    andThen (exec (wordInstr w slot) (s.modIss fun q => { q with slot := slot, word := w, lines := [] })) fun s1 =>
      (s1.modCur fun r => r.tag nf np slot).runOps rest

/-- An effect that waited for the bundle's ops. -/
def State.applyAfter (s : State) : Instr → State
  | .loop _ off stages cnt => s.effLoop off stages cnt
  | .lexit _ => s.effLexit
  | .phase _ k => s.effPhase k
  | .ifence _ k => s.effIfence k
  | .arm _ lo hi tok => s.effArm lo hi tok
  | .tset _ n b => s.effTset n b
  | .bar k => s.arrive k none
  | .barv k c => s.effBarv k c
  | .wset _ k b => s.effWset k b
  | .wclr _ k => s.effWclr k
  | .csrw _ n a => s.effCsrw n a
  | .carveWrite _ a => s.effCarve a
  | .rgcfgWrite _ k a => s.effRgcfg k a
  | .wdctlWrite _ a => s.effWdctl a
  | .tlbi _ k => s.effTlbi k
  | _ => s

/-- The loop branch of a lend bundle (R69). -/
def Resident.loopEnd (r : Resident) : Resident :=
  match r.loops with
  | [] => r
  | e :: es =>
    if e.i + 1 < e.count + e.stages - 1 then { r with hdr := e.start, place := 0, loops := { e with i := e.i + 1 } :: es }
    else { r with loops := es }

/-- The bundle's stores, then what waited for them, then the loop branch, the count with the idle counts of a taken transfer
(R59, R62), and the cause that `trap` or `brk` raises. -/
def State.finishBundle (s : State) (before : Resident) (lend : Bool) : State :=
  match s.iss with
  | none => s
  | some q =>
    let s1 := q.after.foldl State.applyAfter (s.doStores q.res q.stores)
    let moved := (s1.iss.map Issue.moved).getD false
    let s2 := if lend && !moved then s1.modCur Resident.loopEnd else s1
    let s3 := (s2.modCur fun r => { r.issued before with count := r.count + (if moved then 3 else 1) }).countBy before.launch.tenant 1 1
    let s4 := match q.post with
      | some c => s3.trapAfter c
      | none => s3
    s4.unlatch id

/-- A wide thread past a bundle. -/
def Resident.pastBundle (r : Resident) (h : Header) (hw : DWord) (ws : List DWord) : Resident :=
  { r with
    hdr := r.hdr + 8 * (1 + h.slots.length), place := 0, ended := h.last
    pin := r.pin.bind fun p => p.follow r.hdr (hw :: ws) }

/-- A transfer that has `lend` ignored where it is taken (R355). -/
def lendSkipped : Instr → Option Pred
  | .bra p _ | .brx p _ | .call p _ _ | .callr p _ _ | .ret p _ => some p
  | _ => none

/-- Causes of a bundle that no op raises, found before its ops: more porch entries than the column set owns (R64, DEDUCED: log
entry 25 for its slot), and the end of a loop that has not begun, unless a taken transfer has it ignored (R69, R355). -/
def Issue.bundleCauses (q : Issue) (hw : DWord) (ws : List DWord) : List Cause :=
  let skipped := (wordsRead ws).any fun i => (i.bind lendSkipped).any fun p => { q with slot := 16 }.taken p
  (if porchShare q.res.launch.shape < q.porchNeed then [illegalCause hw 31] else []) ++
  (if q.hdr.lend && q.res.loops.isEmpty && !skipped then [mkCause 16 2 0 0 0] else [])

/-- The second pass: every op takes effect. -/
def State.commitBundle (s : State) (r : Resident) (q : Issue) (ops : List (Nat × DWord)) (hw : DWord) : Out :=
  let s1 := s.latch { q with probe := false, commit := true }
  andThen (if ops.isEmpty then exec (.emptyBundle hw) s1 else s1.runOps ops) fun s2 => .next (s2.finishBundle r q.hdr.lend)

/-- Issue one bundle as a unit (R72). -/
def State.issueBundle (s : State) (r : Resident) (h : Header) (hw : DWord) (ws : List DWord) : Out :=
  let ops := h.slots.zip ws
  let q0 := { Issue.start (r.pastBundle h hw ws) r.hdr h 0 31 hw with inOrder := bundleInOrder ((wordsRead ws).filterMap id) }
  andThen ((s.latch { q0 with probe := true }).runOps ops) fun s1 =>
    match s1.iss with
    | none => .next s
    | some q =>
      match dueCause (q.bundleCauses hw ws ++ q.raised) (!q.faults.isEmpty) with
      | some c => .next (((s1.latch q0).trapNow c).unlatch fun x => x.issued r)
      | none =>
        if q.held || !q.faults.isEmpty then .next ((s1.latch q0).heldBack r q.faults)
        else s.commitBundle r q0 ops hw

/-- Issue a bundle whose header lets it, once no load that is not performed stands in its way. -/
def State.issueBehind (s : State) (r : Resident) (h : Header) (hw : DWord) (ws : List DWord) : Out :=
  if waitsBehind (s.loadsOpen r) ((wordsRead ws).filterMap id) then .next (s.waitLanding r (s.loadsOpen r))
  else s.issueBundle r h hw ws

/-- Issue from a wide thread whose due results are written. -/
def State.issueVliw (s : State) (r : Resident) : Out :=
  match s.bundleWords r with
  | (.trap c, s1) => .next (s1.trapBundle { r with refused := [] } c .atIssue)
  | (.wait f, s1) => .next (s1.fetchWait r f)
  | (.words [], s1) => .next s1
  | (.words (hw :: ws), s1) =>
    match decodeBundleHeader hw.toNat with
    | .error _ => s1.headerTrap r hw (bundleLen hw)
    | .ok h =>
      if !r.bundleOk h || !bundleWordsOk h r.width ws then s1.headerTrap r hw (bundleLen hw)
      else match (if h.stile then s1.stileStop r else none) with
        | some s2 => .next s2
        | none =>
          if !r.waitOk h.waitMask then .next s1
          else if r.heldFirst ((wordsRead ws).filterMap id) then
            let s2 := s1.performHeld r
            match s2.resAt r.rid with
            | some r2 => s2.issueBehind r2 h hw ws
            | none => .next s2
          else s1.issueBehind r h hw ws

/-! ### One resident -/

/-- The change that waited for every result (R34, R387). -/
def State.close (s : State) (r : Resident) : State :=
  match r.closing with
  | .none => s
  | .unfold => s.setRes { r with closing := .none, simt := true, active := 0xFFFF, div := [], pin := none, clause := none }
  | .tret k =>
    ((s.latch (Issue.start { r with closing := .none } r.hdr Header.blank 0 16 0)).tretNow k).unlatch id

/-- The first due count among porch entries that are not there (R65, R66). -/
def firstOpen (es : List Porch) : Option Nat := ((es.filter fun e => !e.arrived).map Porch.due).min?

/-- A wide thread that issues nothing until every result in flight is written, and then changes or is at its end. Results are written
in the order of their counts: a row transfer stalls all of them, a late load those of its count and after (R60, R65), and a
refused load traps at its count (R66). -/
def State.drain (s : State) (r : Resident) : State :=
  if s.rowStall r then s.setRes r
  else match firstOpen r.porch with
    | none =>
      let r1 := r.landDue fun _ => true
      (s.setRes r1).close r1
    | some d =>
      let r1 := r.landDue fun due => decide (due ≤ d)
      let now := r1.porch.filter fun e => decide (e.due ≤ d)
      match (if now.any r1.late then none else deferredCause now) with
      | some (c, ids) => s.trapAt r1 c (.deferred ids)
      | none => s.waitLanding r1 now

/-- A wide thread at its next count: late data stalls it (R65), a refused load traps (R66), and else its bundle issues. -/
def State.runVliw (s : State) (r : Resident) : Out :=
  let dueNow := r.porch.filter fun e => decide (e.due ≤ r.count)
  if s.rowStall r || dueNow.any r.late then .next (s.waitLanding r dueNow)
  else match deferredCause dueNow with
    | some (c, ids) => .next (s.trapBundle r c (.deferred ids))
    | none => (s.setRes r).issueVliw r

/-- The next issue of a resident, after the results that are due and before that the causes that are pending. -/
def State.issueOne (s : State) (r0 : Resident) : Out :=
  let r := r0.landDue fun due => decide (due ≤ r0.count)
  match r.async with
  | c :: rest => .next (s.takeAsync r c rest)
  | [] =>
    if r.wait ≠ .none then .next s
    else if r.simt then (if r.ended then .next s else s.issueSimt r)
    else if r.ended ∨ r.closing ≠ .none then .next (s.drain r)
    else s.runVliw r

/-- Whether a resident would issue or trap. -/
def State.ready (s : State) (r : Resident) : Bool :=
  s.canIssue r && match s.issueOne r with
    | .next s1 => match s1.resAt r.rid with
      | some x => x.count != r.count || x.trap != r.trap
      | none => true
    | _ => false

/-- The resident a lane group issues from, of those that are ready (R171). -/
def State.pick (s : State) (rs : List Resident) : Option Resident :=
  let ok := rs.filter s.ready
  let starving := ok.filter fun r => decide (64 ≤ r.starve)
  let better := fun (a b : Resident) =>
    if starving.isEmpty then decide (a.placedAt < b.placedAt) || (a.placedAt == b.placedAt && decide (a.slot < b.slot))
    else decide (b.starve < a.starve) || (a.starve == b.starve && decide (a.slot < b.slot))
  (if starving.isEmpty then ok else starving).foldl (fun b r => match b with
    | none => some r
    | some x => if better r x then some r else some x) none

/-- The residents that share a resident's issue: those of its lane group in the full shape, of its column set in the others (R171,
R172). -/
def State.sharers (s : State) (r : Resident) : List Resident :=
  (s.onLg r.core r.lgrp).filter fun x => r.launch.shape == 0 || x.slot == r.slot

/-- The lane group issues from another resident in this cycle (R171). What a resident that is not ready does needs no issue. -/
def State.outranked (s : State) (r : Resident) : Bool :=
  match s.sharers r with
  | [] => false
  | [_] => false
  | rs => s.ready r && (s.pick rs).any fun x => x.rid != r.rid

/-- Starvation counts after an issue or a trap at one: the issuer's returns to 0, that of another resident rises where it was ready
(R171). -/
def State.starveAll (s before : State) (r : Resident) : State :=
  let others := (before.sharers r).filter fun x => x.rid != r.rid
  others.foldl (fun s x => s.modRes x.rid fun y => { y with starve := if before.ready x then y.starve + 1 else 0 })
    (s.modRes r.rid fun y => { y with starve := 0 })

/-- A resident's move: it issues, takes a pending trap, or stands. -/
def State.runResident (s : State) (rid : Nat) : Out :=
  match s.residents.find? fun r => r.rid == rid with
  | none => .next s
  | some r =>
    if s.canIssue r ∧ !s.outranked r then
      andThen (s.issueOne r) fun s1 => .next (match s1.resAt rid with
        | some x => if x.count = r.count ∧ x.trap = r.trap then s1 else s1.starveAll s r
        | none => s1.starveAll s r)
    else .next s

end Sys2Proof.Machine
end

