-- ==== Sys2Proof/Machine/Moves.lean ====
section
/-! DEFINITION. The moves of the agents (log entry 1): a resident issues, a step of the table happens, time passes (R22, R216,
R217), the device carries out the next command of the ring (R220, R224). What happens when nothing is on the agenda. -/

namespace Sys2Proof.Machine

/-! ### Commands -/

/-- The eight words at the head of the command ring. -/
def State.headCommand (s : State) : List Nat :=
  let bs := s.homeBytes (s.host.cmdBase + 64 * s.host.cmdHead) 64
  (List.range 8).map fun k => leNat ((bs.drop (8 * k)).take 8)

/-- The command at the head is consumed. -/
def State.nextHead (s : State) : State := s.modHost fun h => { h with cmdHead := (h.cmdHead + 1) % h.slots }

/-- The device carries out the next command, in order: an opcode that is not listed, and a reserved bit that is set, complete
with status 2 (R221, R223). -/
def State.takeCommand (s : State) : Out :=
  if s.host.cmdHead = s.host.cmdTail then .next s
  else
    let ws := s.headCommand
    match decodeCommand ws with
    | some i => if s.commandWaits i then .next s else exec i s.nextHead
    | none =>
      if s.canAnswer then .next (s.nextHead.complete (fld (cmdWord ws 0) 32 32) (fld (cmdWord ws 0) 0 16) stBad 0) else .next s

/-! ### Time -/

/-- A tenant is in a slot of its own: it has something of what the row in force gives it, neither donated nor paid away as a debit
(R188, R190, R217). -/
def State.inSlot (s : State) (t : Nat) : Bool :=
  match s.rowNow with
  | none => t == 0
  | some r => (r.encls[t]?).any (fun e => e.val && e.hasResources) && !s.rota.donated.contains t && (List.range 192).any fun core => s.holdsCore t core

/-- The time of a context counts now (R217): in its own slots, with a resident that no host halt stops, a take-off or an
outstanding command. -/
def State.contextActive (s : State) (c : Context) : Bool :=
  let mine := s.allRes.filter fun r => r.launch.ctx == c.num
  let cmd := fun r : Resident => (s.coreAt r.core).cq.any (fun x => x.rid == r.rid) || (s.coreAt r.core).mq.any fun x => x.rid == r.rid
  !s.stopped && mine.any fun r => r.stop != .halted &&
    ((r.away == .here && s.holder r.core r.lgrp r.quarter == some c.tenant) || ((r.takeOff.isSome || cmd r) && s.inSlot c.tenant))

/-- The watchdog's count after some µs. -/
def Context.countTime (c : Context) (us : Nat) : Context := { c with wdcnt := min (2 ^ 32 - 1) (c.wdcnt + us) }

/-- Ticks until the next multiple of a sampler's period (R215). -/
def State.toEdge (s : State) (x : Sampler) : Nat := 2 ^ x.k - s.timebase % 2 ^ x.k

/-- What has been reached comes about before time goes on: counters latch (R215), a row or a debit ends (R181, R188), and the starvation
count of a resident that is not ready returns to 0 (R171). -/
def State.beforeTick (s : State) : State :=
  let s1 := (s.samplers.foldl State.sampleOne s).slotEdge
  { s1 with residents := s1.residents.map fun r => if r.starve ≠ 0 ∧ !s1.ready r then { r with starve := 0 } else r }

/-- Time passes (R22: 700 ticks of the timebase in a µs): up to n ticks, and no further than the next edge at which counters latch or
resources pass on. -/
def State.tick (s0 : State) (n0 : Nat) : State :=
  let s := s0.beforeTick
  let n := s.samplers.foldl (fun n x => min n (s.toEdge x)) ((s.toSlotEdge.map fun k => min n0 k).getD n0)
  let us := (s.timebase + n) / 700 - s.timebase / 700
  { s with
    timebase := (s.timebase + n) % 2 ^ 64
    contexts := s.contexts.map fun c => if c.wden && s.contextActive c then c.countTime us else c }

/-! ### One move -/

/-- The k-th line of a core's L1 is written back: a core may do so at any time, and in any order of its lines (R105, R260). -/
def State.ownWriteBack (s : State) (core k : Nat) : State :=
  match (s.coreAt core).l1[k]? with
  | some l => if s.stopped then s else s.writeBack core l
  | none => s

/-- Carry out a move. -/
def State.perform (s : State) : Action → Out
  | .run rid => s.runResident rid
  | .ev i => exec i s
  | .tick n => .next (s.tick n)
  | .command => s.takeCommand
  | .writeBack core k => .next (s.ownWriteBack core k)
  | .readWord rid load j => .next (s.readWord rid load j)
  | .corrected k => .next (s.corrected k)

/-! ### What the device does by itself -/

/-- Where a resident issues, as a number in the order in which commands of one cycle arrive at the engines: core, lane group, column
set (R173). -/
def Resident.issuePlace (r : Resident) : Nat := 64 * r.core + 4 * r.lgrp + (if r.launch.shape = 0 then 0 else r.slot)

/-- A move of each lane group, or of each column set of one that is divided (R171, R172), in the order of R173. -/
def State.issueMoves (s : State) : List Action :=
  (sortBy (fun a b => decide (a.issuePlace ≤ b.issuePlace)) (s.residents.filter fun r => r.away == .here)).filterMap fun r =>
    if (s.pick (s.sharers r)).any fun x => x.rid == r.rid then some (.run r.rid) else none

/-- Moves of residents that need no issue slot: causes, stalls and stiles are met by their own run. -/
def State.residentMoves (s : State) : List Action :=
  s.residents.flatMap fun r =>
    (r.loads.map fun l => Action.ev (.simtLoadLanding r.rid l.id)) ++
    ((r.porch.filter fun e => !e.arrived).map fun e => Action.ev (.lateDataArrival r.rid e.id)) ++
    [.run r.rid, .ev (.residentRetire r.rid), .ev (.stileTakeOff r.rid), .ev (.overrunSnapshot r.rid), .ev (.faultWaitSnapshot r.rid)]

/-- Moves of a core's engines. -/
def State.engineMoves (s : State) (core : Nat) : List Action :=
  ((s.coreAt core).cq.flatMap fun c =>
    [.ev (.copyCommandComplete core c.id), .ev (.copyCommandStop core c.id), .ev (.jdecApply core c.id), .ev (.credComplete core c.id 0 []),
      .ev (.copyCommandStart core c.id 1)]) ++
  (s.coreAt core).mq.flatMap fun m =>
    [.ev (.mmaRetire core m.id), .ev (.mmaStop core m.id), .ev (.rowTransferPerform core m.id), .ev (.mmaGroup core m.id)]

/-- Moves of a core's placement hardware. -/
def State.placeMoves (s : State) (core : Nat) : List Action :=
  let q := (s.coreAt core).queue
  let h := (s.hamAt (hamOf core)).queue
  (if h.isEmpty then [] else [.ev (.queueUnderflowMove false core)]) ++
  (if q.isEmpty && h.isEmpty then [] else [.ev (.placementRound core)]) ++
  (if (s.coreAt core).carvePend then [.ev (.carveChangeTakeEffect core), .ev (.carveTimeout core)] else [])

/-- Moves of a hamlet. -/
def State.hamletMoves (s : State) (ham : Nat) : List Action :=
  (if (s.hamAt ham).records.isEmpty then [] else [.ev (.faultRecordDeliver ham)]) ++
  (if s.dieQ.isEmpty then [] else [.ev (.queueUnderflowMove true ham)]) ++ [.ev (.mergeEntryFreedWait ham)]

/-- Every move the device may make by itself now, in a fixed order. Which of them comes first is not the spec's: the agenda
names any other order (log entry 1). -/
def State.ownMoves (s : State) : List Action :=
  (if s.rota.state < 2 then [] else Action.ev .slotEdge :: (List.range 16).map fun t => .ev (.slackDonation t)) ++
  s.issueMoves ++ s.residentMoves ++ (List.range 192).flatMap s.engineMoves ++ (List.range 24).flatMap s.hamletMoves ++
  (List.range 192).flatMap s.placeMoves ++ (s.contexts.map fun c => .ev (.watchdogExpiry c.num)) ++
  (if s.samplers.isEmpty then [] else [.ev .sampleLatch])

/-- The outcome of a move that changes something. -/
def State.tryMove (s : State) (a : Action) : Option Out :=
  match s.perform a with
  | .next s1 => if s1 = s then none else some (.next s1)
  | o => some o

/-- With nothing on the agenda: the next command, else the first of the device's own moves that changes something, else one
tick. -/
def State.ownMove (s : State) : Out :=
  match s.tryMove .command with
  | some o => o
  | none => (s.ownMoves.findSome? s.tryMove).getD (.next (s.tick 1))

/-! ### One instruction as a program (log entry 12) -/

/-- The slot of a bundle for an instruction that waves do not have. -/
def soloSlot : Instr → Option Nat
  | .xmov .. => some 0
  | .xbc .. => some 0
  | .loop .. => some 16
  | .lexit .. => some 16
  | .mark .. => some 16
  | .unfold => some 16
  | _ => none

/-- The mode, and the header of a clause or a bundle of one word that names flag 0 for both sets. -/
def soloHeader (w : Nat) : Bool × Nat :=
  match decodeWord w with
  | .ok i => match soloSlot i with
    | some 0 => (false, 2 ^ 48)
    | some _ => (false, 2 ^ 47)
    | none => (true, 2 ^ 48)
  | .error _ => (true, 2 ^ 48)

/-- A launch of one resident in the full shape with a whole allotment, its code at address 0x1000. -/
def soloLaunch (lid ctx : Nat) (simt : Bool) : Launch :=
  { lid := lid, va := 0x2000, ctx := ctx, tenant := 0, code := 0x1000, frame := 0x3000, simt := simt, shape := 0, pin := false, cls := 0,
    depth := 0, vblk := 48, sblk := 8, spad := 1024, acc := 64, flags := 0xFFF,
    levels := [{ domain := 0, coRes := false, extent := if simt then 16 else 1 }, { domain := 2, coRes := false, extent := 1 }], cbank := 0x4000, cbsize := 0x1000 }

/-- The scratchpad unit of that resident. -/
def soloUnit (uid lid ctx : Nat) : Unit44 :=
  { uid := uid, core := 0, ctx := ctx, lid := lid, index := 0, base := 0, size := 1024 * 256,
    spad := { fill := .free uid, cells := [], poison := [] }, tiles := (List.range 64).map fun k => { fill := .free (uid * 64 + k), cells := [] },
    held := [], rings := [], away := false }

/-- The number of the context that the program runs in: one that no command gives. -/
def soloCtx : Nat := 2 ^ 16

/-- The context of that program: its page table at physical address 0x10000. -/
def soloContext : Context := Context.new soloCtx 0x10000 soloCtx 0 0x5000 0 none

/-- Memory with that context's page table, which maps the first GiB to itself, and the two words of the code. -/
def soloMemory (m : List Host.Cell) (w : Nat) : List Host.Cell :=
  [(0x10000, 0x10101), (0x10100, 0x1F), (0x1000, (soloHeader w).2), (0x1008, w)].foldl (fun m x => Memory.writeBytes m x.1 (leBytes 8 x.2)) m

/-- The state with one instruction word as the program of a resident whose move is next. -/
def State.withProgram (s : State) (w : Nat) : State :=
  let l := soloLaunch s.nextId soloCtx (soloHeader w).1
  let r := l.newResident (s.nextId + 1) (s.nextId + 2) 0 (if l.simt then 16 else 1) 0 0 0 s.timebase (.free (s.nextId + 1))
  { s with
    mem := soloMemory s.mem w
    stage := 2, power := 0
    contexts := soloContext :: s.contexts
    running := s.running ++ [{ launch := l, placed := 1, total := 1, retired := [], homes := [], left := true, dead := false }]
    residents := insertRes r s.residents
    units := s.units ++ [soloUnit (s.nextId + 2) s.nextId soloCtx]
    agenda := [.run (s.nextId + 1)]
    nextId := s.nextId + 3 }

end Sys2Proof.Machine
end

