-- ==== Sys2Proof/Machine/Step.lean ====
section
/-! DEFINITION. One step of the machine: the next move on the agenda, or the device's own (log entry 1). The placing of one
instruction where the next step fetches (log entry 12). -/

namespace Sys2Proof.Machine

/-- One step. -/
def step (s : State) : Host.Outcome State Fault Refusal :=
  match s.agenda with
  | [] => s.ownMove
  | a :: rest => { s with agenda := rest }.perform a

/-- The state with one instruction word where the next step fetches: a launch whose first clause or bundle holds just that
word, resident on core 0, and its move on the agenda (log entry 12). -/
def State.withFetchWord (s : State) (nbits w : Nat) : State := s.withProgram (w % 2 ^ nbits)

end Sys2Proof.Machine
end

