-- ==== Sys2Proof/Safety.lean ====
section
/-! DEFINITION. The terms the statements use: what a safe run is, what holds between steps, when an instruction's effect
comes about, and what an instruction that computes registers leaves behind. -/

namespace Sys2Proof.Machine

/-- One step leads from a state to another. -/
def State.StepsTo (s t : State) : Prop := step s = .next t

/-- A state from which no number of steps meets a fault or a refusal. -/
def State.Safe (s : State) : Prop := ∀ k, ∃ t, Host.Core.run Sys2Proof.core k s = .next t

/-- What every step keeps: memory stands in its canonical form; the device keeps its 192 cores and 24 hamlets (R14, R15) and 16
counters for each of 16 tenants (R195); the timebase is a 64-bit count (R22); the stage is A, B, C or that after a thermal cut-off
(R227, R231); no instruction is under way between steps. -/
def State.Inv (s : State) : Prop :=
  Memory.wf s.mem = true ∧ s.cores.length = 192 ∧ s.hamlets.length = 24 ∧
  s.counters.length = 16 ∧ (∀ cs ∈ s.counters, cs.length = 16) ∧ s.timebase < 2 ^ 64 ∧ s.stage ≤ 3 ∧ s.iss = none

/-- The latch holds an instruction whose effect comes about now: one of a wave, or an op of a bundle once every op of the
bundle has been found free of causes (R72). -/
def State.Issues (s : State) (q : Issue) : Prop := s.iss = some q ∧ q.probe = false

/-- The state with the issuing resident replaced, and nothing else changed. -/
def State.withRes (s : State) (q : Issue) (r : Resident) : State := { s with iss := some { q with res := r } }

/-- What an access to memory through a core may change: memory and what the caches, the L2, the TLB of its hamlet and the counters
know of it; writes that left through the host window; the lines an instruction has touched; use numbers of free values. Memory
keeps its canonical form. Nothing else changes: no register, no resident, no scratchpad, no other core, no other hamlet. -/
def State.MemorySide (core : Nat) (s t : State) : Prop :=
  (∃ l1 tlb lines, t = { s with
    mem := t.mem
    hbmPoison := t.hbmPoison
    l2Poison := t.l2Poison
    l2 := t.l2
    counters := t.counters
    evictions := t.evictions
    fresh := t.fresh
    host := { s.host with hostWrites := t.host.hostWrites }
    cores := modAt s.cores core fun c => { c with l1 := l1 }
    hamlets := modAt s.hamlets (hamOf core) fun h => { h with tlb := tlb }
    iss := s.iss.map fun q => { q with lines := lines } }) ∧
  (Memory.wf s.mem = true → Memory.wf t.mem = true)

/-- A byte that a core's L1 holds dirty (R82): its address in memory and its value. -/
def State.DirtyByte (s : State) (core a : Nat) (b : Byte) : Prop :=
  ∃ l ∈ (s.coreAt core).l1, ∃ k < 128, l.dirty.getLsbD k = true ∧ a = l.pa * 128 + k ∧ b = l.data.getD k 0

/-- What an access that stores nothing may change: the memory side of its core, and of memory only bytes that the core's L1 held
dirty, each to the value held there; no line holds a dirty byte that none held before. -/
def State.ReadSide (core : Nat) (s t : State) : Prop :=
  s.MemorySide core t ∧
  (Memory.wf s.mem = true → ∀ a, Memory.read t.mem a = Memory.read s.mem a ∨ s.DirtyByte core a (Memory.read t.mem a)) ∧
  ∀ a b, t.DirtyByte core a b → s.DirtyByte core a b

/-- None of these sources carries a poison mark in these lanes (R209). -/
def Resident.Clean (r : Resident) (reads : List Src) (cs : List Nat) : Prop := ∀ a ∈ reads, ∀ c ∈ cs, r.srcPoison a c = false

/-- The result word that one lane's result puts into a register: the destination takes the first word, the register after
it the second (R46). -/
def writtenBy (d : Dst) (f : Nat → Result) (g : Reg) (c : Nat) : Option Word :=
  if g = dstReg d c then (f c).words[0]? else if g = dstReg (Dst.next d) c then (f c).words[1]? else none

/-- The words a lane's result shifts into its last-result file (R47). -/
def shiftedBy (d : Dst) (f : Nat → Result) (c : Nat) : List Word := if dstLane d then (f c).ys else []

/-- A register after the results of some lanes are written: the destination registers of those lanes, their last-result
files, which keep the two latest results, and no other. -/
def valueAfter (d : Dst) (f : Nat → Result) (cs : List Nat) (old : Reg → Word) (g : Reg) : Word :=
  match cs.findSome? (writtenBy d f g) with
  | some x => g.trim x
  | none => match g with
    | .y c n => if c ∈ cs ∧ n < 2 then ((shiftedBy d f c).reverse ++ [old (.y c 0), old (.y c 1)]).getD n 0 else old g
    | _ => old g

/-- The poison mark of a register after the results of some lanes are written: a register written is clean (R209). -/
def markAfter (d : Dst) (f : Nat → Result) (cs : List Nat) (old : Reg → Bool) (g : Reg) : Bool :=
  match cs.findSome? (writtenBy d f g) with
  | some _ => false
  | none => match g with
    | .y c n => if c ∈ cs ∧ n < 2 ∧ shiftedBy d f c ≠ [] then false else old g
    | _ => old g

/-- The latches that a read of these sources leaves: %clkh by a read of %clk, %ectrhi by a read of %ectrlo (R195, R293). -/
def State.clkhAfter (r : Resident) (reads : List Src) : Word :=
  if Src.special 0x10 ∈ reads then BitVec.ofNat 32 (r.count / 2 ^ 32) else r.clkh

def State.ectrhiAfter (s : State) (r : Resident) (reads : List Src) : Word :=
  if Src.special 0x19 ∈ reads then BitVec.ofNat 32 (s.counterOf r.launch.tenant r.ectrsel / 2 ^ 32) else r.ectrhi

/-- What an instruction that computes registers does, and that it does nothing else: in a wave the registers hold the
results of these lanes and %fflags their conditions (log entry 8); in a wide thread one result per lane is on its way, due at
the issue count plus the latency (R59). -/
def State.Computes (s : State) (q : Issue) (t : State) (lat : Nat) (d : Dst) (f : Nat → Result) (cs : List Nat) (reads : List Src) : Prop :=
  ∃ r, t = s.withRes q r ∧
    if q.res.simt then
      (∀ g, r.regs.read g = valueAfter d f cs q.res.regs.read g) ∧
      (∀ g, r.regs.poisoned g = markAfter d f cs q.res.regs.poisoned g) ∧
      r = { q.res with
        regs := r.regs
        fflags := cs.foldl (fun a c => a ||| (f c).ff) q.res.fflags
        clkh := State.clkhAfter q.res reads
        ectrhi := s.ectrhiAfter q.res reads }
    else
      r = { q.res with
        flights := q.res.flights ++ cs.map fun c =>
          { due := q.res.count + lat, seq := 32 * q.res.count, writes := resultCells d c (f c).words, lane := c,
            ys := shiftedBy d f c, ff := (f c).ff }
        clkh := State.clkhAfter q.res reads
        ectrhi := s.ectrhiAfter q.res reads }

end Sys2Proof.Machine
end

