-- ==== Sys2Proof/Certificates/Slice0/Obligations.lean ====
section
/-! DEFINITION. The statements for the provers. The tables before them are read from the rules of the spec and do not use the
functions that the meanings of the instructions use for their results. -/

namespace Sys2Proof.Claim

open Sys2Proof.Machine

/-! ### Instructions that compute registers (R321) -/

/-- What an entry of the reference says of such an instruction: predicate, latency, destination, the sources it reads, how an
immediate stands, and the result of one lane as a function of the values of the sources. -/
structure RegOp where
  p : Pred
  lat : Nat
  d : Dst
  srcs : List Src
  imm : ImmAs
  result : List Word → Result

/-- The lanes it takes effect in (R50, R294). -/
def RegOp.lanes (o : RegOp) (q : Issue) : List Nat := q.lanes o.p (dstScalar o.d)

/-- Where it may stand and what it may name: place (R290), allotments (R49, R50), a predicate of its mode (R52). -/
def RegOp.Legal (o : RegOp) (place : Bool) (q : Issue) : Prop :=
  place = true ∧ q.res.within o.d o.srcs = true ∧ predOk q.res o.p = true

/-- The instruction completes with these results and changes nothing else. -/
def RegOp.Done (o : RegOp) (i : Instr) (s : State) (q : Issue) : Prop :=
  ∃ t, exec i s = .next t ∧
    s.Computes q t o.lat o.d (fun c => o.result (o.srcs.map fun a => s.opnd q.res o.imm a c)) (o.lanes q)
      (if o.lanes q = [] then [] else o.srcs)

/-- Results that also enter the last-result file of a lane (R47), and predicates, which do not. -/
def shifts (x : Word) (ff : FFlags) : Result := { words := [x], ys := [x], ff := ff }
def keeps (x : Word) : Result := { words := [x], ys := [], ff := 0 }

/-- The operand values of a source list. -/
def a0 (xs : List Word) : Word := xs.getD 0 0
def a1 (xs : List Word) : Word := xs.getD 1 0
def a2 (xs : List Word) : Word := xs.getD 2 0

/-! #### The integer family (R300, R301, R336, R340, R343, R359, R361, R370, R373) -/

/-- A number clamped to the signed range of a word. -/
def clamp (x : Int) : Word := BitVec.ofInt 32 (if x < -2 ^ 31 then -2 ^ 31 else if 2 ^ 31 - 1 < x then 2 ^ 31 - 1 else x)

/-- The field of a control word: position [4:0], width [13:8] cut off at bit 31 (R301). -/
def ctlPos (ctl : Word) : Nat := (ctl.extractLsb' 0 5).toNat
def ctlWidth (ctl : Word) : Nat := min (ctl.extractLsb' 8 6).toNat (32 - ctlPos ctl)

/-- Element i of four signed or unsigned bytes. -/
def byteOf (signed : Bool) (x : Word) (i : Nat) : Int := if signed then (x.extractLsb' (8 * i) 8).toInt else (x.extractLsb' (8 * i) 8).toNat

/-- The result column of the integer family. -/
def intResult : Instr → Option RegOp
  | .mov p d a => some ⟨p, 1, d, [a], .int, fun x => shifts (a0 x) 0⟩
  | .movi p d k => some ⟨p, 1, d, [], .int, fun _ => shifts k 0⟩
  | .sel p d a b c neg => some ⟨p, 1, d, [a, b, c], .int, fun x => shifts (if (a2 x ≠ 0) ↔ neg = false then a0 x else a1 x) 0⟩
  | .iadd p d a b sat => some ⟨p, 1, d, [a, b], .int, fun x =>
      shifts (if sat then clamp ((a0 x).toInt + (a1 x).toInt) else BitVec.ofNat 32 ((a0 x).toNat + (a1 x).toNat)) 0⟩
  | .imul p d a b => some ⟨p, 1, d, [a, b], .int, fun x => shifts (BitVec.ofNat 32 ((a0 x).toNat * (a1 x).toNat)) 0⟩
  | .imulhi p d a b u => some ⟨p, 1, d, [a, b], .int, fun x =>
      shifts (if u then ((BitVec.ofNat 64 ((a0 x).toNat * (a1 x).toNat)).extractLsb' 32 32)
        else ((BitVec.ofInt 64 ((a0 x).toInt * (a1 x).toInt)).extractLsb' 32 32)) 0⟩
  | .imad p d a b c => some ⟨p, 1, d, [a, b, c], .int, fun x =>
      shifts (BitVec.ofNat 32 ((a0 x).toNat * (a1 x).toNat + (a2 x).toNat)) 0⟩
  | .iabs p d a sat => some ⟨p, 1, d, [a], .int, fun x =>
      shifts (if sat then clamp (a0 x).toInt.natAbs else BitVec.ofNat 32 (a0 x).toInt.natAbs) 0⟩
  | .imin p d a b u => some ⟨p, 1, d, [a, b], .int, fun x =>
      shifts (if u then BitVec.ofNat 32 (min (a0 x).toNat (a1 x).toNat) else BitVec.ofInt 32 (min (a0 x).toInt (a1 x).toInt)) 0⟩
  | .imax p d a b u => some ⟨p, 1, d, [a, b], .int, fun x =>
      shifts (if u then BitVec.ofNat 32 (max (a0 x).toNat (a1 x).toNat) else BitVec.ofInt 32 (max (a0 x).toInt (a1 x).toInt)) 0⟩
  | .and p d a b => some ⟨p, 1, d, [a, b], .int, fun x => shifts (a0 x &&& a1 x) 0⟩
  | .or p d a b => some ⟨p, 1, d, [a, b], .int, fun x => shifts (a0 x ||| a1 x) 0⟩
  | .xor p d a b => some ⟨p, 1, d, [a, b], .int, fun x => shifts (a0 x ^^^ a1 x) 0⟩
  | .andn p d a b => some ⟨p, 1, d, [a, b], .int, fun x => shifts (a0 x &&& ~~~(a1 x)) 0⟩
  | _ => none

/-- The result column of the shifts, bit counts, bit fields and the dot product. -/
def bitResult : Instr → Option RegOp
  | .shl p d a b => some ⟨p, 1, d, [a, b], .int, fun x =>
      shifts (if (a1 x).toNat < 32 then BitVec.ofNat 32 ((a0 x).toNat * 2 ^ (a1 x).toNat) else 0) 0⟩
  | .shr p d a b arith => some ⟨p, 1, d, [a, b], .int, fun x =>
      shifts (if arith then BitVec.ofInt 32 ((a0 x).toInt / 2 ^ min (a1 x).toNat 31)
        else if (a1 x).toNat < 32 then BitVec.ofNat 32 ((a0 x).toNat / 2 ^ (a1 x).toNat) else 0) 0⟩
  | .rot p d a b right => some ⟨p, 1, d, [a, b], .int, fun x =>
      let n := (a1 x).toNat % 32
      shifts (if right then a0 x >>> n ||| a0 x <<< (32 - n) else a0 x <<< n ||| a0 x >>> (32 - n)) 0⟩
  | .clz p d a => some ⟨p, 1, d, [a], .int, fun x =>
      shifts (BitVec.ofNat 32 ((List.range 32).takeWhile fun k => !(a0 x).getLsbD (31 - k)).length) 0⟩
  | .popc p d a => some ⟨p, 1, d, [a], .int, fun x =>
      shifts (BitVec.ofNat 32 ((List.range 32).map fun k => ((a0 x).getLsbD k).toNat).sum) 0⟩
  | .brev p d a => some ⟨p, 1, d, [a], .int, fun x => shifts (a0 x).reverse 0⟩
  | .bfx p d a ctl sx => some ⟨p, 1, d, [a, ctl], .int, fun x =>
      let f := (a0 x).extractLsb' (ctlPos (a1 x)) (ctlWidth (a1 x))
      shifts (if sx then f.signExtend 32 else f.zeroExtend 32) 0⟩
  | .bfi p d a base ctl => some ⟨p, 1, d, [a, base, ctl], .int, fun x =>
      let n := ctlPos (a2 x)
      let w := ctlWidth (a2 x)
      shifts ((a1 x &&& ~~~((BitVec.allOnes w).zeroExtend 32 <<< n)) ||| (((a0 x).extractLsb' 0 w).zeroExtend 32 <<< n)) 0⟩
  | .idp4 p d a b c k => some ⟨p, 1, d, [a, b, c], .int, fun x =>
      let t := fun i => byteOf (k != .uu) (a0 x) i * byteOf (k == .ss) (a1 x) i
      shifts (BitVec.ofInt 32 ((a2 x).toInt + (t 0 + t 1 + t 2 + t 3))) 0⟩
  | _ => none

/-! #### Pairs, compares and predicates (R326, R337 to R339, R353, R362) -/

/-- A 64-bit result in two registers, which fills both last results of a lane (R338). -/
def pairOut (x : DWord) : Result :=
  { words := [x.extractLsb' 32 32, x.extractLsb' 0 32], ys := [x.extractLsb' 32 32, x.extractLsb' 0 32], ff := 0 }

/-- The sources of `iadd64`: two pairs, or a pair and a word. -/
def wideSrcs (a b : Src) (ext : Ext64) : List Src :=
  [a, Src.next a, b] ++ (match ext with
    | .pair => [Src.next b]
    | _ => [])

/-- `iadd64` and `lea`. -/
def pairResult : Instr → Option RegOp
  | .iadd64 p d a b ext => some ⟨p, 1, d, wideSrcs a b ext, .int, fun x =>
      pairOut ((a0 x ++ a1 x) + (match ext with
        | .zx => (a2 x).zeroExtend 64
        | .sx => (a2 x).signExtend 64
        | .pair => a2 x ++ x.getD 3 0))⟩
  | .lea p d a b sh sx => some ⟨p, 1, d, wideSrcs a b .zx, .int, fun x =>
      pairOut ((a0 x ++ a1 x) + (if sx then (a2 x).signExtend 64 else (a2 x).zeroExtend 64) <<< sh)⟩
  | _ => none

/-- A truth value as a result. -/
def truthWord (b : Bool) : Word := if b then 1 else 0

/-- The conditions of `icmp` over signed and unsigned values (R339). -/
def icmpHolds (cc : ICond) (a b : Word) : Bool :=
  match cc with
  | .eq => a == b
  | .ne => a != b
  | .lt => decide (a.toInt < b.toInt)
  | .le => decide (a.toInt ≤ b.toInt)
  | .gt => decide (a.toInt > b.toInt)
  | .ge => decide (a.toInt ≥ b.toInt)
  | .ltu => decide (a.toNat < b.toNat)
  | .leu => decide (a.toNat ≤ b.toNat)
  | .gtu => decide (a.toNat > b.toNat)
  | .geu => decide (a.toNat ≥ b.toNat)

/-- `icmp` and the predicate family. -/
def predResult : Instr → Option RegOp
  | .icmp p d a b cc => some ⟨p, 1, d, [a, b], .int, fun x => shifts (truthWord (icmpHolds cc (a0 x) (a1 x))) 0⟩
  | .pand p d a b na nb => some ⟨p, 1, d, [a, b], .int, fun x =>
      keeps (truthWord (xor (a0 x != 0) na && xor (a1 x != 0) nb))⟩
  | .por p d a b na nb => some ⟨p, 1, d, [a, b], .int, fun x =>
      keeps (truthWord (xor (a0 x != 0) na || xor (a1 x != 0) nb))⟩
  | .pxor p d a b na nb => some ⟨p, 1, d, [a, b], .int, fun x =>
      keeps (truthWord (xor (xor (a0 x != 0) na) (xor (a1 x != 0) nb)))⟩
  | .pmov p d a na => some ⟨p, 1, d, [a], .int, fun x => keeps (truthWord (xor (a0 x != 0) na))⟩
  | _ => none

/-! #### Exact values -/

/-- The value of an exact real that is finite. -/
def valueOf : XR → Option Rat
  | .fin s m e => some ((if s then -(m : Rat) else m) * (2 : Rat) ^ e)
  | _ => none

/-- The formats with infinities (R117). -/
def ieeeFormats : List FloatFmt := [fmtF32, fmtBF16, fmtF16, fmtE5M2]

/-! #### Floating point (R117 to R122, R325 to R329, R334, R335) -/

/-- An FP32 code and its conditions as a result. -/
def code32 (r : Nat × FFlags) : Result := shifts (BitVec.ofNat 32 r.1) r.2

/-- Two halves, each computed on its own. -/
def halves (f : Nat → Nat × FFlags) : Result :=
  shifts (BitVec.ofNat 32 ((f 1).1 * 2 ^ 16 + (f 0).1)) ((f 0).2 ||| (f 1).2)

/-- Half h of a word. -/
def halfOf (x : Word) (h : Nat) : Nat := (x.extractLsb' (16 * h) 16).toNat

/-- The layout of a half. -/
def layoutOf : HalfFmt → FloatFmt
  | .f16 => ⟨5, 10, 15, true⟩
  | .bf16 => ⟨8, 7, 127, true⟩

/-- The destination of `hfma2` as a source. -/
def asSource : Dst → Src
  | .v n => .v n
  | .o n => .o n
  | .s n => .s n
  | .p n => .p n

/-- Codes a and b of values x and y are ordered by a condition (R326). -/
def fcmpHolds (cc : FCond) (a b : Nat) : Bool :=
  let lt := (fmtF32.decode a).lt (fmtF32.decode b)
  let gt := (fmtF32.decode b).lt (fmtF32.decode a)
  let un := fmtF32.isNaN a || fmtF32.isNaN b
  match cc with
  | .eq => !un && !lt && !gt
  | .ne => un || lt || gt
  | .lt => !un && lt
  | .le => !un && !gt
  | .gt => !un && gt
  | .ge => !un && !lt
  | .un => un
  | .or => !un

/-- nv for a signalling NaN among FP32 codes (R120). -/
def quietsNan (ks : List Nat) : FFlags := if ks.any fmtF32.isSNaN then 0x10 else 0

/-- The order in which `fmin` and `fmax` choose between codes that are no NaN: by value, with −0 below +0 (R120). -/
def codeOrder (k : Nat) : Int := if k < 2 ^ 31 then k else 2 ^ 31 - 1 - (k : Int)

/-- `fmin` and `fmax`: the other operand where one is a NaN, and else the lesser or the greater, bit for bit (R120, R325). -/
def chosen (greater : Bool) (a b : Nat) : Nat × FFlags :=
  (if fmtF32.isNaN a ∧ fmtF32.isNaN b then 0x7FC00000 else if fmtF32.isNaN a then b else if fmtF32.isNaN b then a
    else if codeOrder a < codeOrder b ↔ greater = true then b else a, quietsNan [a, b])

/-- A number rounded to an integer in a mode (R119). -/
def roundedInt (m : RoundMode) (x : Rat) : Int :=
  match m with
  | .rm => x.floor
  | .rp => x.ceil
  | .rz => if 0 ≤ x then x.floor else x.ceil
  | .rne => if x - x.floor < 1 / 2 ∨ (x - x.floor = 1 / 2 ∧ x.floor % 2 = 0) then x.floor else x.floor + 1

/-- An integer as an exact real. -/
def intReal (n : Int) : XR := .fin (decide (n < 0)) n.natAbs 0

/-- `frnd`: a NaN gives the canonical one, an infinity itself, a finite value the integral value of its mode, a zero with the sign of the
input (R329). -/
def integral (m : RoundMode) (a : Nat) : Nat × FFlags :=
  if fmtF32.isNaN a then (0x7FC00000, quietsNan [a])
  else match valueOf (fmtF32.decode a) with
    | none => (a, 0)
    | some x =>
      let n := roundedInt m x
      (if n = 0 then (if a < 2 ^ 31 then 0 else 2 ^ 31) else (roundF fmtF32 .rne (intReal n)).1, if (n : Rat) = x then 0 else 0x01)

/-- The floating-point formats of `fcvt` (R117, R327). -/
def cvtLayout : Fmt → Option FloatFmt
  | .fp32 => some ⟨8, 23, 127, true⟩
  | .bf16 => some ⟨8, 7, 127, true⟩
  | .fp16 => some ⟨5, 10, 15, true⟩
  | .e4m3 => some ⟨4, 3, 7, false⟩
  | .e5m2 => some ⟨5, 2, 15, true⟩
  | _ => none

/-- A pair of formats that `fcvt` converts between: two different ones of the seven scalar formats, not both integers (R327). -/
def cvtPair (dt st : Fmt) : Bool :=
  let scalar := fun f : Fmt => (cvtLayout f).isSome || f == .int8 || f == .int32
  scalar dt && scalar st && dt != st && ((cvtLayout dt).isSome || (cvtLayout st).isSome)

/-- What a source register holds in a format: the low bits, an integer in two's complement (R328). -/
def cvtRead (st : Fmt) (a : Word) : XR × Bool :=
  match cvtLayout st with
  | some F => let k := a.toNat % 2 ^ (1 + F.ebits + F.mbits); (F.decode k, F.isSNaN k)
  | none => (intReal (if st = .int8 then (a.extractLsb' 0 8).toInt else a.toInt), false)

/-- A value beyond ±448, the largest of E4M3 (R122). -/
def beyond448 (x : XR) : Bool :=
  match x, valueOf x with
  | .inf _, _ => true
  | _, some v => decide (448 < v.abs)
  | _, none => false

/-- A negative value. -/
def isNegative : XR → Bool
  | .inf s => s
  | .fin s _ _ => s
  | .nan => false

/-- `fcvt` (R122, R328, R329). A value out of an integer's range raises nv alone: log entry 34. -/
def converted (dt st : Fmt) (m : RoundMode) (a : Word) : Word × FFlags :=
  let x := (cvtRead st a).1
  let nv : FFlags := if (cvtRead st a).2 then 0x10 else 0
  match cvtLayout dt with
  | some D =>
    if x = .nan then (BitVec.ofNat 32 D.canon, nv)
    else if dt = .e4m3 ∧ beyond448 x = true then ((if isNegative x then 0xFE else 0x7E), 0x05)
    else (BitVec.ofNat 32 (roundF D m x).1, (roundF D m x).2)
  | none =>
    let lo : Int := if dt = .int8 then -128 else -2 ^ 31
    let hi : Int := -lo - 1
    match x, valueOf x with
    | .inf s, _ => (BitVec.ofInt 32 (if s then lo else hi), 0x10)
    | _, some v =>
      let n := roundedInt m v
      if n < lo then (BitVec.ofInt 32 lo, 0x10) else if hi < n then (BitVec.ofInt 32 hi, 0x10)
      else (BitVec.ofInt 32 n, if (n : Rat) = v then 0 else 0x01)
    | _, none => (0, 0x10)

/-- Floating-point arithmetic of one format, as R325 computes it: signalling NaNs raise nv, a NaN gives the canonical NaN, an
invalid operation raises nv and gives it too, and else the exact result is rounded once. -/
def ieee (F : FloatFmt) (m : RoundMode) (ks : List Nat) (exact : XR) : Nat × FFlags :=
  let nv : FFlags := if ks.any F.isSNaN then 0x10 else 0
  if ks.any F.isNaN then (F.canon, nv) else if exact = .nan then (F.canon, 0x10) else roundF F m exact

/-- The result column of the floating-point and packed half families. -/
def floatResult : Instr → Option RegOp
  | .fadd p d a b m => some ⟨p, 4, d, [a, b], .f32, fun x =>
      code32 (ieee fmtF32 m [(a0 x).toNat, (a1 x).toNat] ((fmtF32.decode (a0 x).toNat).add m (fmtF32.decode (a1 x).toNat)))⟩
  | .fsub p d a b m => some ⟨p, 4, d, [a, b], .f32, fun x =>
      code32 (ieee fmtF32 m [(a0 x).toNat, (a1 x).toNat] ((fmtF32.decode (a0 x).toNat).add m (fmtF32.decode (a1 x).toNat).negate))⟩
  | .fmul p d a b m => some ⟨p, 4, d, [a, b], .f32, fun x =>
      code32 (ieee fmtF32 m [(a0 x).toNat, (a1 x).toNat] ((fmtF32.decode (a0 x).toNat).mul (fmtF32.decode (a1 x).toNat)))⟩
  | .ffma p d a b c m => some ⟨p, 4, d, [a, b, c], .f32, fun x =>
      code32 (ieee fmtF32 m [(a0 x).toNat, (a1 x).toNat, (a2 x).toNat]
        (((fmtF32.decode (a0 x).toNat).mul (fmtF32.decode (a1 x).toNat)).add m (fmtF32.decode (a2 x).toNat)))⟩
  | .fmin p d a b => some ⟨p, 4, d, [a, b], .f32, fun x => code32 (chosen false (a0 x).toNat (a1 x).toNat)⟩
  | .fmax p d a b => some ⟨p, 4, d, [a, b], .f32, fun x => code32 (chosen true (a0 x).toNat (a1 x).toNat)⟩
  | .fcmp p d a b cc => some ⟨p, 4, d, [a, b], .f32, fun x =>
      shifts (truthWord (fcmpHolds cc (a0 x).toNat (a1 x).toNat))
        (if fmtF32.isSNaN (a0 x).toNat ∨ fmtF32.isSNaN (a1 x).toNat then 0x10 else 0)⟩
  | .fcvt p d a dt st m => if cvtPair dt st then some ⟨p, 4, d, [a], .fmt st, fun x =>
      shifts (converted dt st m (a0 x)).1 (converted dt st m (a0 x)).2⟩ else none
  | .frnd p d a m => some ⟨p, 4, d, [a], .f32, fun x => code32 (integral m (a0 x).toNat)⟩
  | .hadd2 p d a b f m => some ⟨p, 4, d, [a, b], .half f, fun x => halves fun h =>
      ieee (layoutOf f) m [halfOf (a0 x) h, halfOf (a1 x) h]
        (((layoutOf f).decode (halfOf (a0 x) h)).add m ((layoutOf f).decode (halfOf (a1 x) h)))⟩
  | .hmul2 p d a b f m => some ⟨p, 4, d, [a, b], .half f, fun x => halves fun h =>
      ieee (layoutOf f) m [halfOf (a0 x) h, halfOf (a1 x) h]
        (((layoutOf f).decode (halfOf (a0 x) h)).mul ((layoutOf f).decode (halfOf (a1 x) h)))⟩
  | .hfma2 p d a b f m => some ⟨p, 4, d, [a, b, asSource d], .half f, fun x => halves fun h =>
      ieee (layoutOf f) m [halfOf (a0 x) h, halfOf (a1 x) h, halfOf (a2 x) h]
        ((((layoutOf f).decode (halfOf (a0 x) h)).mul ((layoutOf f).decode (halfOf (a1 x) h))).add m
          ((layoutOf f).decode (halfOf (a2 x) h)))⟩
  | _ => none

/-- Latency of a grade (R124). -/
def latOf : Grade → Nat
  | .f => 6
  | .a => 14

/-- The special functions (R331): their results are those of `specialF`, which leaves open what R125 leaves open. -/
def specialResult : Instr → Option RegOp
  | .frcp p d a g => some ⟨p, latOf g, d, [a], .f32, fun x => code32 (specialF .rcp g .rne (a0 x).toNat 0)⟩
  | .frsq p d a g => some ⟨p, latOf g, d, [a], .f32, fun x => code32 (specialF .rsq g .rne (a0 x).toNat 0)⟩
  | .fsqrt p d a g m => some ⟨p, latOf g, d, [a], .f32, fun x => code32 (specialF .sqrt g m (a0 x).toNat 0)⟩
  | .fdiv p d a b g m => some ⟨p, latOf g, d, [a, b], .f32, fun x => code32 (specialF .div g m (a0 x).toNat (a1 x).toNat)⟩
  | .fex2 p d a g => some ⟨p, latOf g, d, [a], .f32, fun x => code32 (specialF .ex2 g .rne (a0 x).toNat 0)⟩
  | .flg2 p d a g => some ⟨p, latOf g, d, [a], .f32, fun x => code32 (specialF .lg2 g .rne (a0 x).toNat 0)⟩
  | .fsin p d a g => some ⟨p, latOf g, d, [a], .f32, fun x => code32 (specialF .sin g .rne (a0 x).toNat 0)⟩
  | .fcos p d a g => some ⟨p, latOf g, d, [a], .f32, fun x => code32 (specialF .cos g .rne (a0 x).toNat 0)⟩
  | .ftanh p d a g => some ⟨p, latOf g, d, [a], .f32, fun x => code32 (specialF .tanh g .rne (a0 x).toNat 0)⟩
  | .fsigm p d a g => some ⟨p, latOf g, d, [a], .f32, fun x => code32 (specialF .sigm g .rne (a0 x).toNat 0)⟩
  | _ => none

/-! #### What special functions answer (R124 to R126) -/

/-- A subnormal input of the `.f` grade counts as the zero of its sign (R121). -/
def flushed (g : Grade) (a : Nat) : Nat := if g = .f ∧ a % 2 ^ 31 < 2 ^ 23 then 2 ^ 31 * (a / 2 ^ 31) else a

/-- The column of a function of one operand in the table of R126: a NaN, the zeros, the infinities, and a finite value below zero. -/
def tableR126 (fn : SFn) (a : Nat) : Option (Nat × FFlags) :=
  let inf := 0x7F800000
  let nan := 0x7FC00000
  let sign := 2 ^ 31 * (a / 2 ^ 31)
  if fmtF32.isNaN a then some (nan, 0)
  else match fn with
    | .rcp => if a % 2 ^ 31 = 0 then some (sign + inf, 0x08) else if a % 2 ^ 31 = inf then some (sign, 0) else none
    | .rsq => if a % 2 ^ 31 = 0 then some (sign + inf, 0x08) else if 2 ^ 31 ≤ a then some (nan, 0x10)
        else if a = inf then some (0, 0) else none
    | .sqrt => if a % 2 ^ 31 = 0 then some (a, 0) else if 2 ^ 31 ≤ a then some (nan, 0x10) else if a = inf then some (inf, 0) else none
    | .lg2 => if a % 2 ^ 31 = 0 then some (2 ^ 31 + inf, 0x08) else if 2 ^ 31 ≤ a then some (nan, 0x10)
        else if a = inf then some (inf, 0) else none
    | .ex2 => if a % 2 ^ 31 = 0 then some (0x3F800000, 0) else if a = inf then some (inf, 0)
        else if a = 2 ^ 31 + inf then some (0, 0) else none
    | .sin => if a % 2 ^ 31 = 0 then some (a, 0) else if a % 2 ^ 31 = inf then some (nan, 0x10) else none
    | .cos => if a % 2 ^ 31 = 0 then some (0x3F800000, 0) else if a % 2 ^ 31 = inf then some (nan, 0x10) else none
    | .tanh => if a % 2 ^ 31 = 0 then some (a, 0) else if a % 2 ^ 31 = inf then some (sign + 0x3F800000, 0) else none
    | .sigm => if a % 2 ^ 31 = 0 then some (0x3F000000, 0) else if a = inf then some (0x3F800000, 0)
        else if a = 2 ^ 31 + inf then some (0, 0) else none
    | .div => none

/-- The sign of a quotient, as a zero. -/
def quotientSign (a b : Nat) : Nat := if a / 2 ^ 31 = b / 2 ^ 31 then 0 else 2 ^ 31

/-- The cases of IEEE 754 division (R126). -/
def tableOfDivision (a b : Nat) : Option (Nat × FFlags) :=
  let inf := 0x7F800000
  let m := a % 2 ^ 31
  let n := b % 2 ^ 31
  if fmtF32.isNaN a ∨ fmtF32.isNaN b then some (0x7FC00000, quietsNan [a, b])
  else if m = inf ∧ n = inf ∨ m = 0 ∧ n = 0 then some (0x7FC00000, 0x10)
  else if m = inf then some (quotientSign a b + inf, 0)
  else if n = inf ∨ m = 0 then some (quotientSign a b, 0)
  else if n = 0 then some (quotientSign a b + inf, 0x08)
  else none

/-- The special inputs give the values and the conditions of R126 in both grades; `fsqrt.a` raises those of IEEE 754, nv for a signalling NaN
among them (R125). -/
def SpecialInputs : Prop :=
  (∀ (fn : SFn) (g : Grade) (m : RoundMode) (a : Nat) (r : Nat × FFlags), a < 2 ^ 32 → tableR126 fn (flushed g a) = some r →
    specialF fn g m a 0 = (r.1, r.2 ||| if fn = .sqrt ∧ g = .a then quietsNan [a] else 0)) ∧
  (∀ (g : Grade) (m : RoundMode) (a b : Nat) (r : Nat × FFlags), a < 2 ^ 32 → b < 2 ^ 32 →
    tableOfDivision (flushed g a) (flushed g b) = some r → specialF .div g m a b = r)

/-- `fdiv.a` and `fsqrt.a` are correctly rounded: the number they round compares with every number of 26 bits, so with every FP32 value
and with every midpoint between two, as the exact quotient or root does (R119, R124, R125). -/
def CorrectlyRounded : Prop :=
  ∀ (m : RoundMode) (a b : Nat) (x y : Rat), a < 2 ^ 32 → b < 2 ^ 32 → valueOf (fmtF32.decode a) = some x →
    valueOf (fmtF32.decode b) = some y → x ≠ 0 → y ≠ 0 →
    (∃ r v, specialF .div .a m a b = roundF fmtF32 m r ∧ valueOf r = some v ∧
      ∀ n e : Int, n.natAbs < 2 ^ 26 → (n * (2 : Rat) ^ e < v ↔ n * (2 : Rat) ^ e < x / y) ∧ (n * (2 : Rat) ^ e = v ↔ n * (2 : Rat) ^ e = x / y)) ∧
    (0 < x → ∃ r v, specialF .sqrt .a m a b = roundF fmtF32 m r ∧ valueOf r = some v ∧ 0 < v ∧
      ∀ n e : Int, 0 < n → n < 2 ^ 26 → (n * (2 : Rat) ^ e < v ↔ (n * (2 : Rat) ^ e) ^ 2 < x) ∧ (n * (2 : Rat) ^ e = v ↔ (n * (2 : Rat) ^ e) ^ 2 = x))

/-- The largest finite FP32 value. -/
def largestF32 : Rat := (2 ^ 24 - 1) * 2 ^ 104

/-- Finite inputs beyond the domain of the `.f` grade (R124): the values of its second table, with nx, uf with a zero and of with an
infinity. -/
def BeyondTheDomain : Prop :=
  ∀ (m : RoundMode) (a b : Nat) (x y : Rat), a < 2 ^ 32 → b < 2 ^ 32 → valueOf (fmtF32.decode (flushed .f a)) = some x →
    valueOf (fmtF32.decode (flushed .f b)) = some y →
    (2 ^ 126 ≤ x.abs → specialF .rcp .f m a b = (2 ^ 31 * (a / 2 ^ 31), 0x03)) ∧
    (x < -126 → specialF .ex2 .f m a b = (0, 0x03)) ∧
    (128 ≤ x → specialF .ex2 .f m a b = (0x7F800000, 0x05)) ∧
    (x < -80 → specialF .sigm .f m a b = (0, 0x03)) ∧
    (80 < x → specialF .sigm .f m a b = (0x3F800000, 0x01)) ∧
    (256 < x.abs → ∀ fn ∈ [SFn.sin, SFn.cos], ∃ k v, valueOf (fmtF32.decode k) = some v ∧ v.abs ≤ 1 ∧
      specialF fn .f m a b = (k, if v = 0 then 0x03 else 0x01)) ∧
    (x ≠ 0 → y ≠ 0 →
      ((2 ^ 126 ≤ y.abs ∨ x.abs < (2 : Rat) ^ (-126 : Int) * y.abs) → specialF .div .f m a b = (quotientSign a b, 0x03)) ∧
      (y.abs < 2 ^ 126 → largestF32 * y.abs < x.abs → specialF .div .f m a b = (quotientSign a b + 0x7F800000, 0x05)))

/-- In its domain an `.f` result of `frcp`, `frsq`, `fsqrt` and `fdiv` has a relative error of at most 2^-21 and raises nx alone; a result
of `frcp` or `fdiv` that falls below the normal range is the zero of its sign with uf (R121, R124, R125). -/
def FastGradeBounds : Prop :=
  ∀ (m : RoundMode) (a b : Nat) (x y : Rat), a < 2 ^ 32 → b < 2 ^ 32 → valueOf (fmtF32.decode a) = some x →
    valueOf (fmtF32.decode b) = some y →
    let tiny : Rat := (2 : Rat) ^ (-126 : Int)
    let lo : Rat := 1 - (2 : Rat) ^ (-21 : Int)
    let hi : Rat := 1 + (2 : Rat) ^ (-21 : Int)
    let near := fun (r : Nat × FFlags) (t : Rat → Prop) => r.2 = 0x01 ∧ ∃ v, valueOf (fmtF32.decode r.1) = some v ∧ t v
    (tiny ≤ x.abs → x.abs < 2 ^ 126 →
      near (specialF .rcp .f m a b) (fun v => lo ≤ v * x ∧ v * x ≤ hi) ∨
      (specialF .rcp .f m a b = (2 ^ 31 * (a / 2 ^ 31), 0x03) ∧ lo < tiny * x.abs)) ∧
    (tiny ≤ x → near (specialF .rsq .f m a b) (fun v => 0 < v ∧ lo ^ 2 ≤ v ^ 2 * x ∧ v ^ 2 * x ≤ hi ^ 2)) ∧
    (tiny ≤ x → near (specialF .sqrt .f m a b) (fun v => 0 < v ∧ lo ^ 2 * x ≤ v ^ 2 ∧ v ^ 2 ≤ hi ^ 2 * x)) ∧
    (tiny ≤ x.abs → tiny ≤ y.abs → y.abs < 2 ^ 126 → tiny * y.abs ≤ x.abs → x.abs ≤ largestF32 * y.abs →
      near (specialF .div .f m a b) (fun v => lo * x.abs ≤ v * y * (if 0 ≤ x then 1 else -1) ∧ v * y * (if 0 ≤ x then 1 else -1) ≤ hi * x.abs) ∨
      (specialF .div .f m a b = (quotientSign a b, 0x03) ∧ lo * x.abs < tiny * y.abs))

/-- `frcp.a` and `frsq.a` lie within 1 ulp of the exact value, where an ulp is the spacing of FP32 values in the binade of that value: the
model's choice, log entry 9. Beyond the largest finite value the reciprocal is an infinity, with of and nx. Else nx is raised, and uf with
it where the result and the exact value are both tiny and differ (R124, R125). -/
def AccurateGradeBounds : Prop :=
  ∀ (m : RoundMode) (a : Nat) (x : Rat) (e : Int), a < 2 ^ 32 → valueOf (fmtF32.decode a) = some x →
    let tiny : Rat := (2 : Rat) ^ (-126 : Int)
    let k := specialF .rcp .a m a 0
    (x ≠ 0 → 1 < largestF32 * x.abs → (2 : Rat) ^ e * x.abs ≤ 1 → 1 < (2 : Rat) ^ (e + 1) * x.abs →
      ∃ v, valueOf (fmtF32.decode k.1) = some v ∧ (v - 1 / x).abs ≤ (2 : Rat) ^ (max (e - 23) (-149)) ∧ (k.2 = 0x01 ∨ k.2 = 0x03) ∧
        (tiny ≤ v.abs → tiny * x.abs ≤ 1 → k.2 = 0x01) ∧
        (v.abs < tiny → 1 < (tiny - (2 : Rat) ^ (-151 : Int)) * x.abs → v * x ≠ 1 → k.2 = 0x03)) ∧
    (x ≠ 0 → largestF32 * x.abs < 1 → k = (2 ^ 31 * (a / 2 ^ 31) + 0x7F800000, 0x05)) ∧
    (0 < x → (2 : Rat) ^ (2 * e) * x ≤ 1 → 1 < (2 : Rat) ^ (2 * e + 2) * x →
      ∃ v, specialF .rsq .a m a 0 = ((specialF .rsq .a m a 0).1, 0x01) ∧ valueOf (fmtF32.decode (specialF .rsq .a m a 0).1) = some v ∧
        let u := (2 : Rat) ^ (e - 23)
        0 < v ∧ (v ≤ u ∨ (v - u) ^ 2 * x ≤ 1) ∧ 1 ≤ (v + u) ^ 2 * x)

/-- What R126 does not give raises nx, with uf or with of and an infinity, and no nv and no dz, in every function and grade but `fdiv.a` and
`fsqrt.a` (R125). -/
def ApproximationsAreInexact : Prop :=
  ∀ (fn : SFn) (g : Grade) (m : RoundMode) (a b : Nat), a < 2 ^ 32 → b < 2 ^ 32 → ¬ (g = .a ∧ (fn = .div ∨ fn = .sqrt)) →
    (if fn = .div then tableOfDivision (flushed g a) (flushed g b) else tableR126 fn (flushed g a)) = none →
    let r := specialF fn g m a b
    r.2 = 0x01 ∨ r.2 = 0x03 ∨ (r.2 = 0x05 ∧ r.1 % 2 ^ 31 = 0x7F800000)

/-! #### Across lanes (R371, R372, R391, R392, R395, R396, R400, R401) -/

/-- Bit k of a member mask, one value for the wave. -/
def inMask (s : State) (q : Issue) (m : Src) (k : Nat) : Bool := (s.opnd q.res .int m 0).getLsbD k

/-- The place a thread of `shfl` asks for. -/
def shflPlace (mode : ShflMode) (lane : Nat) (b : Word) : Int :=
  match mode with
  | .idx => (b.toNat % 16 : Nat)
  | .up => (lane : Int) - b.toNat
  | .down => (lane : Int) + b.toNat
  | .xor => (lane ^^^ (b.toNat % 16) : Nat)

/-- The thread it receives from: the place asked for where that is a member, and else itself. -/
def shflThread (s : State) (q : Issue) (b m : Src) (mode : ShflMode) (lane : Nat) : Nat :=
  let j := shflPlace mode lane (s.opnd q.res .int b lane)
  if 0 ≤ j ∧ j < 16 ∧ inMask s q m j.toNat then j.toNat else lane

/-- A number with the bits that satisfy a test. -/
def bitsOf (t : Nat → Bool) : Nat := ((List.range 16).map fun k => if t k then 2 ^ k else 0).sum

/-- The votes of a wave: a named thread that takes no effect votes 0. -/
def votes (s : State) (q : Issue) (p : Pred) (a m : Src) : Nat :=
  bitsOf fun k => inMask s q m k && q.res.effect true p k && s.opnd q.res .int a k != 0

/-- The result of a vote. -/
def voteOf (mode : VoteMode) (b mask : Nat) : Word :=
  match mode with
  | .any => truthWord (decide (b ≠ 0))
  | .all => truthWord (decide (b = mask))
  | .ballot => BitVec.ofNat 32 b
  | .uni => truthWord (decide (b = 0 ∨ b = mask))

/-- The identity of a reduction, by row of the table. -/
def identityOf (op : RedOp) (ty : RedTy) : Word :=
  match ty, op with
  | .f32, .add => 0x80000000
  | .f32, .min => 0x7F800000
  | .f32, .max => 0xFF800000
  | .i32, .min => 0x7FFFFFFF
  | .i32, .max => 0x80000000
  | .u32, .min => 0xFFFFFFFF
  | _, _ => 0

/-- One step of the tree. -/
def combine (op : RedOp) (ty : RedTy) (a b : Word × FFlags) : Word × FFlags :=
  let code := fun r : Nat × FFlags => (BitVec.ofNat 32 r.1, a.2 ||| b.2 ||| r.2)
  match ty, op with
  | .f32, .add => code (ieee fmtF32 .rne [a.1.toNat, b.1.toNat] ((fmtF32.decode a.1.toNat).add .rne (fmtF32.decode b.1.toNat)))
  | .f32, .min => code (chosen false a.1.toNat b.1.toNat)
  | .f32, .max => code (chosen true a.1.toNat b.1.toNat)
  | .i32, .min => (BitVec.ofInt 32 (min a.1.toInt b.1.toInt), a.2 ||| b.2)
  | .i32, .max => (BitVec.ofInt 32 (max a.1.toInt b.1.toInt), a.2 ||| b.2)
  | .u32, .min => (BitVec.ofNat 32 (min a.1.toNat b.1.toNat), a.2 ||| b.2)
  | .u32, .max => (BitVec.ofNat 32 (max a.1.toNat b.1.toNat), a.2 ||| b.2)
  | _, .add => (BitVec.ofNat 32 (a.1.toNat + b.1.toNat), a.2 ||| b.2)

/-- The tree: its leaves are the terms of the lanes, and the node of lane i after step k adds that of lane i + 8 / 2^k. -/
def treeNode (op : RedOp) (ty : RedTy) (term : Nat → Word) : Nat → Nat → Word × FFlags
  | 0, i => (term i, 0)
  | k + 1, i => combine op ty (treeNode op ty term k i) (treeNode op ty term k (i + 8 / 2 ^ k))

/-- The term of a lane. -/
def termOf (s : State) (q : Issue) (p : Pred) (a m : Src) (op : RedOp) (ty : RedTy) (k : Nat) : Word :=
  if inMask s q m k then (if q.res.effect true p k then s.opnd q.res (if ty = .f32 then .f32 else .int) a k else 0)
  else identityOf op ty

/-- The result of a reduction. -/
def reduced (s : State) (q : Issue) (p : Pred) (a m : Src) (op : RedOp) (ty : RedTy) : Result :=
  let t := treeNode op ty (termOf s q p a m op ty) 4 0
  { words := [t.1], ys := [], ff := t.2 }

/-- The predicate field of an instruction selects true for a thread or a cluster: its register's bit, or a gate of the innermost loop, which
no handler has open (R52, R70, R294). -/
def Selects (r : Resident) (p : Pred) (c : Nat) : Prop :=
  match p with
  | .always => True
  | .reg n neg => ((r.regs.read (.p c n)).getLsbD 0 = !neg)
  | .gate k => r.trap.inh = false ∧ ∃ e es, r.loops = e :: es ∧ k ≤ e.i ∧ e.i - k < e.count

/-! ### Control (R33, R34, R68 to R71, R286, R305 to R309, R322, R323, R348, R354 to R356, R368, R385) -/

/-- An address 8 × a signed offset from the header of the clause or bundle, modulo 2^64 (R286). -/
def fromHeader (q : Issue) (off : Int) : Nat := (((q.hdrAddr : Int) + 8 * off) % 2 ^ 64).toNat

/-- The header after the clause or bundle (R286). -/
def afterWords (q : Issue) : Nat := q.hdrAddr + 8 * (1 + if q.res.simt then q.hdr.count else q.hdr.slots.length)

/-- A target that raises neither misalignment nor an access violation (R286). -/
def GoodTarget (t : Nat) : Prop := t % 8 = 0 ∧ t < 2 ^ 56

/-- The bundles a pin has captured stand one after another from an address, each a header with the words it names (R54, R71), and the pin
goes on where they end. -/
def Captured (pin : LoopPin) : List (Nat × List DWord) → Nat → Prop
  | [], a => a = pin.next
  | (b, ws) :: rest, a => b = a ∧ (∃ h tl, ws = h :: tl ∧ tl.length = (List.range 20).countP fun k => h.getLsbD (44 + k)) ∧
      Captured pin rest (a + 8 * ws.length)

/-- What instruction fetches through a core may change: the memory side, and the core's instruction cache. -/
def FetchSide (core : Nat) (s t : State) : Prop :=
  s.MemorySide core (t.modCore core fun c => { c with icache := (s.coreAt core).icache })

/-- Where a transfer may stand: last in its clause, or in the scalar slot (R55, R290). -/
def TransferPlace (q : Issue) : Prop := if q.res.simt then q.idx + 1 = q.hdr.count else q.slot = 16

/-- The pair n as an address. -/
def pairAt (r : Resident) (n : Nat) : Nat := (r.regs.read (.s n)).toNat * 2 ^ 32 + (r.regs.read (.s (n + 1))).toNat

/-- A transfer: its predicate, where it goes, the pair it reads and the pair that takes the link (R306, R307, R368). -/
structure Transfer where
  p : Pred
  target : Issue → Nat
  reads : Option Nat
  link : Option Nat

def transferOf : Instr → Option Transfer
  | .bra p off => some ⟨p, fun q => fromHeader q off.toInt, none, none⟩
  | .brx p a => some ⟨p, fun q => pairAt q.res a, some a, none⟩
  | .call p off link => some ⟨p, fun q => fromHeader q off.toInt, none, some link⟩
  | .callr p link a => some ⟨p, fun q => pairAt q.res a, some a, some link⟩
  | .ret p a => some ⟨p, fun q => pairAt q.res a, some a, none⟩
  | _ => none

/-- The state after a transfer has moved the resident to a header. -/
def movedTo (s : State) (q : Issue) (t : Nat) : State :=
  { s with iss := some { q with res := { q.res with hdr := t, place := 0 }, moved := true } }

/-- The path a wave continues on once no thread of the present one is left: the first entry from the top that still names
threads (R323). -/
def nextPath (st : List DivEntry) : Option (BitVec 16 × Nat × List DivEntry) :=
  match st.dropWhile fun e => e.pending == 0 && e.outer == 0 with
  | [] => none
  | e :: es => if e.pending ≠ 0 then some (e.pending, e.pendingPc, { e with pending := 0 } :: es) else some (e.outer, e.rejoin, es)

/-- A wave on a path; with no path left its fetch ends. -/
def onPath (r : Resident) (p : Option (BitVec 16 × Nat × List DivEntry)) : Resident :=
  match p with
  | some (a, pc, st) => { r with active := a, hdr := pc, place := 0, div := st }
  | none => { r with active := 0, div := [], ended := true }

/-- Entries with threads removed. -/
def without (x : BitVec 16) (st : List DivEntry) : List DivEntry :=
  st.map fun e => { e with outer := e.outer &&& ~~~x, pending := e.pending &&& ~~~x }

/-- The active threads that an instruction takes effect in, as a mask. -/
def takingMask (q : Issue) (p : Pred) : BitVec 16 :=
  BitVec.ofNat 16 (bitsOf fun c => decide (c < q.res.width) && q.res.active.getLsbD c && q.res.effect true p c)

/-! ### Traps (R197 to R204, R291) -/

/-- Address, whether the level is reeve, and whether it is the emulation handler: the handler of a cause (R202). -/
def handlerFor (c : Context) (code : Nat) : Option (Nat × Bool × Bool) :=
  if code = 1 ∧ c.emuvec ≠ 0 then some (c.emuvec.toNat, false, true)
  else if c.tvec ≠ 0 then some (c.tvec.toNat, true, false) else none

/-- A resident's outstanding loads, their words as they have been read so far: none is read anew (log entry 6). -/
def loadsAsRead (r : Resident) : List PendLoad := r.loads.map fun l => { l with words := [] }

/-- The resident once it has taken a trap that is not deferred. `hdr`, `place` and `ended` say where a retry continues; it
stands itself where a skip continues (R202, R203). Results, porch entries and outstanding loads are captured (R206), with a re-execution
that brambles do not check, if it is still to come (R203). -/
def inHandler (r : Resident) (c : Cause) (h : Nat × Bool × Bool) (tpc hdr place : Nat) (ended : Bool) (point : TrapPoint) : Resident :=
  { r with
    trap :=
      { eng := c.eng, defer := false, emu := h.2.2, inh := true, code := c.code, tpc := tpc, i0 := c.i0, i1 := c.i1, i2 := c.i2,
        i3 := c.i3, prog := BitVec.ofNat 32 c.prog,
        hidden := some
          { hdr := hdr, place := place, ended := ended, skipHdr := r.hdr, skipPlace := r.place, skipEnded := r.ended, reeve := r.reeve,
            active := r.active, div := r.div, loops := r.loops,
            barrier := (match r.wait with
              | .barrier k => some k
              | _ => none),
            flights := r.flights, porch := r.porch, loads := loadsAsRead r, count := r.count, closing := r.closing, point := point, code := c.code
            exempt := r.exempt && point != .completed } }
    flights := []
    porch := []
    loads := []
    reeve := h.2.1
    hdr := h.1
    place := 0
    ended := false
    closing := .none
    wait := .none
    exempt := false }

/-- The state after a precise trap of the issuing instruction or bundle. -/
def trapsWith (s : State) (q : Issue) (c : Cause) (h : Nat × Bool × Bool) : State :=
  { s with iss := some { q with res := inHandler q.res c h q.hdrAddr q.hdrAddr q.idx false .atIssue, trapped := true } }

/-- The cause of an illegal encoding: opcode, predicate field, slot, mod; D and A; B and C; the low word (R198, R291). -/
def illegalOf (w : DWord) (slot : Nat) : Cause :=
  { code := 1
    i0 := (w.extractLsb' 55 9).zeroExtend 32 + (w.extractLsb' 50 5).zeroExtend 32 <<< 9 + (BitVec.ofNat 32 slot) <<< 14 +
      (w.extractLsb' 0 2).zeroExtend 32 <<< 19
    i1 := (w.extractLsb' 38 12).zeroExtend 32 + (w.extractLsb' 26 12).zeroExtend 32 <<< 16
    i2 := (w.extractLsb' 14 12).zeroExtend 32 + (w.extractLsb' 2 12).zeroExtend 32 <<< 16
    i3 := w.extractLsb' 0 32
    eng := false, prog := 0, cmd := none }

/-- A cause with its first information word. -/
def causeWith (code : Nat) (i0 : Word) : Cause := { code := code, i0 := i0, i1 := 0, i2 := 0, i3 := 0, eng := false, prog := 0, cmd := none }

/-- The place of a code in the order of R199. -/
def rankOf (code : Nat) : Nat := ([1, 2, 12, 3, 7, 6, 5, 11].findIdx? (· == code)).getD 8

/-- An op stands in a slot that R290 does not give it: an instruction that computes registers in the scalar, matrix or a copy slot, but one
of the integer family in the scalar slot with a scalar destination and no vector or operand-file source. -/
def Misplaced (slot : Nat) (i : Instr) : Prop :=
  16 ≤ slot ∧ ((predResult i).isSome = true ∨ (floatResult i).isSome = true ∨ (specialResult i).isSome = true ∨
    ∃ o, (intResult i = some o ∨ bitResult i = some o ∨ pairResult i = some o) ∧
      ¬ (slot = 16 ∧ dstScalar o.d = true ∧ ∀ a ∈ o.srcs, srcLane a = false))

/-- Any entry of the tables of register-computing instructions, with the place it asks for. -/
def regOp (q : Issue) (i : Instr) : Option (RegOp × Bool) :=
  match intResult i, bitResult i, pairResult i with
  | some o, _, _ => some (o, q.intPlace o.d o.srcs)
  | _, some o, _ => some (o, q.intPlace o.d o.srcs)
  | _, _, some o => some (o, q.intPlace o.d o.srcs && q.res.dstOk (Dst.next o.d))
  | none, none, none =>
    match predResult i, floatResult i, specialResult i with
    | some o, _, _ => some (o, q.lanePlace o.d)
    | _, some o, _ => some (o, q.lanePlace o.d)
    | _, _, some o => some (o, q.lanePlace o.d)
    | none, none, none => none

/-! ### Memory (R74, R77 to R83, R96, R101 to R107, R349 to R352, R363, R364, R377 to R381) -/

/-- The address of a global access: the pair and the sign-extended offset, modulo 2^64 (R287). -/
def globalAddr (s : State) (r : Resident) (a : Src) (off : BitVec 16) (c : Nat) : Nat :=
  ((s.opnd r .int a c ++ s.opnd r .int (Src.next a) c : DWord) + off.signExtend 64).toNat

/-- The offset of a scratchpad or constant-bank access, modulo 2^32 (R287). -/
def localAddr (s : State) (r : Resident) (a : Src) (off : BitVec 16) (c : Nat) : Nat := (s.opnd r .int a c + off.signExtend 32).toNat

/-- The host has not refused the page of an address to this instruction, which else traps with code 4 (R89). -/
def NotRefused (r : Resident) (a : Nat) : Prop := ∀ p ∈ r.refused, p ≠ (a / 2 ^ 16, 0)

/-- A global access that passes every check: aligned, inside the address space, unwatched, mapped with its right and not refused, and not
a read of a packed page. -/
def Passes (s : State) (r : Resident) (write : Bool) (n : Nat) (home : Bool) (a : Nat) : Prop :=
  a % n = 0 ∧ a < 2 ^ 56 ∧ NotRefused r a ∧ (s.ctxOf r).brambleCause r write false [(a, n)] = [] ∧
  ∃ leaf, (if home then s.checkHome (s.who r) (if write then 1 else 0) a else s.checkLane (s.who r) (if write then 1 else 0) a n) =
    .ok leaf ∧ (write = true ∨ leafPk leaf = false)

/-- A scratchpad access that passes every check: aligned, inside the allotment, unwatched, and not a plain read of a quilt. -/
def PassesLocal (s : State) (r : Resident) (write : Bool) (n : Nat) (a : Nat) : Prop :=
  a % n = 0 ∧ a + n ≤ r.launch.spad * 256 ∧ (s.ctxOf r).brambleCause r write true [(a, n)] = [] ∧
  (write = true ∨ (s.ctxOf r).packedSpad a n = false)

/-- Whether an ordered access goes to the home slice: from hamlet scope up (R107). -/
def atHome (k : Option Scope) : Bool :=
  match k with
  | none | some .lg | some .core => false
  | _ => true

/-- A load or store: predicate, register, base, landing field, bytes, offset, scope. -/
structure MemOp where
  p : Pred
  d : Dst
  x : Src
  a : Src
  land : Nat
  n : Nat
  off : BitVec 16
  scope : Option Scope

def globalLoadOf : Instr → Option MemOp
  | .ldG32 p d a land off => some ⟨p, d, .imm 0, a, land, 4, off, none⟩
  | .ldG64 p d a land off => some ⟨p, d, .imm 0, a, land, 8, off, none⟩
  | .ldo32 p d a land off k => some ⟨p, d, .imm 0, a, land, 4, off, some k⟩
  | .ldo64 p d a land off k => some ⟨p, d, .imm 0, a, land, 8, off, some k⟩
  | _ => none

def localLoadOf : Instr → Option MemOp
  | .ldSp32 p d a off => some ⟨p, d, .imm 0, a, 0, 4, off, none⟩
  | .ldSp64 p d a off => some ⟨p, d, .imm 0, a, 0, 8, off, none⟩
  | _ => none

def globalStoreOf : Instr → Option MemOp
  | .stG32 p x a off => some ⟨p, .v 0, x, a, 0, 4, off, none⟩
  | .stG64 p x a off => some ⟨p, .v 0, x, a, 0, 8, off, none⟩
  | .sto32 p x a off k => some ⟨p, .v 0, x, a, 0, 4, off, some k⟩
  | .sto64 p x a off k => some ⟨p, .v 0, x, a, 0, 8, off, some k⟩
  | _ => none

def localStoreOf : Instr → Option MemOp
  | .stSp32 p x a off => some ⟨p, .v 0, x, a, 0, 4, off, none⟩
  | .stSp64 p x a off => some ⟨p, .v 0, x, a, 0, 8, off, none⟩
  | _ => none

/-- A load's destination may be named: one register or a pair. -/
def MemOp.DstOk (o : MemOp) (r : Resident) : Prop := r.dstOk o.d = true ∧ (o.n = 8 → r.dstOk (Dst.next o.d) = true)

/-- The registers a store's data comes from: one, or a pair for 8 bytes. -/
def MemOp.dataRegs (o : MemOp) : List Src := if o.n = 8 then [o.x, Src.next o.x] else [o.x]

/-- The bytes of a word, least significant first. -/
def bytesOf (x : Word) : List Byte := (List.range 4).map fun k => x.extractLsb' (8 * k) 8

/-- The bytes a store writes: the first register of a pair is the high word. -/
def MemOp.bytes (o : MemOp) (s : State) (r : Resident) (c : Nat) : List Byte :=
  if o.n = 8 then bytesOf (s.opnd r .int (Src.next o.x) c) ++ bytesOf (s.opnd r .int o.x c) else bytesOf (s.opnd r .int o.x c)

/-- The word at an offset of bytes. -/
def wordAt (bs : List Byte) (k : Nat) : Word :=
  bs.getD (k + 3) 0 ++ bs.getD (k + 2) 0 ++ bs.getD (k + 1) 0 ++ bs.getD k 0

/-- What a load writes in a lane: the first register of a pair holds the high word (R46). -/
def loadedCells (d : Dst) (n c : Nat) (bs : List Byte) (mark : Bool) : List RegCell :=
  if n = 8 then [⟨dstReg d c, wordAt bs 4, mark⟩, ⟨dstReg (Dst.next d) c, wordAt bs 0, mark⟩] else [⟨dstReg d c, wordAt bs 0, mark⟩]

/-- The cells of every lane of a load, each with the bytes and mark that a read of its address gives. -/
def allCells (o : MemOp) (read : Nat → List Byte × Bool) (at_ : Nat → Nat) (cs : List Nat) : List RegCell :=
  cs.flatMap fun c => loadedCells o.d o.n c (read (at_ c)).1 (read (at_ c)).2

/-- An instruction takes cause 12 in the state u for sources that are poisoned in some of these lanes: the cause names a source and, by its
mask, the threads that read one, or the slot of an op (R199). -/
def PoisonTraps (s u : State) (q : Issue) (i : Instr) (srcs : List Src) (cs : List Nat) : Prop :=
  ∃ c : Cause, exec i s = .next (u.trapNow c) ∧ c.code = 12 ∧
    (∃ a ∈ srcs, c.i0 = BitVec.ofNat 32 (encSrc a) ∧ ∃ k ∈ cs, q.res.srcPoison a k = true) ∧
    (q.res.simt = true → ∀ k < 16, (c.i2.getLsbD k = true ↔ k ∈ cs ∧ ∃ a ∈ srcs, q.res.srcPoison a k = true)) ∧
    (q.res.simt = false → c.i2 = BitVec.ofNat 32 (2 ^ q.slot))

/-- The scalar registers among sources. -/
def scalarsOf (srcs : List Src) : List Src := srcs.filter fun a => match a with
  | .s _ => true
  | _ => false

/-- The lanes of a load or store, once for scalar operands. -/
def MemOp.loadLanes (o : MemOp) (q : Issue) : List Nat := q.lanes o.p (dstScalar o.d)
def MemOp.storeLanes (o : MemOp) (q : Issue) : List Nat := q.lanes o.p (srcScalar o.x && srcScalar o.a)

/-- Where loads and stores may stand (R290), and a predicate of the mode. -/
def MemOp.LoadPlace (o : MemOp) (q : Issue) : Prop :=
  q.memPlace (dstScalar o.d) (dstScalar o.d && srcScalar o.a) = true ∧ predOk q.res o.p = true
def MemOp.StorePlace (o : MemOp) (q : Issue) : Prop :=
  q.memPlace false (srcScalar o.x && srcScalar o.a) = true ∧ predOk q.res o.p = true

/-- The flag that a wave's load names (R57). -/
def flagNamed (q : Issue) (setB : Bool) : Nat := if setB then q.hdr.setb else q.hdr.seta

/-- The registers that a load or store reads, and the lanes, where nothing in its word is against it (R290, R349, R377). -/
def memReads (q : Issue) (i : Instr) (srcs : List Src) (cs : List Nat) : Prop :=
  (∃ o, globalLoadOf i = some o ∧ o.LoadPlace q ∧ o.DstOk q.res ∧ q.res.pairOk o.a = true ∧
    (q.res.simt = true → o.land < 2 ∧ flagNamed q (o.land == 1) < 12) ∧ (q.res.simt = false → 0 < o.land) ∧
    srcs = [o.a, Src.next o.a] ∧ cs = o.loadLanes q) ∨
  (∃ o, globalStoreOf i = some o ∧ o.StorePlace q ∧ q.res.pairOk o.a = true ∧ o.dataRegs.all q.res.srcOk = true ∧
    srcs = [o.a, Src.next o.a] ++ o.dataRegs ∧ cs = o.storeLanes q) ∨
  (∃ o, localLoadOf i = some o ∧ o.LoadPlace q ∧ o.DstOk q.res ∧ q.res.srcOk o.a = true ∧ srcs = [o.a] ∧ cs = o.loadLanes q) ∨
  (∃ o, localStoreOf i = some o ∧ o.StorePlace q ∧ q.res.srcOk o.a = true ∧ o.dataRegs.all q.res.srcOk = true ∧
    srcs = [o.a] ++ o.dataRegs ∧ cs = o.storeLanes q) ∨
  ∃ p d a off, i = .ldc p d a off ∧ q.memPlace (dstScalar d) (dstScalar d && srcScalar a) = true ∧ predOk q.res p = true ∧
    q.res.srcOk a = true ∧ q.res.dstOk d = true ∧ srcs = [a] ∧ cs = q.lanes p (dstScalar d)

/-- The words of a wave's plain load that may still be read anew, each by itself: addresses and registers (R104, R105, log entry 6). -/
def openWordsOf (o : MemOp) (at_ : Nat → Nat) (cs : List Nat) : List (Nat × Reg) :=
  if o.scope = none then cs.flatMap fun c =>
    if o.n = 8 then [(at_ c + 4, dstReg o.d c), (at_ c, dstReg (Dst.next o.d) c)] else [(at_ c, dstReg o.d c)]
  else []

/-- A resident with a flag counted up. -/
def withFlag (r : Resident) (k : Nat) : Resident := { r with flags := modAt r.flags k (· + 1) }

/-- The stores of a wave or bundle op. -/
def MemOp.stores (o : MemOp) (sp : Space) (s : State) (r : Resident) (at_ : Nat → Nat) (cs : List Nat) : List PendStore :=
  cs.map fun c => { sp := sp, addr := at_ c, bytes := o.bytes s r c, scope := o.scope, poison := false, lane := c }

/-- The state with stores put off to the end of the bundle. -/
def putOff (s : State) (sts : List PendStore) : State := { s with iss := s.iss.map fun q => { q with stores := q.stores ++ sts } }

/-- The state with the issuing resident changed. -/
def changed (s : State) (f : Resident → Resident) : State := { s with iss := s.iss.map fun q => { q with res := f q.res } }

/-- The porch entry of a load whose data is on its way. -/
def porchEntry (s : State) (r : Resident) (o : MemOp) (lat : Nat) (bank : Bool) (c a : Nat) (x : List Byte × Bool) : Porch :=
  { id := s.nextId, due := r.count + lat, seq := 32 * r.count + (s.iss.map Issue.slot).getD 0, lane := c
    dst := if o.n = 8 then [dstReg o.d c, dstReg (Dst.next o.d) c] else [dstReg o.d c]
    va := a, width := o.n, scope := o.scope, bank := bank, data := some (loadedCells o.d o.n c x.1 x.2)
    arrived := true, fault := .none, again := false }

/-- A load that is due at a count comes after one of an earlier bundle that is refused, and not before it (R66, R106, R107). -/
def BehindRefused (r : Resident) (due : Nat) : Prop :=
  ∃ x ∈ r.porch, (∃ c, x.fault = .refused c) ∧ x.due ≤ due ∧ x.seq / 32 < r.count

/-- An op's load takes its porch entry: with its data where it is performed at its issue, and without where it comes late or behind a
refused one, unless an access of its bundle must follow it. -/
def OpLoads (i : Instr) (o : MemOp) (lat : Nat) (bank : Bool) (s : State) (q : Issue) (c a : Nat) : Prop :=
  let late := s.oracle.headD false
  let s0 := { s with oracle := s.oracle.tail }
  let takes := fun (u : State) (e : Porch) => { changed u (fun r => { r with porch := r.porch ++ [e] }) with nextId := s.nextId + 1 }
  let waits := late = true ∨ BehindRefused q.res (q.res.count + lat)
  (waits → q.inOrder = false →
    exec i s = .next (takes s0 { porchEntry s q.res o lat bank c a ([], false) with data := none, arrived := false })) ∧
  (¬ waits ∨ q.inOrder = true →
    let x := s0.readScoped (s.who q.res) o.scope a o.n
    let u := x.2.acquire (s.who q.res) o.scope
    s0.ReadSide q.res.core u ∧ exec i s = .next (takes u (porchEntry s q.res o lat bank c a x.1)))

/-- The dirty bytes of some lines of a core's L1 have gone home: no such line is dirty any more, and a byte that one of them held dirty,
alone of the core's lines for its line of memory, is in memory unless its home is lost (R25, R82). -/
def GoneHome (s u : State) (core : Nat) (these : L1Line → Prop) : Prop :=
  Memory.wf s.mem = true → core < s.cores.length →
  (∀ l ∈ (u.coreAt core).l1, these l → l.dirty = 0) ∧
  ∀ l ∈ (s.coreAt core).l1, these l → (∀ l' ∈ (s.coreAt core).l1, l'.pa = l.pa → l' = l) → l.data.length = 128 →
    l.pa < hostBase / 128 → s.lostLine l.slice (l.pa * 128) = false → ∀ j < 128, l.dirty.getLsbD j = true →
    Memory.read u.mem (l.pa * 128 + j) = l.data.getD j 0

/-- What a core's lines know of the line of an address is sound: 128 bytes each, one home slice for the memory line, the address's
line is that memory line, and a line that is held under the address is held under no other. -/
def SoundLine (s : State) (w : Who) (a pa slice : Nat) : Prop :=
  let mine := fun l : L1Line => l.tag = a / 128 ∧ l.asid = w.asid ∧ l.tenant = w.tenant
  ∀ l ∈ (s.coreAt w.core).l1, l.data.length = 128 ∧ (l.pa = pa / 128 → l.slice = slice) ∧ (mine l → l.pa = pa / 128) ∧
    (l.pa = pa / 128 → s.l1Find w a ≠ none → mine l)

/-! ### Rings, comparators and system registers (R92 to R97, R138, R197 to R203, R210 to R216, R320, R365, R366, R384, R393 to R399) -/

/-- An instruction that acts once: in a wave, or in one of its slots, with a predicate of its mode. -/
def OncePlace (slots : List Nat) (p : Pred) (q : Issue) : Prop := (q.res.simt = true ∨ q.slot ∈ slots) ∧ predOk q.res p = true

/-- The fields of a ring's configuration. -/
def ringSlots (g : Ring) : Nat := (g.cfg.extractLsb' 0 7).toNat + 1
def slotOffset (g : Ring) (k : Nat) : Nat := 256 * (g.cfg.extractLsb' 19 13).toNat + k * (64 * (g.cfg.extractLsb' 8 11).toNat)

/-- A ring that the resident may use: enabled, and its own unit's (R93). -/
def OwnRing (r : Resident) (g : Ring) : Prop := g.cfg.extractLsb' 8 11 ≠ 0 ∧ g.owner = some r.uid

/-- A ring of a core replaced. -/
def withRing (s : State) (core k : Nat) (g : Ring) : State :=
  { s with cores := modAt s.cores core fun c => { c with rings := modAt c.rings k fun _ => g } }

/-- The state while the latch holds an instruction back. -/
def heldUp (s : State) (q : Issue) (faults : List (Nat × Nat)) : State := { s with iss := some { q with held := true, faults := faults } }

/-- A scalar register written by an instruction that acts once: now in a wave, at the next count in a wide thread. -/
def scalarWritten (r : Resident) (n : Nat) (x : Word) : Resident :=
  if r.simt then { r with regs := r.regs.putAll [⟨.s n, x, false⟩] }
  else { r with flights := r.flights ++ [{ due := r.count + 1, seq := 32 * r.count, writes := [⟨.s n, x, false⟩], lane := 0, ys := [], ff := 0 }] }

/-- Put off to the end of the bundle, beside its other ops. -/
def afterBundle (s : State) (q : Issue) (i : Instr) : State := { s with iss := some { q with after := q.after ++ [i] } }

/-- Change the context of a resident. -/
def withContext (s : State) (r : Resident) (f : Context → Context) : State :=
  { s with contexts := s.contexts.map fun c => if c.num = r.launch.ctx then f c else c }

/-- A descriptor in twelve scalar registers, high words first (R138). -/
def descriptorAt (r : Resident) (b : Nat) : Desc :=
  let w := fun k => (r.regs.read (.s (b + 2 * k)) ++ r.regs.read (.s (b + 2 * k + 1)) : DWord)
  { d0 := w 0, d1 := w 1, d2 := w 2, d3 := w 3, d4 := w 4, d5 := w 5 }

/-- A handler address with its low or its high word written. -/
def lowWord (v : BitVec 56) (x : Word) : BitVec 56 := v.extractLsb' 32 24 ++ x
def highWord (v : BitVec 56) (x : Word) : BitVec 56 := x.extractLsb' 0 24 ++ v.extractLsb' 0 32

/-- What a write of a special register changes in the context (R200, R201, R208, R218). -/
def contextAfter (n : Nat) (x : Word) (c : Context) : Context :=
  match n with
  | 0x1D => { c with emuvec := lowWord c.emuvec x }
  | 0x1E => { c with emuvec := highWord c.emuvec x }
  | 0x100 => { c with tvec := lowWord c.tvec x }
  | 0x101 => { c with tvec := highWord c.tvec x }
  | 0x10B => { c with fwait := x.extractLsb' 0 16 }
  | 0x10E => { c with tctl := x.getLsbD 0 }
  | _ => c

/-- What it changes in the resident (R51, R195). -/
def residentAfter (n : Nat) (x : Word) (r : Resident) : Resident :=
  match n with
  | 0x14 => { r with fflags := r.fflags &&& ~~~(x.extractLsb' 0 5) }
  | 0x18 => { r with ectrsel := (x.extractLsb' 0 4).toNat }
  | 0x1B => { r with occsel := (x.extractLsb' 0 11).toNat }
  | _ => r

/-- Registers that a `csrw` at user level may write (R292); at reeve level one of a read-only register is ignored (R20). -/
def userWritable : List Nat := [0x14, 0x18, 0x1B, 0x1D, 0x1E]

/-- A value source that an instruction which acts once reads. -/
def onceValue (s : State) (q : Issue) (a : Src) : Word := s.opnd q.res .int a q.onceLane

/-- A clean value source that the resident may name. -/
def GoodSource (q : Issue) (a : Src) : Prop := q.res.srcOk a = true ∧ ∀ n, a = .s n → q.res.Clean [.s n] [q.onceLane]

/-- A write of a special register or table: predicate, source, what it changes when it comes about, and the conditions beside the
place and the source under which it is legal and raises nothing (R92, R93, R98, R216, R320). -/
structure SystemWrite where
  p : Pred
  reads : List Src
  effect : State → Issue → State
  ok : State → Issue → Prop

/-- The scalar registers b and up. -/
def scalars (b n : Nat) : List Src := (List.range n).map fun k => .s (b + k)

/-- A bramble as a `wset` leaves it (R398, R399). -/
def brambleFrom (c : Context) (b0 b1 b2 : Word) : Bramble :=
  let acc := b0.getLsbD 2
  let n := (b0.extractLsb' 8 8).toNat
  let d := if acc then Desc.zero else c.desc n
  { valid := true, rd := b0.getLsbD 0, wr := b0.getLsbD 1, acc := acc, num := n, desc := d
    row0 := (b1.extractLsb' 16 16).toNat
    row1 := if acc then (b1.extractLsb' 0 16).toNat else min (b1.extractLsb' 0 16).toNat (d.rows - 1)
    col0 := (b2.extractLsb' 16 16).toNat
    col1 := if acc then (b2.extractLsb' 0 16).toNat else min (b2.extractLsb' 0 16).toNat (d.cols - 1) }

/-- A context with that bramble. -/
def brambleSet (r : Resident) (k b : Nat) (c : Context) : Context :=
  let new := brambleFrom c (r.regs.read (.s b)) (r.regs.read (.s (b + 1))) (r.regs.read (.s (b + 2)))
  { c with brambles := modAt c.brambles k fun _ => new }

/-- The body of a `wset` that its first check lets pass. -/
def BrambleBody (c : Context) (b0 b1 b2 b3 : Word) : Prop :=
  b0.extractLsb' 16 16 = 0 ∧ b0.extractLsb' 3 5 = 0 ∧ b3 = 0 ∧ b0.extractLsb' 0 3 ≠ 0 ∧
  b1.extractLsb' 16 16 ≤ b1.extractLsb' 0 16 ∧ b2.extractLsb' 16 16 ≤ b2.extractLsb' 0 16 ∧
  if b0.getLsbD 2 then b0.extractLsb' 0 2 = 0 ∧ b0.extractLsb' 8 8 ≤ 63 ∧ b1.extractLsb' 0 16 ≤ 63 ∧ b2.extractLsb' 0 16 ≤ 63
  else (c.desc (b0.extractLsb' 8 8).toNat).watch = true

/-- A core after a request for a setting of the carve-out (R98, R99). -/
def carveAsked (c : Core) (req now : Nat) : Core :=
  if c.carvePend then { c with carveStatus := 3 }
  else if req = c.carveCur then { c with carveReq := req, carveStatus := 0 }
  else { c with carveReq := req, carveStatus := 1, carvePend := true, carveSince := now }

/-- A ring as a write of its configuration leaves it (R92, R93). -/
def ringFrom (x : Word) (uid : Nat) : Ring :=
  { cfg := x, tail := 0, head := 0, free := (x.extractLsb' 0 7).toNat + 1, filled := 0, claims := [], taken := 0
    owner := if x.extractLsb' 8 11 = 0 then none else some uid }

/-- The writes of tables and special registers. -/
def systemWriteOf : Instr → Option SystemWrite
  | .tset p n b => some ⟨p, scalars b 12,
      fun s q => withContext s q.res fun c => { c with descs := putBy (fun x => x.1 == n) (n, descriptorAt q.res b) c.descs },
      fun _ q => (descriptorAt q.res b).setCauses q = []⟩
  | .wset p k b => some ⟨p, scalars b 4,
      fun s q => withContext s q.res (brambleSet q.res k b),
      fun s q => BrambleBody (s.ctxOf q.res) (q.res.regs.read (.s b)) (q.res.regs.read (.s (b + 1))) (q.res.regs.read (.s (b + 2)))
        (q.res.regs.read (.s (b + 3)))⟩
  | .wclr p k => some ⟨p, [], fun s q => withContext s q.res fun c => { c with brambles := modAt c.brambles k fun _ => Bramble.off },
      fun _ _ => True⟩
  | .csrw p n a => some ⟨p, [a],
      fun s q => changed (withContext s q.res (contextAfter n (onceValue s q a))) (residentAfter n (onceValue s q a)),
      fun s q => (n ∈ userWritable ∨ q.res.reeve = true) ∧ (n = 0x1D ∨ n = 0x100 → (onceValue s q a).toNat % 8 = 0) ∧
        n ∉ [0x10A, 0x10C] ∧ (n < 0x20 ∨ 0x2F < n)⟩
  | .carveWrite p a => some ⟨p, [a],
      fun s q => { s with cores := modAt s.cores q.res.core fun c => carveAsked c ((onceValue s q a).extractLsb' 2 2).toNat s.timebase },
      fun s q => q.res.reeve = true ∧ s.turns q.res.core q.res.launch.tenant = 64⟩
  | .rgcfgWrite p k a => some ⟨p, [a],
      fun s q => withRing s q.res.core k (ringFrom (onceValue s q a) q.res.uid),
      fun s q =>
        let x := onceValue s q a
        let g := ringFrom x 0
        ((s.ringOf q.res.core k).owner = none ∨ (s.ringOf q.res.core k).owner = some q.res.uid) ∧ (x.extractLsb' 8 11).toNat ≤ 1024 ∧
          slotOffset g (ringSlots g) ≤ q.res.launch.spad * 256⟩
  | .wdctlWrite p a => some ⟨p, [a],
      fun s q => withContext s q.res fun c =>
        { c with wden := (onceValue s q a).getLsbD 31, wdlimit := ((onceValue s q a).extractLsb' 0 31).toNat, wdcnt := 0 },
      fun _ q => q.res.reeve = true⟩
  | _ => none

/-- What a `tlbi` covers. -/
def tlbiAddr (q : Issue) : TlbiKind → Option Nat
  | .page a => some (pairAt q.res a)
  | .ctx => none
def tlbiSrcs : TlbiKind → List Src
  | .page a => [.s a, .s (a + 1)]
  | .ctx => []

/-! ### Engine commands at issue (R110 to R113, R142, R143, R149 to R161, R297 to R299, R310 to R317, R345, R357, R358) -/

/-- The value of a scalar register as a number. -/
def scalarAt (r : Resident) (n : Nat) : Nat := (r.regs.read (.s n)).toNat

/-- An engine address: a pair for global memory, one register for the scratchpad; the registers it is read from. -/
def engineAddr (r : Resident) (sp : Space) (n : Nat) : Nat := if sp = .g then pairAt r n else scalarAt r n
def addrRegs (sp : Space) (n : Nat) : List Nat := if sp = .g then [n, n + 1] else [n]
def four (b : Nat) : List Nat := [b, b + 1, b + 2, b + 3]

/-- A command as it arrives: nothing moved, waiting to start. -/
def newCopy (s : State) (q : Issue) (i : Instr) (x y : Nat) (w : Nat → Word) (set : Bool) (src dst : List Extent) : CopyCmd :=
  { id := s.nextId, rid := q.res.rid, uid := q.res.uid, reeve := q.res.reeve, instr := i, x := x, y := y, b0 := w 0, b1 := w 1, b2 := w 2
    b3 := w 3, td := Desc.zero, ts := Desc.zero, flag := flagNamed q set, loadId := none, src := src, dst := dst, ring := none, prog := 0
    total := 0, state := .queued, fva := 0, fwr := false, buffer := [], lines := [], half := false, since := 0, linkLost := false }

/-- A byte range of one of the issuer's spaces. -/
def rangeOf (q : Issue) (sp : Space) (lo len : Nat) : Extent :=
  { sp := sp, own := if sp = .s then q.res.uid else q.res.launch.ctx, lo := lo, len := len }

/-- A range of an engine command passes the checks at issue: it lies in the allotment, or its first and last byte are no access
violation; a plain source is not packed (R311). -/
def RangePasses (s : State) (q : Issue) (sp : Space) (wr nopk : Bool) (lo len : Nat) : Prop :=
  match sp with
  | .s => lo + len ≤ q.res.launch.spad * 256 ∧ (wr = false → nopk = true → (s.ctxOf q.res).packedSpad lo len = false)
  | .g => ∀ x ∈ [lo, lo + len - 1], s.checkHome (s.who q.res) (if wr then 1 else 0) x ≠ .bad ∧
      ∀ leaf, s.checkHome (s.who q.res) (if wr then 1 else 0) x = .ok leaf → wr = false → nopk = true → leafPk leaf = false

/-- A line of a context that holds bytes of a command's ranges in global memory, by their virtual addresses. -/
def Touches (ctx : Nat) (es : List Extent) (l : L1Line) : Prop :=
  l.ctx = ctx ∧ ∃ e ∈ es, e.sp = .g ∧ e.own = ctx ∧ e.lo < l.tag * 128 + 128 ∧ l.tag * 128 < e.lo + e.len

/-- No bramble watches what a command writes. -/
def Unwatched (s : State) (q : Issue) (sp : Bool) (rs : List (Nat × Nat)) : Prop := (s.ctxOf q.res).brambleCause q.res true sp rs = []

/-- A `.commit` passes its checks at issue: every line of each tile is mapped, none waits for its translation or was refused it, and the lines of a tile
stand at one home slice (R112). -/
def CommitPasses (s : State) (q : Issue) (d : Desc) : Prop :=
  ∀ t < d.tiles, ∃ slice, ∀ a ∈ d.commitLines t, s.checkHome (s.who q.res) 1 a ≠ .fault ∧
    NotRefused q.res a ∧ ∃ leaf size, s.xlat (s.who q.res) a = .ok leaf size ∧ homeSlice leaf size a (paOf leaf size a) = slice

/-- What an entry of the reference says of a copy-engine command: predicate, set, scalar registers read and only named, the command,
whether it is legal, and whether its checks pass. -/
structure CopyOp where
  p : Pred
  set : Bool
  reads : List Nat
  names : List Nat
  cmd : CopyCmd
  legal : Prop
  passes : Prop

/-- The rows of a copy: number, bytes, destination pitch, source pitch (R312). -/
def copyRows (twoD : Bool) (w : Nat → Word) : Nat × Nat × Nat × Nat :=
  if twoD then (((w 0).extractLsb' 16 16).toNat + 1, ((w 0).extractLsb' 0 16).toNat + 1, (w 1).toNat, (w 2).toNat) else (1, (w 0).toNat, 0, 0)

/-- The element of a collective and the most of them. -/
def collective : CredTy → Nat × Nat
  | .f32 => (4, 16384)
  | .i32 => (4, 16384)
  | .bf16 => (2, 32768)

/-- Bytes of an accumulated element. -/
def accElem : AccTy → Nat
  | .i32 => 4
  | .i64 => 8
  | .f32 => 4
  | .bf16 => 2

/-- The table of copy-engine commands. -/
def copyOf (s : State) (q : Issue) (i : Instr) : Option CopyOp :=
  let r := q.res
  let w := fun b k => r.regs.read (.s (b + k))
  match i with
  | .cpy p x y b set xs ys twoD =>
    let (n, rb, dp, sp) := copyRows twoD (w b)
    let ring := if (w b 3).getLsbD 4 then some ((w b 3).extractLsb' 0 4).toNat else none
    let dst := rangeOf q xs (engineAddr r xs x) ((n - 1) * dp + rb)
    let src := rangeOf q ys (engineAddr r ys y) ((n - 1) * sp + rb)
    let c := newCopy s q i dst.lo src.lo (w b) set [src] (if ring = none then [dst] else [])
    some ⟨p, set, addrRegs xs x ++ addrRegs ys y ++ four b, [], c,
      (if twoD then n * rb ≤ 65536 else 1 ≤ rb ∧ rb ≤ 65536 ∧ w b 1 = 0 ∧ w b 2 = 0) ∧ (w b 3).toNat < 32 ∧
        (∀ k, ring = some k → xs = .s ∧ dst.lo + dst.len ≤ 64 * ((s.ringOf r.core k).cfg.extractLsb' 8 11).toNat),
      (∀ k, ring = some k → OwnRing r (s.ringOf r.core k) ∧ (s.ringOf r.core k).cfg.getLsbD 7 = false) ∧
        (ring = none → RangePasses s q xs true false dst.lo dst.len) ∧ RangePasses s q ys false true src.lo src.len ∧
        Unwatched s q (xs == .s) (s.copyDst q c)⟩
  | .cfill p x b set xs =>
    let a := engineAddr r xs x
    let n := (w b 0).toNat
    some ⟨p, set, addrRegs xs x ++ four b, [], newCopy s q i a 0 (w b) set [] [rangeOf q xs a n],
      4 ≤ n ∧ n ≤ 65536 ∧ n % 4 = 0 ∧ w b 2 = 0 ∧ w b 3 = 0, a % 4 = 0 ∧ RangePasses s q xs true false a n ∧ Unwatched s q (xs == .s) [(a, n)]⟩
  | .cacc p x y b set xs ys imm op ty =>
    let m := accElem ty
    let n := (w b 0).toNat
    let a := engineAddr r xs x
    let e := if imm then 0 else engineAddr r ys y
    some ⟨p, set, addrRegs xs x ++ (if imm then [] else addrRegs ys y) ++ four b, [],
      newCopy s q i a e (w b) set (if imm then [] else [rangeOf q ys e (n * m)]) [rangeOf q xs a (n * m)],
      1 ≤ n ∧ n * m ≤ 65536 ∧ w b 1 = 0 ∧ op.fits ty = true ∧ (if imm = false then w b 2 = 0 ∧ w b 3 = 0
        else (ty = .i64 ∨ w b 2 = 0) ∧ (ty = .bf16 → (w b 3).toNat < 65536)),
      a % m = 0 ∧ (imm = false → e % m = 0) ∧ RangePasses s q xs true false a (n * m) ∧ (imm = false → RangePasses s q ys false true e (n * m))⟩
  | .ccas p x y b set xs w64 _ =>
    let n := if w64 then 8 else 4
    let a := engineAddr r xs x
    some ⟨p, set, addrRegs xs x ++ four b, if w64 then [y, y + 1] else [y],
      { newCopy s q i a y (w b) set [rangeOf q xs a n] [rangeOf q xs a n] with loadId := if r.simt then none else some s.nextId },
      w64 = false → w b 0 = 0 ∧ w b 2 = 0,
      a % n = 0 ∧ RangePasses s q xs true false a n ∧ RangePasses s q xs false true a n⟩
  | .ccrc p x y b set xs ys =>
    let n := (w b 0).toNat
    let a := engineAddr r xs x
    let e := engineAddr r ys y
    some ⟨p, set, addrRegs xs x ++ addrRegs ys y ++ four b, [], newCopy s q i a e (w b) set [rangeOf q ys e n] [rangeOf q xs a 4],
      1 ≤ n ∧ n ≤ 65536 ∧ w b 2 = 0 ∧ w b 3 = 0, a % 4 = 0 ∧ RangePasses s q xs true false a 4 ∧ RangePasses s q ys false false e n⟩
  | .cred p x y b set _ ty =>
    let m := (collective ty).1
    let n := (w b 0).toNat
    let a := pairAt r x
    let e := pairAt r y
    some ⟨p, set, addrRegs .g x ++ addrRegs .g y ++ four b, [],
      newCopy s q i a e (w b) set [rangeOf q .g e (n * m)] [rangeOf q .g a (n * m)],
      1 ≤ n ∧ n ≤ (collective ty).2 ∧ w b 1 = 0 ∧ (w b 2).toNat < 256,
      a % m = 0 ∧ e % m = 0 ∧ RangePasses s q .g true false a (n * m) ∧ RangePasses s q .g false false e (n * m)⟩
  | .jdec p x set =>
    let a := pairAt r x
    some ⟨p, set, [x, x + 1], [], newCopy s q i a 0 (fun _ => 0) set [] [rangeOf q .g (a + 48) 16], True,
      a % 128 = 0 ∧ RangePasses s q .g true false (a + 48) 16 ∧ RangePasses s q .g false true (a + 48) 16⟩
  | .cpyt p td ts set tr commit =>
    let d := (s.ctxOf r).desc td
    let e := (s.ctxOf r).desc ts
    let planes := fun x : Desc => x.planes.map fun p => rangeOf q (if x.spad then .s else .g) p.1 p.2
    some ⟨p, set, [], [], { newCopy s q i 0 0 (fun _ => 0) set (planes e) (planes d) with td := d, ts := e },
      cpytPair e.fmt d.fmt = true ∧ cpytShape d e tr = true ∧ d.bytes ≤ 65536 ∧ (commit = true → d.spad = false ∧ d.fmt.isQuilt = true),
      (∀ x ∈ d.planes, RangePasses s q (if d.spad then .s else .g) true false x.1 x.2) ∧
        (∀ x ∈ e.planes, RangePasses s q (if e.spad then .s else .g) false false x.1 x.2) ∧ Unwatched s q d.spad d.ranges ∧
        (commit = true → CommitPasses s q d)⟩
  | _ => none

/-- The landing field of a `ccas`: in a bundle a positive count, in a clause no more than the bit that names its set (R314). -/
def LandingOk (q : Issue) : Instr → Prop
  | .ccas _ _ _ _ set _ _ land => if q.res.simt then land = (if set then 1 else 0) else 0 < land
  | _ => True

/-- What a command does beside joining the queue: in a bundle `ccas` reserves its porch entry; `jdec` is a release, which takes the
context's dirty bytes home (R314, R345). -/
def besideQueue (u : State) (q : Issue) (c : CopyCmd) : Instr → State
  | .ccas _ _ y _ _ _ w64 land =>
    if q.res.simt then u
    else
      let regs := if w64 then [Reg.s y, .s (y + 1)] else [.s y]
      changed u fun r => { r with porch := r.porch ++ [{ id := c.id, due := r.count + land, seq := 32 * r.count, lane := 0, dst := regs, va := c.x, width := if w64 then 8 else 4, scope := none, bank := false, data := none, arrived := false, fault := .none, again := false }] }
  | .jdec _ _ _ => u.writeBackIf q.res.core fun l => l.ctx == (u.ctxOf q.res).num
  | _ => u

/-- An operation as it arrives in the matrix engine. -/
def newMat (s : State) (q : Issue) (i : Instr) (t : Nat) : MatCmd :=
  { id := s.nextId, rid := q.res.rid, instr := i, uid := q.res.uid, tile := t, ta := Desc.zero, tb := Desc.zero, kfirst := 0, kcount := 0
    row := 0, mask := 0, vals := [], flag := none, inHandler := q.res.trap.inh, reeve := q.res.reeve, due := 0, prog := 0, total := 0
    state := .queued, fva := 0, fwr := false, lines := [] }

/-- The matrix queue with one more operation. -/
def queuedMat (u : State) (q : Issue) (m : MatCmd) : State :=
  { u with
    cores := modAt u.cores q.res.core fun c => { c with mq := c.mq ++ [m] }
    nextId := u.nextId + 1 }

/-- First row or column and number of a K range (R357), and the registers it is read from. -/
def rangeK (r : Resident) : KRange → Nat × Nat
  | .imm f c => (16 * f, 16 * (c + 1))
  | .regs n => (scalarAt r n, scalarAt r (n + 1))
def rangeKRegs : KRange → List Nat
  | .imm _ _ => []
  | .regs n => [n, n + 1]

/-- A row transfer: predicate, first register, row, tile, mask registers, which of a participant's registers it reads. -/
structure RowOp where
  p : Pred
  n : Nat
  row : RowSel
  t : Nat
  mask : Option Nat
  reads : Bool

def rowOpOf : Instr → Option RowOp
  | .acrd p n r t => some ⟨p, n, r, t, none, false⟩
  | .acwr p n r t => some ⟨p, n, r, t, none, true⟩
  | .apatch p n r mask t _ => some ⟨p, n, r, t, some mask, true⟩
  | _ => none

/-- Registers that each participant transfers (R149). -/
def rowWidth (r : Resident) : Nat := match r.launch.shape with | 0 => 4 | 1 => 8 | _ => 16

/-- Who takes part: the active threads for which the predicate holds, or every cluster of a wide thread. -/
def takesPart (q : Issue) (p : Pred) : List Nat :=
  if q.res.simt then q.lanes p false else if q.taken p then List.range q.res.width else []

/-- The scalar registers a row transfer reads. -/
def RowOp.scalarReads (o : RowOp) : List Nat :=
  (match o.row with
    | .s n => [n]
    | .imm _ => []) ++ (match o.mask with
    | some m => [m, m + 1]
    | none => [])

/-- The operation as it arrives: row, mask and values as read at issue; in a wide thread an `acrd` is due 12 counts later. -/
def RowOp.cmd (o : RowOp) (i : Instr) (s : State) (q : Issue) : MatCmd :=
  { newMat s q i o.t with
    row := (match o.row with
      | .s n => scalarAt q.res n % 64
      | .imm k => k)
    mask := (match o.mask with
      | some m => q.res.regs.read (.s m) ++ q.res.regs.read (.s (m + 1))
      | none => 0)
    due := if q.res.simt then 0 else q.res.count + 12
    total := 1
    vals := (takesPart q o.p).map fun c =>
      (c, if o.reads then (List.range (rowWidth q.res)).map fun k => q.res.regs.read (.v c (o.n + k)) else []) }

/-! ### Work, barriers, regions, the return from a handler (R41, R115, R174, R175, R203, R213, R303, R304, R367, R374, R375, R386, R387) -/

/-- One of the two ranges of a `spawn` passes. -/
def SpawnRange (s : State) (q : Issue) (wr : Bool) (a : Nat) : Prop :=
  a % 128 = 0 ∧ NotRefused q.res a ∧ ∃ leaf, s.checkHome (s.who q.res) (if wr then 1 else 0) a = .ok leaf ∧ (wr = true ∨ leafPk leaf = false)

/-- The template of a `spawn`: the words at its address, once the resident's earlier stores are home (R375). -/
def templateAt (s : State) (r : Resident) (pa : Nat) : List Nat :=
  (List.range 16).map fun k => (dwordOf (Memory.readBytes (s.phaseAt r.core (s.ctxOf r).num .dev).mem (pa + 8 * k) 8)).toNat

/-- Words of a record as bit vectors, and a field of one. -/
def recWord (ws : List Nat) (k : Nat) : DWord := BitVec.ofNat 64 (ws.getD k 0)
def recField (ws : List Nat) (k lo n : Nat) : Nat := ((recWord ws k).extractLsb' lo n).toNat

/-- A byte of a record. -/
def recByte (ws : List Nat) (k : Nat) : Byte := (recWord ws (k / 8)).extractLsb' (8 * (k % 8)) 8

/-- A launch holds what its record says (R36). -/
def RecordRead (l : Launch) (ws : List Nat) : Prop :=
  let f := recField ws
  l.code = f 0 0 56 ∧ l.frame = f 1 0 56 ∧ (l.simt = true ↔ f 2 0 2 = 0) ∧ l.shape = f 2 2 2 ∧ l.pin = (recWord ws 2).getLsbD 4 ∧
  l.cls = f 2 5 2 ∧ l.vblk = f 3 0 6 ∧ l.sblk = f 3 6 4 ∧ l.spad = f 3 16 13 ∧ l.acc = f 3 29 7 ∧ l.flags = (recWord ws 3).extractLsb' 36 12 ∧
  l.cbank = f 8 0 56 ∧ l.cbsize = f 9 0 32 ∧ l.levels.length = f 2 8 3 + 1 ∧
  ∀ k x, l.levels[k]? = some x → x.domain = f (4 + k / 4) (16 * (k % 4)) 3 ∧ x.coRes = (recWord ws (4 + k / 4)).getLsbD (16 * (k % 4) + 3) ∧
    x.extent = f (4 + k / 4) (16 * (k % 4) + 4) 12 + 1

/-- Level-0 units that an instance of a domain has room for (R39). -/
def roomOf (l : Launch) (domain : Nat) : Option Nat :=
  let lg := if l.simt then 256 else if l.shape = 0 then 16 else if l.shape = 1 then 2 else 4
  [some 1, some 16, some lg, some (16 * lg), some (128 * lg), some (1536 * lg), some (3072 * lg)].getD domain none

/-- A record that R37 accepts; `mode` is its mode field. -/
def GoodRecord (l : Launch) (mode : Nat) : Prop :=
  let below := fun k => ((l.levels.take k).map Level.extent).prod
  mode < 2 ∧ l.shape < 3 ∧ (mode = 0 → l.shape = 0) ∧ l.code % 8 = 0 ∧ 1 ≤ l.vblk ∧ l.vblk ≤ 48 ∧ 1 ≤ l.sblk ∧ l.sblk ≤ 8 ∧ l.spad ≤ 7168 ∧
  l.acc ≤ 64 ∧ (∀ k y x, l.levels[k]? = some y → l.levels[k + 1]? = some x → y.domain ≤ x.domain) ∧
  (∀ k x, l.levels[k]? = some x → (mode = 1 → x.domain ≠ 1) ∧ (∀ m, roomOf l x.domain = some m → below k ≤ m) ∧
    (x.coRes = true → x.domain < 6 ∧ below k ≤ if l.simt then 65536 else if l.shape = 0 then 4096 else if l.shape = 1 then 8192 else 16384)) ∧
  below l.levels.length ≤ 2 ^ 32

/-- The queue entry of a new record (R163, R164). -/
def newEntry (s : State) (l : Launch) (die : Nat) (ready : Bool) : QRec :=
  { qid := s.nextId + 1, launch := l, die := die, age := s.timebase, ready := ready, acquire := true, rid := none, next := 0, rounds := 0,
    cls := l.cls, reserving := false, waited := 0, since := s.timebase }

/-- The queues of cores and hamlets are as they were. -/
def SameQueues (s t : State) : Prop :=
  t.cores.map (fun c => c.queue) = s.cores.map (fun c => c.queue) ∧ t.hamlets.map (fun h => h.queue) = s.hamlets.map (fun h => h.queue)

/-- Queue entries are told apart by their numbers, and no block is empty. -/
def GoodQueues (s : State) : Prop :=
  (s.allRecs.map QRec.qid).Nodup ∧ (∀ x ∈ s.allRecs, x.qid < s.nextId) ∧ (∀ c ∈ s.cores, ∀ b ∈ c.queue, b.recs ≠ []) ∧
  ∀ h ∈ s.hamlets, ∀ b ∈ h.queue, b.recs ≠ []

/-- A ready record enters the queue of a core (R164): the last block of its tenant, or a free block; where that block is full, the
tenant's eight youngest records, the incoming one among them, move up to the hamlet as a block; where it has no block and none is free, it moves up alone. -/
def EntersCore (s t : State) (core : Nat) (e : QRec) : Prop :=
  let bs := (s.coreAt core).queue
  let hs := (s.hamAt (hamOf core)).queue
  let mine := fun b : Block => b.tenant = e.launch.tenant
  let old := (bs.filter fun b => b.tenant == e.launch.tenant).flatMap Block.recs
  (∀ pre b post, bs = pre ++ b :: post → mine b → (∀ x ∈ post, ¬ mine x) → b.recs.length < 8 →
    (t.coreAt core).queue = pre ++ { b with recs := b.recs ++ [e] } :: post ∧ (t.hamAt (hamOf core)).queue = hs) ∧
  ((∀ b ∈ bs, ¬ mine b) → bs.length < 4 →
    (t.coreAt core).queue = bs ++ [{ tenant := e.launch.tenant, recs := [e] }] ∧ (t.hamAt (hamOf core)).queue = hs) ∧
  (∀ pre b post, bs = pre ++ b :: post → mine b → (∀ x ∈ post, ¬ mine x) → 8 ≤ b.recs.length → hs.length ≤ 16 →
    ∃ up, up.length = 8 ∧ e ∈ up ∧ (∀ x ∈ up, x = e ∨ x ∈ old) ∧ (∀ x ∈ old, x ∉ up → ∀ y ∈ up, y ≠ e → x.age ≤ y.age) ∧
      (t.hamAt (hamOf core)).queue = hs ++ [{ tenant := e.launch.tenant, recs := up }] ∧
      ∀ x, x ∈ (t.coreAt core).queue.flatMap Block.recs ↔ x ∈ bs.flatMap Block.recs ∧ x ∉ up) ∧
  ((∀ b ∈ bs, ¬ mine b) → 4 ≤ bs.length → (∀ b ∈ hs, ¬ mine b) → hs.length < 32 →
    (t.coreAt core).queue = bs ∧ (t.hamAt (hamOf core)).queue = hs ++ [{ tenant := e.launch.tenant, recs := [e] }])

/-- The barrier generation of a resident's level with one more arrival; the first arrival of `barv` sets the count. -/
def joined (s : State) (r : Resident) (k : Nat) (need : Option Nat) : Barrier :=
  let b := s.barrierOf r k
  { b with
    arrived := if r.rid ∈ b.arrived then b.arrived else b.arrived ++ [r.rid]
    need := if b.arrived = [] then need else b.need }

/-- A generation is complete (R174): as many arrivals as its count, or every resident of the unit has arrived or retired. -/
def Complete (s : State) (b : Barrier) : Prop :=
  match b.need with
  | some c => c ≤ b.arrived.length
  | none => ∀ x, s.running.find? (fun x => x.launch.lid == b.lid) = some x →
      x.launch.levelResidents b.level ≤ (b.arrived.filter fun rid => (s.resAt rid).isSome).length +
        (x.retired.filter fun tid => tid / ((x.launch.levels.take b.level).map Level.extent).prod == b.unit).length

/-- Some resident of the unit is not yet placed (R176). -/
def StillToPlace (s : State) (b : Barrier) : Prop :=
  ∃ x, s.running.find? (fun x => x.launch.lid == b.lid) = some x ∧ x.placed < (b.unit + 1) * x.launch.levelResidents b.level

/-- A captured porch entry as a return re-injects it (R203, R206): shifted to the resumed counts; the load that faulted is issued again by
`.retry` and dropped by `.skip`, which also drops the entry of a skipped engine command. -/
def reinjected (retry : Bool) (h : Hidden) (now : Nat) (e : Porch) : Option Porch :=
  let x := { e with due := e.due + (now - h.count) }
  match h.point with
  | .deferred ids => if e.id ∉ ids then some x else if retry then some { x with fault := .none, data := none, arrived := false, again := true } else none
  | .engine id => if e.id = id ∧ retry = false then none else some x
  | _ => some x

/-- A resident that a `tret.retry` or `tret.skip` returns from a handler: the hidden state is restored, with captured results and loads
shifted to the resumed counts; after code 11 a retry is exempt from brambles once, also where another trap has come before the
re-execution (R203, R206). -/
def returned (r : Resident) (retry : Bool) (h : Hidden) : Resident :=
  { r with
    trap := { r.trap with inh := false, hidden := none }
    reeve := h.reeve, active := h.active, div := h.div, loops := h.loops, closing := h.closing
    wait := (match h.barrier with
      | some n => .barrier n
      | none => .none)
    flights := h.flights.map fun f => { f with due := f.due + (r.count - h.count) }
    porch := h.porch.filterMap (reinjected retry h r.count)
    loads := h.loads ++ r.loads
    hdr := if retry then h.hdr else h.skipHdr
    place := if retry then h.place else h.skipPlace
    ended := if retry then h.ended else h.skipEnded
    exempt := (retry && h.point == .atIssue && h.code == 11) || (h.exempt && (retry || match h.point with
      | .asynchronous => true
      | .engine _ => true
      | _ => false))
    async := r.asyncHeld ++ r.async
    asyncHeld := [] }

/-- The state in which the issuing resident has returned: tiles held for it are released, and row transfers from before the trap fall
due at the shifted counts. -/
def returnedTo (s : State) (q : Issue) (retry : Bool) (h : Hidden) : State :=
  { s with
    units := s.units.map fun u => { u with held := u.held.filter fun x => x.2 != q.res.rid }
    cores := modAt s.cores q.res.core fun c => { c with mq := c.mq.map fun m =>
      if m.rid == q.res.rid && m.due != 0 && !m.inHandler then { m with due := m.due + (q.res.count - h.count) } else m }
    iss := some { q with res := returned q.res retry h } }

/-- A stopped engine command goes on from its progress (R203). -/
def goesOn (s : State) (core id : Nat) : State :=
  { s with cores := modAt s.cores core fun c => { c with
      cq := c.cq.map fun x => if x.id = id ∧ x.state = .stopped then { x with state := .running } else x
      mq := c.mq.map fun x => if x.id = id ∧ x.state = .stopped then { x with state := .running } else x } }


/-! ### Steps that no instruction takes: loads and faults (R58, R65, R87, R89, R206, R208, R225) -/

/-- A resident stands on its lane group, nothing has stopped it, and the clocks run. -/
def Stands (s : State) (r : Resident) : Prop := r.away = .here ∧ r.stop = .none ∧ s.power ≠ 3 ∧ s.stage ≠ 3

/-- The state with one resident changed, wherever it stands. -/
def resChanged (s : State) (rid : Nat) (f : Resident → Resident) : State :=
  let g := fun r : Resident => if r.rid = rid then f r else r
  { s with
    residents := s.residents.map g
    iss := s.iss.map fun q => { q with res := g q.res } }

/-- What the data of a porch entry writes: one register, or a pair whose first holds the high word (R46). -/
def arrivedCells (dst : List Reg) (bs : List Byte) (mark : Bool) : List RegCell :=
  match dst with
  | [g] => [⟨g, wordAt bs 0, mark⟩]
  | [g, h] => [⟨g, wordAt bs 4, mark⟩, ⟨h, wordAt bs 0, mark⟩]
  | _ => []

/-- A load of an earlier bundle is not performed, and comes before an entry: not one that is refused and due later, whose trap the entry
precedes (R66, R106, R107). -/
def WaitsForEarlier (s : State) (r : Resident) (e : Porch) : Prop :=
  ∃ x ∈ r.porch, x.seq / 32 < e.seq / 32 ∧ x.data = none ∧ (∀ c ∈ (s.coreAt r.core).cq, c.id ≠ x.id) ∧ (∀ c ∈ r.heldCopies, c.id ≠ x.id) ∧
    ((∃ c, x.fault = .refused c) → x.due ≤ e.due)

/-- The lines of a context in a core's L1 are stale: their clean bytes are fetched anew (R106). -/
def staleIn (s : State) (core ctx : Nat) : State :=
  { s with cores := modAt s.cores core fun c => { c with l1 := c.l1.map fun l => if l.ctx = ctx then { l with stale := true } else l } }

/-- Bytes that the device itself has written in device memory, and nothing else there. -/
def Wrote (s t : State) (pa : Nat) (bs : List Byte) : Prop :=
  ∀ a, Memory.read t.mem a = if pa ≤ a ∧ a < pa + bs.length then bs.getD (a - pa) 0 else Memory.read s.mem a

/-- n bytes lie in device memory, and the home slice of each serves it (R25). -/
def Served (s : State) (pa n : Nat) : Prop := ∀ a, pa ≤ a → a < pa + n → a < hostBase ∧ s.lostLine (hashSlice a) a = false

/-- Places in a hamlet's merge table that a tenant may hold (R194): all, or 32 for each core of the hamlet on which it holds a quarter of a
lane group while a table runs. -/
def mergePlaces (s : State) (ham t : Nat) : Nat :=
  if s.rota.state < 2 then 256
  else 32 * (List.range 8).countP fun k => (List.range 64).any fun j => s.holder (8 * ham + k) (j / 4) (j % 4) == some t

/-- A wait for a place in a hamlet's merge table that now has one (R87, R194). -/
def PlaceFree (s : State) (ham : Nat) (r : Resident) (f : FaultWait) : Prop :=
  ∃ page kind, f = .full ham page kind ∧
    let h := s.hamAt ham
    (∃ m ∈ h.merge, m.tenant = r.launch.tenant ∧ m.asid = (s.ctxOf r).asid ∧ m.page = page) ∨
    (h.merge.length < 256 ∧ (h.merge.filter fun m => m.tenant == r.launch.tenant).length < mergePlaces s ham r.launch.tenant)

/-- A wait once the accesses that a test answers are over. -/
def waitLeft (hit : FaultWait → Option FaultWait) : Wait → Wait
  | .fault fs =>
    let left := fs.filter fun f => hit f = none
    if left = [] ∧ fs ≠ [] then .none else .fault left
  | .landing fs =>
    let left := fs.filter fun f => hit f = none
    if left = [] then .none else .landing left
  | .fetch f => if hit f = none then .fetch f else .none
  | w => w

/-! ### The engines' own steps (R42, R94, R110 to R114, R144 to R152, R159 to R162, R212, R314, R346) -/

/-- The command a core's copy engine can work on now. -/
def AtWork (s : State) (core : Nat) (c : CopyCmd) : Prop :=
  s.power ≠ 3 ∧ s.stage ≠ 3 ∧ (s.coreAt core).cq.find? (fun x => x.id == c.id) = some c

/-- The same for the matrix engine. -/
def MatAtWork (s : State) (core : Nat) (m : MatCmd) : Prop :=
  s.power ≠ 3 ∧ s.stage ≠ 3 ∧ (s.coreAt core).mq.find? (fun x => x.id == m.id) = some m

/-- The state with a command of the copy engine changed. -/
def cmdChanged (s : State) (core : Nat) (c : CopyCmd) : State :=
  { s with cores := modAt s.cores core fun k => { k with cq := k.cq.map fun x => if x.id = c.id then c else x } }

/-- The state with an operation of the matrix engine changed. -/
def matChanged (s : State) (core : Nat) (m : MatCmd) : State :=
  { s with cores := modAt s.cores core fun k => { k with mq := k.mq.map fun x => if x.id = m.id then m else x } }

/-- The state without an operation of the matrix engine. -/
def matGone (s : State) (core : Nat) (id : Nat) : State :=
  { s with cores := modAt s.cores core fun k => { k with mq := k.mq.filter fun x => x.id != id } }

/-- Two ranges of bytes share one. -/
def Shares (a b : Extent) : Prop := a.sp = b.sp ∧ a.own = b.own ∧ a.lo < b.lo + b.len ∧ b.lo < a.lo + a.len

/-- Ranges of two commands of a core meet: they share a byte of a space, or of physical memory (R78, R110). -/
def Meets (s : State) (core : Nat) (c x : CopyCmd) (a b : Extent) : Prop :=
  0 < a.len ∧ 0 < b.len ∧ Shares a b ∨
  ∃ y ∈ s.physOf (s.cmdWho core c.rid c.reeve) a, ∃ z ∈ s.physOf (s.cmdWho core x.rid x.reeve) b,
    y.1 < z.1 + z.2 ∧ z.1 < y.1 + y.2 ∧ 0 < y.2 ∧ 0 < z.2

/-- A command must wait for an earlier one: it reads what the other writes, or writes what the other reads or writes (R110). -/
def MustFollow (s : State) (core : Nat) (c x : CopyCmd) (src dst : List Extent) : Prop :=
  (∃ a ∈ src, ∃ b ∈ x.dst, Meets s core c x a b) ∨ ∃ a ∈ dst, ∃ b ∈ x.src ++ x.dst, Meets s core c x a b

/-- The links of a peer group, the number of its own group that a `cred` names, and whether one of its links is down (R223, R233). -/
def linksOf (g : PeerGroup) : BitVec 18 := g.entries.foldl (fun m e => m ||| e.extractLsb' 8 18) 0
def groupNamed (s : State) (c : CopyCmd) : Option PeerGroup := s.peerGroups.find? fun g => g.group == c.b2.toNat
def linkLacks (s : State) (g : PeerGroup) : Bool := linksOf g &&& ~~~s.links != 0

/-- A `cacc` on codes of its type (R120, R136, R157). -/
def accumulated (op : AccOp) (ty : AccTy) (old x : Nat) : Nat :=
  let whole := fun w : Nat =>
    let a := BitVec.ofNat w old
    let b := BitVec.ofNat w x
    (match op with
    | .add => a + b
    | .min => if b.slt a then b else a
    | .max => if a.slt b then b else a
    | .and => a &&& b
    | .or => a ||| b
    | .xor => a ^^^ b
    | .exch => b).toNat
  match ty with
  | .i32 => whole 32
  | .i64 => whole 64
  | .f32 => (match op with
    | .add => (ieee fmtF32 .rne [old, x] ((fmtF32.decode old).add .rne (fmtF32.decode x))).1
    | .min => (chosen false old x).1
    | .max => (chosen true old x).1
    | _ => x)
  | .bf16 => match op with
    | .add => (ieee fmtBF16 .rne [old, x] ((fmtBF16.decode old).add .rne (fmtBF16.decode x))).1
    | .min => (chosen false (old * 65536) (x * 65536)).1 / 65536
    | .max => (chosen true (old * 65536) (x * 65536)).1 / 65536
    | _ => x

/-- The number that n bytes of read cells from an address make, and the bytes of a number, least significant first. -/
def codeAt (cells : List Host.Cell) (a n : Nat) : Nat := (List.range n).foldr (fun k v => (cellByte cells (a + k)).toNat + 256 * v) 0
def codeBytes (n v : Nat) : List Byte := (List.range n).map fun k => BitVec.ofNat 8 (v / 256 ^ k)

/-- The operand of a `cacc.imm` (R313). -/
def bodyOperand (c : CopyCmd) : AccTy → Nat
  | .i64 => (c.b2 ++ c.b3 : DWord).toNat
  | .bf16 => (c.b3.extractLsb' 0 16).toNat
  | _ => c.b3.toNat

/-- The operator and type of a `cred` as those of a `cacc` (R160). -/
def asAcc : RedOp → AccOp
  | .add => .add
  | .min => .min
  | .max => .max
def asAccTy : CredTy → AccTy
  | .f32 => .f32
  | .bf16 => .bf16
  | .i32 => .i32

/-- A participant's element of a reduction. -/
def partElem (n k : Nat) (p : CredPart) : Nat := ((p.data.drop (n * k)).take n).foldr (fun b v => b.toNat + 256 * v) 0

/-- The bytes that a reduction gives, for the contributions in ascending rank (R160). -/
def reductionOf (op : RedOp) (ty : CredTy) (count : Nat) : List CredPart → List Byte
  | [] => []
  | p :: ps =>
    if ps = [] then p.data
    else (List.range count).flatMap fun k => codeBytes (collective ty).1
      (ps.foldl (fun v x => accumulated (asAcc op) (asAccTy ty) v (partElem (collective ty).1 k x)) (partElem (collective ty).1 k p))

/-- A porch entry that a `ccas` fills, in the porch or among what a trap has captured (R206, R314). -/
def porchFilled (s : State) (rid id : Nat) (cells : List RegCell) : State :=
  let f := fun e : Porch => if e.id = id then { e with data := some cells, arrived := true } else e
  resChanged s rid fun r => { r with
    porch := r.porch.map f
    trap := { r.trap with hidden := r.trap.hidden.map fun h => { h with porch := h.porch.map f } } }

/-- A command that is no `cred` or `jdec`: it moves units. -/
def movesUnits : Instr → Bool
  | .cred .. => false
  | .jdec .. => false
  | _ => true

/-- Spaces of a copy or fill. -/
def copySpaces : Instr → Option (Space × Space)
  | .cpy _ _ _ _ _ xs ys _ => some (xs, ys)
  | .cfill _ _ _ _ xs => some (xs, xs)
  | _ => none

/-- What a unit of a copy reads; a fill reads nothing. -/
def unitSource (i : Instr) (a n : Nat) : List (Nat × Nat) :=
  match i with
  | .cfill .. => []
  | _ => [(a, n)]

/-- The bytes a unit of a copy or a fill writes: those at the source, or the word's bytes from the destination's start (R155). -/
def unitBytes (c : CopyCmd) (d n a : Nat) (cells : List Host.Cell) : List Byte :=
  (List.range n).map fun k => match c.instr with
    | .cfill .. => (bytesOf c.b1).getD ((d + k - c.x) % 4) 0
    | _ => cellByte cells (a + k)

/-- A command has left its engine: the lines of its destination have left the core's L1, a slot it claimed is committed, and its
issuer's flag counts down (R94, R113). -/
def ended (s : State) (core : Nat) (c : CopyCmd) : State :=
  let u := s.dropFor (s.cmdWho core c.rid c.reeve) c.dst
  let v := match c.ring with
    | some (k, slot) => u.modRing core k fun g => g.commitSlot slot
    | none => u
  resChanged { v with cores := modAt v.cores core fun k => { k with cq := k.cq.filter fun x => x.id != c.id } } c.rid fun r =>
    { r with flags := modAt r.flags c.flag (· - 1) }

/-- A `cred` ends: where its issuer has come to another core meanwhile, the lines of that core go too (R113, R116). -/
def atIssuer (s : State) (core : Nat) (c : CopyCmd) : State :=
  match s.resAt c.rid with
  | some r => if r.core = core then s else s.dropFor (s.cmdWho r.core c.rid c.reeve) c.dst
  | none => s

/-- An asynchronous cause joins those of a resident. -/
def raised (s : State) (rid : Nat) (c : Cause) : State := resChanged s rid fun r => { r with async := r.async ++ [c] }

/-- An engine command is stopped by a fault at its progress (R148, R162, R198). -/
def engineCause (k : Cause) (id prog info3 : Nat) : Cause :=
  { k with eng := true, prog := prog, i3 := BitVec.ofNat 32 info3, cmd := some id }

/-- A tile of a unit of a core. -/
def tileAt (s : State) (core uid t : Nat) : Tile := ((s.unitOf uid core).map fun u => u.tiles.getD t Tile.zero).getD Tile.zero

/-- The state with a tile changed. -/
def tileChanged (s : State) (core uid t : Nat) (f : Tile → Tile) : State :=
  { s with units := s.units.map fun u => if u.uid = uid ∧ u.core = core then { u with tiles := modAt u.tiles t f } else u }

/-- An operation's turn on its tile has come: nothing earlier is left there, and no hold keeps it away; what waits behind a hold is
passed by the handler that the hold is for (R114, R212). -/
def TurnHasCome (s : State) (core : Nat) (m : MatCmd) : Prop :=
  let heldFrom := fun x : MatCmd => ∃ u, s.unitOf x.uid core = some u ∧ ∃ h ∈ u.held, h.1 = x.tile ∧ ¬ (h.2 = x.rid ∧ x.inHandler = true)
  ¬ heldFrom m ∧ ∀ x ∈ (s.coreAt core).mq.takeWhile (fun x => x.id != m.id), x.uid = m.uid → x.tile = m.tile → heldFrom x

/-- One element after a group of an `mma` (R134, R135, R144): INT8 adds the products modulo 2^32; the other classes add the products and
the old value as terms of one group. -/
def groupValue (int8 : Bool) (old : Word) (xs : List (XR × XR)) : Word :=
  if int8 then BitVec.ofInt 32 (old.toInt + ((xs.map fun x => truncTerm 0 (x.1.mul x.2)).sum))
  else BitVec.ofNat 32 (groupSum (fmtF32.decode old.toNat :: xs.map fun x => x.1.mul x.2))

/-- The registers and marks a row transfer into registers writes for a participant (R149, R150, R299). -/
def rowCells (m : MatCmd) (n k : Nat) (t : Tile) (c : Nat) : List RegCell :=
  (List.range k).map fun j => ⟨.v c (n + j), (t.get (64 * m.row + c * k + j)).val, (t.get (64 * m.row + c * k + j)).poison⟩

/-- A column of a row that a participant writes: its place among the participant's registers. -/
def columnOf (m : MatCmd) (k : Nat) (col : Nat) : Option Word :=
  (m.vals.find? fun v => v.1 == col / k).map fun v => v.2.getD (col % k) 0

/-! ### Placement, the Rota and the timers (R39, R44, R98, R99, R163 to R168, R178 to R190, R213 to R218) -/

/-- The clocks of the cores run: neither P3 nor the thermal cut-off. -/
def ClocksRun (s : State) : Prop := s.power ≠ 3 ∧ s.stage ≠ 3

/-- A resident's end has come about (R44): its fetch has ended, every result is written (R67), nothing of it is pending, the engines hold
none of its commands, and if it is being taken off, T + H has not come (R186). -/
def Finished (s : State) (r : Resident) : Prop :=
  r.away = .here ∧ r.ended = true ∧ r.stop = .none ∧ r.wait = .none ∧ r.closing = .none ∧ r.async = [] ∧ r.acrdPending = [] ∧
  r.flights = [] ∧ r.porch = [] ∧ (∀ x, r.takeOff = some x → s.timebase < x.deadline) ∧
  (∀ c ∈ (s.coreAt r.core).cq, c.rid ≠ r.rid) ∧ ∀ m ∈ (s.coreAt r.core).mq, m.rid ≠ r.rid

/-- No change of owner is under way on a core, and no overrun (R188, R189). -/
def Unchanging (s : State) (core : Nat) : Prop :=
  (s.coreAt core).changed = [] ∧ (s.coreAt core).losers = [] ∧ ∀ x ∈ s.rota.overruns, x.core ≠ core

/-- A lane group that has not failed (R25). -/
def Sound (s : State) (core lg : Nat) : Prop := (s.coreAt core).failed = false ∧ lg ∉ (s.coreAt core).failedLg

/-- A record's class and reservation (R167): one class for each millisecond that it has been ready and unplaced, earlier stays in a
queue among them, up to 3, and a reservation a millisecond after class 3 is reached, which stays. -/
def classed (e : QRec) (now : Nat) : QRec :=
  let unplaced := e.waited + (now - e.since)
  if e.ready then { e with
    cls := min 3 (e.launch.cls + unplaced / 700000)
    reserving := e.reserving || decide (700000 * (3 - e.launch.cls + 1) ≤ unplaced) } else e

/-- A candidate of a core's round (R166): a ready record of its queue or its hamlet's whose tenant holds something on the core. -/
def Candidate (s : State) (core : Nat) (e : QRec) : Prop :=
  e ∈ ((s.coreAt core).queue ++ (s.hamAt (hamOf core)).queue).flatMap Block.recs ∧ e.ready = true ∧ 0 < s.turns core e.launch.tenant

/-- A lane group takes a resident of a launch at a slot or column set (R28, R166): the shape is the row's division and that of the
residents there, the slot and the registers are free, and the tenant holds the quarters, whose resource is free of others (R189). -/
def SlotTakes (s : State) (l : Launch) (core lg slot : Nat) : Prop :=
  let here := s.residents.filter fun r => r.core == core && r.lgrp == lg && r.away == .here
  let (slots, quarters) := match l.shape with
    | 0 => (16, [0, 1, 2, 3])
    | 1 => (2, [2 * slot, 2 * slot + 1])
    | _ => (4, [slot])
  slot < slots ∧ (∀ r ∈ here, r.slot ≠ slot ∧ r.launch.shape = l.shape) ∧
  (∀ row d, s.rowNow = some row → row.division core lg = some d → d = l.shape) ∧
  (here.map fun r => 16 * r.launch.sblk).sum + 16 * l.sblk ≤ 2048 ∧
  (l.shape = 0 → (here.map fun r => 32 * r.launch.vblk).sum + 32 * l.vblk ≤ 1536) ∧
  ∀ q ∈ quarters, s.holder core lg q = some l.tenant ∧
    (∀ r ∈ s.residents, r.core = core → r.away = .here → r.launch.tenant ≠ l.tenant → ∀ k ∈ r.quarters, 4 * r.lgrp + k ∉ s.resourceOf core lg q) ∧
    ((s.resourceOf core lg q).length = 64 →
      ∀ u ∈ s.units, u.core = core → u.away = false → ∀ c, s.ctxAt u.ctx = some c → c.tenant = l.tenant)

/-- A scratchpad range of a core is free (R99, R166): it starts at a multiple of 512, ends within the carve-out, and meets no
allotment. -/
def RangeFree (s : State) (core base len : Nat) : Prop :=
  base % 512 = 0 ∧ base + len ≤ (s.coreAt core).spadLimit ∧
  ∀ u ∈ s.units, u.core = core → u.away = false → len = 0 ∨ u.size = 0 ∨ base + len ≤ u.base ∨ u.base + u.size ≤ base

/-- The allotment of a resident's unit stands on a core already (R44). -/
def UnitStands (s : State) (l : Launch) (tid core : Nat) : Prop :=
  ∃ u ∈ s.units, u.lid = l.lid ∧ u.core = core ∧ u.away = false ∧ l.owner tid = some u.index

/-- The saved allotment of a resident's unit that comes back to a core: one saved there, or from any core where the unit is bound to one
(R44, R186). -/
def savedFor (s : State) (l : Launch) (tid core : Nat) : Option Unit44 :=
  let one := (List.range l.levels.length).all fun k => match l.levels[k]? with
    | some x => !(l.levelFrom 2 == some k) || decide (x.domain ≤ 3)
    | none => true
  s.units.find? fun u => u.lid == l.lid && l.owner tid == some u.index && u.away && (u.core == core || one)

/-- Scratchpad of a length and so many tiles are free on a core. -/
def HasRoom (s : State) (core len tiles : Nat) : Prop :=
  (∃ b, RangeFree s core b len) ∧ ((s.units.filter fun u => u.core == core && !u.away).map fun u => u.tiles.length).sum + tiles ≤ 64

/-- A core has what a resident's unit needs (R44, R166): it stands there; or, saved, it finds room, its ring numbers free and none of its
operations left in the engine of another core; or scratchpad and tiles are free for a new one. -/
def UnitTakes (s : State) (l : Launch) (tid core : Nat) : Prop :=
  UnitStands s l tid core ∨
  match savedFor s l tid core with
  | some u => HasRoom s core u.size u.tiles.length ∧ (∀ g ∈ u.rings, (s.ringOf core g.1).owner = none) ∧
      (u.core = core ∨ (∀ v ∈ s.units, v.uid = u.uid → v.core ≠ core) ∧ ∀ m ∈ (s.coreAt u.core).mq, m.uid ≠ u.uid)
  | none => HasRoom s core (256 * l.spad) l.acc

/-- A place keeps every unit of a resident in one instance of its domain (R39): that of the residents that stand, or that must return to
their core, because the record pins them or an allotment of theirs has stayed there. -/
def KeepsInstances (s : State) (l : Launch) (tid core lg : Nat) : Prop :=
  ∀ k x, l.levels[k]? = some x →
    let mates := s.residents.filter fun r => r.launch.lid == l.lid && unitIndex l.levels k r.tid0 == unitIndex l.levels k tid
    let stays := fun r : Resident => ∃ u, s.units.find? (fun v => v.uid == r.uid && v.core == r.core) = some u ∧ u.away = false ∧
      ¬ (u.size = 0 ∧ u.tiles = [] ∧ u.rings = [])
    (mates = [] → ∀ h, s.homeOf l.lid k (unitIndex l.levels k tid) = some h → sameInstance x.domain core lg h.1 h.2 = true) ∧
    ∀ r ∈ mates, (r.away = .here → sameInstance x.domain core lg r.core r.lgrp = true) ∧
      (r.away ≠ .here → r.launch.pin = true ∨ stays r → sameInstance (max 3 x.domain) core lg r.core r.lgrp = true)

/-- A resident fits (R28, R39, R166). -/
def Fits (s : State) (l : Launch) (tid core lg slot : Nat) : Prop :=
  lg < 16 ∧ SlotTakes s l core lg slot ∧ UnitTakes s l tid core ∧ KeepsInstances s l tid core lg

/-- The resident that an entry resumes, if it is one of a resident that has been taken off (R163). -/
def resumes (s : State) (e : QRec) : Option Resident := e.rid.bind fun k => s.resAt k

/-- A core that could hold what an entry places next, were nothing else there: the unit of the resident that it resumes, which may not
leave a core that its record pins it to or that keeps its allotment, or the record's next (R167). -/
def CouldHold (s : State) (core : Nat) (x : QRec) : Prop :=
  let e := s.emptyAt s.rota.row
  match resumes s x with
  | some r => (core = r.core ∨ r.launch.pin = false ∧ ∀ u, s.unitOf r.uid r.core = some u →
        u.away = true ∨ (u.size = 0 ∧ u.tiles = [] ∧ u.rings = [])) ∧
      HasRoom e core (256 * r.launch.spad) r.launch.acc ∧ ∃ lg < 16, ∃ slot, SlotTakes e r.launch core lg slot
  | none => (e.placeUnit x (fun _ => false) core).isSome = true

/-- The oldest reserving record of a tenant, with no other that goes before it, which its reservation lets no other record pass on a core
that could hold what it places next (R167). -/
def Reserves (s : State) (core : Nat) (x e : QRec) : Prop :=
  x ∈ s.allRecs ∧ x.reserving = true ∧ x.launch.tenant = e.launch.tenant ∧ x.launch.lid ≠ e.launch.lid ∧
  (∀ y ∈ s.allRecs, y.reserving = true → y.launch.tenant = e.launch.tenant →
    y = x ∨ x.age < y.age ∨ x.age = y.age ∧ x.launch.va < y.launch.va) ∧
  CouldHold s core x

/-- The first thread of what an entry places next. -/
def nextThread (s : State) (e : QRec) : Nat := match resumes s e with
  | some r => r.tid0
  | none => (e.launch.residentAt e.next).1

/-- A candidate goes before another: the higher class, then the older, then the lower address, and of one record the lower unit (R166). -/
def GoesFirst (s : State) (a b : QRec) : Prop :=
  b.cls < a.cls ∨ a.cls = b.cls ∧ (a.age < b.age ∨ a.age = b.age ∧
    (a.launch.va < b.launch.va ∨ a.launch.va = b.launch.va ∧ nextThread s a ≤ nextThread s b))

/-- Something is left to place of an entry: its resident, which has not ended, or a record that can be read (R163). -/
def CanPlace (s : State) (e : QRec) : Prop := match e.rid with
  | some k => s.resAt k ≠ none
  | none => s.reread e.launch ≠ none

/-- Owner and division of a quarter under a row; with none in force tenant 0 holds everything (R179, R181). -/
def ownerIn (row : Option Row) (core lg q : Nat) : Option Nat := match row with
  | some r => r.owner core lg q
  | none => some 0
def divisionIn (row : Option Row) (core lg : Nat) : Option Nat := match row with
  | some r => r.division core lg
  | none => none

/-- A resident must leave at an edge: its quarters change owner or division, or the row that begins gives them to another (R185,
R190). -/
def MustLeave (x : Resident) (old new : Option Row) : Prop :=
  ∃ q ∈ x.quarters, ownerIn old x.core x.lgrp q ≠ ownerIn new x.core x.lgrp q ∨ divisionIn old x.core x.lgrp ≠ divisionIn new x.core x.lgrp ∨
    ownerIn new x.core x.lgrp q ≠ some x.launch.tenant

/-- The quarters of a core that an owner has together with one (R185): the core where it is given whole, else the column set of its
lane group's division; under no row the core. -/
def resourceIn (row : Option Row) (core lg q : Nat) : List Nat := match row with
  | none => List.range 64
  | some r =>
    if r.encls.any (fun e => e.val && e.cores.getLsbD core) then List.range 64
    else match r.division core lg with
      | none => [4 * lg, 4 * lg + 1, 4 * lg + 2, 4 * lg + 3]
      | some 1 => [4 * lg + q / 2 * 2, 4 * lg + q / 2 * 2 + 1]
      | some _ => [4 * lg + q]

/-- A resident that begins to be taken off: its deadline, and the resource that it is taken off (R186, R188). -/
def beginsToLeave (x : Resident) (row : Option Row) (deadline : Nat) : Resident :=
  { x with takeOff := some { deadline := deadline, atStile := false, qs := resourceIn row x.core x.lgrp x.quarter } }

/-- Exactly the residents of which something holds, that stand and are not being taken off yet, begin to be taken off; those of a failed
unit are lost already (R25). -/
def Leaves (s t : State) (who : Resident → Prop) (row : Option Row) (deadline : Nat) : Prop :=
  t.residents.length = s.residents.length ∧ ∀ (k : Nat) (x y : Resident), s.residents[k]? = some x → t.residents[k]? = some y →
    (x.away = .here → x.takeOff = none → Sound s x.core x.lgrp → who x → y = beginsToLeave x row deadline) ∧
    (x.away ≠ .here ∨ x.takeOff ≠ none ∨ ¬ Sound s x.core x.lgrp ∨ ¬ who x → y = x)

/-- A row pays a debit: it arose before the row began, and its tenant holds all of the resource (R188). -/
def Pays (r : Row) (d : Debit) : Prop := d.due = true ∧ ∀ k ∈ d.quarters, r.owner d.core (k / 4) (k % 4) = some d.tenant

/-- Debits after a row has ended: what it has paid is gone, and every other is due from the next row on (R188). -/
def debitsAfter (r : Row) (ds : List Debit) : List Debit :=
  ds.filterMap fun d =>
    if d.due ∧ ∀ k ∈ d.quarters, r.owner d.core (k / 4) (k % 4) = some d.tenant then (if d.us ≤ r.dur then none else some { d with us := d.us - r.dur })
    else some { d with due := true }

/-- One of a tenant's counters. -/
def counterIs (s : State) (tenant k n : Nat) : Prop := ∃ cs, s.counters[tenant]? = some cs ∧ cs[k]? = some n

/-- So many µs of one tenant's resources have gone to another: counter 13 of the donor and 14 of the beneficiary (R188, R190, R195). -/
def Lent (s t : State) (donor benef us : Nat) : Prop :=
  (∀ n, counterIs s donor 13 n → counterIs t donor 13 ((n + us) % 2 ^ 64)) ∧
  ∀ n, counterIs s benef 14 n → counterIs t benef 14 ((n + us) % 2 ^ 64)

/-- The bytes a take-off of a resident needs in the save area of its context: its image, with its unit's where it is the last (R207,
R221). -/
def offNeed (s : State) (r : Resident) : Nat :=
  s.saveNeed r.launch.ctx [r] (if s.lastOf r then s.units.filter fun u => u.uid == r.uid && u.core == r.core && !u.away else [])

/-- The header that a resident stands at is a stile, where it can be read (R186). -/
def NextIsStile (s : State) (r : Resident) : Prop :=
  ∃ w h, (s.headerWord r).1 = some w ∧ (if r.simt then decodeClauseHeader w.toNat else decodeBundleHeader w.toNat) = .ok h ∧ h.stile = true

/-- A resident stands at a stile that it does not get to issue, as it waits at a barrier, or has not come to: nothing is in its way but
results that are due (R186). -/
def StandsAtStile (s : State) (r : Resident) : Prop :=
  r.async = [] ∧ r.closing = .none ∧ r.porch = [] ∧ (∀ f ∈ r.flights, f.due ≤ r.count) ∧ (r.wait = .none ∨ ∃ k, r.wait = .barrier k) ∧
  NextIsStile s r

/-- A resident has been taken off: it stands nowhere, none of its commands is left in the queues of its core but row transfers, and a ready entry with its age waits in the die queue (R163, R167, R186, R299). -/
def TakenOff (t : State) (r r' : Resident) : Prop :=
  t.resAt r.rid = some r' ∧ r'.away = .takenOff ∧ r'.takeOff = none ∧ (∀ m ∈ (t.coreAt r.core).mq, m.rid = r.rid → m.flag = none) ∧
  (∀ c ∈ (t.coreAt r.core).cq, c.rid ≠ r.rid) ∧
  ∃ e ∈ t.dieQ, e.rid = some r.rid ∧ e.ready = true ∧ e.age = r.age ∧ e.waited = r.waited

/-- A cause of the watchdog (R216). -/
def watchdogCause (limit : Nat) : Cause := causeWith 14 (BitVec.ofNat 32 limit)

/-! ### The host and the world (R25, R209, R220 to R235, R403, R405) -/

/-- The head of a host command. -/
def headOf : Instr → Option CmdHead
  | .submit h .. => some h
  | .contextCreate h .. => some h
  | .contextDestroy h => some h
  | .saveAreaAllot h .. => some h
  | .codeObjectRegister h .. => some h
  | .faultResolve h .. => some h
  | .codePatch h => some h
  | .halt h .. => some h
  | .freeze h .. => some h
  | .resume h .. => some h
  | .snapshot h .. => some h
  | .stateAccess h .. => some h
  | .contextRegister h .. => some h
  | .sampling h .. => some h
  | .traceConfigure h .. => some h
  | .power h .. => some h
  | .advanceStage h => some h
  | .attest h .. => some h
  | .firmwareLoad h .. => some h
  | .configurationLoad h .. => some h
  | .peerGroupConfigure h .. => some h
  | .linkRetrain h .. => some h
  | _ => none

/-- The stage a command needs: 0 A, 1 B, 2 C (R223). -/
def stageNeeded : Instr → Nat
  | .contextCreate .. | .contextDestroy .. | .saveAreaAllot .. | .codeObjectRegister .. | .faultResolve .. | .codePatch .. |
    .contextRegister .. => 1
  | .power .. | .advanceStage .. | .attest .. | .firmwareLoad .. | .configurationLoad .. => 0
  | _ => 2

/-- A resident of a context that stands at a place, which has not failed, or has been snapshotted there. -/
def residentAt (s : State) (ctx : Nat) (n : ResName) (how : Away) : Option Resident :=
  s.allRes.find? fun r => decide (r.launch.ctx = ctx ∧ r.core = n.core ∧ r.lgrp = n.lgrp ∧ r.slot = n.slot ∧ r.away = how ∧
    (how = .here → (s.coreAt n.core).failed = false ∧ n.lgrp ∉ (s.coreAt n.core).failedLg))

/-- The state with one context changed. -/
def ctxChanged (s : State) (n : Nat) (f : Context → Context) : State :=
  { s with contexts := s.contexts.map fun c => if c.num = n then f c else c }

/-- A resident that the host releases: nothing stops it, and no halt request of its context holds it any more (R204, R205, R214). -/
def freedBy (s : State) (ctx rid : Nat) : State :=
  ctxChanged (resChanged s rid fun x => { x with stop := .none }) ctx fun c => { c with
    halts := c.halts.map fun q => { q with holds := q.holds.filter fun x => decide (x ≠ rid) } }

/-- n bytes lie in device memory and the host window behind it. -/
abbrev Reaches (s : State) (pa n : Nat) : Prop := n = 0 ∨ pa + n ≤ hostBase + s.host.hwinSize * 2 ^ 30

/-- A new context as the host creates it: no descriptor, no bramble, %fwait 100, everything else off (R137, R200, R201, R210). -/
def freshContext (n root asid tenant : Nat) (tvec emuvec : DWord) (ring : Option MemRing) : Context :=
  { num := n, root := root, asid := asid, tenant := tenant, descs := [], brambles := List.replicate 8 Bramble.off
    tvec := tvec.setWidth 56, emuvec := emuvec.setWidth 56, fwait := 100, tctl := false, wden := false, wdlimit := 0, wdcnt := 0
    saveAreas := [], evRing := ring, traceRing := none, traceOn := false, halts := [], codes := [] }

/-- A handler's address that may be set: 8-byte aligned, in the 56-bit space. -/
def GoodHandler (a : DWord) : Prop := a.toNat % 8 = 0 ∧ a.toNat < 2 ^ 56

/-- What a command does: status, result word and state, for the commands on no context and those on a context that exists (R221,
R223). -/
def commandEffect (i : Instr) (s : State) (c : Context) : Option (Nat × Nat × State) :=
  match i with
  | .submit _ va die =>
    some (if va.toNat % 128 ≠ 0 ∨ s.ctxPhys c va.toNat false = none ∨ s.ctxPhys c va.toNat true = none then (2, 0, s)
      else if 4096 ≤ s.dieCount die c.tenant then (1, 0, s)
      else let x := s.takeRecord c va.toNat 0 false (fun u e => { u with dieQ := u.dieQ ++ [{ e with die := die }] }) die
        (if x.1 then 0 else 2, 0, x.2))
  | .contextDestroy h => some (if (∃ r ∈ s.allRes, r.launch.ctx = h.ctx) ∨ (∃ e ∈ s.allRecs, e.launch.ctx = h.ctx) then (3, 0, s)
      else (0, 0, { s with contexts := s.contexts.filter fun x => decide (x.num ≠ h.ctx) }))
  | .saveAreaAllot h pa n => some (0, 0, ctxChanged s h.ctx fun x => { x with saveAreas := x.saveAreas ++ [(pa.toNat, n.toNat)] })
  | .codeObjectRegister _ va => some (s.registerObject c va.toNat)
  | .faultResolve _ ham e refuse => some (s.resolve ham e refuse)
  | .codePatch _ => some (0, 0, { s with cores := s.cores.map fun k => { k with icache := [] } })
  | .halt h core => some (if 192 ≤ core ∧ core ≠ 255 then (2, 0, s)
      else (0, 0, ctxChanged s h.ctx fun x => { x with halts := x.halts ++ [(⟨if core = 255 then none else some core, [], []⟩ : HaltReq)] }))
  | .freeze h n => some (match residentAt s h.ctx n .here with
      | none => (2, 0, s)
      | some r => (0, 0, resChanged s r.rid fun x => { x with stop := if x.stop = .none then .frozen else x.stop, starve := 0 }))
  | .resume h false n => some (match residentAt s h.ctx n .here, residentAt s h.ctx n .snapshot with
      | some r, _ => (0, 0, freedBy s h.ctx r.rid)
      | none, some r => (0, 0, ((freedBy s h.ctx r.rid).mapRecs fun e =>
          some (if e.rid = some r.rid ∧ e.ready = false then { e with ready := true, since := s.timebase } else e)).askFor fun e =>
          e.rid == some r.rid)
      | none, none => (2, 0, s))
  | .resume h true n =>
      let k := if n.core = 255 then none else some n.core
      let f := fun r : Resident => if r.launch.ctx = h.ctx ∧ (∃ q ∈ c.halts, q.core = k ∧ r.rid ∈ q.holds) ∧
        (∀ q ∈ c.halts, q.core ≠ k → r.rid ∉ q.holds) ∧ r.stop = .halted then { r with stop := .none } else r
      let u := ctxChanged s h.ctx fun x => { x with halts := x.halts.filter fun q => !(q.core == k) }
      some (0, 0, { u with
        residents := u.residents.map f
        iss := u.iss.map fun q => { q with res := f q.res } })
  | .snapshot h n => some (match residentAt s h.ctx n .here with
      | none => (2, 0, s)
      | some r => let x := s.snapshotOff r.rid .snapshot false
        (if x.1 then 0 else 2, 0, x.2))
  | .stateAccess h n csr reg lane v write => some (match residentAt s h.ctx n .here with
      | none => (2, 0, s)
      | some r => if r.stop = .none then (3, 0, s) else s.accessState r csr reg lane v.toNat write)
  | .contextRegister h reg v =>
      let x : Word := v.setWidth 32
      some (if reg = 0x10C then (0, 0, ctxChanged s h.ctx fun y => { y with wden := x.getLsbD 31, wdlimit := (x.extractLsb' 0 31).toNat, wdcnt := 0 })
        else if reg = 0x10D then (0, 0, s)
        else if reg = 0x1E ∨ reg = 0x101 ∨ reg = 0x10B ∨ reg = 0x10E ∨ ((reg = 0x1D ∨ reg = 0x100) ∧ x.toNat % 8 = 0) then
          (0, 0, ctxChanged s h.ctx (contextAfter reg x))
        else (2, 0, s))
  | .sampling _ k tenant pa last =>
      let rest := s.samplers.filter fun x => decide (x.tenant ≠ tenant)
      some (if k = 0 then (0, 0, { s with samplers := rest })
        else if k < 12 ∨ 26 < k then (2, 0, s)
        else (0, 0, { s with samplers := rest ++ [(⟨tenant, k, ⟨pa.toNat, last + 1⟩, 0, s.timebase⟩ : Sampler)] }.ringInit .phys ⟨pa.toNat, last + 1⟩))
  | .traceConfigure h true va last =>
      some (0, 0, (ctxChanged s h.ctx fun x => { x with traceRing := some ⟨va.toNat, last + 1⟩, traceOn := true }).ringInit (.virt c) ⟨va.toNat, last + 1⟩)
  | .traceConfigure h false _ _ => some (0, 0, ctxChanged s h.ctx fun x => { x with traceOn := false })
  | .power _ p => some (if p = 3 ∧ 2 ≤ s.rota.state then (3, 0, s) else (0, 0, { s with power := p }))
  | .advanceStage _ =>
      let f := { s with fresh := s.fresh + 1 }
      let bad := ((List.range 192).filter fun k => !Config.selfTest s.fresh k).length
      some (if s.stage = 0 then
          (if s.fwDigest = none ∨ s.cfgDigest = none then (4, 0, s)
           else if bad = 0 then (0, 1, { f with stage := 1, testFails := 0 }) else (2, 0, { f with testFails := bad }))
        else if s.stage = 1 then (0, 2, { f with stage := 2, links := s.trainAll })
        else (2, s.stage, s))
  | .attest _ nonce report =>
      let body := s.homeBytes nonce.toNat 32 ++ s.fwDigest.getD (List.replicate 32 0) ++ s.cfgDigest.getD (List.replicate 32 0) ++
        bytesOf s.fwVersion ++ sha256 (Config.deviceKey s.starts)
      let out := body ++ Config.deviceSign s.starts body
      some (if Reaches s nonce.toNat 32 ∧ Reaches s report.toNat out.length then (0, out.length, s.pokeBytes report.toNat out) else (2, 0, s))
  | .firmwareLoad _ pa n =>
      let image := s.homeBytes pa.toNat n.toNat
      some (if ¬ Reaches s pa.toNat n.toNat then (2, 0, s)
        else if Config.signatureValid image = true then
          (0, 0, { s with fwDigest := some (sha256 image), fwVersion := Config.firmwareVersion image }) else (5, 0, s))
  | .configurationLoad _ pa n =>
      let image := s.homeBytes pa.toNat n.toNat
      some (if ¬ Reaches s pa.toNat n.toNat then (2, 0, s)
        else if Config.signatureValid image = true then (0, 0, { s with cfgDigest := some (sha256 image) }) else (5, 0, s))
  | .peerGroupConfigure _ g pa n =>
      let es := (List.range n).map fun k => dwordOf (s.homeBytes (pa.toNat + 8 * k) 8)
      some (if ¬ Reaches s pa.toNat (8 * n) then (2, 0, s)
        else (0, 0, { s with peerGroups := (⟨g, es⟩ : PeerGroup) :: s.peerGroups.filter fun x => decide (x.group ≠ g) }))
  | .linkRetrain _ link =>
      let f := { s with fresh := s.fresh + 1 }
      some (if 18 ≤ link then (2, 0, s)
        else if Config.linkTrains s.fresh link = true then
          (0, 0, { f with links := s.links ||| BitVec.ofNat 18 (2 ^ link), badLinks := s.badLinks &&& ~~~BitVec.ofNat 18 (2 ^ link) })
        else (2, 0, f))
  | _ => none

/-- Commands that name a context (R223). -/
def onContext : Instr → Bool
  | .submit .. | .contextDestroy .. | .saveAreaAllot .. | .codeObjectRegister .. | .halt .. | .resume _ true _ | .contextRegister .. |
    .traceConfigure .. => true
  | _ => false

/-- A completion: 16 bytes at the tail of the completion ring, the tail and the sequence number, vector 1 (R220, R224). -/
def answered (s : State) (seq op status result : Nat) : State :=
  let u := s.pokeBytes (s.host.cplBase + 16 * s.host.cplTail)
    (bytesOf (BitVec.ofNat 32 seq) ++ [BitVec.ofNat 8 op, 0, BitVec.ofNat 8 status, 0] ++ bytesOf (BitVec.ofNat 32 result) ++
      bytesOf (BitVec.ofNat 32 (result / 2 ^ 32)))
  { u with host := { u.host with
      cplTail := (s.host.cplTail + 1) % (s.host.ringSz + 1)
      cseq := seq
      cmdsDone := s.host.cmdsDone + 1
      msix := s.host.msix ++ [1] } }

/-- The device can answer: the completion ring has room, no cut-off, and no command that needs residents to issue waits for P3 to end
(R224, R230, R231). -/
def CanAnswer (s : State) (i : Instr) : Prop :=
  (s.host.cplTail + 1) % (s.host.ringSz + 1) ≠ s.host.cplHead ∧ s.stage ≠ 3 ∧
  (s.power = 3 → ∀ h n, i ≠ .halt h n ∧ ∀ r, i ≠ .snapshot h r)

/-- The registers of BAR0 that are written in two halves: offset, lowest bit and number of bits, and where the value goes (R222). -/
def wideWritten (s : State) (off : Nat) (v : DWord) : Option State :=
  let h := s.host
  let kept := fun lo n : Nat => (v.extractLsb' lo n).toNat * 2 ^ lo
  match off with
  | 0x0000 => some { s with rota := { s.rota with base := kept 11 41 } }
  | 0x0100 => some { s with host := { h with cmdBase := kept 12 40 } }
  | 0x0118 => some { s with host := { h with cplBase := kept 12 40 } }
  | 0x0140 => some { s with host := { h with fltBase := kept 12 40 } }
  | 0x0150 => some { s with host := { h with evBase := kept 12 40 } }
  | 0x0200 => some { s with host := { h with winBase := kept 36 16 } }
  | 0x0210 => some { s with host := { h with hwinBase := (v.extractLsb' 30 34).toNat } }
  | _ => none

/-- A memory ring set up: 0 to its tail, head and lost words (R225). -/
def ringReady (s : State) (base : Nat) : State := s.pokeBytes base (List.replicate 24 0)

/-- A field of a word of a row of the Rota's table (R179). -/
def rowField (ws : List Nat) (word lo n : Nat) : Nat := ws.getD word 0 / 2 ^ lo % 2 ^ n

/-- A field of word k of a tenant's enclosure record. -/
def enclField (ws : List Nat) (t k lo n : Nat) : Nat := rowField ws (8 + 8 * t + k) lo n

/-- A tenant's partial entry k, from 0 to 3. -/
def partEntry (ws : List Nat) (t k : Nat) : Nat := enclField ws t (3 + k / 2) (32 * (k % 2)) 32

/-- A tenant has a valid partial entry. -/
def HasPart (ws : List Nat) (t x : Nat) : Prop := t < 16 ∧ (∃ k < 4, partEntry ws t k = x) ∧ x / 2 ^ 31 = 1

/-- Core, lane group, shape and column sets of a partial entry. -/
def entryCore (x : Nat) : Nat := x / 2 ^ 23 % 256
def entryGroup (x : Nat) : Nat := x / 2 ^ 19 % 16
def entryShape (x : Nat) : Nat := x / 2 ^ 17 % 4
def entrySets (x : Nat) : Nat := x / 2 ^ 13 % 16

/-- A tenant holds all of a core, and a quarter of a lane group through a partial entry. -/
def HoldsWhole (ws : List Nat) (t core : Nat) : Prop := t < 16 ∧ core < 192 ∧ enclField ws t (core / 64) (core % 64) 1 = 1
def HoldsPart (ws : List Nat) (t core lg q : Nat) : Prop := ∃ x, HasPart ws t x ∧ entryCore x = core ∧ entryGroup x = lg ∧ q < 4 ∧
  (entryShape x = 0 ∨ entryShape x = 1 ∧ entrySets x / 2 ^ (q / 2) % 2 = 1 ∨ entryShape x = 2 ∧ entrySets x / 2 ^ q % 2 = 1)

/-- A tenant is present; it has cores or column sets. -/
def Present (ws : List Nat) (t : Nat) : Prop := t < 16 ∧ enclField ws t 5 32 1 = 1
def HasCores (ws : List Nat) (t : Nat) : Prop := (∃ c, HoldsWhole ws t c) ∨ ∃ c lg q, HoldsPart ws t c lg q

/-- Quarters of a core that a tenant's record names: all 64, or those of its partial entries. -/
def QuartersAre (ws : List Nat) (t core n : Nat) : Prop :=
  (HoldsWhole ws t core ∧ n = 64) ∨
  (¬ HoldsWhole ws t core ∧ ∃ ks : List Nat, ks.Nodup ∧ ks.length = n ∧ ∀ k, k ∈ ks ↔ k < 64 ∧ HoldsPart ws t core (k / 4) (k % 4))

/-- The sum of something over the sixteen tenants. -/
def overTenants (f : Nat → Nat) : Nat := ((List.range 16).map f).sum

/-- A row of the table fails a check of R180; `ways` gives the L1 ways of each core (R193). -/
def FailsCheck (ws : List Nat) (ways : Nat → Nat) : Nat → Prop
  | 1 => let dur := rowField ws 0 0 16
    let hedge := rowField ws 0 16 16
    dur < 16 ∨ dur ≤ (if hedge = 0 then 20 else hedge)
  | 2 => (∃ t u, t ≠ u ∧ ((∃ c, HoldsWhole ws t c ∧ HoldsWhole ws u c) ∨ ∃ c lg q, HoldsPart ws t c lg q ∧ HoldsPart ws u c lg q)) ∨
    ∃ t u x, HasPart ws t x ∧ HoldsWhole ws u (entryCore x)
  | 3 => (∃ t u x y, HasPart ws t x ∧ HasPart ws u y ∧ entryCore x = entryCore y ∧ entryGroup x = entryGroup y ∧ entryShape x ≠ entryShape y) ∨
    ∃ t x, HasPart ws t x ∧ (entryShape x = 3 ∨ entryShape x = 0 ∧ entrySets x ≠ 1 ∨ entryShape x = 1 ∧ 3 < entrySets x)
  | 4 => (∃ t u b, t ≠ u ∧ Present ws t ∧ Present ws u ∧ b < 16 ∧ enclField ws t 5 b 1 = 1 ∧ enclField ws u 5 b 1 = 1) ∨
    ∃ t, Present ws t ∧ HasCores ws t ∧ enclField ws t 5 0 16 = 0
  | 5 => 256 < overTenants (fun t => if enclField ws t 5 32 1 = 1 then enclField ws t 5 16 8 else 0) ∨
    ∃ t, Present ws t ∧ HasCores ws t ∧ enclField ws t 5 16 8 = 0
  | 6 => ∃ n < 18, 16 < overTenants fun t => if n < 16 then enclField ws t 6 (4 * n) 4 else enclField ws t 7 (4 * (n - 16)) 4
  | 7 => ∃ (c : Nat) (ns : List Nat), (∃ t x, HasPart ws t x ∧ entryCore x = c) ∧ ns.length = 16 ∧ (∀ t < 16, QuartersAre ws t c (ns.getD t 0)) ∧
    (4 < ns.countP (0 < ·) ∨ 1 < ns.countP (0 < ·) ∧ ∃ n ∈ ns, 0 < n ∧ n * ways c / 64 = 0)
  | 8 => rowField ws 0 36 1 = 1 ∧ ¬ Present ws (rowField ws 0 32 4)
  | 9 => rowField ws 0 38 26 ≠ 0 ∨ (∃ k, (1 ≤ k ∧ k < 8 ∨ 136 ≤ k ∧ k < 256) ∧ ws.getD k 0 ≠ 0) ∨
    (∃ t < 16, enclField ws t 5 33 31 ≠ 0 ∨ enclField ws t 5 24 8 ≠ 0 ∨ enclField ws t 7 8 56 ≠ 0 ∨ (∃ k < 4, partEntry ws t k % 2 ^ 13 ≠ 0)) ∨
    (∃ t x, HasPart ws t x ∧ 191 < entryCore x) ∨ ∃ t < 16, ¬ Present ws t ∧ (HasCores ws t ∨ enclField ws t 5 16 8 ≠ 0)
  | _ => False

/-- The outcome of a row's checks (R180): the lowest-numbered failure, 0 for none. -/
def OutcomeIs (ws : List Nat) (ways : Nat → Nat) (e : Nat) : Prop :=
  (e = 0 ∧ ∀ k, ¬ FailsCheck ws ways k) ∨ (FailsCheck ws ways e ∧ ∀ k < e, ¬ FailsCheck ws ways k)

/-- A count of errors that saturates at 65,535 (R228, R232). -/
def errorCounted (s : State) (k : Nat) : List (Nat × Nat) := modAt s.errs k fun e => (e.1, min 65535 (e.2 + 1))

/-- Residents that stand on a unit that fails are lost (R25): each has ended as by `tret.kill`, without a handler, holds no tile for one, and
its launch keeps its state; what stands elsewhere stays. -/
def LostThere (s t : State) (there : Resident → Prop) : Prop :=
  (∀ rid r, s.resAt rid = some r → there r → r.away = .here →
    (∃ r', t.resAt rid = some r' ∧ r'.ended = true ∧ r'.stop = .none ∧ r'.wait = .none ∧ r'.closing = .none ∧ r'.trap.inh = false ∧
      r'.trap.hidden = none ∧ r'.async = [] ∧ r'.takeOff = none ∧ r'.flights = [] ∧ r'.porch = [] ∧ r'.loads = [] ∧ r'.acrdPending = []) ∧
    (∀ u ∈ t.units, ∀ h ∈ u.held, h.2 ≠ rid) ∧ ∀ x ∈ t.running, x.launch.lid = r.launch.lid → x.dead = true) ∧
  ∀ rid r, s.resAt rid = some r → (∀ x ∈ s.allRes, x.rid = rid → ¬ there x ∨ x.away ≠ .here) → t.resAt rid = some r
/-! ### Encodings, steps and reset (R53 to R57, R72, R283 to R291, R322) -/

/-- A word of the R format, from its fields (R283). -/
def wordR (opcode pred d a b c m : Nat) : Nat :=
  opcode * 2 ^ 55 + pred * 2 ^ 50 + d * 2 ^ 38 + a * 2 ^ 26 + b * 2 ^ 14 + c * 2 ^ 2 + m

/-- Words of the L, M, B, E and S formats, from their fields (R283). -/
def wordL (opcode pred d m imm : Nat) : Nat := opcode * 2 ^ 55 + pred * 2 ^ 50 + d * 2 ^ 38 + m * 2 ^ 32 + imm
def wordM (opcode pred d a land off : Nat) : Nat := opcode * 2 ^ 55 + pred * 2 ^ 50 + d * 2 ^ 38 + a * 2 ^ 26 + land * 2 ^ 16 + off
def wordB (opcode pred target join : Nat) : Nat := opcode * 2 ^ 55 + pred * 2 ^ 50 + target * 2 ^ 18 + join
def wordE (opcode pred x y z set q : Nat) : Nat :=
  opcode * 2 ^ 55 + pred * 2 ^ 50 + x * 2 ^ 38 + y * 2 ^ 26 + z * 2 ^ 14 + set * 2 ^ 13 + q
def wordS (opcode pred d a imm : Nat) : Nat := opcode * 2 ^ 55 + pred * 2 ^ 50 + d * 2 ^ 38 + a * 2 ^ 26 + imm

/-- Specifiers of a scalar register, a special register and a predicate (R49). -/
def specS (n : Nat) : Nat := 0x800 + 0x200 + n
def specX (n : Nat) : Nat := 0x800 + 0x300 + n
def specP (n : Nat) : Nat := 0x800 + 0x500 + n

/-- A resident whose results due at its count are written (R59, R63). -/
def dueWritten (r : Resident) : Resident := r.landDue fun due => decide (due ≤ r.count)

/-- After an issue, or a trap at one, the starvation counts of the lane group move (R171): the issuer's is 0, and that of each other
resident that was ready rises. -/
def settled (before : State) (r : Resident) (t : State) : State :=
  if (t.resAt r.rid).any (fun x => decide (x.count = r.count ∧ x.trap = r.trap)) then t
  else ((before.sharers r).filter fun x => x.rid != r.rid).foldl
    (fun t x => resChanged t x.rid fun y => { y with starve := if before.ready x then y.starve + 1 else 0 })
    (resChanged t r.rid fun y => { y with starve := 0 })

/-- The resident that a lane group issues from (R171): of those that are ready, if one has waited 64 issues or more the one that has
waited longest, else the one that was placed first; the lower slot where that is equal. -/
def IssuesFrom (s : State) (rs : List Resident) (x : Resident) : Prop :=
  x ∈ rs ∧ s.ready x = true ∧
  ((∃ y ∈ rs, s.ready y = true ∧ 64 ≤ y.starve) → 64 ≤ x.starve ∧
    ∀ y ∈ rs, s.ready y = true → y.starve ≤ x.starve ∧ (y.starve = x.starve → x.slot ≤ y.slot)) ∧
  ((∀ y ∈ rs, s.ready y = true → y.starve < 64) →
    ∀ y ∈ rs, s.ready y = true → x.placedAt ≤ y.placedAt ∧ (y.placedAt = x.placedAt → x.slot ≤ y.slot))

/-- A resident whose turn it is: on the agenda, allowed to issue, not outranked, with nothing pending. -/
def TurnOf (s : State) (rest : List Action) (r : Resident) : Prop :=
  s.agenda = .run r.rid :: rest ∧ (s.residents.find? fun x => x.rid == r.rid) = some r ∧
  ({ s with agenda := rest } : State).canIssue r = true ∧ ({ s with agenda := rest } : State).outranked r = false ∧ (dueWritten r).async = [] ∧ (dueWritten r).wait = .none ∧
  (dueWritten r).ended = false ∧ (dueWritten r).closing = .none

/-- The wait mask and the stile before a clause or bundle do not keep it (R53, R54, R186, R214). -/
def Admitted (s : State) (r : Resident) (h : Header) : Prop := (h.stile = true → s.stileStop r = none) ∧ r.waitOk h.waitMask = true

/-- The ops of a bundle, each with its slot, word and instruction, one after another. -/
def opsInOrder : List (Nat × DWord × Instr) → State → Out
  | [], s => .next s
  | (slot, w, i) :: ops, s =>
    let nf := (s.iss.map fun q => q.res.flights.length).getD 0
    let np := (s.iss.map fun q => q.res.porch.length).getD 0
    andThen (exec i (s.modIss fun q => { q with slot := slot, word := w, lines := [] })) fun t =>
      opsInOrder ops (t.modCur fun r => r.tag nf np slot)

/-- An access to memory: how many bytes, which lanes make it, its address in each, whether it writes, and whether it goes to the
scratchpad, or past the L1 to the home slice. -/
structure LaneAccess where
  n : Nat
  lanes : List Nat
  at_ : Nat → Nat
  write : Bool
  spad : Bool
  home : Bool

/-- A load or store with nothing in its word against it and clean sources, as an access (R290, R57, R63, R209). -/
def accessOf (s : State) (q : Issue) (i : Instr) (x : LaneAccess) : Prop :=
  (∃ o, globalLoadOf i = some o ∧ o.LoadPlace q ∧ o.DstOk q.res ∧ q.res.pairOk o.a = true ∧
    (q.res.simt = true → o.land < 2 ∧ flagNamed q (o.land == 1) < 12) ∧ (q.res.simt = false → 0 < o.land) ∧
    q.res.Clean [o.a, Src.next o.a] (o.loadLanes q) ∧
    x = ⟨o.n, o.loadLanes q, globalAddr s q.res o.a o.off, false, false, atHome o.scope⟩) ∨
  (∃ o, globalStoreOf i = some o ∧ o.StorePlace q ∧ q.res.pairOk o.a = true ∧ o.dataRegs.all q.res.srcOk = true ∧
    q.res.Clean ([o.a, Src.next o.a] ++ o.dataRegs) (o.storeLanes q) ∧
    x = ⟨o.n, o.storeLanes q, globalAddr s q.res o.a o.off, true, false, atHome o.scope⟩) ∨
  (∃ o, localLoadOf i = some o ∧ o.LoadPlace q ∧ o.DstOk q.res ∧ q.res.srcOk o.a = true ∧
    q.res.Clean [o.a] (o.loadLanes q) ∧ x = ⟨o.n, o.loadLanes q, localAddr s q.res o.a o.off, false, true, false⟩) ∨
  (∃ o, localStoreOf i = some o ∧ o.StorePlace q ∧ q.res.srcOk o.a = true ∧ o.dataRegs.all q.res.srcOk = true ∧
    q.res.Clean ([o.a] ++ o.dataRegs) (o.storeLanes q) ∧ x = ⟨o.n, o.storeLanes q, localAddr s q.res o.a o.off, true, true, false⟩)

/-- What the checks of an access say in one lane (R77). -/
def LaneAccess.check (x : LaneAccess) (s : State) (q : Issue) (k : Nat) : MemCheck :=
  if x.home then s.checkHome (s.who q.res) (if x.write then 1 else 0) (x.at_ k)
  else s.checkLane (s.who q.res) (if x.write then 1 else 0) (x.at_ k) x.n

/-- An access takes a trap for the lanes of which something holds: the cause carries the words of one of them, and its mask names all of
them in a wave, and the op's slot in a bundle (R198, R199). Besides, what the checks have asked of the memory side may have come. -/
def TrapsFor (s : State) (q : Issue) (i : Instr) (x : LaneAccess) (code : Nat) (bad : Nat → Prop) (words : Nat → Word × Word × Word) : Prop :=
  ∃ (u : State) (c : Cause), s.ReadSide q.res.core u ∧ exec i s = .next (u.trapNow c) ∧ c.code = code ∧
    (∃ k ∈ x.lanes, bad k ∧ (c.i0, c.i1, c.i3) = words (x.at_ k)) ∧
    (q.res.simt = true → ∀ k < 16, (c.i2.getLsbD k = true ↔ k ∈ x.lanes ∧ bad k)) ∧
    (q.res.simt = false → c.i2 = BitVec.ofNat 32 (2 ^ q.slot))
end Sys2Proof.Claim

open Sys2Proof Sys2Proof.Machine Sys2Proof.Claim
/-- Moves, sums, products, minima and maxima, and the bitwise operations: each lane's destination takes the result of the
reference entry, the last-result file of a lane destination shifts, and nothing else changes. -/
def Obligations.IntegerArithmeticCompletes : Prop :=
  ∀ (i : Instr) (o : RegOp) (s : State) (q : Issue), intResult i = some o → s.Issues q → o.Legal (q.intPlace o.d o.srcs) q →
    q.res.Clean o.srcs (o.lanes q) → o.Done i s q

/-- Shifts, rotations, bit counts, bit fields and the four-element dot product. -/
def Obligations.BitOperationsComplete : Prop :=
  ∀ (i : Instr) (o : RegOp) (s : State) (q : Issue), bitResult i = some o → s.Issues q → o.Legal (q.intPlace o.d o.srcs) q →
    q.res.Clean o.srcs (o.lanes q) → o.Done i s q

/-- `iadd64` and `lea`: the high word goes to the first register of the pair and both words enter the last-result file. -/
def Obligations.PairArithmeticCompletes : Prop :=
  ∀ (i : Instr) (o : RegOp) (s : State) (q : Issue), pairResult i = some o → s.Issues q → o.Legal (q.intPlace o.d o.srcs) q →
    q.res.dstOk (Dst.next o.d) = true → q.res.Clean o.srcs (o.lanes q) → o.Done i s q

/-- `icmp` and the predicate instructions. -/
def Obligations.ComparesAndPredicatesComplete : Prop :=
  ∀ (i : Instr) (o : RegOp) (s : State) (q : Issue), predResult i = some o → s.Issues q → o.Legal (q.lanePlace o.d) q →
    q.res.Clean o.srcs (o.lanes q) → o.Done i s q

/-- Floating-point and packed half instructions. That an `fcvt` to an integer that is out of range and inexact raises nv alone, and that
a value beyond 448 becomes the largest E4M3 value with of and nx in every mode, are the model's choices (log entries 34 and 17). -/
def Obligations.FloatArithmeticCompletes : Prop :=
  ∀ (i : Instr) (o : RegOp) (s : State) (q : Issue), floatResult i = some o → s.Issues q → o.Legal (q.lanePlace o.d) q →
    q.res.Clean o.srcs (o.lanes q) → o.Done i s q

/-- Special functions. -/
def Obligations.SpecialFunctionsComplete : Prop :=
  ∀ (i : Instr) (o : RegOp) (s : State) (q : Issue), specialResult i = some o → s.Issues q → o.Legal (q.lanePlace o.d) q →
    q.res.Clean o.srcs (o.lanes q) → o.Done i s q

/-- Sums, products and fused products of finite codes round the exact result once. The special functions: the special inputs of R126,
`fdiv.a` and `fsqrt.a` correctly rounded, the values beyond the `.f` domain, the bounds of R124 for the reciprocal, the roots and the
quotient, and the conditions of R125. That an ulp of the exact value is the spacing of its binade is the model's choice (log entry 9). The
error bounds of the transcendental functions are left out. -/
def Obligations.FloatOperationsRoundOnce : Prop :=
  SpecialInputs ∧ CorrectlyRounded ∧ BeyondTheDomain ∧ FastGradeBounds ∧ AccurateGradeBounds ∧ ApproximationsAreInexact ∧
  ∀ (F : FloatFmt) (m : RoundMode) (a b c : Nat) (x y z : Rat), F ∈ ieeeFormats →
    valueOf (F.decode a) = some x → valueOf (F.decode b) = some y → valueOf (F.decode c) = some z →
    (∃ r, addF F m a b = roundF F m r ∧ valueOf r = some (x + y)) ∧
    (∃ r, subF F m a b = roundF F m r ∧ valueOf r = some (x - y)) ∧
    (∃ r, mulF F m a b = roundF F m r ∧ valueOf r = some (x * y)) ∧
    (∃ r, fmaF F m a b c = roundF F m r ∧ valueOf r = some (x * y + z))

/-- A directed rounding stays on its side of the exact value, towards zero between zero and it, and the inexact condition says whether anything was lost. -/
def Obligations.DirectedRoundingStaysOnItsSide : Prop :=
  ∀ (F : FloatFmt) (m : RoundMode) (r : XR) (x v : Rat), F ∈ ieeeFormats → valueOf r = some x →
    valueOf (F.decode (roundF F m r).1) = some v →
    (m = .rm → v ≤ x) ∧ (m = .rp → x ≤ v) ∧ (m = .rz → (0 ≤ x → 0 ≤ v ∧ v ≤ x) ∧ (x ≤ 0 → x ≤ v ∧ v ≤ 0)) ∧
    ((roundF F m r).2 &&& 0x04 = 0 → ((roundF F m r).2 &&& 0x01 = 0x01 ↔ v ≠ x))

/-- Rounding to nearest: no finite code of the format lies nearer to the exact value. A value that the format holds is returned as
it is, in every mode and without a condition. -/
def Obligations.NearestRoundingIsNearest : Prop :=
  (∀ (F : FloatFmt) (r : XR) (x v w : Rat) (k : Nat), F ∈ ieeeFormats → valueOf r = some x →
    valueOf (F.decode (roundF F .rne r).1) = some v → valueOf (F.decode k) = some w → (x - v).abs ≤ (x - w).abs) ∧
  (∀ (F : FloatFmt) (m : RoundMode) (k : Nat), F ∈ ieeeFormats ∨ F = fmtE4M3 ∨ F = fmtE2M1 → k < 2 * F.signBit → F.isNaN k = false →
    roundF F m (F.decode k) = (k, 0))

/-- `shfl`, `vote` and `wred`: the threads that take effect receive the value of the reference entry. -/
def Obligations.WaveOperationsComplete : Prop :=
  ∀ (p : Pred) (d : Dst) (a b m : Src) (s : State) (q : Issue), s.Issues q → q.res.simt = true → predOk q.res p = true →
    (∀ mode : ShflMode, q.res.within d [a, b, m] = true → dstScalar d = false → q.res.Clean [b, m] (q.lanes p false) →
      (∀ c ∈ q.lanes p false, inMask s q m c = true → q.res.srcPoison a (shflThread s q b m mode c) = false) →
      ∃ t, exec (.shfl p d a b m mode) s = .next t ∧
        s.Computes q t 2 d (fun c => keeps (s.opnd q.res .int a (shflThread s q b m mode c)))
          ((q.lanes p false).filter fun c => inMask s q m c) (if q.lanes p false = [] then [] else [b])) ∧
    (q.res.within d [a, m] = true → q.res.Clean [a] ((q.lanes p false).filter fun c => inMask s q m c) →
      q.res.Clean [m] (q.lanes p false) →
      (∀ mode : VoteMode, ∃ t, exec (.vote p d a m mode) s = .next t ∧
        s.Computes q t 2 d (fun _ => keeps (voteOf mode (votes s q p a m) (bitsOf (inMask s q m)))) (q.lanes p (dstScalar d))
          (if q.lanes p false = [] then [] else [a])) ∧
      (∀ (op : RedOp) (ty : RedTy), ∃ t, exec (.wred p d a m op ty) s = .next t ∧
        s.Computes q t 6 d (fun _ => reduced s q p a m op ty) (q.lanes p (dstScalar d))
          (if q.lanes p false = [] then [] else [a])))

/-- `xmov` and `xbc`: a result for the cluster of the slot, or for every cluster of the mask, on its way; when the op's predicate
or gate is false, nothing. -/
def Obligations.ClusterMovesComplete : Prop :=
  ∀ (p : Pred) (d : Dst) (a m : Src) (j : Nat) (s : State) (q : Issue), s.Issues q → q.res.simt = false → q.slot < 16 →
    j < q.res.width → q.res.within d [a, m] = true → dstScalar d = false →
    (q.res.effect true p q.slot = false →
      exec (.xmov p d a j) s = .next s ∧ exec (.xbc p d a j m) s = .next s) ∧
    (q.res.effect true p q.slot = true → q.res.srcPoison a j = false → q.res.Clean [m] [q.slot] →
      (∃ t, exec (.xmov p d a j) s = .next t ∧ s.Computes q t 2 d (fun _ => keeps (s.opnd q.res .int a j)) [q.slot] []) ∧
      (∃ t, exec (.xbc p d a j m) s = .next t ∧
        s.Computes q t 3 d (fun _ => keeps (s.opnd q.res .int a j)) ((List.range q.res.width).filter fun c => inMask s q m c) []))

/-- `bra`, `brx`, `call`, `callr`, `ret`: one that is not taken changes nothing; one that is taken writes its link, high word
first, and moves the resident to its target. -/
def Obligations.TransfersComplete : Prop :=
  ∀ (i : Instr) (o : Transfer) (s : State) (q : Issue), transferOf i = some o → s.Issues q → TransferPlace q →
    predOk q.res o.p = true → (∀ n ∈ o.reads, n + 2 ≤ q.res.allotS) → (∀ n ∈ o.link, n + 2 ≤ q.res.allotS) →
    (q.taken o.p = false → exec i s = .next s) ∧
    (q.taken o.p = true → (∀ n ∈ o.reads, q.res.Clean [.s n, .s (n + 1)] [q.onceLane]) → GoodTarget (o.target q) →
      match o.link with
      | none => exec i s = .next (movedTo s q (o.target q))
      | some n => ∃ r, exec i s = .next (movedTo (s.withRes q r) { q with res := r } (o.target q)) ∧
          s.Computes q (s.withRes q r) 1 (.s n)
            (fun _ => { words := [BitVec.ofNat 32 (afterWords q / 2 ^ 32), BitVec.ofNat 32 (afterWords q)], ys := [], ff := 0 }) [0] [])

/-- `bdiv`, `join` and `exit` (R68, R305, R323, R348): a full stack stops a `bdiv` and an empty one a `join` with code 16, and a bad target
or rejoin address either with code 3 or 5. When the last thread of a wave exits inside a handler, the handler ends with it (R323); that it
ends as by `tret.kill` is the model's choice (log entry 25). -/
def Obligations.DivergenceCompletes : Prop :=
  ∀ (s : State) (q : Issue), s.Issues q → q.res.simt = true → q.idx + 1 = q.hdr.count →
    let trapsAt := fun (i : Instr) (a : Nat) => q.commit = false → ∃ c : Cause, exec i s = .next (s.trapNow c) ∧
      c.code = (if a % 8 = 0 then 5 else 3) ∧ c.i0 = BitVec.ofNat 32 (a / 2 ^ 32) ∧ c.i1 = BitVec.ofNat 32 a
    (∀ (p : Pred) (off : BitVec 32) (rejoin : BitVec 18), predOk q.res p = true → q.res.div.length < 8 →
      let aim := fromHeader q off.toInt
      let t := takingMask q p
      let e : DivEntry := ⟨fromHeader q rejoin.toInt, q.res.active, if t = q.res.active then 0 else t, aim⟩
      let r := { q.res with div := e :: q.res.div }
      (GoodTarget aim → t = q.res.active → exec (.bdiv p off rejoin) s = .next (movedTo (s.withRes q r) { q with res := r } aim)) ∧
      (GoodTarget aim → t ≠ q.res.active → q.res.active &&& ~~~t ≠ 0 ∧ exec (.bdiv p off rejoin) s =
        .next { s with iss := some { q with
          res := { r with active := q.res.active &&& ~~~t }
          moved := false } }) ∧
      (¬ GoodTarget aim → trapsAt (.bdiv p off rejoin) aim)) ∧
    (∀ (e : DivEntry) (es : List DivEntry), q.res.div = e :: es →
      ((e.pending = 0 → e.outer ≠ 0 → GoodTarget e.rejoin) →
        exec .join s = .next { s with iss := some { q with res := onPath q.res (nextPath (e :: es)), moved := true } }) ∧
      (e.pending = 0 → e.outer ≠ 0 → ¬ GoodTarget e.rejoin → trapsAt .join e.rejoin)) ∧
    (∀ p : Pred, predOk q.res p = true →
      let x := takingMask q p
      let r : Resident := { q.res with
        active := q.res.active &&& ~~~x
        exited := q.res.exited ||| x
        div := without x q.res.div
        trap := { q.res.trap with hidden := q.res.trap.hidden.map fun h => { h with active := h.active &&& ~~~x, div := without x h.div } } }
      let goesOn := q.res.active &&& ~~~x ≠ 0 ∨ nextPath r.div ≠ none
      (goesOn ∨ q.res.trap.inh = false →
        exec (.exit p) s = .next (s.withRes q (if q.res.active &&& ~~~x ≠ 0 then r else onPath r (nextPath r.div)))) ∧
      (¬ goesOn → q.res.trap.inh = true → ∃ t r', exec (.exit p) s = .next t ∧ (t.iss.map fun y => y.res) = some r' ∧ r'.rid = q.res.rid ∧
        r'.active = 0 ∧ r'.div = [] ∧ r'.exited = r.exited ∧ r'.ended = true ∧ r'.trap.inh = false ∧ r'.trap.hidden = none ∧
        ∀ u ∈ t.units, ∀ y ∈ u.held, y.2 ≠ q.res.rid)) ∧
    (q.commit = false →
      (∀ (p : Pred) (off : BitVec 32) (rejoin : BitVec 18), predOk q.res p = true → 8 ≤ q.res.div.length →
        GoodTarget (fromHeader q off.toInt) →
        exec (.bdiv p off rejoin) s = .next (s.trapNow { Cause.zero with code := 16, i0 := 1 })) ∧
      (q.res.div = [] → exec .join s = .next (s.trapNow { Cause.zero with code := 16, i0 := 2 })))

/-- `loop`, `lexit` and `mark` (R69, R71, R354 to R356). A loop's push and a loop's exit come about at the end of the bundle,
whose other ops see the stack as it was. A push on a full stack, an exit with an empty one and a count above its bound raise code 16
(R69). A `mark` captures the bundles of its range in their order (R71). -/
def Obligations.LoopsComplete : Prop :=
  ∀ (p : Pred) (s : State) (q : Issue), s.Issues q → q.res.simt = false → q.slot = 16 → predOk q.res p = true →
    let traps := fun k : Nat => Host.Outcome.next (s.trapNow { Cause.zero with code := 16, i0 := BitVec.ofNat 32 k })
    (∀ (off : BitVec 32) (stages cnt : Nat), (Instr.loop p off stages cnt).wf = true → q.hdr.lend = false → cnt + 1 ≤ q.res.allotS →
      (q.taken p = true → q.res.Clean [.s cnt] [q.onceLane]) → GoodTarget (fromHeader q off.toInt) →
      let n := (q.res.regs.read (.s cnt)).toNat
      let bound := (s.ctxOf q.res).loopBound q.hdrAddr (fromHeader q off.toInt)
      (q.taken p = false ∨ n = 0 → exec (.loop p off stages cnt) s = .next (movedTo s q (fromHeader q off.toInt))) ∧
      (q.taken p = true → n ≠ 0 → q.res.loops.length < 8 →
        (∀ b, bound = some b → n ≤ b) →
        exec (.loop p off stages cnt) s = .next { s with iss := some { q with after := q.after ++ [.loop p off stages cnt] } } ∧
        s.applyAfter (.loop p off stages cnt) = s.withRes q { q.res with
          loops := ⟨afterWords q, fromHeader q off.toInt, n, stages, 0⟩ :: q.res.loops }) ∧
      (q.taken p = true → n ≠ 0 → q.commit = false →
        (8 ≤ q.res.loops.length → exec (.loop p off stages cnt) s = traps 1) ∧
        (q.res.loops.length < 8 → (∃ b, bound = some b ∧ b < n) → exec (.loop p off stages cnt) s = traps 3))) ∧
    (q.taken p = true → q.res.loops = [] → q.commit = false → exec (.lexit p) s = traps 2) ∧
    (q.taken p = false → exec (.lexit p) s = .next s) ∧
    (∀ (e : LoopEntry) (es : List LoopEntry), q.taken p = true → q.res.loops = e :: es →
      exec (.lexit p) s = .next { s with iss := some { q with after := q.after ++ [.lexit p] } } ∧
      s.applyAfter (.lexit p) = movedTo (s.withRes q { q.res with loops := es }) { q with res := { q.res with loops := es } } e.exit) ∧
    (∀ n : Nat, (Instr.mark p n).wf = true → n ≤ (match q.res.launch.shape with | 0 => 64 | 1 => 32 | _ => 16) →
      (q.taken p = false ∨ s.pinned q.res = true → exec (.mark p n) s = .next s) ∧
      (q.taken p = true → s.pinned q.res = false → ∃ (u : State) (pin : LoopPin),
        exec (.mark p n) s = .next (changed u fun r => { r with pin := some pin }) ∧ FetchSide q.res.core s u ∧
        pin.left + pin.bundles.length = n ∧ Captured pin pin.bundles (afterWords q)))

/-- `nop`, an empty bundle, `fold` and `unfold` (R33, R34, R360): a wave that folds keeps its registers, scalar registers, flags,
region stack and %fflags and becomes a wide thread with an empty loop stack; a wide thread that unfolds waits for its results. Where either may not, code 15 gives the
reason (R33, R34, R333, R390). -/
def Obligations.ModeChangesComplete : Prop :=
  ∀ (s : State) (q : Issue), s.Issues q →
    (∀ p : Pred, predOk q.res p = true → (q.res.simt = true ∨ q.slot ≤ 16) → exec (.nop p) s = .next s) ∧
    (∀ h : DWord, exec (.emptyBundle h) s = .next s) ∧
    (q.res.simt = true → q.idx + 1 = q.hdr.count → q.res.trap.inh = false → q.res.active = 0xFFFF → q.res.div = [] →
      q.res.acrdPending = [] → exec .fold s = .next (s.withRes q { q.res with simt := false, loops := [] })) ∧
    (q.res.simt = false → q.slot = 16 → q.hdr.lend = false → q.res.trap.inh = false → q.res.launch.shape = 0 → q.res.loops = [] →
      exec .unfold s = .next (s.withRes q { q.res with closing := .unfold })) ∧
    (q.commit = false →
      let traps := fun k : Nat => Host.Outcome.next (s.trapNow { Cause.zero with code := 15, i0 := BitVec.ofNat 32 k })
      (q.res.simt = true → q.idx + 1 = q.hdr.count →
        (q.res.trap.inh = true → exec .fold s = traps 5) ∧
        (q.res.trap.inh = false → q.res.active ≠ 0xFFFF → exec .fold s = traps 1) ∧
        (q.res.trap.inh = false → q.res.active = 0xFFFF → q.res.div ≠ [] → exec .fold s = traps 2)) ∧
      (q.res.simt = false → q.slot = 16 → q.hdr.lend = false →
        (q.res.trap.inh = true → exec .unfold s = traps 5) ∧
        (q.res.trap.inh = false → q.res.launch.shape ≠ 0 → exec .unfold s = traps 3) ∧
        (q.res.trap.inh = false → q.res.launch.shape = 0 → q.res.loops ≠ [] → exec .unfold s = traps 4)))

/-- The illegal-encoding path enters the handler that the context registers for code 1, with the trap registers of R200, the
hidden state of R202 and nothing else of the machine changed. A trap that finds no handler, or one that is running, freezes the
resident before its instruction, keeps `inh` and the hidden state, and sends the host both causes: that of the handler that runs, and its
own (R204). -/
def Obligations.IllegalEncodingEntersItsHandler : Prop :=
  (∀ (w : DWord) (slot : Nat) (h : Nat × Bool × Bool) (s : State) (q : Issue), slot < 32 → s.Issues q → q.commit = false →
    q.res.trap.inh = false → handlerFor (s.ctxOf q.res) 1 = some h →
    exec (.illegalEncodingPath w slot) s = .next (trapsWith s q (illegalOf w slot) h)) ∧
  (∀ (w : DWord) (slot : Nat) (s : State) (q : Issue), slot < 32 → s.Issues q → q.commit = false →
    (q.res.trap.inh = true ∨ handlerFor (s.ctxOf q.res) 1 = none) →
    let c := illegalOf w slot
    let r : Resident := { q.res with
      trap := { q.res.trap with
        eng := false, defer := false, code := 1, tpc := q.hdrAddr, i0 := c.i0, i1 := c.i1, i2 := c.i2, i3 := c.i3, prog := 0 }
      stop := .doubleTrap
      hdr := q.hdrAddr
      place := q.idx
      ended := false }
    let first := (q.res.trap.hidden.map Hidden.code).getD 0
    exec (.illegalEncodingPath w slot) s =
      .next { s.hostEvent 16 q.res.launch.tenant q.res.launch.ctx
          (BitVec.ofNat 64 (first + 1 * 2 ^ 8 + q.res.core * 2 ^ 16 + q.res.lgrp * 2 ^ 24 + q.res.slot * 2 ^ 28)) (BitVec.ofNat 64 q.hdrAddr)
        with iss := some { q with res := r, trapped := true } })

/-- An op in a slot that R290 does not give it is a case of R55: nothing of its bundle issues, and the illegal-encoding path is taken for the
header, with slot 31 (R291). An instruction with a register or a predicate that is not its own takes the path for its own word and slot,
before any other cause and whether or not a lane takes effect (R49, R50, R52, R291). That a skip of
such a header passes over as many words as it names is the model's choice (log entry 25). -/
def Obligations.MisplacedInstructionsTakeTheIllegalEncodingPath : Prop :=
  (∀ (i : Instr) (o : RegOp) (place : Bool) (s : State) (q : Issue), regOp q i = some (o, place) → s.Issues q → q.commit = false →
    (place = true ∨ q.res.simt = true ∨ q.slot < 16) → ¬ o.Legal place q → exec i s = exec (.illegalEncodingPath q.word q.slot) s) ∧
  (∀ (s : State) (rest : List Action) (r0 : Resident) (hw : DWord) (s1 : State) (h : Header) (ops : List (Nat × DWord × Instr)),
    let s0 : State := { s with agenda := rest }
    let r := dueWritten r0
    let past := { r with
      hdr := r.hdr + 8 * (1 + ops.length)
      place := 0
      ended := hw.getLsbD 23 }
    TurnOf s rest r0 → r.simt = false → s0.rowStall r = false → (r.porch.filter fun e => decide (e.due ≤ r.count)) = [] →
    (s0.setRes r).bundleWords r = (.words (hw :: ops.map fun x => x.2.1), s1) → decodeBundleHeader hw.toNat = .ok h →
    (∀ x ∈ ops, decodeWord x.2.1.toNat = .ok x.2.2) → ops.map (fun x => x.1) = h.slots → (∃ x ∈ ops, Misplaced x.1 x.2.2) →
    step s = andThen (exec (.illegalEncodingPath hw 31) (s1.latch (Issue.start past r.hdr Header.blank r.place 31 hw))) fun t =>
      .next (settled s0 r0 (t.unlatch fun x => { x with
        refused := []
        exempt := x.exempt && !r.exempt
        starve := 0 })))

/-- A poisoned source that a taking lane reads raises code 12, for the instructions that compute registers, loads and stores, the writes
of special registers and tables, the copy-engine commands and the row transfers; it names a register that is poisoned in such a lane, and
the threads of a wave that read one, or the slot of an op (R199, R209, R321), and in a row transfer's write the participants (R299). What
the checks have asked of the memory side may have come. The mask where a scalar register that `acwr` or `apatch` reads is poisoned, all
participants, and the place that a cause found as an engine command issues names, the slot or the lowest active thread, are the model's
choices (log entry 17). -/
def Obligations.PoisonedSourcesTrap : Prop :=
  (∀ (i : Instr) (o : RegOp) (place : Bool) (s : State) (q : Issue), regOp q i = some (o, place) → s.Issues q → q.commit = false →
    o.Legal place q → ¬ q.res.Clean o.srcs (o.lanes q) → PoisonTraps s s q i o.srcs (o.lanes q)) ∧
  (∀ (i : Instr) (srcs : List Src) (cs : List Nat) (s : State) (q : Issue), memReads q i srcs cs → s.Issues q → q.commit = false →
    ¬ q.res.Clean srcs cs → ∃ u, s.ReadSide q.res.core u ∧ PoisonTraps s u q i srcs cs) ∧
  (∀ (i : Instr) (o : SystemWrite) (s : State) (q : Issue), systemWriteOf i = some o → i.wf = true → s.Issues q → q.commit = false →
    OncePlace [16] o.p q → (∀ a ∈ o.reads, q.res.srcOk a = true) → o.ok s q → q.taken o.p = true →
    ¬ q.res.Clean (scalarsOf o.reads) [q.onceLane] → PoisonTraps s s q i (scalarsOf o.reads) [q.onceLane]) ∧
  (∀ (i : Instr) (s : State) (q : Issue) (o : CopyOp), copyOf s q i = some o → s.Issues q → q.commit = false → OncePlace [18, 19] o.p q →
    flagNamed q o.set < 12 → (∀ n ∈ o.reads ++ o.names, n < q.res.allotS) → LandingOk q i → o.legal → q.taken o.p = true →
    ¬ q.res.Clean (o.reads.map Src.s) [q.onceLane] → ∃ u, s.ReadSide q.res.core u ∧ PoisonTraps s u q i (o.reads.map Src.s) [q.onceLane]) ∧
  (∀ (i : Instr) (o : RowOp) (s : State) (q : Issue), rowOpOf i = some o → s.Issues q → q.commit = false → OncePlace [17] o.p q →
    o.t < q.res.launch.acc → o.n + rowWidth q.res ≤ q.res.allotV → (∀ n ∈ o.scalarReads, n < q.res.allotS) →
    let cs := takesPart q o.p
    let bad := fun k c => (o.mask = none ∨ (o.cmd i s q).mask.getLsbD (c * rowWidth q.res + k) = true) ∧ q.res.srcPoison (.v (o.n + k)) c = true
    cs ≠ [] → (∃ n ∈ o.scalarReads, q.res.regs.poisoned (.s n) = true) ∨ (o.reads = true ∧ ∃ c ∈ cs, ∃ k < rowWidth q.res, bad k c) →
    ∃ c : Cause, exec i s = .next (s.trapNow c) ∧ c.code = 12 ∧
      ((∃ n ∈ o.scalarReads, q.res.regs.poisoned (.s n) = true ∧ c.i0 = BitVec.ofNat 32 (encSrc (.s n))) ∨
        (o.reads = true ∧ ∃ x ∈ cs, ∃ k < rowWidth q.res, bad k x ∧ c.i0 = BitVec.ofNat 32 (o.n + k))) ∧
      (o.reads = true → ∀ x < 16, (c.i2.getLsbD x = true ↔ x ∈ cs ∧
        ((∃ n ∈ o.scalarReads, q.res.regs.poisoned (.s n) = true) ∨ ∃ k < rowWidth q.res, bad k x))))

/-- Of several causes the first in the order of R199 is taken, and a cause with a mask names all that meet it, a bramble cause every bramble that is
hit. A translation fault that
the host answers with retry is no trap: whoever waits for that entry waits for it no longer, and no resident's registers, place or traps
change. -/
def Obligations.CausesAreTakenInOrder : Prop :=
  (∀ cs : List Cause, (pickCause cs = none ↔ cs = []) ∧
    ∀ c, pickCause cs = some c →
      (∃ x ∈ cs, x.code = c.code) ∧ (∀ x ∈ cs, rankOf c.code ≤ rankOf x.code) ∧
      (c.code ∈ [3, 4, 5, 6, 7, 12] → ∀ k, c.i2.getLsbD k = true ↔ ∃ x ∈ cs, x.code = c.code ∧ x.i2.getLsbD k = true) ∧
      (c.code = 11 → ∀ k, c.i0.getLsbD k = true ↔ ∃ x ∈ cs, x.code = 11 ∧ x.i0.getLsbD k = true)) ∧
  (∀ (ham entry : Nat) (s : State), (∃ m ∈ (s.hamAt ham).merge, m.entry = entry) →
    let t := (s.resolve ham entry false).2.2
    let hit := fun f : FaultWait => if f = .entry ham entry then some FaultWait.none else none
    (t.residents.map fun r => (r.rid, r.trap.inh, r.trap.code, r.async, r.regs, r.hdr, r.place, r.wait)) =
      s.residents.map fun r => (r.rid, r.trap.inh, r.trap.code, r.async, r.regs, r.hdr, r.place, waitLeft hit r.wait))

/-- `trap` and `brk` complete and then raise code 10 or 9 with their 16-bit code: a wave enters the reeve handler with the next
instruction as the place of both a retry and a skip; in a bundle the cause waits for the other ops (R309, R385). -/
def Obligations.TrapInstructionsComplete : Prop :=
  ∀ (p : Pred) (code : BitVec 16) (i : Instr) (n : Nat) (s : State) (q : Issue),
    (i = .trap p code ∧ n = 10) ∨ (i = .brk p code ∧ n = 9) → s.Issues q → predOk q.res p = true → (q.res.simt = true ∨ q.slot = 16) →
    (q.taken p = false → exec i s = .next s) ∧
    (q.taken p = true → q.res.trap.inh = false → (s.ctxOf q.res).tvec ≠ 0 →
      (q.res.simt = true → exec i s = .next { s with iss := some { q with
        res := inHandler q.res (causeWith n (code.zeroExtend 32)) ((s.ctxOf q.res).tvec.toNat, true, false) q.hdrAddr q.res.hdr q.res.place
          q.res.ended .completed
        trapped := true } }) ∧
      (q.res.simt = false → exec i s = .next { s with iss := some { q with post := some (causeWith n (code.zeroExtend 32)) } }))

/-- Which lanes an instruction takes effect in: active threads of a wave whose predicate selects true; the cluster of its slot; a
gate of the innermost loop (R52, R70, R294). An instruction that executes once for the wave is taken exactly if the predicate of the
lowest-numbered active thread selects true, whatever those of the others, and acts in that thread (R50, R296); in the scalar, matrix and
copy slots the predicate is cluster 0's (R52). -/
def Obligations.PredicatesGovernLanes : Prop :=
  ∀ (q : Issue) (p : Pred) (c : Nat),
    (q.res.simt = true →
      (c ∈ q.lanes p false ↔ c < q.res.width ∧ q.res.active.getLsbD c = true ∧ Selects q.res p c) ∧
      (c < q.res.width → q.res.active.getLsbD c = true → (∀ k < c, q.res.active.getLsbD k = false) →
        (q.taken p = true ↔ Selects q.res p c) ∧ (Selects q.res p c → q.lanes p true = [c]) ∧
        (¬ Selects q.res p c → q.lanes p true = [])) ∧
      ((∀ k < q.res.width, q.res.active.getLsbD k = false) → q.taken p = false ∧ q.lanes p true = [] ∧ q.lanes p false = [])) ∧
    (q.res.simt = false → q.slot < 16 →
      (c ∈ q.lanes p false ↔ c = q.slot ∧ Selects q.res p c) ∧ q.lanes p true = q.lanes p false ∧
      (q.taken p = true ↔ Selects q.res p q.slot)) ∧
    (q.res.simt = false → 16 ≤ q.slot →
      (q.taken p = true ↔ Selects q.res p 0) ∧ ∀ once : Bool, (Selects q.res p 0 → q.lanes p once = [0]) ∧
        (¬ Selects q.res p 0 → q.lanes p once = []))

/-- `ld.g` and `ldo.S`: a wave's load counts its flag up and its data is on its way to every lane that takes effect; an op's load
takes a porch entry due at the named count (R57, R63, R64, R351, R352). That a load is performed at its issue, but a wave's plain one may be read anew
later, word by word, and a bundle's comes late where the oracle says so or where an earlier one is refused, unless the bundle holds an
access that must follow it, is the model's choice (log entries 2 and 6). -/
def Obligations.GlobalLoadsComplete : Prop :=
  ∀ (i : Instr) (o : MemOp) (s : State) (q : Issue), globalLoadOf i = some o → s.Issues q → o.LoadPlace q → o.DstOk q.res →
    q.res.pairOk o.a = true →
    let w := s.who q.res
    let cs := o.loadLanes q
    let at_ := globalAddr s q.res o.a o.off
    q.res.Clean [o.a, Src.next o.a] cs → (∀ c ∈ cs, Passes s q.res false o.n (atHome o.scope) (at_ c)) →
    (cs = [] → (q.res.simt = true → o.land < 2 ∧ flagNamed q (o.land == 1) < 12) → (q.res.simt = false → 0 < o.land) → s.porchFull q 0 = false →
      exec i s = .next s) ∧
    (cs ≠ [] → q.res.simt = true → o.land < 2 → flagNamed q (o.land == 1) < 12 → q.res.flags.getD (flagNamed q (o.land == 1)) 0 < 63 →
      let x := s.readLanes w o.scope o.n o.d (cs.map fun c => (c, at_ c))
      let u := x.2.acquire w o.scope
      s.ReadSide q.res.core u ∧ exec i s = .next { changed u (fun r => { withFlag r (flagNamed q (o.land == 1)) with
        loads := r.loads ++ [⟨s.nextId, flagNamed q (o.land == 1), x.1, openWordsOf o at_ cs⟩] }) with nextId := s.nextId + 1 }) ∧
    (∀ c, cs = [c] → q.res.simt = false → 0 < o.land → s.porchFull q 1 = false → OpLoads i o o.land false s q c (at_ c))

/-- `ld.sp`: latency 8 in both modes; the data comes from the resident's allotment, and besides the bank pointers of the core
nothing changes but the results. `ldc`: latency 8, from the constant bank of the launch (R74, R350, R351). When a load is performed is
the model's choice (log entries 2 and 6). -/
def Obligations.LocalLoadsComplete : Prop :=
  (∀ (i : Instr) (o : MemOp) (s : State) (q : Issue), localLoadOf i = some o → s.Issues q → o.LoadPlace q → o.DstOk q.res →
    q.res.srcOk o.a = true →
    let cs := o.loadLanes q
    let at_ := localAddr s q.res o.a o.off
    q.res.Clean [o.a] cs → (∀ c ∈ cs, PassesLocal s q.res false o.n (at_ c)) →
    let read := fun a => s.spadRead q.res.uid q.res.core a o.n
    ∃ ptr : List Nat, exec i s = .next { (if q.res.simt = true
        then changed s fun r => { r with regs := r.regs.putAll (allCells o read at_ cs) }
        else changed s fun r => { r with flights := r.flights ++ cs.map fun c =>
          { due := r.count + 8, seq := 32 * r.count, writes := loadedCells o.d o.n c (read (at_ c)).1 (read (at_ c)).2, lane := c, ys := [], ff := 0 } })
      with cores := modAt s.cores q.res.core fun c => { c with bankPtr := ptr } }) ∧
  (∀ (p : Pred) (d : Dst) (a : Src) (off : BitVec 16) (s : State) (q : Issue),
    let o : MemOp := ⟨p, d, .imm 0, a, 8, 4, off, none⟩
    let i := Instr.ldc p d a off
    s.Issues q → o.LoadPlace q → o.DstOk q.res → q.res.srcOk a = true →
    let w := s.who q.res
    let cs := o.loadLanes q
    let at_ := fun c => q.res.launch.cbank + localAddr s q.res a off c
    q.res.Clean [a] cs → (∀ c ∈ cs, localAddr s q.res a off c + 4 ≤ q.res.launch.cbsize ∧ Passes s q.res false 4 false (at_ c)) →
    (q.res.simt = true →
      let x := s.readLanes w none 4 d (cs.map fun c => (c, at_ c))
      s.ReadSide q.res.core x.2 ∧ exec i s = .next (changed x.2 fun r => { r with regs := r.regs.putAll x.1 })) ∧
    (q.res.simt = false → (cs = [] → exec i s = .next s) ∧ ∀ c, cs = [c] → OpLoads i o 8 true s q c (at_ c)))

/-- `st.g` and `sto.S`: a wave's stores are performed in lane order, after what a release scope asks for; a bundle's wait for its
end. Only the memory side of the core changes, and before the stores only dirty bytes go home (R102, R103, R107, R378, R381). That
a wave's stores are performed at issue, and a bundle's at its end, is the model's choice (log entry 6). -/
def Obligations.GlobalStoresComplete : Prop :=
  ∀ (i : Instr) (o : MemOp) (s : State) (q : Issue), globalStoreOf i = some o → s.Issues q → o.StorePlace q →
    q.res.pairOk o.a = true → o.dataRegs.all q.res.srcOk = true →
    let cs := o.storeLanes q
    let at_ := globalAddr s q.res o.a o.off
    q.res.Clean ([o.a, Src.next o.a] ++ o.dataRegs) cs → (∀ c ∈ cs, Passes s q.res true o.n (atHome o.scope) (at_ c)) →
    let u := if cs = [] then s else s.release q.res o.scope
    let sts := o.stores .g s q.res at_ cs
    s.ReadSide q.res.core u ∧
    (q.res.simt = true → exec i s = .next (sts.foldl (fun s st => s.doStore q.res st) u) ∧
      s.MemorySide q.res.core (sts.foldl (fun s st => s.doStore q.res st) u)) ∧
    (q.res.simt = false → exec i s = .next (putOff u sts))

/-- `st.sp`: the stores reach the resident's allotment, in lane order for a wave and at the end of a bundle (R102, R378). A store
to the scratchpad changes the bytes it covers, clears the marks of the words it covers whole, lets the comparators of the
allotment's residents that it overlaps fire, and changes nothing else but bank pointers and the next number. That it is performed
at issue, or at the end of its bundle, is the model's choice (log entry 6). -/
def Obligations.ScratchpadStoresComplete : Prop :=
  (∀ (i : Instr) (o : MemOp) (s : State) (q : Issue), localStoreOf i = some o → s.Issues q → o.StorePlace q → q.res.srcOk o.a = true →
    o.dataRegs.all q.res.srcOk = true →
    let cs := o.storeLanes q
    let at_ := localAddr s q.res o.a o.off
    q.res.Clean ([o.a] ++ o.dataRegs) cs → (∀ c ∈ cs, PassesLocal s q.res true o.n (at_ c)) →
    let sts := o.stores .s s q.res at_ cs
    (q.res.simt = true → exec i s = .next (sts.foldl (fun s st => s.doStore q.res st) s)) ∧
    (q.res.simt = false → exec i s = .next (putOff s sts))) ∧
  (∀ (s : State) (r : Resident) (st : PendStore), st.sp = .s →
    (∃ (ptr : List Nat) (f : ByteFile → ByteFile), s.doStore r st = { s with
      cores := modAt s.cores r.core fun c => { c with bankPtr := ptr }
      units := s.units.map fun u => if u.uid = r.uid ∧ u.core = r.core then { u with spad := f u.spad } else u
      residents := s.residents.map fun x => if x.uid = r.uid ∧ x.core = r.core then
        { x with comps := x.comps.map fun c => c.fire st.addr st.bytes.length s.nextId } else x
      iss := s.iss.map fun q => { q with res := if q.res.uid = r.uid ∧ q.res.core = r.core then
        { q.res with comps := q.res.comps.map fun c => c.fire st.addr st.bytes.length s.nextId } else q.res }
      nextId := s.nextId + 1 } ∧
      ∀ (b : ByteFile) (x : Nat),
        (f b).read x = (if st.addr ≤ x ∧ x < st.addr + st.bytes.length then st.bytes.getD (x - st.addr) 0 else b.read x) ∧
        (x ∈ (f b).poison ↔ x ∈ b.poison ∧ ¬(st.addr ≤ 8 * x ∧ 8 * x + 8 ≤ st.addr + st.bytes.length))) ∧
    (∀ (c : Comparator) (a n id : Nat), c.fire a n id = if c.fired = none ∧ a < c.hi ∧ c.lo < a + n then { c with fired := some id } else c))

/-- A plain read gives the bytes of the line that holds them, and otherwise those of memory. -/
def Obligations.PlainReadsFindTheBytes : Prop :=
  ∀ (s : State) (w : Who) (a n : Nat), Memory.wf s.mem = true → a % 128 + n ≤ 128 →
    (∀ l, s.l1Find w a = some l → l.hits 0 a n w.reeve = true → (s.laneRead w a n).1.1 = (l.data.drop (a % 128)).take n) ∧
    (∀ (leaf : DWord) (size : Nat), s.l1Find w a = none → s.xlat w a = .ok leaf size →
      let pa := paOf leaf size a
      pa % 128 = a % 128 → pa < hostBase → (∀ l ∈ (s.coreAt w.core).l1, l.pa ≠ pa / 128) →
      (s.laneRead w a n).1.1 = Memory.readBytes s.mem pa n)

/-- A core reads back what it has stored: whether the line is held or not, on streaming pages and with no way of its own, as long
as its translation is in the hamlet's TLB. -/
def Obligations.StoresAreReadBack : Prop :=
  ∀ (s : State) (w : Who) (a : Nat) (bs : List Byte) (e : TlbEntry), Memory.wf s.mem = true → s.tlbFind w a = some e → w.core < s.cores.length →
    leafAllows e.leaf 0 w.reeve = true → leafAllows e.leaf 1 w.reeve = true → bs ≠ [] → a % 128 + bs.length ≤ 128 →
    let pa := paOf e.leaf e.size a
    let slice := homeSlice e.leaf e.size a pa
    pa % 128 = a % 128 → pa < hostBase → s.lostLine slice pa = false → SoundLine s w a pa slice →
    ((s.laneWrite w a bs).laneRead w a bs.length).1.1 = bs

/-- A store performed at the home slice changes exactly its bytes of device memory (R107, R381). A plain store changes no byte of
device memory but those it stores and those that the core's own L1 held dirty. -/
def Obligations.StoresWriteTheirBytesAlone : Prop :=
  (∀ (s : State) (r : Resident) (st : PendStore) (leaf : DWord) (size x : Nat), Memory.wf s.mem = true → st.sp = .g → atHome st.scope = true →
    s.xlat (s.who r) st.addr = .ok leaf size →
    let pa := paOf leaf size st.addr
    pa < hostBase → s.lostLine (homeSlice leaf size st.addr pa) pa = false →
    Memory.read (s.doStore r st).mem x =
      if pa ≤ x ∧ x < pa + st.bytes.length then st.bytes.getD (x - pa) 0 else Memory.read s.mem x) ∧
  (∀ (s : State) (w : Who) (a : Nat) (bs : List Byte) (x : Nat), Memory.wf s.mem = true →
    (∀ l ∈ (s.coreAt w.core).l1, ∀ k < 128, l.dirty.getLsbD k = true → x ≠ l.pa * 128 + k) →
    (∀ (leaf : DWord) (size : Nat), s.xlat w a = .ok leaf size → x < paOf leaf size a ∨ paOf leaf size a + bs.length ≤ x) →
    Memory.read (s.laneWrite w a bs).mem x = Memory.read s.mem x)

/-- `pf`: the lines of lanes whose base is clean are asked for, those that may be read; only the memory side changes (R363). A request
that is refused reads nothing: its lookup fills the TLB at most (R77, R363). That a poisoned base drops its lane's request, where
R209 would trap and R363 never does, is the model's choice (log entry 17). -/
def Obligations.PrefetchesComplete : Prop :=
  ∀ (p : Pred) (a : Src) (l2 : Bool) (off : BitVec 16) (s : State) (q : Issue), s.Issues q → q.memPlace false (srcScalar a) = true →
    predOk q.res p = true → q.res.pairOk a = true →
    let cs := (q.lanes p (srcScalar a && !q.res.simt)).filter fun c => !(q.res.srcPoison a c || q.res.srcPoison (Src.next a) c)
    let t := cs.foldl (fun s c => s.prefetch q.res l2 (globalAddr s q.res a off c)) s
    exec (.pf p a l2 off) s = .next t ∧ s.ReadSide q.res.core t ∧
    ∀ (u : State) (x : Nat), (∀ leaf, u.checkLane (u.who q.res) 0 x 1 = .ok leaf → leafPk leaf = true) →
      let v := u.prefetch q.res l2 x
      v.mem = u.mem ∧ v.cores = u.cores ∧ v.host = u.host

/-- `phase` and `ifence`: at once in a wave, at the end of a bundle; only the memory side of the core and, for `ifence`, the
context's lines of its instruction cache change (R106, R341, R342, R364). A phase of hamlet scope or beyond takes the context's
dirty bytes to memory and leaves its lines stale and clean; a narrower one changes nothing (R106). -/
def Obligations.PhasesComplete : Prop :=
  (∀ (p : Pred) (k : ScopeSel) (sc : Scope) (s : State) (q : Issue), s.Issues q → q.res.scopeSel k = some sc → predOk q.res p = true →
    (q.res.simt = true ∨ q.slot = 16) →
    let ctx := (s.ctxOf q.res).num
    let t := s.phaseAt q.res.core ctx sc
    s.ReadSide q.res.core t ∧
    (q.taken p = false → exec (.phase p k) s = .next s ∧ exec (.ifence p k) s = .next s) ∧
    (q.taken p = true → q.res.simt = true → exec (.phase p k) s = .next t ∧
      exec (.ifence p k) s = .next { t with cores := modAt t.cores q.res.core fun c => { c with icache := c.icache.filter fun l => l.ctx != ctx } }) ∧
    (q.taken p = true → q.res.simt = false →
      exec (.phase p k) s = .next { s with iss := some { q with after := q.after ++ [.phase p k] } } ∧
      exec (.ifence p k) s = .next { s with iss := some { q with after := q.after ++ [.ifence p k] } } ∧
      s.applyAfter (.phase p k) = t ∧
      s.applyAfter (.ifence p k) = { t with cores := modAt t.cores q.res.core fun c => { c with icache := c.icache.filter fun l => l.ctx != ctx } })) ∧
  (∀ (s : State) (core ctx : Nat) (k : Scope), Memory.wf s.mem = true → core < s.cores.length →
    (k = .lg ∨ k = .core → s.phaseAt core ctx k = s) ∧
    (k ≠ .lg → k ≠ .core →
      let t := s.phaseAt core ctx k
      (∀ l ∈ (t.coreAt core).l1, l.ctx = ctx → l.stale = true) ∧ GoneHome s t core (fun l => l.ctx = ctx) ∧
      (∀ x, (∀ l ∈ (s.coreAt core).l1, ∀ j < 128, l.ctx = ctx → l.dirty.getLsbD j = true → x ≠ l.pa * 128 + j) →
        Memory.read t.mem x = Memory.read s.mem x)))

/-- `rget`, `rget.w`, `rput`, `rdone`: on a ring of the resident's own unit each moves the ring on by its rule and returns the
offset of its slot, and where it must wait it leaves everything as it is (R94, R365, R366). Ring misuse raises code 8 with the
ring and the reason: a ring of another unit, the wrong writer, nothing claimed, nothing taken (R366). -/
def Obligations.RingOperationsComplete : Prop :=
  (∀ (p : Pred) (d k : Nat) (s : State) (q : Issue), s.Issues q → OncePlace [16] p q → d + 1 ≤ q.res.allotS →
    let g := s.ringOf q.res.core k
    let slots := ringSlots g
    (q.taken p = false → exec (.rget p d k) s = .next s ∧ exec (.rgetW p d k) s = .next s ∧ exec (.rput p k) s = .next s ∧
      exec (.rdone p k) s = .next s) ∧
    (q.taken p = true → OwnRing q.res g →
      (0 < g.filled → exec (.rget p d k) s = .next (changed
        (withRing s q.res.core k { g with filled := g.filled - 1, head := (g.head + 1) % slots, taken := g.taken + 1 })
        fun r => scalarWritten r d (BitVec.ofNat 32 (slotOffset g g.head)))) ∧
      (g.filled = 0 → q.commit = false → exec (.rget p d k) s = .next (heldUp s q [])) ∧
      (g.cfg.getLsbD 7 = true → 0 < g.free → exec (.rgetW p d k) s = .next (changed
        (withRing s q.res.core k { g with tail := (g.tail + 1) % slots, free := g.free - 1, claims := g.claims ++ [(false, true)] })
        fun r => scalarWritten r d (BitVec.ofNat 32 (slotOffset g g.tail)))) ∧
      (g.cfg.getLsbD 7 = true → g.free = 0 → q.commit = false → exec (.rgetW p d k) s = .next (heldUp s q [])) ∧
      (∀ (pre post : List (Bool × Bool)), g.cfg.getLsbD 7 = true → g.claims = pre ++ (false, true) :: post → (false, true) ∉ pre →
        let cs := pre ++ (true, true) :: post
        exec (.rput p k) s = .next (withRing s q.res.core k { g with
          claims := cs.dropWhile fun c => c.1
          filled := g.filled + (cs.takeWhile fun c => c.1).length })) ∧
      (0 < g.taken → exec (.rdone p k) s = .next (withRing s q.res.core k { g with free := g.free + 1, taken := g.taken - 1 })))) ∧
  (∀ (p : Pred) (d k : Nat) (s : State) (q : Issue), s.Issues q → q.commit = false → OncePlace [16] p q → d + 1 ≤ q.res.allotS →
    q.taken p = true →
    let g := s.ringOf q.res.core k
    let traps := fun reason : Nat => Host.Outcome.next (s.trapNow { Cause.zero with code := 8, i0 := BitVec.ofNat 32 k, i1 := BitVec.ofNat 32 reason })
    (¬ OwnRing q.res g → exec (.rget p d k) s = traps 1 ∧ exec (.rgetW p d k) s = traps 1 ∧ exec (.rput p k) s = traps 1 ∧
      exec (.rdone p k) s = traps 1) ∧
    (OwnRing q.res g →
      (g.cfg.getLsbD 7 = false → exec (.rgetW p d k) s = traps 2 ∧ exec (.rput p k) s = traps 2) ∧
      (g.cfg.getLsbD 7 = true → (false, true) ∉ g.claims → exec (.rput p k) s = traps 4) ∧
      (g.taken = 0 → exec (.rdone p k) s = traps 5)))

/-- `arm` binds a comparator, at the end of a bundle; `wait` gives the oldest token and frees its comparator, 0x100 where the
resident has none armed, and else waits (R95 to R97, R302, R394). -/
def Obligations.ComparatorsComplete : Prop :=
  ∀ (p : Pred) (s : State) (q : Issue), s.Issues q → OncePlace [16] p q →
    (∀ lo hi tok : Src, GoodSource q lo → GoodSource q hi → GoodSource q tok →
      let l := (onceValue s q lo).toNat
      let h := (onceValue s q hi).toNat
      let i := Instr.arm p lo hi tok
      let t := s.withRes q { q.res with comps := q.res.comps ++ [⟨l, h, (onceValue s q tok).extractLsb' 0 8, none⟩] }
      (q.taken p = false → exec i s = .next s) ∧
      (q.taken p = true → l < h → h ≤ q.res.launch.spad * 256 →
        s.compsBound q.res < (match q.res.launch.shape with | 0 => 8 | 1 => 4 | _ => 2) →
        (q.res.simt = true → exec i s = .next t) ∧
        (q.res.simt = false → exec i s = .next (afterBundle s q i) ∧ s.applyAfter i = t))) ∧
    (∀ d : Nat, d + 1 ≤ q.res.allotS →
      (q.taken p = false → exec (.wait p d) s = .next s) ∧
      (q.taken p = true → q.res.comps = [] → exec (.wait p d) s = .next (changed s fun r => scalarWritten r d 0x100)) ∧
      (q.taken p = true → q.commit = false → q.res.comps ≠ [] → (∀ c ∈ q.res.comps, c.fired = none) → exec (.wait p d) s = .next (heldUp s q [])) ∧
      (∀ (pre post : List Comparator) (c : Comparator) (n : Nat), q.taken p = true → q.res.comps = pre ++ c :: post → c.fired = some n →
        (∀ x ∈ pre, x ≠ c ∧ ∀ m, x.fired = some m → n < m) → (∀ x ∈ post, ∀ m, x.fired = some m → n ≤ m) →
        exec (.wait p d) s = .next (changed s fun r => scalarWritten { r with comps := pre ++ post } d (c.token.zeroExtend 32))))

/-- `tset`, `wset`, `wclr`, `csrw`, and the writes of %carve, %rgcfgk and %wdctl: now in a wave, at the end of a bundle, and
nothing else changes (R92, R93, R98, R138, R210, R216, R320, R399). -/
def Obligations.SystemWritesComplete : Prop :=
  ∀ (i : Instr) (o : SystemWrite) (s : State) (q : Issue), systemWriteOf i = some o → i.wf = true → s.Issues q → OncePlace [16] o.p q →
    (∀ a ∈ o.reads, GoodSource q a) → o.ok s q →
    (q.taken o.p = false → exec i s = .next s) ∧
    (q.taken o.p = true → q.res.simt = true → exec i s = .next (o.effect s q)) ∧
    (q.taken o.p = true → q.res.simt = false → exec i s = .next (afterBundle s q i) ∧ s.applyAfter i = o.effect s q)

/-- `tlbi` at reeve level: after a phase of device scope through the issuing core, the covered TLB entries of every hamlet and the
covered lines of every L1 are gone (R86, R384). -/
def Obligations.TranslationsAreInvalidated : Prop :=
  ∀ (p : Pred) (k : TlbiKind) (s : State) (q : Issue), s.Issues q → OncePlace [16] p q → q.res.reeve = true →
    (∀ a ∈ tlbiSrcs k, GoodSource q a) →
    let i := Instr.tlbi p k
    let w := s.who q.res
    let t := (s.phaseAt q.res.core w.ctx .dev).tlbFlush w (tlbiAddr q k)
    let covers := fun a size => ∀ x, tlbiAddr q k = some x → a / size = x / size
    (q.taken p = false → exec i s = .next s) ∧
    (q.taken p = true → (q.res.simt = true → exec i s = .next t) ∧ (q.res.simt = false → exec i s = .next (afterBundle s q i) ∧ s.applyAfter i = t)) ∧
    (∀ h ∈ t.hamlets, ∀ e ∈ h.tlb, ¬(e.tenant = w.tenant ∧ e.asid = w.asid ∧ covers e.page e.size)) ∧
    (∀ c < 192, ∀ l ∈ (t.coreAt c).l1, ¬(l.ctx = w.ctx ∧ covers (l.tag * 128) l.size))

/-- `csrr`, and its forms for %clk and %ectrlo: the register's value goes to the destination with latency 1; a read of %clk or
%ectrlo latches the high word (R195, R293, R319). A counter that is a free value takes a new one for the next read (log entry 7).
What %lane to %tenant, the level registers, %clk, the frame and the trap registers read as (R40, R200, R293). -/
def Obligations.SpecialReadsComplete : Prop :=
  (∀ (p : Pred) (d : Dst) (n : Nat) (i : Instr) (s : State) (q : Issue),
    (i = .csrr p d n ∨ (i = .clkRead p d ∧ n = 0x10) ∨ (i = .ectrloRead p d ∧ n = 0x19)) → i.wf = true → s.Issues q →
    (q.res.simt = true ∨ (q.slot = 16 ∧ dstScalar d = true)) → predOk q.res p = true → q.res.dstOk d = true →
    (q.res.reeve = true ∨ n ∉ [0x100, 0x101, 0x10B, 0x10C, 0x10E]) →
    let cs := q.lanes p (dstScalar d)
    ∃ t, s.Computes q t 1 d (fun c => keeps (s.csrValue q.res c n)) cs (if cs = [] then [] else [.special n]) ∧
      exec i s = .next { t with fresh := s.fresh + 1 }) ∧
  (∀ (s : State) (r : Resident) (c : Nat),
    let v := fun n => s.csrValue r c n
    v 0x00 = BitVec.ofNat 32 (r.firstLane + c) ∧ v 0x01 = BitVec.ofNat 32 r.lgrp ∧ v 0x02 = BitVec.ofNat 32 r.core ∧
    v 0x03 = BitVec.ofNat 32 (r.core / 8) ∧ v 0x04 = BitVec.ofNat 32 (r.core / 96) ∧
    v 0x05 = BitVec.ofNat 32 (r.tid0 + if r.launch.simt then c else 0) ∧ v 0x06 = BitVec.ofNat 32 r.slot ∧
    v 0x07 = BitVec.ofNat 32 r.launch.tenant ∧
    (∀ k < 8, ∀ l, r.launch.levels[k]? = some l → v (8 + k) = BitVec.ofNat 32
      ((r.tid0 + if r.launch.simt then c else 0) / ((r.launch.levels.take k).map Level.extent).prod % l.extent)) ∧
    v 0x10 ++ v 0x11 = BitVec.ofNat 32 r.count ++ r.clkh ∧ (v 0x13 ++ v 0x12 : DWord) = BitVec.ofNat 64 r.launch.frame ∧
    v 0x14 = r.fflags.zeroExtend 32 ∧ v 0x16 = r.cstat.zeroExtend 32 ∧
    (∀ k < 16, v (0x20 + k) = (s.ringOf r.core k).cfg) ∧
    (v 0x1E ++ v 0x1D : DWord) = (s.ctxOf r).emuvec.zeroExtend 64 ∧ (v 0x101 ++ v 0x100 : DWord) = (s.ctxOf r).tvec.zeroExtend 64 ∧
    (r.trap.code < 2 ^ 28 → v 0x102 = BitVec.ofNat 32 r.trap.code ||| (if r.trap.inh then 0x10000000 else 0) |||
      (if r.trap.emu then 0x20000000 else 0) ||| (if r.trap.defer then 0x40000000 else 0) ||| (if r.trap.eng then 0x80000000 else 0)) ∧
    (r.trap.tpc < 2 ^ 56 → (v 0x104 ++ v 0x103 : DWord) = BitVec.ofNat 64 r.trap.tpc) ∧
    v 0x105 = r.trap.i0 ∧ v 0x106 = r.trap.i1 ∧ v 0x107 = r.trap.i2 ∧ v 0x108 = r.trap.i3 ∧ v 0x109 = r.trap.prog ∧
    v 0x10B = (s.ctxOf r).fwait.zeroExtend 32 ∧ ((s.ctxOf r).wdlimit < 2 ^ 31 → (v 0x10C).getLsbD 31 = (s.ctxOf r).wden) ∧ (v 0x10E).getLsbD 0 = (s.ctxOf r).tctl)

/-- Privileged registers and instructions raise code 2 at user level, whether or not they are taken (R197, R292, R318 to R320,
R383). That a write of %rgstatk at user level is one of these is R292 and R320; R92's sentence that both ring registers are writable
is not followed there (log entry 33). -/
def Obligations.PrivilegedInstructionsTrapAtUserLevel : Prop :=
  ∀ (p : Pred) (s : State) (q : Issue), s.Issues q → q.commit = false → predOk q.res p = true → q.res.reeve = false →
    (q.res.simt = true ∨ q.slot = 16) →
    let traps := fun n : Nat => Host.Outcome.next (s.trapNow { Cause.zero with code := 2, i0 := BitVec.ofNat 32 n })
    (∀ (d : Dst) (n : Nat), n ∈ [0x100, 0x101, 0x10B, 0x10C, 0x10E] → q.res.dstOk d = true → (q.res.simt = true ∨ dstScalar d = true) →
      exec (.csrr p d n) s = traps n) ∧
    (∀ (n : Nat) (a : Src), GoodSource q a →
      ((Instr.csrw p n a).wf = true → n ∉ userWritable → exec (.csrw p n a) s = traps n) ∧ exec (.wdctlWrite p a) s = traps 0x10C ∧ exec (.carveWrite p a) s = traps 0x10A) ∧
    (∀ k : TlbiKind, (∀ a ∈ tlbiSrcs k, GoodSource q a) → exec (.tlbi p k) s = traps 0xFFFF)

/-- Every copy-engine command: with legal operands and passing checks it joins the queue of its core's engine as read at issue,
its flag counts up, and the context's dirty bytes within its footprint have gone home; not taken, it does nothing (R113, R153,
R311). -/
def Obligations.CopyCommandsJoinTheQueue : Prop :=
  ∀ (i : Instr) (s : State) (q : Issue) (o : CopyOp), copyOf s q i = some o → s.Issues q → OncePlace [18, 19] o.p q →
    flagNamed q o.set < 12 → (∀ n ∈ o.reads ++ o.names, n < q.res.allotS) → LandingOk q i →
    (q.taken o.p = false → exec i s = .next s) ∧
    (q.taken o.p = true → q.res.Clean (o.reads.map Src.s) [q.onceLane] → o.legal → o.passes → s.copyFull q = false →
      q.flagBusy (flagNamed q o.set) = false → (o.names ≠ [] → s.porchFull q 1 = false) →
      let s1 := { s with nextId := s.nextId + 1 }
      let u := s1.flushFor (s.who q.res) (o.cmd.src ++ o.cmd.dst)
      let t := besideQueue u q o.cmd i
      s1.ReadSide q.res.core u ∧ GoneHome s1 u q.res.core (Touches q.res.launch.ctx (o.cmd.src ++ o.cmd.dst)) ∧
      exec i s = .next { changed t (fun r => withFlag r (flagNamed q o.set)) with
        cores := modAt t.cores q.res.core fun c => { c with cq := c.cq ++ [o.cmd] } })

/-- `mma` and `mzero` join the queue of the core's matrix engine; `mma` counts its flag up, with the descriptors and the K range
as they stand at issue (R113, R142, R143, R152, R358). `acrd`, `acwr`, `apatch` join the queue with the participants' values; an
`acrd` of a wave interlocks its destinations (R57, R149 to R151, R298). That a row transfer in which nobody takes part does not enter
the queue is the model's choice (log entry 25). -/
def Obligations.MatrixOperationsJoinTheQueue : Prop :=
  (∀ (p : Pred) (t : Nat) (s : State) (q : Issue), s.Issues q → OncePlace [17] p q → t < q.res.launch.acc →
    (∀ (ta tb : Nat) (k : KRange) (set kend : Bool),
      let i := Instr.mma p ta tb k set t kend
      let a := (s.ctxOf q.res).desc ta
      let b := (s.ctxOf q.res).desc tb
      let r := rangeK q.res k
      let m := { newMat s q i t with ta := a, tb := b, kfirst := r.1, kcount := r.2, total := (r.2 + 15) / 16, flag := some (flagNamed q set) }
      let planes := fun x : Desc => x.planes.map fun p => rangeOf q (if x.spad then .s else .g) p.1 p.2
      flagNamed q set < 12 → (∀ n ∈ rangeKRegs k, n < q.res.allotS) →
      (q.taken p = false → exec i s = .next s) ∧
      (q.taken p = true → q.res.Clean ((rangeKRegs k).map Src.s) [q.onceLane] → mmaOk m = true →
        (∀ x ∈ a.planes, RangePasses s q (if a.spad then .s else .g) false false x.1 x.2) →
        (∀ x ∈ b.planes, RangePasses s q (if b.spad then .s else .g) false false x.1 x.2) → s.mmaBrambles q m = [] →
        s.matFull q = false → q.flagBusy (flagNamed q set) = false →
        let u := s.flushFor (s.who q.res) (planes a ++ planes b)
        s.ReadSide q.res.core u ∧ GoneHome s u q.res.core (Touches q.res.launch.ctx (planes a ++ planes b)) ∧
        exec i s = .next (changed (queuedMat u q m) fun r => withFlag r (flagNamed q set)))) ∧
    (q.taken p = false → exec (.mzero p t) s = .next s) ∧
    (q.taken p = true → s.matFull q = false → exec (.mzero p t) s = .next (queuedMat s q (newMat s q (.mzero p t) t)))) ∧
  (∀ (i : Instr) (o : RowOp) (s : State) (q : Issue), rowOpOf i = some o → s.Issues q → OncePlace [17] o.p q → o.t < q.res.launch.acc →
    o.n + rowWidth q.res ≤ q.res.allotV → (∀ n ∈ o.scalarReads, n < q.res.allotS) →
    (takesPart q o.p = [] → exec i s = .next s) ∧
    (takesPart q o.p ≠ [] → q.res.Clean (o.scalarReads.map Src.s) [q.onceLane] → s.matFull q = false →
      (o.reads = true → ∀ c ∈ takesPart q o.p, ∀ k < rowWidth q.res,
        (o.mask = none ∨ (o.cmd i s q).mask.getLsbD (c * rowWidth q.res + k) = true) → q.res.srcPoison (.v (o.n + k)) c = false) →
      let t := queuedMat s q (o.cmd i s q)
      let dests := (takesPart q o.p).flatMap fun c => (List.range (rowWidth q.res)).map fun k => Reg.v c (o.n + k)
      (q.res.simt = true → o.reads = false → exec i s = .next (changed t fun r => { r with acrdPending := r.acrdPending ++ dests })) ∧
      (q.res.simt = false ∨ o.reads = true → exec i s = .next t)))

/-- `spawn`: with both ranges passing and depth below 4 it copies the template, with depth, tenant and state set, to the child's record at
its home; R37 is applied to the copy, and the child enters a queue by R164: the issuing core's, or with joins outstanding the die's
(R41, R374, R375). From depth 4 it traps with code 18, and where the die's queue is full with code 19 (R165). -/
def Obligations.SpawnsComplete : Prop :=
  (∀ (p : Pred) (d a : Nat) (s : State) (q : Issue), s.Issues q → OncePlace [16] p q → d + 2 ≤ q.res.allotS → a + 2 ≤ q.res.allotS →
    let r := q.res
    let c := s.ctxOf r
    let w := s.who r
    let die := dieOf r.core
    let dst := pairAt r d
    let tpl := pairAt r a
    let home := s.phaseAt r.core c.num .dev
    let traps := fun k : Cause => Host.Outcome.next (s.trapNow k)
    (q.taken p = false → exec (.spawn p d a) s = .next s) ∧
    (q.taken p = true → r.Clean [.s d, .s (d + 1), .s a, .s (a + 1)] [q.onceLane] → SpawnRange s q false tpl → SpawnRange s q true dst →
      (4 ≤ r.launch.depth → q.commit = false → exec (.spawn p d a) s = traps { Cause.zero with code := 18 }) ∧
      (r.launch.depth < 4 → q.commit = false → s.spawnFull r dst tpl = true →
        exec (.spawn p d a) s = traps { Cause.zero with code := 19, i0 := BitVec.ofNat 32 die }) ∧
      (∀ leaf size, r.launch.depth < 4 → Memory.wf s.mem = true → home.xlat w tpl = .ok leaf size → paOf leaf size tpl + 128 ≤ hostBase →
        let child := childWords (templateAt s r (paOf leaf size tpl)) (r.launch.depth + 1) c.tenant
        let mode := recField child 2 0 2
        let join := recField child 6 0 32
        (join ≠ 0 → 4096 ≤ s.dieCount die c.tenant → s.spawnFull r dst tpl = true) ∧
        ((join ≠ 0 → s.dieCount die c.tenant < 4096) → (join = 0 → s.dieCount die c.tenant + 8 ≤ 4096) →
          ∃ u t l, exec (.spawn p d a) s = .next t ∧ t.residents = s.residents ∧ t.units = s.units ∧ s.MemorySide r.core u ∧
            (∀ et ed, s.tlbFind w tpl = some et → s.tlbFind w dst = some ed →
              let pa := paOf ed.leaf ed.size dst
              pa + 128 ≤ hostBase → pa % 128 = 0 → s.lostLine (homeSlice ed.leaf ed.size dst pa) pa = false →
              (∀ x, Memory.read u.mem x = if pa ≤ x ∧ x < pa + 128 then recByte child (x - pa) else Memory.read home.mem x) ∧
              (s.ctxAt r.launch.ctx = some c → u.ctxLeaf c dst true = some (ed.leaf, ed.size) → GoodRecord l mode → s.rota.state < 2 → GoodQueues s →
                ∀ x, Memory.read t.mem x = if join = 0 ∧ x = pa + 56 then 1 else Memory.read u.mem x)) ∧
            RecordRead l child ∧ l.lid = s.nextId ∧ l.va = dst ∧ l.ctx = c.num ∧ l.tenant = c.tenant ∧ l.depth = r.launch.depth + 1 ∧
            (¬ GoodRecord l mode → t.dieQ = s.dieQ ∧ SameQueues s t) ∧
            (GoodRecord l mode → join ≠ 0 → t.dieQ = s.dieQ ++ [newEntry s l die false] ∧ SameQueues s t) ∧
            (GoodRecord l mode → join = 0 → s.rota.state < 2 → GoodQueues s → r.core < s.cores.length → hamOf r.core < s.hamlets.length →
              EntersCore s t r.core (newEntry s l die true)))))) ∧
  (∀ (ws : List Nat) (depth tenant : Nat), ws.length = 16 → (∀ w ∈ ws, w < 2 ^ 64) → depth < 8 → tenant < 16 →
    let c := childWords ws depth tenant
    (∀ k < 16, k ≠ 2 → k ≠ 7 → c.getD k 0 = ws.getD k 0) ∧ c.getD 7 0 = 0 ∧
    recWord c 2 = (recWord ws 2 &&& ~~~(0xF3800 : DWord)) ||| (BitVec.ofNat 64 depth <<< 11) ||| (BitVec.ofNat 64 tenant <<< 16))

/-- `bar` and `barv`: an arrival performs the phase of its level; then a thread-level barrier is passed at once, an arrival that
completes its generation lets every waiter go and ends the generation, and any other waits, or is parked by a snapshot while residents
of its unit are still to be placed (R115, R174 to R176, R303, R304). A wave with a divided path, a count out of range and a count that
differs from the generation's raise code 17 (R175). That a resident counts once in a generation, also where its handler arrives again,
that a `barv` which joins a generation that a `bar` opened traps with reason 2 while a `bar` counts in one of a `barv`, and that a count
which is both out of range and another than the first gives reason 3, are the model's choices (log entries 14 and 17). -/
def Obligations.BarriersComplete : Prop :=
  (∀ (k : Nat) (x : Level) (need : Option Nat) (i : Instr) (s : State) (q : Issue), s.Issues q → (q.res.simt = true ∨ q.slot = 16) →
    q.res.launch.levels[k]? = some x → x.domain ≠ 7 →
    let r := q.res
    let u := s.phaseAt r.core r.launch.ctx (domainScope x.domain)
    let instant := x.domain = 0 ∨ (r.launch.simt = true ∧ x.domain = 1)
    let b := joined u r k need
    let w := { u with barriers := putBy (fun y => y.isOf r k) b u.barriers }.modRes r.rid fun y => { y with wait := .barrier k }
    let most := r.launch.levelResidents k
    let before := s.barrierOf r k
    let traps := fun n : Nat => Host.Outcome.next (s.trapNow { Cause.zero with code := 17, i0 := BitVec.ofNat 32 n })
    let whole := r.simt = true → r.div = []
    (i = .bar k ∧ need = none ∨ ∃ a, i = .barv k a ∧ k ≠ 0 ∧ GoodSource q a ∧ need = some (onceValue s q a).toNat) →
    q.taken .always = true →
    (¬ whole → q.commit = false → exec i s = traps 1) ∧
    (whole → ¬ instant → ∀ n, need = some n → q.commit = false →
      (n = 0 ∨ most < n → exec i s = traps 3) ∧
      (0 < n → n ≤ most → before.arrived ≠ [] → before.need ≠ need → exec i s = traps 2)) ∧
    (whole → (¬ instant → ∀ n, need = some n → 1 ≤ n ∧ n ≤ most ∧ (before.arrived = [] ∨ before.need = need)) →
      s.ReadSide r.core u ∧
      (r.simt = false → exec i s = .next (afterBundle s q i) ∧ s.applyAfter i = s.arrive k need) ∧
      (r.simt = true → exec i s = .next (s.arrive k need)) ∧
      (instant → s.arrive k need = u) ∧
      (¬ instant → ¬ Complete w b → ¬ StillToPlace w b → s.arrive k need = w) ∧
      (¬ instant → ¬ Complete w b → StillToPlace w b → w.saveNeed r.launch.ctx [{ r with wait := .barrier k }] [] ≤ (w.ctxOf r).saveBytes →
        ∃ r', (s.arrive k need).resAt r.rid = some r' ∧ r'.away = .parkedBarrier ∧ r'.wait = .barrier k ∧ r'.regs = r.regs ∧
          r'.hdr = r.hdr ∧ r'.place = r.place ∧ r'.flags = r.flags) ∧
      (¬ instant → Complete w b → (∀ y ∈ (s.arrive k need).allRes, y.rid ∈ b.arrived → y.wait ≠ .barrier k) ∧
        ∀ y ∈ (s.arrive k need).barriers, y.isOf r k = false)))

/-- `renter` and `rleave` push and pop a region name, append the 16-byte record of R213 to the context's trace ring where it traces
regions, and are points at which a halt lands; a full or an empty stack traps with code 20 (R213, R214, R225, R367). That one whose
predicate is false is such a point too is the model's choice (log entry 17). -/
def Obligations.RegionsComplete : Prop :=
  (∀ (p : Pred) (id : BitVec 16) (s : State) (q : Issue), s.Issues q → OncePlace [16] p q →
    let c := s.ctxOf q.res
    let traps := fun reason : Nat => Host.Outcome.next (s.trapNow { Cause.zero with code := 20, i0 := BitVec.ofNat 32 reason })
    let pushed := changed s fun r => { r with regions := id :: r.regions }
    let popped := changed s fun r => { r with regions := r.regions.tail }
    let onRing := fun (u : State) (stack : List (BitVec 16)) (dir : BitVec 1) =>
      match c.traceRing with
      | some ring => if c.traceOn then u.ringAppend (.virt c) ring [BitVec.ofNat 64 s.timebase,
          stack.getD 0 0 ++ stack.getD 1 0 ++ stack.getD 2 0 ++ BitVec.ofNat 8 q.res.core ++ BitVec.ofNat 4 q.res.lgrp ++ (0 : BitVec 3) ++ dir]
        else u
      | none => u
    let after := fun u : State => match u.iss with
      | some x => if (u.ctxOf x.res).halting x.res then
          { withContext u x.res (fun y => y.markHalted x.res) with iss := some { x with res := { x.res with stop := .halted } } } else u
      | none => u
    q.res.core < 256 → q.res.lgrp < 16 →
    (q.taken p = false → exec (.renter p id) s = .next (after s) ∧ exec (.rleave p) s = .next (after s)) ∧
    (q.taken p = true → q.res.regions.length < 8 → exec (.renter p id) s = .next (after (onRing pushed (id :: q.res.regions) 1))) ∧
    (q.taken p = true → q.res.regions ≠ [] → exec (.rleave p) s = .next (after (onRing popped q.res.regions.tail 0))) ∧
    (q.taken p = true → q.commit = false → 8 ≤ q.res.regions.length → exec (.renter p id) s = traps 1) ∧
    (q.taken p = true → q.commit = false → q.res.regions = [] → exec (.rleave p) s = traps 2)) ∧
  (∀ (s : State) (c : Context) (ring : MemRing) (tick w1 : DWord), s.ringRoom (.virt c) ring = true →
    let tail := (s.ringWord (.virt c) ring.base).toNat
    s.ringAppend (.virt c) ring [tick, w1] =
      (s.ctxPoke c (ring.base + 64 + 16 * (tail % ring.recs)) [tick, w1]).ctxPoke c ring.base [BitVec.ofNat 64 (tail + 1)])

/-- `tret`: in a wave the return comes at once, in a bundle once every result of the handler is written; a row transfer that the handler
has issued is performed first (R203, R386, R387). Outside a handler it takes the illegal-encoding path, and an emulation handler may not
retry. Captured results, loads and porch entries come back, shifted to the resumed counts (R203, R206); what `.kill` leaves of the resident
(log entry 25), and that asynchronous causes are held during a handler and come back with its end (log entry 17), are the model's choices. -/
def Obligations.HandlersReturn : Prop :=
  ∀ (k : TretKind) (s : State) (q : Issue), s.Issues q → (if q.res.simt then q.idx + 1 = q.hdr.count else q.slot = 16) →
    (q.res.trap.inh = true → (q.res.trap.emu = false ∨ k ≠ .retry) →
      (q.res.simt = true → ∀ m ∈ (s.coreAt q.res.core).mq, m.rid = q.res.rid → m.inHandler = true → rowOpOf m.instr = none) →
      (q.res.simt = false → exec (.tret k) s = .next (s.withRes q { q.res with closing := .tret k })) ∧
      (q.res.simt = true → exec (.tret k) s = .next (s.tretNow k))) ∧
    (q.res.trap.inh = true → q.res.trap.emu = false → q.res.simt = true → q.commit = false →
      (∃ m ∈ (s.coreAt q.res.core).mq, m.rid = q.res.rid ∧ m.inHandler = true ∧ rowOpOf m.instr ≠ none) →
      exec (.tret k) s = .next (heldUp s q [])) ∧
    (∀ h, q.res.trap.hidden = some h →
      (∀ id, h.point = .engine id → s.tretNow .retry = goesOn (returnedTo s q true h) q.res.core id) ∧
      ((∀ id, h.point ≠ .engine id) → s.tretNow .retry = returnedTo s q true h ∧ s.tretNow .skip = returnedTo s q false h)) ∧
    (∃ t r, s.tretNow .kill = t ∧ (t.iss.map fun x => x.res) = some r ∧ r.ended = true ∧ r.trap.inh = false ∧ r.trap.hidden = none ∧
      r.wait = .none ∧ r.async = [] ∧ r.rid = q.res.rid ∧ ∀ u ∈ t.units, ∀ x ∈ u.held, x.2 ≠ q.res.rid) ∧
    (q.res.trap.inh = false → q.commit = false → exec (.tret k) s = exec (.illegalEncodingPath q.word q.slot) s) ∧
    (q.res.trap.inh = true → q.res.trap.emu = true → q.commit = false → exec (.tret .retry) s =
      .next (s.trapNow { Cause.zero with code := 2, i0 := 0xFFFF }))

/-- A long-latency load of a wave lands: its registers are written and its flag counts down (R58); the data of a load of a bundle
comes into its porch entry, or is read there once its translation answers (R65, R66, R89, R206). A load that meets a page it may not
read, a packed one or a refused one holds its cause until its count (R66). It waits for the loads of earlier bundles that are not
performed; one that is issued again after a refusal is followed by the phases once more (R106, R107). That a load which comes late is performed
as it comes, and what that load waits for, is the model's choice (log entry 6). -/
def Obligations.LoadsLand : Prop :=
  ∀ (rid k : Nat) (s : State) (r : Resident), s.resAt rid = some r → Stands s r →
    (∀ l, r.loads.find? (fun x => x.id == k) = some l → exec (.simtLoadLanding rid k) s = .next (resChanged s rid fun r => { r with
      flags := modAt r.flags l.flag (· - 1)
      regs := r.regs.putAll l.writes
      loads := r.loads.filter fun x => x.id != k })) ∧
    ((∀ l ∈ r.loads, l.id ≠ k) → exec (.simtLoadLanding rid k) s = .next s) ∧
    (∀ e, r.porch.find? (fun x => x.id == k) = some e → e.fault = .none →
      (∀ c ∈ (s.coreAt r.core).cq, c.id ≠ k) → (∀ c ∈ r.heldCopies, c.id ≠ k) →
      let w := s.who r
      let home := atHome e.scope
      let entry := fun (u : State) (x : Porch) => resChanged u rid fun r => { r with porch := r.porch.map fun y => if y.id = k then x else y }
      let answer := if home then s.checkHome w 0 e.va else s.checkLane w 0 e.va e.width
      let refused := fun code : Nat => FaultWait.refused { Cause.zero with
        code := code, i0 := BitVec.ofNat 32 (e.va / 2 ^ 32), i1 := BitVec.ofNat 32 e.va, i2 := BitVec.ofNat 32 (2 ^ (e.seq % 32)) }
      (WaitsForEarlier s r e → exec (.lateDataArrival rid k) s = .next s) ∧
      (¬ WaitsForEarlier s r e → e.data ≠ none → exec (.lateDataArrival rid k) s = .next (entry s { e with arrived := true })) ∧
      (¬ WaitsForEarlier s r e → e.data = none → ∀ leaf, leafPk leaf = false → answer = .ok leaf → (e.width = 4 ∧ e.dst.length = 1 ∨ e.width = 8 ∧ e.dst.length = 2) →
        let x := s.readScoped w e.scope e.va e.width
        let u := if e.again = true then staleIn (x.2.acquire w e.scope) w.core w.ctx else x.2.acquire w e.scope
        s.ReadSide r.core u ∧
        exec (.lateDataArrival rid k) s = .next (entry u { e with data := some (arrivedCells e.dst x.1.1 x.1.2), arrived := true })) ∧
      (¬ WaitsForEarlier s r e → e.data = none → (∃ leaf, answer = .ok leaf ∧ leafPk leaf = true) →
        ∃ u, s.ReadSide r.core u ∧ exec (.lateDataArrival rid k) s = .next (entry u { e with fault := refused 6 })) ∧
      (¬ WaitsForEarlier s r e → e.data = none → answer = .bad → (∀ leaf size, s.xlat w e.va = .ok leaf size → leafPk leaf = false) →
        ∃ u, s.ReadSide r.core u ∧ exec (.lateDataArrival rid k) s = .next (entry u { e with fault := refused 5 })))

/-- A wait for a place in the merge table ends when there is one, and nobody else's wait changes (R87, R194); the oldest fault
record of a hamlet is appended to a fault ring with room, with vector 2, and waits for room in a full one (R87, R88, R225); a fault
wait, also one of a load at its due count, beyond %fwait becomes a snapshot, and one not beyond it goes on (R208), as one does that is
frozen at T + H (R186). That a core held in part counts as one of the tenant's cores, and that the whole table is a tenant's where no row is
in force, are the model's choices (log entries 41 and 19). -/
def Obligations.FaultWaitsMoveOn : Prop :=
  (∀ (ham : Nat) (s : State), ∃ t, exec (.mergeEntryFreedWait ham) s = .next t ∧
    (t.residents.map fun r => (r.rid, r.wait)) = (s.residents.map fun r => (r.rid, waitLeft (s.fullOver ham r) r.wait)) ∧
    (∀ r f, s.fullOver ham r f = some .none ↔ PlaceFree s ham r f) ∧
    t.mem = s.mem ∧ t.regErrs = s.regErrs ∧ t.units = s.units ∧ t.contexts = s.contexts ∧ t.host = s.host ∧
    (t.residents.map fun r => (r.regs, r.hdr, r.place, r.flags, r.loops, r.div, r.count, r.stop)) =
      (s.residents.map fun r => (r.regs, r.hdr, r.place, r.flags, r.loops, r.div, r.count, r.stop))) ∧
  (∀ (ham : Nat) (s : State) (ring : MemRing) (rec : List Byte) (rest : List (List Byte)),
    s.host.fltRing = some ring → (s.hamAt ham).records = rec :: rest → ham < s.hamlets.length → rec.length = 32 →
    Memory.wf s.mem = true → s.ringRoom .phys ring = true → 0 < ring.recs → (ring.base + 64 + 32 * ring.recs ≤ hostBase) →
    (∀ a, a < hostBase → s.lostLine (hashSlice a) a = false) →
    let tail := (s.ringWord .phys ring.base).toNat
    let slot := ring.base + 64 + 32 * (tail % ring.recs)
    ∃ t, exec (.faultRecordDeliver ham) s = .next t ∧ (t.hamAt ham).records = rest ∧ t.host.msix = s.host.msix ++ [2] ∧
      (∀ a, Memory.read t.mem a = if slot ≤ a ∧ a < slot + 32 then rec.getD (a - slot) 0
        else if ring.base ≤ a ∧ a < ring.base + 8 then (BitVec.ofNat 64 (tail + 1)).extractLsb' (8 * (a - ring.base)) 8
        else Memory.read s.mem a) ∧ t.residents = s.residents ∧ t.units = s.units ∧ t.cores = s.cores) ∧
  (∀ (ham : Nat) (s : State), s.host.fltRing = none ∨ (∃ ring, s.host.fltRing = some ring ∧ s.ringRoom .phys ring = false) ∨
    (s.hamAt ham).records = [] → exec (.faultRecordDeliver ham) s = .next s) ∧
  (∀ (rid : Nat) (s : State) (r : Resident) (fs : List FaultWait), s.resAt rid = some r → (r.wait = .fault fs ∨ r.wait = .landing fs ∨ ∃ f, r.wait = .fetch f) → Stands s r →
    let limit := 700 * (s.ctxOf r).fwait.toNat
    let late := limit ≠ 0 ∧ limit < s.timebase - r.waitSince ∧ ∀ x, r.takeOff = some x → s.timebase < x.deadline
    (¬ late → exec (.faultWaitSnapshot rid) s = .next s) ∧
    (late → s.saveNeed r.launch.ctx [r] [] ≤ (s.ctxOf r).saveBytes →
      ∃ t r', exec (.faultWaitSnapshot rid) s = .next t ∧ t.resAt rid = some r' ∧ r'.away = .parkedFault ∧ r'.regs = r.regs ∧
        r'.wait = r.wait ∧ r'.hdr = r.hdr ∧ r'.place = r.place ∧ r'.flags = r.flags ∧
        ∀ m ∈ (t.coreAt r.core).mq, m.rid = rid → m.flag = none) ∧
    (late → (s.ctxOf r).saveBytes < s.saveNeed r.launch.ctx [r] [] →
      exec (.faultWaitSnapshot rid) s = .next ((resChanged s rid fun x => { x with stop := if x.stop = .none then .saveShort else x.stop }).hostEvent 17 r.launch.tenant
        r.launch.ctx (BitVec.ofNat 64 r.core) (BitVec.ofNat 64 (s.saveNeed r.launch.ctx [r] [])))))

/-- A copy-engine command starts when those before it have started and none of them is in its way, and then moves unit by unit: a
unit of a copy or fill writes the bytes it has read, or the pattern, one of an overlapping copy those it has read before the first
write; one of `cacc` and `ccas` changes an element or a word, one of `ccrc` takes a byte, one of `cpyt` writes a tile's payload and then
its header, or with `.commit` both at once; commands that cannot go on stay as they are (R94, R110 to R112, R155 to R162, R255, R314).
Which ranges count as overlapping is log entry 36; that the units of a `cpyt` proceed one by one also where its planes overlap is the
model's choice (log entry 25). -/
def Obligations.CopyCommandsMoveTheirUnits : Prop :=
  ∀ (core id : Nat) (s : State) (c : CopyCmd), c.id = id → AtWork s core c →
    let before := (s.coreAt core).cq.takeWhile fun x => x.id != id
    let w := s.cmdWho core c.rid c.reeve
    let moves := fun t : State => exec (.copyCommandStart core id 1) s = .next t
    (c.state = .queued → c.ring = none → c.ringOf = none →
      ((∃ x ∈ before, x.state = .queued ∨ MustFollow s core c x c.src c.dst) → exec (.copyCommandStart core id 0) s = .next s) ∧
      ((∀ x ∈ before, x.state ≠ .queued ∧ ¬ MustFollow s core c x c.src c.dst) →
        exec (.copyCommandStart core id 0) s = .next (cmdChanged s core { c with
          state := .running
          total := c.unitCount
          since := s.timebase
          linkLost := (groupNamed s c).any (linkLacks s) }))) ∧
    (∀ k, c.state = .queued → c.ring = none → c.ringOf = some k →
      let g := s.ringOf core k
      let slot : Extent := { sp := .s, own := c.uid, lo := slotOffset g g.tail, len := 64 * (g.cfg.extractLsb' 8 11).toNat }
      (∀ x ∈ before, x.state ≠ .queued ∧ ¬ MustFollow s core c x c.src [slot]) → g.cfg.extractLsb' 8 11 ≠ 0 → g.cfg.getLsbD 7 = false →
      (g.free = 0 → exec (.copyCommandStart core id 0) s = .next s) ∧
      (0 < g.free → exec (.copyCommandStart core id 0) s = .next (cmdChanged
        (withRing s core k { g with tail := (g.tail + 1) % ringSlots g, free := g.free - 1, claims := g.claims ++ [(false, false)] }) core
        { c with
          x := slotOffset g g.tail + c.x
          ring := some (k, g.tail)
          dst := [slot]
          state := .running
          total := { c with x := slotOffset g g.tail + c.x }.unitCount }))) ∧
    (c.state = .running → c.prog < c.total → c.half = false →
      (∀ xs ys d n a, copySpaces c.instr = some (xs, ys) → c.overlapping = false → c.pieces[c.prog]? = some (d, n, a) →
        let src := unitSource c.instr a n
        s.engCheck w ys c.uid false c.unpacked src = .ok → s.engCheck w xs c.uid true false [(d, n)] = .ok →
        let x := s.engRead copyRequester w ys c.uid c.lines src
        let y := x.2.2.engWrite w xs c.uid x.2.1 [(d, unitBytes c d n a x.1)]
        moves (cmdChanged y.2 core { c with prog := c.prog + 1, buffer := [], lines := y.1 })) ∧
      (∀ p x y b set xs ys twoD d n a, c.instr = .cpy p x y b set xs ys twoD → c.overlapping = true → c.pieces[c.prog]? = some (d, n, a) →
        (c.buffer = [] → s.engCheck w ys c.uid false true c.srcRows = .ok → s.engCheck w xs c.uid true false c.dstRows = .ok →
          let x := s.engRead copyRequester w ys c.uid c.lines c.srcRows
          let y := x.2.2.engWrite w xs c.uid x.2.1 [(d, unitBytes c d n a x.1)]
          moves (cmdChanged y.2 core { c with prog := c.prog + 1, buffer := x.1, lines := y.1 })) ∧
        (c.buffer ≠ [] →
          let y := s.engWrite w xs c.uid c.lines [(d, unitBytes c d n a c.buffer)]
          moves (cmdChanged y.2 core { c with prog := c.prog + 1, lines := y.1 }))) ∧
      (∀ p x y b set xs ys imm op ty, c.instr = .cacc p x y b set xs ys imm op ty → c.overlapping = false →
        let n := accElem ty
        let d := c.x + c.prog * n
        let a := c.y + c.prog * n
        let src := if imm then [] else [(a, n)]
        s.engCheck w ys c.uid false true src = .ok → s.engCheck w xs c.uid true false [(d, n)] = .ok →
        (if xs = .s then (s.spadRead c.uid core d n).2 else s.vaPoisoned w d n) = false →
        let u := s.engRead copyRequester w ys c.uid c.lines src
        let v := u.2.2.engRead copyRequester w xs c.uid u.2.1 [(d, n)]
        let t := v.2.2.engWrite w xs c.uid v.2.1
          [(d, codeBytes n (accumulated op ty (codeAt v.1 d n) (if imm then bodyOperand c ty else codeAt u.1 a n)))]
        moves (cmdChanged t.2 core { c with prog := c.prog + 1, buffer := [], lines := t.1 })) ∧
      (∀ p x y b set xs w64 land, c.instr = .ccas p x y b set xs w64 land →
        let n := if w64 then 8 else 4
        let compare := if w64 then (c.b0 ++ c.b1 : DWord).toNat else c.b1.toNat
        let swap := if w64 then (c.b2 ++ c.b3 : DWord).toNat else c.b3.toNat
        s.engCheck w xs c.uid false true [(c.x, n)] = .ok → s.engCheck w xs c.uid true false [(c.x, n)] = .ok →
        let v := s.engRead copyRequester w xs c.uid c.lines [(c.x, n)]
        let t := v.2.2.engWrite w xs c.uid v.2.1 (if codeAt v.1 c.x n = compare then [(c.x, codeBytes n swap)] else [])
        moves (cmdChanged (porchFilled t.2 c.rid id (arrivedCells (if w64 then [.s y, .s (y + 1)] else [.s y]) (v.1.map Prod.snd) false)) core
          { c with prog := c.prog + 1, buffer := v.1, lines := t.1 })) ∧
      (∀ p x y b set xs ys, c.instr = .ccrc p x y b set xs ys → s.engCheck w ys c.uid false false [(c.y + c.prog, 1)] = .ok →
        let u := s.engRead copyRequester w ys c.uid c.lines [(c.y + c.prog, 1)]
        moves (cmdChanged u.2.2 core { c with prog := c.prog + 1, buffer := c.buffer ++ u.1, lines := u.2.1 }))) ∧
    (∀ p td ts set tr commit, c.instr = .cpyt p td ts set tr commit → c.td.fmt.isQuilt = true → c.state = .running → c.prog < c.total →
      let xs : Space := if c.td.spad then .s else .g
      let ys : Space := if c.ts.spad then .s else .g
      let src := tileSources c.td c.ts tr c.prog
      let all := tileWrites c.td c.ts tr c.prog
      (c.half = false → s.engCheck w ys c.uid false false src = .ok → s.engCheck w xs c.uid true false (c.td.tileRanges c.prog) = .ok →
        let x := s.engRead copyRequester w ys c.uid c.lines src
        (commit = true →
          let y := x.2.2.engWrite w xs c.uid x.2.1 (all (cellByte x.1))
          moves (cmdChanged y.2 core { c with prog := c.prog + 1, buffer := [], lines := y.1 })) ∧
        (commit = false →
          let y := x.2.2.engWrite w xs c.uid x.2.1 ((all (cellByte x.1)).drop 1)
          moves (cmdChanged y.2 core { c with half := true, buffer := x.1, lines := y.1 }))) ∧
      (c.half = true → s.engCheck w xs c.uid true false [(c.td.headerAddr c.prog, 8)] = .ok →
        let y := s.engWrite w xs c.uid c.lines ((all (cellByte c.buffer)).take 1)
        moves (cmdChanged y.2 core { c with prog := c.prog + 1, half := false, buffer := [], lines := y.1 }))) ∧
    (∀ units, (c.state = .stopped ∨ (c.state = .running ∧ c.prog = c.total) ∨ ∃ f, c.state = .faultWait f) →
      exec (.copyCommandStart core id units) s = .next s)

/-- A copy-engine command whose units are all moved completes, after the lines of its destination have left the issuing core's L1; one
that meets a fault stops and delivers it with its progress; a join decrement counts down, and at 0 makes the record ready (R42, R94,
R113, R162, R314, R345, R346). A collective ends with status 4 without its group, 2 with a link lost, 1 when its time is up, 3 where
the participants disagree, and with status 0, and only then, writes the reduction of everybody's elements, its own among them, at X
(R116, R160, R161, R233). What the others contribute and what failure they report are inputs (log entry 18). -/
def Obligations.CopyCommandsEnd : Prop :=
  ∀ (core id : Nat) (s : State) (c : CopyCmd), c.id = id → AtWork s core c →
    let w := s.cmdWho core c.rid c.reeve
    (movesUnits c.instr = true → c.state = .running → c.prog < c.total → exec (.copyCommandComplete core id) s = .next s) ∧
    (c.state = .running → c.prog = c.total → movesUnits c.instr = true → (∀ p x y b set xs ys, c.instr ≠ .ccrc p x y b set xs ys) →
      exec (.copyCommandComplete core id) s = .next (ended
        (match c.instr with
        | .ccas _ _ y _ _ _ w64 _ => if c.loadId = none then resChanged s c.rid fun r => { r with
            regs := r.regs.putAll (arrivedCells (if w64 then [.s y, .s (y + 1)] else [.s y]) (c.buffer.map Prod.snd) false) } else s
        | _ => s) core c)) ∧
    (∀ u : State, let v := ended u core c
      ∀ l ∈ (v.coreAt core).l1, ¬ ∃ e ∈ c.dst, e.sp = .g ∧ e.own = l.ctx ∧ 0 < e.len ∧ e.lo < l.tag * 128 + 128 ∧ l.tag * 128 < e.lo + e.len) ∧
    (∀ (u : State) (r : Resident), u.resAt c.rid = some r → ∀ l ∈ ((ended (atIssuer u core c) core c).coreAt r.core).l1,
      ¬ ∃ e ∈ c.dst, e.sp = .g ∧ e.own = l.ctx ∧ 0 < e.len ∧ e.lo < l.tag * 128 + 128 ∧ l.tag * 128 < e.lo + e.len) ∧
    (∀ u : State, u.ReadSide core (u.dropFor (u.cmdWho core c.rid c.reeve) c.dst)) ∧
    (∀ p x y b set xs ys, c.instr = .ccrc p x y b set xs ys → c.state = .running → c.prog = c.total →
      s.engCheck w xs c.uid true false [(c.x, 4)] = .ok →
      exec (.copyCommandComplete core id) s =
        .next (ended (s.engWrite w xs c.uid c.lines [(c.x, bytesOf (BitVec.ofNat 32 (crc32c c.b1.toNat (c.buffer.map Prod.snd))))]).2 core c)) ∧
    (∀ k, c.state = .faultWait (.refused k) → (∀ p x y b set op ty, c.instr ≠ .cred p x y b set op ty) → exec (.copyCommandStop core id) s =
      .next (raised (cmdChanged s core { c with state := .stopped }) c.rid (engineCause k id c.prog c.prog))) ∧
    ((∀ k, c.state ≠ .faultWait (.refused k)) → exec (.copyCommandStop core id) s = .next s) ∧
    (∀ p x y b set op ty status parts, c.instr = .cred p x y b set op ty → c.state ≠ .queued →
      let ends := fun (u : State) (st : Nat) => exec (.credComplete core id status parts) s =
        .next (ended (resChanged (atIssuer u core c) c.rid fun r => { r with cstat := BitVec.ofNat 4 st }) core c)
      let us := if c.b3 = 0 then 65535 else c.b3.toNat
      let late := c.since + 700 * us ≤ s.timebase
      exec (.copyCommandStop core id) s = .next s ∧
      (groupNamed s c = none → ends s 4) ∧
      ∀ g, groupNamed s c = some g →
        let lost := c.linkLost = true ∨ linkLacks s g = true
        let ranks := g.entries.map fun e => (e.extractLsb' 0 8).toNat
        let there := parts.map CredPart.rank
        (lost → ends s 2) ∧ (¬ lost → late → ends s 1) ∧ (¬ lost → ¬ late → 0 < status → ends s status) ∧
        (¬ lost → ¬ late → status = 0 → (∃ a b, a ≠ b ∧ a ∈ ranks ∧ b ∈ ranks ∧ a ∉ there ∧ b ∉ there) →
          exec (.credComplete core id status parts) s = .next s) ∧
        (∀ own, ¬ lost → ¬ late → status = 0 → ranks.Nodup → there.Nodup → own ∉ there → (∀ k, k ∈ ranks ↔ k = own ∨ k ∈ there) →
          let agrees := fun p : CredPart => p.count = c.b0.toNat ∧ p.op = op ∧ p.ty = ty
          let n := c.b0.toNat * (collective ty).1
          ((∃ p ∈ parts, ¬ agrees p) → ends s 3) ∧
          ((∀ p ∈ parts, agrees p) → s.engCheck w .g c.uid false false [(c.y, n)] = .ok → s.engCheck w .g c.uid true false [(c.x, n)] = .ok →
            let read := s.engRead copyRequester w .g c.uid c.lines [(c.y, n)]
            let mine : CredPart := { rank := own, count := c.b0.toNat, op := op, ty := ty, data := read.1.map Prod.snd }
            ∀ all : List CredPart, all.Perm (mine :: parts) → all.Pairwise (fun a b => a.rank < b.rank) →
              ends (read.2.2.engWrite w .g c.uid read.2.1 [(c.x, reductionOf op ty c.b0.toNat all)]).2 0))) ∧
    (∀ p x set, c.instr = .jdec p x set → c.state = .running →
      let here := c.x + 48
      s.engCheck w .g c.uid false true [(here, 16)] = .ok → s.engCheck w .g c.uid true false [(here, 16)] = .ok →
      let x := s.engRead copyRequester w .g c.uid c.lines [(here, 16)]
      let join := (wordAt ((List.range 16).map fun k => cellByte x.1 (here + k)) 0)
      let low := cellByte x.1 (here + 8)
      let st := (low.extractLsb' 0 3).toNat
      (join = 0 ∨ 1 < st → exec (.jdecApply core id) s = .next (ended (x.2.2.recordEvent w.ctx 3 c.x st) core c)) ∧
      (1 < join.toNat → st ≤ 1 → exec (.jdecApply core id) s =
        .next (ended (x.2.2.engWrite w .g c.uid x.2.1 [(here, bytesOf (join - 1))]).2 core c)) ∧
      (join = 1 → st ≤ 1 →
        let y := x.2.2.engWrite w .g c.uid x.2.1 [(here, [0, 0, 0, 0])]
        let state8 := (low - BitVec.ofNat 8 st + 1) :: (List.range 7).map fun k => cellByte x.1 (here + 9 + k)
        let z := (y.2.engWrite w .g c.uid y.1 [(here + 8, state8)]).2
        exec (.jdecApply core id) s = .next (ended (match z.allRecs.find? fun e =>
            e.launch.ctx == w.ctx && e.launch.va == c.x && !e.ready && e.rid.isNone with
          | some e => z.makeReady e.qid true
          | none => z) core c)))

/-- The matrix engine: a group of an `mma` changes every element of its tile by its row and column; an `mma` that is done counts
its flag down, and at `.kend` on a watched tile holds it and traps; one that meets a fault stops; row transfers and `mzero` are
performed in the order of their tile, an `acrd` of a wave at once, one of a wide thread as results due 12 counts after its issue, with
those that a trap has captured if it was issued before, and none that a failed unit has lost receives a row (R25, R114, R134, R135, R144 to R152, R206, R212, R298, R299). -/
def Obligations.MatrixEngineWorks : Prop :=
  ∀ (core id : Nat) (s : State) (m : MatCmd), m.id = id → MatAtWork s core m →
    (∀ k, m.flag = some k → m.state = .queued ∨ m.state = .running → m.prog < m.total → TurnHasCome s core m →
      let w := s.cmdWho core m.rid m.reeve
      let k0 := m.kfirst + 16 * m.prog
      let n := min 16 (m.kcount - 16 * m.prog)
      let sp : Space := if m.tb.spad then .s else .g
      let ra := m.ta.blockReads 0 64 k0 n
      let rb := m.tb.blockReads k0 n 0 64
      s.engCheck w .s m.uid false false ra = .ok → s.engCheck w sp m.uid false false rb = .ok →
      let x := s.engRead matrixRequester w .s m.uid m.lines ra
      let y := x.2.2.engRead matrixRequester w sp m.uid x.2.1 rb
      ∃ f, exec (.mmaGroup core id) s =
          .next (matChanged (tileChanged y.2.2 core m.uid m.tile f) core { m with state := .running, prog := m.prog + 1, lines := y.2.1 }) ∧
        ∀ t e, e < 4096 → ((f t).get e).poison = (t.get e).poison ∧
          ((f t).get e).val = groupValue (m.ta.fmt == .int8) (t.get e).val ((List.range n).map fun j =>
            (m.ta.value (cellByte x.1) (e / 64) (k0 + j), m.tb.value (cellByte y.1) (k0 + j) (e % 64)))) ∧
    (¬ TurnHasCome s core m → exec (.mmaGroup core id) s = .next s ∧ exec (.rowTransferPerform core id) s = .next s) ∧
    (∀ k r, m.flag = some k → m.state = .running → m.prog = m.total → s.resAt m.rid = some r →
      let t := resChanged (matGone s core id) m.rid fun r => { r with flags := modAt r.flags k (· - 1) }
      let hits := (List.range 8).filter fun j => ∃ b, (s.ctxOf r).brambles[j]? = some b ∧ b.valid = true ∧ b.acc = true ∧ b.num = m.tile
      let ends := ∃ p ta tb kr set tile, m.instr = .mma p ta tb kr set tile true
      (¬ ends ∨ m.inHandler = true ∨ hits = [] → exec (.mmaRetire core id) s = .next t) ∧
      (ends → m.inHandler = false → hits ≠ [] → ∃ c : Cause, exec (.mmaRetire core id) s = .next (raised
          { t with units := t.units.map fun u => if u.uid = m.uid ∧ u.core = core then { u with held := u.held ++ [(m.tile, m.rid)] } else u }
          m.rid c) ∧
        c.code = 11 ∧ (∀ j < 32, c.i0.getLsbD j = true ↔ j ∈ hits) ∧ c.i1 = 4 ∧ c.i2 = BitVec.ofNat 32 m.tile)) ∧
    (m.prog < m.total → exec (.mmaRetire core id) s = .next s) ∧
    (∀ k, m.state = .faultWait (.refused k) → exec (.mmaStop core id) s =
      .next (raised (matChanged s core { m with state := .stopped }) m.rid (engineCause k id m.prog m.tile))) ∧
    ((∀ k, m.state ≠ .faultWait (.refused k)) → exec (.mmaStop core id) s = .next s) ∧
    (m.state = .queued → TurnHasCome s core m →
      let u := matGone s core id
      let t := tileAt s core m.uid m.tile
      let plus := fun x y : Nat => (ieee fmtF32 .rne [x, y] ((fmtF32.decode x).add .rne (fmtF32.decode y))).1
      (∀ p k, m.instr = .mzero p k →
        exec (.rowTransferPerform core id) s = .next (tileChanged u core m.uid m.tile fun _ => { fill := .zero, cells := [] })) ∧
      (∀ p n row k r, m.instr = .acrd p n row k → s.resAt m.rid = some r → ¬ Sound s r.core r.lgrp → exec (.rowTransferPerform core id) s = .next u) ∧
      (∀ p n row k r, m.instr = .acrd p n row k → s.resAt m.rid = some r → Sound s r.core r.lgrp → r.simt = true → m.due = 0 →
        ∃ t' r', exec (.rowTransferPerform core id) s = .next t' ∧ t'.resAt m.rid = some r' ∧ t'.units = s.units ∧ t'.mem = s.mem ∧
          r'.regs = r.regs.putAll (m.vals.flatMap fun v => rowCells m n (rowWidth r) t v.1) ∧ r'.flags = r.flags ∧
          ∀ x, x ∈ r'.acrdPending ↔ x ∈ r.acrdPending ∧ ∀ v ∈ m.vals, ∀ j < rowWidth r, x ≠ .v v.1 (n + j)) ∧
      (∀ p n row k r, m.instr = .acrd p n row k → s.resAt m.rid = some r → Sound s r.core r.lgrp → 0 < m.due →
        let results : List Flight := m.vals.map fun v => { due := m.due, seq := 32 * (m.due - 12) + 17, writes := rowCells m n (rowWidth r) t v.1, lane := v.1, ys := [], ff := 0 }
        let captured := m.inHandler = false ∧ r.trap.inh = true
        ((∀ x ∈ s.allRes, x.rid = m.rid → x = r) → ¬ captured →
          exec (.rowTransferPerform core id) s = .next (resChanged u m.rid fun r => { r with flights := r.flights ++ results })) ∧
        ((∀ x ∈ s.allRes, x.rid = m.rid → x = r) → captured →
          exec (.rowTransferPerform core id) s = .next (resChanged u m.rid fun r => { r with
            trap := { r.trap with hidden := r.trap.hidden.map fun h => { h with flights := h.flights ++ results } } }))) ∧
      (∀ p n row k, m.instr = .acwr p n row k → ∀ kw, 0 < kw → (∀ v ∈ m.vals, v.2.length = kw ∧ (v.1 + 1) * kw ≤ 64) → (m.vals.map Prod.fst).Nodup →
        ∃ f, exec (.rowTransferPerform core id) s = .next (tileChanged u core m.uid m.tile f) ∧ ∀ (t : Tile) (e : Nat), e < 4096 → (f t).get e =
          if e / 64 = m.row then (match columnOf m kw (e % 64) with
            | some x => { t.get e with val := x, poison := false }
            | none => t.get e) else t.get e) ∧
      (∀ p n row mk k op, m.instr = .apatch p n row mk k op → ∀ kw, 0 < kw → (∀ v ∈ m.vals, v.2.length = kw ∧ (v.1 + 1) * kw ≤ 64) → (m.vals.map Prod.fst).Nodup →
        ∃ f, exec (.rowTransferPerform core id) s = .next (tileChanged u core m.uid m.tile f) ∧ ∀ (t : Tile) (e : Nat), e < 4096 → (f t).get e =
          if e / 64 = m.row ∧ m.mask.getLsbD (e % 64) = true then (match columnOf m kw (e % 64), op with
            | some x, .rep => { t.get e with val := x, poison := false }
            | some x, .addI32 => { t.get e with val := (t.get e).val + x }
            | some x, .addF32 => { t.get e with val := BitVec.ofNat 32 (plus (t.get e).val.toNat x.toNat) }
            | none, _ => t.get e) else t.get e))

/-- Placement: a resident that is finished retires, with its unit where it was the last, and one that is not stays (R44); column sets that
empty in a change of owner are zeroed (R189); a record ages (R167); an empty block of a core takes the oldest ready records of its hamlet,
and one of a hamlet those of its die within the Reserve (R164); a round that is due takes the first
candidate, by class, age, address and unit, that fits, on the lowest lane group, slot and scratchpad range, and no other record passes a
reservation; of the others a round in which none of the tenant's residents stands in the way counts (R28, R166, R167, R169). That
residents beyond co-resident units are placed one by one, what of a record is read again (R163) and what becomes of one that cannot be
read, where a unit may come back to, that age ties in a refill go by record address, that a refill that the Reserve stops moves nothing, that
64 cycles are 64 ticks of the timebase, and that column sets are zeroed as the last resident leaves, are the model's choices (log entries 5, 7,
14 and 27). -/
def Obligations.PlacementProceeds : Prop :=
  (∀ (rid : Nat) (s : State) (r : Resident), s.residents.find? (fun x => x.rid == rid) = some r → s.iss = none → ClocksRun s →
    Sound s r.core r.lgrp →
    (¬ Finished s r → exec (.residentRetire rid) s = .next s) ∧
    (Finished s r → ∃ t, exec (.residentRetire rid) s = .next t ∧
      (t.residents.map fun x => (x.rid, x.regs, x.hdr, x.flags, x.stop)) =
        ((s.residents.filter fun x => x.rid != rid).map fun x => (x.rid, x.regs, x.hdr, x.flags, x.stop)) ∧
      (Unchanging s r.core → t.units = (s.units.filter fun u => s.residents.any fun x =>
        x.rid != rid && x.uid == u.uid && x.core == u.core).map fun u => { u with held := u.held.filter fun h => h.2 != rid }) ∧
      (r.core < s.cores.length → (t.coreAt r.core).roundDue = true ∧
        ∀ k ∈ (s.coreAt r.core).changed, (∀ x ∈ s.residents, x.rid ≠ rid → x.core = r.core → x.away = .here → k ∉ x.coreQuarters) →
          k ∈ (t.coreAt r.core).clean ∧ k ∉ (t.coreAt r.core).changed) ∧
      (∀ x, s.runningOf r.launch.lid = some x → x.left = true → x.dead = false → x.launch.lid = r.launch.lid →
        x.launch.residents ≤ x.retired.length + 1 → (∀ b ∈ s.barriers, b.lid ≠ r.launch.lid) → Unchanging s r.core →
        ∃ u : State, u.mem = s.mem ∧ t = u.writeState x.launch 3))) ∧
  (∀ (s : State) (e : QRec) (c : Context) (ws : List Nat), e.ready = true → s.ctxAt e.launch.ctx = some c →
    s.recordWords c e.launch.va = some ws →
    let l := (s.refresh e).launch
    let w := fun k => ws.getD k 0
    l.code = w 0 % 2 ^ 56 ∧ l.frame = w 1 % 2 ^ 56 ∧ l.pin = decide (w 2 / 2 ^ 4 % 2 = 1) ∧ l.cls = w 2 / 2 ^ 5 % 4 ∧
    l.cbank = w 8 % 2 ^ 56 ∧ l.cbsize = w 9 % 2 ^ 32 ∧
    (l.va, l.ctx, l.tenant, l.depth, l.shape, l.vblk, l.sblk, l.spad, l.acc) = (e.launch.va, e.launch.ctx, e.launch.tenant, e.launch.depth,
      e.launch.shape, e.launch.vblk, e.launch.sblk, e.launch.spad, e.launch.acc) ∧
    (∀ x, s.runningOf e.launch.lid = some x → l.simt = x.launch.simt ∧ l.levels = x.launch.levels) ∧
    (s.runningOf e.launch.lid = none → l.simt = decide (w 2 % 4 = 0) ∧ l.levels.length = w 2 / 2 ^ 8 % 8 + 1)) ∧
  (∀ (qid : Nat) (s : State), ∃ t, exec (.classAgeing qid) s = .next t ∧ t.residents = s.residents ∧ t.mem = s.mem ∧
    t.allRecs = s.allRecs.map fun e => if e.qid = qid then classed (s.refresh e) s.timebase else e) ∧
  (∀ (n : Nat) (s : State),
    let here := ((s.hamAt (hamOf n)).queue.flatMap Block.recs).filter fun e => e.ready && decide (0 < s.turns n e.launch.tenant)
    (here = [] → exec (.queueUnderflowMove false n) s = .next s) ∧
    (here ≠ [] → (s.coreAt n).queue.length < 4 → n < s.cores.length → hamOf n < s.hamlets.length → (s.allRecs.map QRec.qid).Nodup →
      ∃ t moved e0, exec (.queueUnderflowMove false n) s = .next t ∧ e0 ∈ here ∧ (∀ e ∈ here, e0.age ≤ e.age) ∧
        (∀ e, e ∈ moved → e ∈ here ∧ e.launch.tenant = e0.launch.tenant) ∧
        moved.length = min 8 (here.filter fun e => e.launch.tenant == e0.launch.tenant).length ∧
        (∀ e ∈ here, e.launch.tenant = e0.launch.tenant → e ∉ moved → ∀ x ∈ moved, x.age ≤ e.age) ∧
        (t.coreAt n).queue = (s.coreAt n).queue.filter (fun b => !b.recs.isEmpty) ++ [{ tenant := e0.launch.tenant, recs := moved }] ∧
        (∀ e, e ∈ t.allRecs ↔ e ∈ s.allRecs) ∧ t.residents = s.residents ∧ t.mem = s.mem)) ∧
  (∀ (n : Nat) (s : State),
    let holds := fun u : Nat => ∃ k < 8, 0 < s.turns (8 * n + k) u
    let here := fun e : QRec => e ∈ s.dieQ ∧ e.ready = true ∧ e.die = n / 12 ∧ holds e.launch.tenant
    ((∀ e, ¬ here e) → exec (.queueUnderflowMove true n) s = .next s) ∧
    (∀ (e0 : QRec) (kept : List Nat), here e0 →
      (∀ e, here e → e = e0 ∨ e0.age < e.age ∨ e0.age = e.age ∧ e0.launch.va < e.launch.va) → kept.Nodup →
      (∀ u, u ∈ kept ↔ u < 16 ∧ u ≠ e0.launch.tenant ∧ holds u ∧ ∀ b ∈ (s.hamAt n).queue, b.tenant ≠ u) →
      n < s.hamlets.length → (s.allRecs.map QRec.qid).Nodup →
      let used := (s.hamAt n).queue.length
      let free := used < 32 ∧ ((∃ b ∈ (s.hamAt n).queue, b.tenant = e0.launch.tenant) → used + kept.length < 32)
      (¬ free → exec (.queueUnderflowMove true n) s = .next s) ∧
      (free → ∃ t moved, exec (.queueUnderflowMove true n) s = .next t ∧ e0 ∈ moved ∧
        (∀ e ∈ moved, here e ∧ e.launch.tenant = e0.launch.tenant) ∧ moved.length ≤ 8 ∧
        (∀ e, here e → e.launch.tenant = e0.launch.tenant → e ∉ moved → moved.length = 8 ∧ ∀ x ∈ moved, x.age ≤ e.age) ∧
        (t.hamAt n).queue = (s.hamAt n).queue.filter (fun b => !b.recs.isEmpty) ++ [{ tenant := e0.launch.tenant, recs := moved }] ∧
        (∀ e, e ∈ t.dieQ ↔ e ∈ s.dieQ ∧ e ∉ moved) ∧ t.residents = s.residents ∧ t.mem = s.mem))) ∧
  (∀ (core : Nat) (s : State), ClocksRun s → s.stage = 2 → (s.coreAt core).failed = false → s.iss = none → (∀ r ∈ s.residents, r.rid ≠ 0) →
    let due := (s.coreAt core).roundDue = true ∨ 64 ≤ s.timebase - (s.coreAt core).roundAt ∧ ∃ e, Candidate s core e
    let s0 := { s with cores := modAt s.cores core fun c => { c with roundDue := false, roundAt := s.timebase } }
    let s1 := s0.mapRecs fun e => some (classed (s0.refresh e) s.timebase)
    let cs := s1.candidates core
    let placeable := ∀ e ∈ cs, CanPlace s1 e
    (¬ due → exec (.placementRound core) s = .next s) ∧ (∀ e, e ∈ cs ↔ Candidate s1 core e) ∧ cs.Pairwise (GoesFirst s1) ∧
    (due → ∀ e, cs = [e] → ¬ CanPlace s1 e → ∃ t, exec (.placementRound core) s = .next t ∧ (∀ x ∈ t.allRecs, x.qid ≠ e.qid) ∧
      t.residents = s.residents ∧ t.units = s.units) ∧
    (due → placeable → (∀ pre e post t, cs = pre ++ e :: post → (∀ x ∈ pre, s1.tryPlace core x = none) → s1.tryPlace core e = some t →
      ∃ t', exec (.placementRound core) s = .next t' ∧ t'.residents = t.residents ∧ t'.units = t.units)) ∧
    (due → placeable → (∀ e ∈ cs, s1.tryPlace core e = none) →
      ∃ t', exec (.placementRound core) s = .next t' ∧ t'.residents = s.residents ∧ t'.units = s.units) ∧
    (∀ (e : QRec) (l : Launch), e ∈ cs → e.rid = none → (∀ x ∈ e.launch.levels, x.coRes = true → x.domain = 0) → s1.reread e.launch = some l →
      let first := l.residentAt e.next
      ((∃ x, Reserves s1 core x e) → s1.tryPlace core e = none) ∧
      ((∀ lg slot, ¬ Fits s1 l first.1 core lg slot) → s1.tryPlace core e = none) ∧
      ((∀ x ∈ s1.allRecs, x.reserving = true → x.launch.tenant = e.launch.tenant → x.launch.lid = e.launch.lid) →
        ∀ lg slot, Fits s1 l first.1 core lg slot → (∀ lg' slot', Fits s1 l first.1 core lg' slot' → lg < lg' ∨ lg = lg' ∧ slot ≤ slot') →
        ∃ t r, s1.tryPlace core e = some t ∧
          (UnitStands s1 l first.1 core → t.residents = s1.residents ++ [r]) ∧
          (¬ UnitStands s1 l first.1 core → t.residents = (s1.residents.map fun x => match savedFor s1 l first.1 core with
            | some v => if x.uid = v.uid ∧ x.core = v.core ∧ x.away ≠ .here then { x with core := core } else x
            | none => x) ++ [r]) ∧ r.launch = l ∧ r.core = core ∧ r.lgrp = lg ∧ r.slot = slot ∧
          r.tid0 = first.1 ∧ r.hdr = l.code ∧ r.away = .here ∧ r.age = e.age ∧
          (¬ UnitStands s1 l first.1 core → ∃ u ∈ t.units, u.core = core ∧ u.away = false ∧ RangeFree s1 core u.base u.size ∧
            (∀ b, RangeFree s1 core b u.size → u.base ≤ b) ∧
            match savedFor s1 l first.1 core with
            | some v => u.uid = v.uid ∧ u.size = v.size ∧ u.tiles = v.tiles ∧ u.spad = v.spad
            | none => u.uid = r.uid ∧ u.size = 256 * l.spad ∧ u.tiles.length = l.acc) ∧
          (e.launch.residents ≤ e.next + 1 → (∀ x ∈ t.allRecs, x.qid ≠ e.qid) ∧ ∃ u : State, u.mem = s1.mem ∧ t = u.writeState e.launch 2)) ∧
      (due → cs = [e] → e ∈ (s1.coreAt core).queue.flatMap Block.recs →
        (∀ lg slot, ¬ Fits s1 l first.1 core lg slot) →
        let count := fun n => s1.mapRecs fun x => some (if x.qid = e.qid then { x with rounds := n x.rounds } else x)
        ((∃ r ∈ s1.residents, r.core = core ∧ r.away = .here ∧ r.launch.tenant = e.launch.tenant) →
          exec (.placementRound core) s = .next (count fun _ => 0)) ∧
        ((∀ r ∈ s1.residents, r.core = core → r.away = .here → r.launch.tenant ≠ e.launch.tenant) →
          (e.rounds < 1023 → exec (.placementRound core) s = .next (count fun n => n + 1)) ∧
          (1023 ≤ e.rounds → ∃ t, exec (.placementRound core) s = .next t ∧ ∀ x ∈ t.allRecs, x.qid ≠ e.qid)))))

/-- The Rota: at the end of a row the next begins, with its debits paid and counted, every core is asked for a round, and whoever must
leave begins to be taken off (R166, R181, R185, R186, R188, R195); a debit paid within its row gives the resource back to its tenant;
at a stile, up to T + H, a resident is taken off with its live registers (R182, R183); one that overruns is snapshotted whole, and the
last that leaves its resource brings the debit, due from the next row on (R186, R188); a `cred` of its own ends first (R186); an idle tenant's
slot passes to the beneficiary, and nothing of the tenant is left there (R189, R190). That the hedge in force at an edge is that of the row
that ends, how a resource goes back within a row, that what is left of a slot is counted in whole µs, that the debit comes with the last that
is off, what a change of owner leaves, and that the row shown while none is in force is 0, are the model's choices (log entries 5, 17, 22 and
38). -/
def Obligations.RotaProceeds : Prop :=
  (∀ (s : State) (r : Row), ClocksRun s → s.rota.rows[s.rota.row]? = some r →
    let edge := s.rota.since + 700 * r.dur
    let new := s.rota.rows[(s.rota.row + 1) % s.rota.rows.length]?
    (edge ≤ s.timebase → s.rota.state = 2 → s.rota.overruns = [] → ∃ t, exec .slotEdge s = .next t ∧
      t.rota = { s.rota with
        row := (s.rota.row + 1) % s.rota.rows.length
        since := edge
        debits := debitsAfter r s.rota.debits
        donated := [] } ∧
      Leaves s t (fun x => MustLeave x (some r) new) (some r) (edge + 700 * r.window) ∧
      (∀ d b, s.rota.debits = [d] → Pays r d → r.benefOf d.tenant = some b → Lent s t d.tenant b (min d.us r.dur)) ∧
      (∀ k, k < 192 → k < s.cores.length → (t.coreAt k).roundDue = true)) ∧
    (edge ≤ s.timebase → s.rota.state = 3 → s.rota.overruns = [] → ∃ t, exec .slotEdge s = .next t ∧
      (∀ d b, s.rota.debits = [d] → Pays r d → r.benefOf d.tenant = some b → Lent s t d.tenant b (min d.us r.dur)) ∧
      t.rota = { s.rota with
        row := 0
        rows := []
        since := edge
        debits := []
        donated := [] } ∧
      Leaves s t (fun x => MustLeave x (some r) none) (some r) (edge + 700 * r.window)) ∧
    (s.timebase < edge → 2 ≤ s.rota.state → (∀ d ∈ s.rota.debits, Pays r d → s.timebase < s.rota.since + 700 * d.us) →
      exec .slotEdge s = .next s) ∧
    (s.timebase < edge → 2 ≤ s.rota.state → s.rota.overruns = [] → ∀ d, s.rota.debits = [d] → Pays r d →
      s.rota.since + 700 * d.us ≤ s.timebase →
      ∃ t, exec .slotEdge s = .next t ∧ t.rota = { s.rota with debits := [] } ∧ (∀ b, r.benefOf d.tenant = some b → Lent s t d.tenant b d.us) ∧
        Leaves s t (fun x => x.core = d.core ∧ (∃ k ∈ x.coreQuarters, k ∈ d.quarters) ∧
          ∃ q ∈ x.quarters, s.holder x.core x.lgrp q ≠ some x.launch.tenant) (some r) (s.rota.since + 700 * (d.us + r.window)))) ∧
  (∀ s : State, ClocksRun s → s.rota.state = 3 → s.rota.rows = [] →
    ((∀ r ∈ s.allRes, r.takeOff = none) → exec .slotEdge s = .next { s with rota := { s.rota with state := 0 } }) ∧
    ((∃ r ∈ s.allRes, r.takeOff ≠ none) → exec .slotEdge s = .next s)) ∧
  (∀ (rid : Nat) (s : State) (r : Resident) (x : TakeOff), s.resAt rid = some r → r.takeOff = some x → Stands s r →
    (x.atStile = false ∧ ¬ StandsAtStile s r ∨ x.deadline < s.timebase ∨ (∃ k ∈ r.flags, k ≠ 0) ∨ r.acrdPending ≠ [] → exec (.stileTakeOff rid) s = .next s) ∧
    let now := if x.atStile = true then r else dueWritten r
    (x.atStile = true ∨ StandsAtStile s r → s.timebase ≤ x.deadline → (∀ k ∈ r.flags, k = 0) → r.acrdPending = [] → r.place = 0 → r.ended = false →
      (∀ c ∈ (s.coreAt r.core).cq, c.rid ≠ rid) → (∀ m ∈ (s.coreAt r.core).mq, m.rid ≠ rid) → offNeed s r ≤ (s.ctxOf r).saveBytes →
      ∃ t r', exec (.stileTakeOff rid) s = .next t ∧ TakenOff t r r' ∧ (r.trap.inh = true → r'.regs = now.regs) ∧
        (∀ n, counterIs s r.launch.tenant 15 n → counterIs t r.launch.tenant 15 ((n + 1) % 2 ^ 64)) ∧
        (∀ ws, r.trap.inh = false → s.liveList r ((s.fetchWord (s.who r) r.hdr).1.extractLsb' 8 11).toNat = some ws →
          ∀ g ∈ r.allRegs, r'.regs.read g = if liveReg ws g = true then now.regs.read g else 0))) ∧
  (∀ (rid : Nat) (s : State) (r : Resident) (x : TakeOff), s.resAt rid = some r → r.takeOff = some x → ClocksRun s → r.away = .here →
    (s.timebase < x.deadline → exec (.overrunSnapshot rid) s = .next s) ∧
    (x.deadline ≤ s.timebase → r.stop ≠ .saveShort → (∃ c ∈ (s.coreAt r.core).cq, c.rid = rid ∧ c.stays = true) →
      ∃ t r', exec (.overrunSnapshot rid) s = .next t ∧ t.resAt rid = some r' ∧ r'.away = .here ∧ r'.takeOff = some x ∧ r'.regs = r.regs ∧
        (∀ c ∈ (t.coreAt r.core).cq, c.rid = rid → c.stays = true) ∧ (∀ m ∈ (t.coreAt r.core).mq, m.rid = rid → m.flag = none) ∧
        t.rota = s.rota) ∧
    (x.deadline ≤ s.timebase → r.stop ≠ .saveShort → (∀ c ∈ (s.coreAt r.core).cq, c.rid = rid → c.stays = false) → offNeed s r ≤ (s.ctxOf r).saveBytes →
      let us := max 1 ((s.timebase - x.deadline + 699) / 700)
      let beside := ∃ y ∈ s.residents, y.rid ≠ rid ∧ y.core = r.core ∧ y.away = .here ∧ y.launch.tenant = r.launch.tenant ∧
        ∃ z, y.takeOff = some z ∧ z.qs = x.qs
      ∃ t r', exec (.overrunSnapshot rid) s = .next t ∧ TakenOff t r r' ∧ r'.regs = r.regs ∧ r'.hdr = r.hdr ∧ r'.place = r.place ∧
        r'.ovn = some us ∧ (∀ n, counterIs s r.launch.tenant 15 n → counterIs t r.launch.tenant 15 ((n + 1) % 2 ^ 64)) ∧
        (beside → ∃ o ∈ t.rota.overruns, o.rid = rid ∧ o.core = r.core ∧ o.quarters = x.qs ∧ o.deadline = x.deadline) ∧
        (¬ beside → 0 < s.turns r.core r.launch.tenant →
          ∃ d ∈ t.rota.debits, d.tenant = r.launch.tenant ∧ d.core = r.core ∧ d.quarters = x.qs ∧ d.due = false ∧ us ≤ d.us))) ∧
  (∀ (tenant b : Nat) (s : State) (r : Row) (e : Encl), ClocksRun s → 2 ≤ s.rota.state → s.rota.rows[s.rota.row]? = some r →
    r.benefOf tenant = some b → r.encls[tenant]? = some e → e.val = true → e.hasResources = true → tenant ∉ s.rota.donated →
    (s.whollyIdle r tenant = false → exec (.slackDonation tenant) s = .next s) ∧
    (s.whollyIdle r tenant = true → s.rota.overruns = [] →
      ∃ t, exec (.slackDonation tenant) s = .next t ∧ t.rota = { s.rota with donated := s.rota.donated ++ [tenant] } ∧
        Lent s t tenant b ((s.rota.since + 700 * r.dur - s.timebase) / 700) ∧ t.residents = s.residents ∧
        ∀ core, core < 192 → core < s.cores.length → (∃ k < 64, r.owner core (k / 4) (k % 4) = some tenant) → Unchanging s core →
          (∀ x ∈ s.allRes, x.core = core → x.away = .here → ∀ k ∈ x.coreQuarters, r.owner core (k / 4) (k % 4) ≠ some tenant) →
          (t.coreAt core).changed = [] ∧ (t.coreAt core).losers = [] ∧
          (∀ k < 64, r.owner core (k / 4) (k % 4) = some tenant → k ∈ (t.coreAt core).clean) ∧
          (∀ l ∈ (t.coreAt core).l1, l.tenant ≠ tenant) ∧ ∀ l ∈ (t.coreAt core).icache, l.tenant ≠ tenant))

/-- Timers: the watchdog at its limit clears its enable and raises code 14 in every resident of its context (R216); a change of
the carve-out takes effect once no allotment is in its way, and is rejected after 100 ms (R98, R99); a sampled enclosure latches
its counters once a tick of its period has passed (R215). That this is a step of its own, before which time does not go beyond the
edge, and which lines of the L1 a smaller carve-out keeps, are the model's choices (log entries 1 and 10). -/
def Obligations.TimersExpire : Prop :=
  (∀ (n : Nat) (s : State) (c : Context), s.ctxAt n = some c →
    (c.wden = true → c.wdlimit ≤ c.wdcnt → exec (.watchdogExpiry n) s = .next (
      let f := fun r : Resident => if r.launch.ctx = n then { r with async := r.async ++ [watchdogCause c.wdlimit] } else r
      { s with
        contexts := s.contexts.map fun x => if x.num = n then { x with wden := false } else x
        residents := s.residents.map f
        iss := s.iss.map fun q => { q with res := f q.res } })) ∧
    (c.wden = false ∨ c.wdcnt < c.wdlimit → exec (.watchdogExpiry n) s = .next s)) ∧
  (∀ (core : Nat) (s : State), core < s.cores.length →
    let c := s.coreAt core
    let blocked := ∃ u ∈ s.units, u.core = core ∧ u.away = false ∧ min (spadBytes c.carveCur) (spadBytes c.carveReq) < u.base + u.size
    (c.carvePend = false ∨ blocked → exec (.carveChangeTakeEffect core) s = .next s) ∧
    (c.carvePend = true → ¬ blocked → ∃ t, exec (.carveChangeTakeEffect core) s = .next t ∧
      (t.coreAt core).carveCur = c.carveReq ∧ (t.coreAt core).carvePend = false ∧ (t.coreAt core).carveStatus = 0 ∧
      t.residents = s.residents ∧ t.units = s.units ∧ (∀ k, k ≠ core → t.coreAt k = s.coreAt k) ∧
      (∀ l, l ∈ (t.coreAt core).l1 → l ∈ c.l1)) ∧
    (c.carvePend = true → 70000000 ≤ s.timebase - c.carveSince →
      exec (.carveTimeout core) s = .next { s with cores := modAt s.cores core fun c => { c with carvePend := false, carveStatus := 2 } }) ∧
    (c.carvePend = false ∨ s.timebase - c.carveSince < 70000000 → exec (.carveTimeout core) s = .next s)) ∧
  (∀ s : State, ∃ t, exec .sampleLatch s = .next t ∧ t.residents = s.residents ∧ t.counters = s.counters ∧
    ((s.samplers.map fun x => x.tenant).Nodup → t.samplers = s.samplers.map fun x =>
      let tick := s.timebase / 2 ^ x.k * 2 ^ x.k
      if x.last < tick then { x with seq := (x.seq + 1) % 2 ^ 32, last := tick } else x) ∧
    ((∀ x ∈ s.samplers, s.timebase / 2 ^ x.k * 2 ^ x.k ≤ x.last) → t = s))

/-- The registers of BAR0: each write has the effect the register table gives it; a roll call writes its record to the host and
raises vector 0; a go checks every row (R179, R180); the window reads and writes device memory (R178, R181, R220, R222, R225, R228,
R405). The model's choices are that the window reads lost lines as stored (log entry 29), which units count as faulty in a roll call (log
entries 15 and 24), that a ring's set-up writes 0 to all 24 bytes of its header (log entry 20), and the readings of row checks 2, 6 and 9
and of a half or quarter with no set bit (log entry 17). -/
def Obligations.RegisterAccessesComplete : Prop :=
  ∀ (s : State) (v : Word),
    let h := s.host
    let low16 := (v.extractLsb' 0 16).toNat
    exec (.commandDoorbell v) s = .next { s with host := { h with cmdTail := low16 } } ∧
    exec (.ringSizeWrite v) s = .next { s with host := { h with ringSz := low16, cmdTail := 0, cmdHead := 0, cplTail := 0, cplHead := 0 } } ∧
    exec (.hcplheadWrite v) s = .next { s with host := { h with cplHead := low16 } } ∧
    exec (.faultRingSetup v) s =
      .next (ringReady { s with host := { h with fltSize := low16, fltRing := some ⟨h.fltBase, low16 + 1⟩ } } h.fltBase) ∧
    exec (.eventRingSetup v) s =
      .next (ringReady { s with host := { h with evSize := low16, evRing := some ⟨h.evBase, low16 + 1⟩ } } h.evBase) ∧
    (∀ base, Memory.wf s.mem = true → Served s base 24 → Wrote s (ringReady s base) base (List.replicate 24 0)) ∧
    (∃ t rec, exec (.rollCall v) s = .next t ∧ rec.length = 128 ∧ t.host.msix = h.msix ++ [0] ∧ t.mem = s.mem ∧
      t.residents = s.residents ∧ t.host.rcAddr = (v.extractLsb' 0 20 ++ ((h.staged.find? fun x => x.1 == 0x300).map fun x => x.2).getD 0 :
        BitVec 52).toNat / 128 * 128 ∧
      t.host.hostWrites = h.hostWrites ++ rec.zipIdx.map (fun x => (t.host.rcAddr + x.2, x.1)) ∧
      wordAt rec 0 = BitVec.ofNat 32 s.stage ∧ wordAt rec 4 = s.fwVersion ∧ wordAt rec 8 = BitVec.ofNat 32 h.cmdHead ∧
      wordAt rec 12 = BitVec.ofNat 32 h.cmdTail ∧ wordAt rec 16 = BitVec.ofNat 32 h.cseq ∧ wordAt rec 24 = BitVec.ofNat 32 s.rota.stat ∧
      wordAt rec 28 = s.links.zeroExtend 32 ∧ wordAt rec 32 = BitVec.ofNat 32 s.contexts.length ∧
      wordAt rec 36 = BitVec.ofNat 32 (s.failedUnits + s.testFails + (List.range 18).countP fun k => s.badLinks.getLsbD k) ∧
      (∀ k < 7, wordAt rec (40 + 4 * k) = BitVec.ofNat 32 (min (s.errs.getD k (0, 0)).1 65535 + 65536 * min (s.errs.getD k (0, 0)).2 65535)) ∧
      ∀ k, 68 ≤ k → k < 128 → rec.getD k 1 = 0) ∧
    (∀ off, off ∈ [0x0000, 0x0100, 0x0118, 0x0140, 0x0150, 0x0200, 0x0210, 0x0300] → exec (.registerWrite off v) s =
      .next { s with host := { h with staged := (off, v) :: h.staged.filter fun x => x.1 != off } }) ∧
    (∀ off u, (let low := ((h.staged.find? fun x => x.1 == off).map fun x => x.2).getD 0
        wideWritten { s with host := { h with staged := h.staged.filter fun x => x.1 != off } } off (v ++ low) = some u) →
      exec (.registerWrite (off + 4) v) s = .next u) ∧
    (exec (.registerWrite 0x0304 v) s = exec (.rollCall v) s ∧ exec (.registerWrite 0x0108 v) s = exec (.commandDoorbell v) s ∧
      exec (.registerWrite 0x0120 v) s = exec (.ringSizeWrite v) s ∧ exec (.registerWrite 0x0130 v) s = exec (.hcplheadWrite v) s ∧
      exec (.registerWrite 0x0148 v) s = exec (.faultRingSetup v) s ∧ exec (.registerWrite 0x0158 v) s = exec (.eventRingSetup v) s ∧
      (v.getLsbD 0 = true → exec (.registerWrite 0x0008 v) s = exec (.rotaGo v) s) ∧
      (v.getLsbD 0 = false → v.getLsbD 1 = true → exec (.registerWrite 0x0008 v) s = exec (.rotaStop v) s) ∧
      exec (.registerWrite 0x0218 v) s = .next { s with host := { h with hwinSize := (v.extractLsb' 0 20).toNat } }) ∧
    (∀ off ∈ [0x0010, 0x0014, 0x0110, 0x0128, 0x0400, 0x0404, 0x1000, 0x2000, 0x010C, 0x0500], exec (.registerWrite off v) s = .next s) ∧
    (let last := (v.extractLsb' 8 6).toNat
      let u := { s with rota := { s.rota with last := last } }
      (s.rota.state = 2 → exec (.rotaStop v) s = .next { s with rota := { s.rota with last := last, state := 3 } }) ∧
      (s.rota.state ≠ 2 → exec (.rotaStop v) s = .next u) ∧
      (v.getLsbD 1 = false → s.rota.state ≠ 0 ∨ s.stage ≠ 2 → exec (.rotaGo v) s = .next u) ∧
      (v.getLsbD 1 = false → s.rota.state = 0 → s.stage = 2 →
        let ways := fun c => 2 * ((s.coreAt c).carveCur + 1)
        (∀ k e, k ≤ last → e ≠ 0 → OutcomeIs (s.rowWords k) ways e → (∀ j < k, OutcomeIs (s.rowWords j) ways 0) →
          exec (.rotaGo v) s = .next { s with rota := { s.rota with last := last, erow := k, ecode := e } }) ∧
        ((∀ k ≤ last, OutcomeIs (s.rowWords k) ways 0) → ∃ t, exec (.rotaGo v) s = .next t ∧ t.rota.state = 2 ∧ t.rota.row = 0 ∧ t.rota.since = s.timebase ∧
          t.rota.rows = (List.range (last + 1)).map (fun k => rowOfWords (s.rowWords k)) ∧ t.rota.ecode = 0 ∧ t.rota.erow = 0 ∧
          t.rota.debits = [] ∧ t.counters = List.replicate 16 (List.replicate 16 0)))) ∧
    (∀ off data, Memory.wf s.mem = true → h.winBase + off < hostBase → h.winBase + off + data.length ≤ hostBase →
      (Served s (h.winBase + off) data.length → ∃ t, exec (.bar2Access true off data) s = .next t ∧ Wrote s t (h.winBase + off) data ∧ t.residents = s.residents ∧ t.cores = s.cores) ∧
      exec (.bar2Access false off data) s = .next { s with host := { h with
        readBack := (List.range data.length).map fun k => Memory.read s.mem (h.winBase + off + k) } })

/-- The 22 commands: before its stage a command completes with status 4; on a context that does not exist with status 2; else with
the status, the result and the effect the command table gives it. While the device cannot answer, nothing happens (R221, R223,
R224, R227, R230). Statuses that the table leaves open, how the paths of a code object are followed, the layout and the keys of a
report, that tables and images are read as stored, that a command which reads or writes beyond the host window ends with status 2, and
that a link which trains counts as faulty no more are the model's choices (log entries 11, 15, 17, 23, 24 and 29). -/
def Obligations.CommandsComplete : Prop :=
  ∀ (i : Instr) (h : CmdHead) (s : State), headOf i = some h → h.seq < 2 ^ 32 →
    let done := fun (status result : Nat) (u : State) => answered u h.seq (commandOpcode i) status result
    (¬ CanAnswer s i → exec i s = .next s) ∧
    (CanAnswer s i → s.stage < stageNeeded i → exec i s = .next (done 4 0 s)) ∧
    (CanAnswer s i → stageNeeded i ≤ s.stage → onContext i = true → s.ctxAt h.ctx = none → exec i s = .next (done 2 0 s)) ∧
    (CanAnswer s i → stageNeeded i ≤ s.stage → ∀ c x, (onContext i = true → s.ctxAt h.ctx = some c) → commandEffect i s c = some x →
      exec i s = .next (done x.1 x.2.1 x.2.2)) ∧
    (∀ root asid tenant tvec emuvec ring last, i = .contextCreate h root asid tenant tvec emuvec ring last → CanAnswer s i → 1 ≤ s.stage →
      (¬ (GoodHandler tvec ∧ GoodHandler emuvec) → exec i s = .next (done 2 0 s)) ∧
      (∀ n, GoodHandler tvec → GoodHandler emuvec → 0 < n → n < 2 ^ 16 → (∀ c ∈ s.contexts, c.num ≠ n) →
        (∀ k, 0 < k → k < n → ∃ c ∈ s.contexts, c.num = k) →
        let mr : MemRing := ⟨ring.toNat, last + 1⟩
        let c := freshContext n root.toNat asid tenant tvec emuvec (if ring = 0 then none else some mr)
        let u := { s with contexts := s.contexts ++ [c] }
        exec i s = .next (done 0 n (if ring = 0 then u else u.ringInit (.virt c) mr)))) ∧
    (∀ u seq op status result, Memory.wf u.mem = true → Served u (u.host.cplBase + 16 * u.host.cplTail) 16 →
      Wrote u (answered u seq op status result) (u.host.cplBase + 16 * u.host.cplTail)
        (bytesOf (BitVec.ofNat 32 seq) ++ [BitVec.ofNat 8 op, 0, BitVec.ofNat 8 status, 0] ++ bytesOf (BitVec.ofNat 32 result) ++
          bytesOf (BitVec.ofNat 32 (result / 2 ^ 32))))

/-- Reset, cut-off, errors, failures, links: what each leaves (R25, R209, R212, R227, R231 to R233). Which use numbers of free values
stand after a reset, that memory outlasts one without power-good, one unit-lost event for each context, a lane group's unit number and
a link's kind in the event are the model's choices (log entries 2, 21, 24 and 30). -/
def Obligations.WorldEventsComplete : Prop :=
  ∀ s : State,
    (∀ good : Bool, ∃ t, exec (.powerGoodReset good) s = .next t ∧ t.stage = 0 ∧ t.residents = [] ∧ t.contexts = [] ∧ t.units = [] ∧
      t.cores = State.reset.cores ∧ t.hamlets = State.reset.hamlets ∧ t.host = State.reset.host ∧ t.rota = State.reset.rota ∧
      t.counters = State.reset.counters ∧ t.timebase = 0 ∧ t.links = 0 ∧ t.badLinks = 0 ∧ t.power = State.reset.power ∧ t.testFails = 0 ∧
      t.mem = (if good then [] else s.mem) ∧ t.errs = (if good then State.reset.errs else s.errs) ∧ t.failedUnits = 0) ∧
    (∃ t, exec .thermalCutoff s = .next t ∧ t.stage = 3 ∧ t.residents = [] ∧ t.contexts = [] ∧ t.units = [] ∧ t.mem = [] ∧
      t.cores = State.reset.cores ∧ t.hamlets = State.reset.hamlets ∧ t.host = s.host ∧ t.errs = s.errs ∧ t.timebase = s.timebase ∧
      t.rota = { s.rota with
        rows := []
        since := 0
        goTick := 0
        debits := []
        overruns := []
        donated := [] }) ∧
    (∀ rid g w, (w = .sreg rid g ∨ (∃ lane, w = .vreg rid lane g) ∨ ∃ lane, w = .oreg rid lane g) →
      (s.resAt rid = none → exec (.uncorrectableError w) s = .next s) ∧
      ∀ r, s.resAt rid = some r →
        let reg : Reg := match w with
          | .vreg _ lane n => .v lane n
          | .oreg _ lane n => .o lane n
          | _ => .s g
        ∃ t r', exec (.uncorrectableError w) s = .next t ∧ t.resAt rid = some r' ∧ r'.regs.poisoned reg = true ∧
          (∀ x, r'.regs.read x = r.regs.read x ∧ (x ≠ reg → r'.regs.poisoned x = r.regs.poisoned x)) ∧
          t.errs = errorCounted s 2 ∧ t.mem = s.mem ∧
          (∀ n, (∀ m, (r.core, r.lgrp, m) ∈ s.regErrs → m = n) → (r.core, r.lgrp, n) ∈ s.regErrs → (r.core, r.lgrp, n + 1) ∈ t.regErrs)) ∧
    (∀ pa, (pa < hostBase → ∃ t, exec (.uncorrectableError (.hbm pa)) s = .next t ∧ t.errs = errorCounted s 0 ∧ t.mem = s.mem ∧
        t.residents = s.residents ∧ ∀ k, k ∈ t.hbmPoison ↔ k = pa / 32 ∨ k ∈ s.hbmPoison) ∧
      (hostBase ≤ pa → exec (.uncorrectableError (.hbm pa)) s = .next s)) ∧
    (∀ pa, (s.inL2 (pa / 128) = true → ∃ t, exec (.uncorrectableError (.l2 pa)) s = .next t ∧ t.errs = errorCounted s 1 ∧ t.mem = s.mem ∧
        t.residents = s.residents ∧ ∀ k, k ∈ t.l2Poison ↔ k = pa / 8 ∨ k ∈ s.l2Poison) ∧
      (s.inL2 (pa / 128) = false → exec (.uncorrectableError (.l2 pa)) s = .next s)) ∧
    (∀ core va asid tenant, exec (.uncorrectableError (.l1 core va asid tenant)) s = .next { s with
      errs := errorCounted s 1
      cores := modAt s.cores core fun c => { c with l1 := c.l1.map fun l =>
        if l.tag = va / 128 ∧ l.asid = asid ∧ l.tenant = tenant then { l with poison := l.poison ||| BitVec.ofNat 16 (2 ^ (va % 128 / 8)) } else l } }) ∧
    (∀ core unit off u, s.unitOf unit core = some u → ∃ t u', exec (.uncorrectableError (.spad core unit off)) s = .next t ∧
      t.errs = errorCounted s 1 ∧ t.mem = s.mem ∧ t.residents = s.residents ∧ t.unitOf unit core = some u' ∧ u'.tiles = u.tiles ∧
      u'.spad.cells = u.spad.cells ∧ ∀ k, k ∈ u'.spad.poison ↔ k = off / 8 ∨ k ∈ u.spad.poison) ∧
    (∀ core unit tile elem, ∃ t, exec (.uncorrectableError (.acc core unit tile elem)) s = .next t ∧
      t.errs = errorCounted s 1 ∧ t.mem = s.mem ∧ t.residents = s.residents ∧ ∀ u a, s.unitOf unit core = some u → u.tiles[tile]? = some a →
        ∃ u' b, t.unitOf unit core = some u' ∧ u'.spad = u.spad ∧ u'.tiles[tile]? = some b ∧
          ∀ e, (b.get e).val = (a.get e).val ∧ ((b.get e).poison = true ↔ e / 2 = elem / 2 ∨ (a.get e).poison = true)) ∧
    (∀ core va asid tenant, ∃ t, exec (.uncorrectableError (.icache core va asid tenant)) s = .next t ∧ t.errs = errorCounted s 3 ∧ t.mem = s.mem ∧
      t.residents = s.residents ∧ (core < s.cores.length → ∀ l, l ∈ (t.coreAt core).icache ↔
        l ∈ (s.coreAt core).icache ∧ ¬ (l.tag = va / 128 ∧ l.asid = asid ∧ l.tenant = tenant))) ∧
    exec (.uncorrectableError .fabric) s = .next { s with errs := errorCounted s 4 } ∧
    exec (.uncorrectableError .olisal) s = .next { s with errs := errorCounted s 5 } ∧
    exec (.uncorrectableError .hostPort) s = .next { s with errs := errorCounted s 6 } ∧
    (s.stage = 3 → ∀ u, exec (.unitFailed u) s = .next s) ∧
    (s.stage ≠ 3 → ∀ n, n < 192 → n < s.cores.length →
      ((s.coreAt n).failed = true → exec (.unitFailed (.core n)) s = .next s ∧ ∀ k, exec (.unitFailed (.laneGroup n k)) s = .next s) ∧
      ((s.coreAt n).failed = false →
        (∃ t, exec (.unitFailed (.core n)) s = .next t ∧ (t.coreAt n).failed = true ∧ t.failedUnits = s.failedUnits + 1 ∧
          LostThere s t fun r => r.core = n ∧ r.lgrp ∉ (s.coreAt n).failedLg) ∧
        ∀ k < 16, (k ∈ (s.coreAt n).failedLg → exec (.unitFailed (.laneGroup n k)) s = .next s) ∧
          (k ∉ (s.coreAt n).failedLg → ∃ t, exec (.unitFailed (.laneGroup n k)) s = .next t ∧ (t.coreAt n).failed = false ∧
            (t.coreAt n).failedLg = k :: (s.coreAt n).failedLg ∧ t.failedUnits = s.failedUnits + 1 ∧
            LostThere s t fun r => r.core = n ∧ r.lgrp = k))) ∧
    (s.stage ≠ 3 → ∀ n < 1536, (n ∈ s.failedSlices → exec (.unitFailed (.slice n)) s = .next s) ∧
      (n ∉ s.failedSlices → exec (.unitFailed (.slice n)) s = .next
        ({ s with failedSlices := n :: s.failedSlices, failedUnits := s.failedUnits + 1 }.hostEvent 19 0 0 (BitVec.ofNat 64 (2 + n * 2 ^ 16)) 0))) ∧
    (s.stage ≠ 3 → ∀ n < 256, (n ∈ s.failedChannels → exec (.unitFailed (.channel n)) s = .next s) ∧
      (n ∉ s.failedChannels → exec (.unitFailed (.channel n)) s = .next
        ({ s with failedChannels := n :: s.failedChannels, failedUnits := s.failedUnits + 1 }.hostEvent 19 0 0 (BitVec.ofNat 64 (3 + n * 2 ^ 16)) 0))) ∧
    (∀ k, k < 18 → s.links.getLsbD k = true → exec (.linkDown k) s = .next
      (({ s with
        links := s.links &&& ~~~BitVec.ofNat 18 (2 ^ k)
        badLinks := s.badLinks ||| BitVec.ofNat 18 (2 ^ k)
        cores := s.cores.map fun c : Core => { c with cq := c.cq.map fun x : CopyCmd =>
          if x.stays = true ∧ x.state ≠ EngState.queued ∧ (∃ g ∈ s.peerGroups, g.group = x.b2.toNat ∧ g.links.getLsbD k = true) then { x with linkLost := true }
          else x } }.hostEvent 18 0 0 (BitVec.ofNat 64 k) 8).hostEvent 19 0 0 (BitVec.ofNat 64 (Config.linkKind.toNat + k * 2 ^ 16)) 0)) ∧
    (∀ k, 18 ≤ k ∨ s.links.getLsbD k = false → exec (.linkDown k) s = .next s)
/-- Loads and stores that may not be made trap, with one such lane's address and the mask of all of them (R74, R77, R96, R198, R199): code 3
for a misaligned address, before the others; code 7 for a scratchpad access that does not end within the allotment; code 5 for a
global address beyond 2^56 or an access that the page denies, in a wave's access or a store (a load of a bundle meets it at its due
count), where no load aims at a packed page and no translation waits or was refused. Which of the lanes' addresses it is, is the model's choice (log
entry 17). -/
def Obligations.MisalignedAccessesTrap : Prop :=
  ∀ (i : Instr) (x : LaneAccess) (s : State) (q : Issue), s.Issues q → q.commit = false → accessOf s q i x →
    let address := fun (kind a : Nat) => (BitVec.ofNat 32 (a / 2 ^ 32), BitVec.ofNat 32 a, BitVec.ofNat 32 kind)
    let kind := if x.write then 1 else 0
    let misaligned := fun k => x.at_ k % x.n ≠ 0
    let outside := fun k => q.res.launch.spad * 256 < x.at_ k + x.n
    let denied := fun k => 2 ^ 56 ≤ x.at_ k ∨ x.check s q k = .bad
    ((∃ k ∈ x.lanes, misaligned k) → TrapsFor s q i x 3 misaligned (address 0)) ∧
    (x.spad = true → (∀ k ∈ x.lanes, ¬ misaligned k) → (∃ k ∈ x.lanes, outside k) →
      TrapsFor s q i x 7 outside fun a => (BitVec.ofNat 32 a, 0, 0)) ∧
    (x.spad = false → (q.res.simt = true ∨ x.write = true) → (∀ k ∈ x.lanes, ¬ misaligned k) →
      (∀ k ∈ x.lanes, x.at_ k < 2 ^ 56 → x.check s q k ≠ .fault ∧ NotRefused q.res (x.at_ k) ∧ (x.write = false → s.packedAt (s.who q.res) (x.at_ k) = false ∧
        ∀ leaf, x.check s q k = .ok leaf → leafPk leaf = false)) →
      (∃ k ∈ x.lanes, denied k) → TrapsFor s q i x 5 denied (address kind))

/-- Decoding the encoding of a well-formed instruction gives it back, with every operand. -/
def Obligations.EncodedInstructionsDecode : Prop :=
  ∀ (i : Instr) (w : Nat), i.wf = true → encode i = some w → w < 2 ^ 64 ∧ decodeWord w = .ok i

/-- A 64-bit word that decodes is the encoding of its instruction, which is well-formed: no two words share one. -/
def Obligations.DecodedWordsAreEncodings : Prop :=
  ∀ (w : Nat) (i : Instr), w < 2 ^ 64 → decodeWord w = .ok i → i.wf = true ∧ encode i = some w

/-- Words assembled by hand from the formats and the opcode map: each decodes to the instruction it stands for; reserved words are
refused. -/
def Obligations.SpecWordsDecode : Prop :=
  decodeTableWord 64 (wordR 0x010 7 3 1 2 0 1) = some (.iadd .always (.v 3) (.v 1) (.v 2) true) ∧
  decodeTableWord 64 (wordR 0x029 2 (specS 5) (specS 6) (specX 0x10) 0 0) = some (.shl (.reg 2 true) (.s 5) (.s 6) (.special 0x10)) ∧
  decodeTableWord 64 (wordL 0x006 7 4 0 0xDEADBEEF) = some (.movi .always (.v 4) 0xDEADBEEF) ∧
  decodeTableWord 64 (wordR 0x040 0 1 2 (specP 6) 0 2) = some (.fadd (.reg 0 false) (.v 1) (.v 2) (.p 6) .rm) ∧
  decodeTableWord 64 (wordM 0x0C0 7 9 (specS 4) 1 0xFFF8) = some (.ldG32 .always (.v 9) (.s 4) 1 0xFFF8) ∧
  decodeTableWord 64 (wordM 0x12A 7 8 (specS 4) 0 8) = some (.sto64 .always (.v 8) (.s 4) 8 .sys) ∧
  decodeTableWord 64 (wordB 0x092 3 0xFFFFFFFE 5) = some (.bdiv (.reg 3 false) 0xFFFFFFFE 5) ∧
  decodeTableWord 64 (wordE 0x142 7 0 0 0 0 0) = some (.mzero .always 0) ∧
  decodeTableWord 64 (wordS 0x09E 1 0 0 0) = some (.exit (.reg 1 false)) ∧
  decodeTableWord 64 (wordS 0x002 10 0 0 0) = some (.nop (.gate 2)) ∧
  decodeTableWord 64 0 = none ∧
  decodeTableWord 64 (wordR 0x074 7 1 2 3 0 0) = none ∧
  decodeTableWord 64 (wordR 0x010 16 3 1 2 0 0) = none ∧
  decodeTableWord 64 (wordR 0x011 7 3 1 2 0 0) = none ∧
  decodeTableWord 64 (wordR 0x010 7 3 1 2 1 0) = none ∧
  decodeTableWord 64 (wordR 0x010 7 3 1536 2 0 0) = none ∧
  (∀ i, decodeClauseHeader 0x0007_0000_FF80_0000 = .ok i → i.count = 7 ∧ i.waitMask = 0 ∧ i.seta = 15 ∧ i.setb = 15 ∧ i.last = true) ∧
  (decodeClauseHeader 0x0007_0000_FF80_0000).isOk = true ∧ (decodeClauseHeader 0x0000_0000_FF80_0000).isOk = false ∧
  (∀ h, decodeBundleHeader 0x0003_0000_FF00_0000 = .ok h → h.slots = [0, 1] ∧ h.shape = 0) ∧
  (decodeBundleHeader 0x0003_0000_FF00_0000).isOk = true

/-- A step runs the decoded instruction: a wave's next word in its clause, the ops of a wide thread's bundle as a unit, a step of
the table, or a command; a lane group issues from the resident that R171 names, and time passes. The words a resident issues are those
its instruction cache holds; a line it does not hold is filled with the eight bytes of memory in little-endian order, where the core's
L1 does not hold that line. That an agenda gives the order of moves, that accesses of a bundle wait for its thread's loads, and those of the scratchpad for an `ldo`, which
loads held behind a refused one are performed first, that what follows a wave's loads fixes what they have read, that a header's causes come first, and that a fetch takes lost lines as stored are the model's choices (log entries 1, 6, 25 and 29). -/
def Obligations.StepsRunTheDecodedInstruction : Prop :=
  (∀ (s : State) (rest : List Action) (r0 : Resident) (hw : DWord) (ws : List DWord) (s1 : State) (h : Header) (i : Instr),
    let s0 : State := { s with agenda := rest }
    let r := dueWritten r0
    let w := ws.getD r.place 0
    let here := { r with clause := some (r.hdr, hw :: ws), pin := none, loads := if fixesLoads i = true then loadsAsRead r else r.loads }
    TurnOf s rest r0 → r.simt = true → s0.clauseWords r = (.words (hw :: ws), s1) →
    decodeClauseHeader hw.toNat = .ok h → r.setsOk h = true → clauseWordsOk h ws = true → (r.place = 0 → Admitted s1 r h) →
    r.interlocked i = false → decodeWord w.toNat = .ok i →
    step s = andThen (exec i (s1.latch (Issue.start (here.pastInstr h) r.hdr h r.place r.place w))) fun t =>
      .next (settled s0 r0 (t.finishSimt here))) ∧
  (∀ (s : State) (rest : List Action) (r0 : Resident) (hw : DWord) (s1 : State) (h : Header) (ops : List (Nat × DWord × Instr)),
    let s0 : State := { s with agenda := rest }
    let r := dueWritten r0
    let ws := ops.map fun x => x.2.1
    let is := ops.map fun x => x.2.2
    TurnOf s rest r0 → r.simt = false → s0.rowStall r = false → (r.porch.filter fun e => decide (e.due ≤ r.count)) = [] →
    (s0.setRes r).bundleWords r = (.words (hw :: ws), s1) →
    decodeBundleHeader hw.toNat = .ok h → r.bundleOk h = true → bundleWordsOk h r.width ws = true → Admitted s1 r h →
    ops ≠ [] → (∀ x ∈ ops, decodeWord x.2.1.toNat = .ok x.2.2) → ops.map (fun x => x.1) = h.slots →
    ∀ (s2 : State) (r2 : Resident), (if r.heldFirst is = true then s2 = s1.performHeld r ∧ s2.resAt r.rid = some r2 else s2 = s1 ∧ r2 = r) →
    (s2.loadsOpen r2 ≠ [] → (∀ i ∈ is, followsLoads i = false ∧ loadsGlobal i = false) ∧
      ((∃ e ∈ s2.loadsOpen r2, e.scope ≠ none) → ∀ i ∈ is, localLater i = false)) →
    let q0 := { Issue.start (r2.pastBundle h hw ws) r2.hdr h 0 31 hw with inOrder := bundleInOrder is }
    ∀ (t : State) (q : Issue), opsInOrder ops (s2.latch { q0 with probe := true }) = .next t → t.iss = some q → q.raised = [] →
      q.bundleCauses hw ws = [] → q.held = false → q.faults = [] →
      step s = andThen (opsInOrder ops (s2.latch { q0 with commit := true })) fun u => .next (settled s0 r0 (u.finishBundle r2 h.lend))) ∧
  (∀ (s : State) (rest : List Action) (r : Resident), s.agenda = .run r.rid :: rest → (s.residents.find? fun x => x.rid == r.rid) = some r →
    ({ s with agenda := rest } : State).outranked r = true → step s = .next { s with agenda := rest }) ∧
  (∀ (s : State) (rs : List Resident), (∀ x, s.pick rs = some x → IssuesFrom s rs x) ∧
    ((∃ x ∈ rs, s.ready x = true) → ∃ x, s.pick rs = some x)) ∧
  (∀ (s : State) (rest : List Action) (i : Instr), s.agenda = .ev i :: rest → step s = exec i { s with agenda := rest }) ∧
  (∀ (s : State) (rest : List Action) (n : Nat), s.agenda = .tick n :: rest → s.samplers = [] → s.rota.state < 2 → ∃ t, step s = .next t ∧
    t.timebase = (s.timebase + n) % 2 ^ 64 ∧ t.cores = s.cores ∧ t.mem = s.mem ∧ t.residents = s.residents.map fun r =>
      if ({ s with agenda := rest } : State).ready r = true then r else { r with starve := 0 }) ∧
  (∀ (s : State) (rest : List Action) (i : Instr),
    let s0 : State := { s with agenda := rest }
    s.agenda = .command :: rest → s.host.cmdHead ≠ s.host.cmdTail → decodeCommand s0.headCommand = some i → s0.commandWaits i = false →
    step s = exec i s0.nextHead) ∧
  (∀ (s : State) (r : Resident) (l : Nat → ILine),
    let data := fun k => ((l k).data.drop ((r.hdr + 8 * k) % 128)).take 8
    let h := dwordOf (data 0)
    r.clause = none → (∀ p ∈ r.refused, p.2 ≠ 1) → r.hdr + 8 * (1 + clauseLen h) ≤ 2 ^ 56 →
    (∀ k ≤ clauseLen h, s.icacheFind (s.who r) (r.hdr + 8 * k) = some (l k)) →
    s.clauseWords r = (.words (h :: (List.range (clauseLen h)).map fun k => dwordOf (data (k + 1))), s)) ∧
  (∀ (s : State) (w : Who) (a : Nat) (leaf : DWord) (size : Nat), Memory.wf s.mem = true → a % 8 = 0 → s.icacheFind w a = none →
    s.l1Find w a = none → s.xlat w a = .ok leaf size →
    let pa := paOf leaf size a
    size % 128 = 0 → leafBase leaf % 128 = 0 → pa < hostBase → (∀ l ∈ (s.coreAt w.core).l1, l.pa ≠ pa / 128) →
    (s.fetchWord w a).1 = dwordOf (Memory.readBytes s.mem pa 8))

/-- After reset the device is in stage A, the timebase is 0, every core has carve setting 1 and its rings disabled, the Rota is
stopped and tenant 0 holds every resource; nothing is resident, queued or configured. -/
def Obligations.ResetStartsAtStageA : Prop :=
  let s := State.reset
  s.stage = 0 ∧ s.timebase = 0 ∧ s.cores.length = 192 ∧ (∀ c ∈ s.cores, c.carveCur = 1 ∧ c.carvePend = false ∧ c.queue = []) ∧
  (∀ core k, core < 192 → k < 16 → (s.ringOf core k).cfg = 0 ∧ (s.ringOf core k).enabled = false) ∧
  s.rota.state = 0 ∧ (∀ core lg q, core < 192 → lg < 16 → q < 4 → s.holder core lg q = some 0) ∧ s.rota.base = 0 ∧ s.rota.last = 0 ∧
  s.dieQ = [] ∧ s.hamlets.length = 24 ∧ (∀ h ∈ s.hamlets, h.queue = [] ∧ h.merge = [] ∧ h.records = []) ∧
  s.residents = [] ∧ s.running = [] ∧ s.contexts = [] ∧ s.host = HostRegs.reset ∧ s.host.cmdHead = 0 ∧ s.host.cmdTail = 0 ∧
  Memory.wf s.mem = true

/-- What every step keeps: memory in its canonical form, 192 cores, 24 hamlets, 16 counters for each of 16 tenants, a timebase of 64 bits, and a
stage that is A, B, C or the one after a cut-off (R14, R15, R22, R195, R227, R231). -/
def Obligations.StepsKeepTheInvariant : Prop :=
  (∀ s t : State, s.Inv → s.StepsTo t → t.Inv) ∧ State.reset.Inv
end

