-- ==== Sys2Proof/Laws/Encoding.lean ====
section
/-! SUPPORT. The pieces of an instruction word come back as they were put in: predicate and opcode (R283, R285, R289),
fields of the seven formats (R283), specifiers (R49, R50). -/

namespace Sys2Proof

theorem bind_ok {ε α β : Type} (x : α) (f : α → Except ε β) : (Except.ok x >>= f) = f x := rfl

theorem need_true {e : DecodeError} : need true e = .ok () := rfl

theorem need_of {b : Bool} {e : DecodeError} (h : b = true) : need b e = .ok () := by subst h; rfl

theorem unused_zero : unused 0 = .ok () := rfl

/-! ### Predicate and opcode -/

theorem decodePred_field {p : Pred} (h : p.wf = true) : decodePred p.field p.sense = .ok p := by
  cases p with
  | always => rfl
  | reg n neg =>
    simp only [Pred.wf, decide_eq_true_eq] at h
    have h7 : n ≠ 7 := by omega
    have hlt : n < 7 := by omega
    cases neg <;> simp [decodePred, Pred.field, Pred.sense, bitNat, h7, hlt]
  | gate k =>
    simp only [Pred.wf, decide_eq_true_eq] at h
    have h1 : 8 + k ≠ 7 := by omega
    have h2 : ¬ 8 + k < 7 := by omega
    have h3 : 8 + k < 16 := by omega
    simp [decodePred, Pred.field, Pred.sense, h1, h2, h3]

theorem Pred.field_lt {p : Pred} (h : p.wf = true) : p.field < 32 := by
  cases p <;> simp [Pred.wf, Pred.field] at * <;> omega

theorem Pred.sense_lt (p : Pred) : p.sense < 2 := by
  cases p with
  | reg n neg => cases neg <;> simp [Pred.sense, bitNat]
  | _ => simp [Pred.sense]

/-- A field below bit 50 does not see the opcode and the predicate. -/
theorem fld_head (op : Nat) (p : Pred) (rest pos len : Nat) (h : pos + len ≤ 50) :
    fld (encHead op p rest) pos len = fld rest pos len := by
  unfold fld encHead
  have e : (op + p.sense) * 2 ^ 55 + p.field * 2 ^ 50 + rest = rest + 2 ^ pos * (2 ^ len * (2 ^ (50 - pos - len) * ((op + p.sense) * 2 ^ 5 + p.field))) := by
    have : 2 ^ pos * (2 ^ len * (2 ^ (50 - pos - len) * ((op + p.sense) * 2 ^ 5 + p.field))) = 2 ^ 50 * ((op + p.sense) * 2 ^ 5 + p.field) := by
      rw [← Nat.mul_assoc, ← Nat.mul_assoc, ← Nat.pow_add, ← Nat.pow_add]
      congr 2
      omega
    rw [this]; omega
  rw [e, Nat.add_mul_div_left _ _ (Nat.two_pow_pos pos), Nat.add_mul_mod_self_left]

theorem fields_head (op : Nat) (p : Pred) (rest : Nat) : fields (encHead op p rest) = fields rest := by
  simp [fields, fld_head]

/-- The opcode map entry and the predicate of a word. -/
theorem decodeWord_head {op : Nat} {p : Pred} {rest : Nat} (hp : p.wf = true) (ho : op % 2 = 0) (hlt : op < 512)
    (hr : rest < 2 ^ 50) : decodeWord (encHead op p rest) = decodeOp p (fields rest) (op / 16) (op / 2 % 8) := by
  have hf := Pred.field_lt hp
  have hs := Pred.sense_lt p
  have e1 : fld (encHead op p rest) 50 5 = p.field := by unfold fld encHead; omega
  have e2 : fld (encHead op p rest) 55 1 = p.sense := by unfold fld encHead; omega
  have e3 : fld (encHead op p rest) 59 5 = op / 16 := by unfold fld encHead; omega
  have e4 : fld (encHead op p rest) 56 3 = op / 2 % 8 := by unfold fld encHead; omega
  rw [decodeWord, e1, e2, e3, e4, decodePred_field hp, fields_head]; rfl

/-! ### Fields -/

theorem fields_R {d a b c m : Nat} (ha : a < 4096) (hb : b < 4096) (hc : c < 4096) (hm : m < 4) (hd : d < 4096) :
    let f := fields (d * 2 ^ 38 + a * 2 ^ 26 + b * 2 ^ 14 + c * 2 ^ 2 + m)
    f.d = d ∧ f.a = a ∧ f.b = b ∧ f.c = c ∧ f.m = m := by
  simp only [fields, fld]; refine ⟨?_, ?_, ?_, ?_, ?_⟩ <;> omega

theorem fields_S {d a imm : Nat} (ha : a < 4096) (hi : imm < 2 ^ 26) (hd : d < 4096) :
    let f := fields (d * 2 ^ 38 + a * 2 ^ 26 + imm)
    f.d = d ∧ f.a = a ∧ f.imm = imm := by
  simp only [fields, fld]; refine ⟨?_, ?_, ?_⟩ <;> omega

theorem fields_L {d m imm : Nat} (hm : m < 64) (hi : imm < 2 ^ 32) (hd : d < 4096) :
    let f := fields (d * 2 ^ 38 + m * 2 ^ 32 + imm)
    f.d = d ∧ f.lmod = m ∧ f.imm32 = imm := by
  simp only [fields, fld]; refine ⟨?_, ?_, ?_⟩ <;> omega

theorem fields_M {d a land off : Nat} (ha : a < 4096) (hl : land < 1024) (ho : off < 2 ^ 16) (hd : d < 4096) :
    let f := fields (d * 2 ^ 38 + a * 2 ^ 26 + land * 2 ^ 16 + off)
    f.d = d ∧ f.a = a ∧ f.land = land ∧ f.off = off := by
  simp only [fields, fld]; refine ⟨?_, ?_, ?_, ?_⟩ <;> omega

theorem fields_B {off jn : Nat} (hj : jn < 2 ^ 18) (ho : off < 2 ^ 32) :
    let f := fields (off * 2 ^ 18 + jn)
    f.boff = off ∧ f.jn = jn := by
  simp only [fields, fld]; refine ⟨?_, ?_⟩ <;> omega

theorem fields_E {x y z q : Nat} {set : Bool} (hx : x < 4096) (hy : y < 4096) (hz : z < 4096) (hq : q < 2 ^ 13) :
    let f := fields (x * 2 ^ 38 + y * 2 ^ 26 + z * 2 ^ 14 + bitNat set * 2 ^ 13 + q)
    f.d = x ∧ f.a = y ∧ f.b = z ∧ f.set = bitNat set ∧ f.q = q := by
  have : bitNat set < 2 := by cases set <;> simp [bitNat]
  simp only [fields, fld]; refine ⟨?_, ?_, ?_, ?_, ?_⟩ <;> omega

/-! ### Specifiers -/

theorem encSrc_lt {a : Src} (h : a.wf = true) : encSrc a < 4096 := by
  cases a with
  | imm k => have := k.isLt; simp only [encSrc]; omega
  | _ => simp [Src.wf, encSrc] at * <;> omega

theorem encDst_lt {d : Dst} (h : d.wf = true) : encDst d < 4096 := by
  cases d <;> simp [Dst.wf, encDst] at * <;> omega

theorem readSrc_enc {a : Src} (h : a.wf = true) : readSrc (encSrc a) = .ok a := by
  cases a with
  | imm k =>
    have := k.isLt
    show readSrc (0xC00 + k.toNat) = _; unfold readSrc
    rw [if_neg (by omega), if_neg (by omega), if_neg (by omega), if_neg (by omega), if_neg (by omega), if_pos (by omega)]
    rw [Nat.add_sub_cancel_left, BitVec.ofNat_toNat, BitVec.setWidth_eq]
  | v n => simp only [Src.wf, decide_eq_true_eq] at h; show readSrc (n) = _; unfold readSrc; rw [if_pos (by omega)]
  | o n =>
    simp only [Src.wf, decide_eq_true_eq] at h
    show readSrc (0x800 + n) = _; unfold readSrc
    rw [if_neg (by omega), if_pos (by omega)]
    rw [Nat.add_sub_cancel_left]
  | y n =>
    simp only [Src.wf, decide_eq_true_eq] at h
    show readSrc (0x900 + n) = _; unfold readSrc
    rw [if_neg (by omega), if_neg (by omega), if_pos (by omega)]
    rw [Nat.add_sub_cancel_left]
  | s n =>
    simp only [Src.wf, decide_eq_true_eq] at h
    show readSrc (0xA00 + n) = _; unfold readSrc
    rw [if_neg (by omega), if_neg (by omega), if_neg (by omega), if_pos (by omega)]
    rw [Nat.add_sub_cancel_left]
  | special n =>
    simp only [Src.wf, Bool.and_eq_true, decide_eq_true_eq] at h
    show readSrc (0xB00 + n) = _; unfold readSrc
    rw [if_neg (by omega), if_neg (by omega), if_neg (by omega), if_neg (by omega), if_pos (by omega)]
    rw [Nat.add_sub_cancel_left]
  | p n =>
    simp only [Src.wf, decide_eq_true_eq] at h
    show readSrc (0xD00 + n) = _; unfold readSrc
    rw [if_neg (by omega), if_neg (by omega), if_neg (by omega), if_neg (by omega), if_neg (by omega), if_neg (by omega),
      if_pos (by omega)]
    rw [Nat.add_sub_cancel_left]

theorem readDst_enc {d : Dst} (h : d.wf = true) : readDst (encDst d) = .ok d := by
  cases d with
  | v n => simp only [Dst.wf, decide_eq_true_eq] at h; show readDst (n) = _; unfold readDst; rw [if_pos (by omega)]
  | o n =>
    simp only [Dst.wf, decide_eq_true_eq] at h
    show readDst (0x800 + n) = _; unfold readDst
    rw [if_neg (by omega), if_pos (by omega)]
    rw [Nat.add_sub_cancel_left]
  | s n =>
    simp only [Dst.wf, decide_eq_true_eq] at h
    show readDst (0xA00 + n) = _; unfold readDst
    rw [if_neg (by omega), if_neg (by omega), if_neg (by omega), if_pos (by omega)]
    rw [Nat.add_sub_cancel_left]
  | p n =>
    simp only [Dst.wf, decide_eq_true_eq] at h
    show readDst (0xD00 + n) = _; unfold readDst
    rw [if_neg (by omega), if_neg (by omega), if_neg (by omega), if_neg (by omega), if_neg (by omega), if_pos (by omega)]
    rw [Nat.add_sub_cancel_left]

theorem srcIf_enc {ok : Src → Bool} {e : DecodeError} {a : Src} (h : a.wf = true) (hk : ok a = true) : srcIf ok e (encSrc a) = .ok a := by
  simp [srcIf, readSrc_enc h, bind_ok, hk, need] <;> rfl

theorem dstIf_enc {ok : Dst → Bool} {e : DecodeError} {d : Dst} (h : d.wf = true) (hk : ok d = true) : dstIf ok e (encDst d) = .ok d := by
  simp [dstIf, readDst_enc h, bind_ok, hk, need] <;> rfl

theorem anySrc_enc {a : Src} (h : a.wf = true) : anySrc (encSrc a) = .ok a := srcIf_enc h h

theorem Dst.wf_of_isReg {d : Dst} (h : d.isReg = true) : d.wf = true := by cases d <;> simp_all [Dst.isReg, Dst.wf]
theorem Dst.wf_of_isLane {d : Dst} (h : d.isLane = true) : d.wf = true := by cases d <;> simp_all [Dst.isLane, Dst.wf]
theorem Dst.wf_of_isPair {d : Dst} (h : d.isPair = true) : d.wf = true := by cases d <;> simp_all [Dst.isPair, Dst.wf]
theorem Dst.wf_of_isLoadPair {d : Dst} (h : d.isLoadPair = true) : d.wf = true := by
  cases d <;> simp_all [Dst.isLoadPair, Dst.isPair, Dst.wf]
theorem Dst.wf_of_isPred {d : Dst} (h : d.isPred = true) : d.wf = true := by cases d <;> simp_all [Dst.isPred, Dst.wf]

theorem Src.wf_of_isPair {a : Src} (h : a.isPair = true) : a.wf = true := by cases a <;> simp_all [Src.isPair, Src.wf]
theorem Src.wf_of_isBase {a : Src} (h : a.isBase = true) : a.wf = true := by cases a <;> simp_all [Src.isBase, Src.wf]
theorem Src.wf_of_isData {a : Src} (h : a.isData = true) : a.wf = true := by cases a <;> simp_all [Src.isData, Src.wf]
theorem Src.wf_of_isDataPair {a : Src} (h : a.isDataPair = true) : a.wf = true := by
  cases a <;> simp_all [Src.isDataPair, Src.isPair, Src.wf]
theorem Src.wf_of_isLane {a : Src} (h : a.isLane = true) : a.wf = true := by cases a <;> simp_all [Src.isLane, Src.wf]
theorem Src.wf_of_isScalarImm {a : Src} (h : a.isScalarImm = true) : a.wf = true := by
  cases a <;> simp_all [Src.isScalarImm, Src.wf]
theorem Src.wf_of_isPredBit {a : Src} (h : a.isPredBit = true) : a.wf = true := by
  cases a <;> simp_all [Src.isPredBit, Src.wf]

theorem regDst_enc {d : Dst} (h : d.isReg = true) : regDst (encDst d) = .ok d := dstIf_enc (Dst.wf_of_isReg h) h

theorem scalarIf_enc {ok : Nat → Bool} {n : Nat} (h : n < 256) (hk : ok n = true) : scalarIf ok (0xA00 + n) = .ok n := by
  have e : 0xA00 + n - 0xA00 = n := by omega
  have g : (0xA00 ≤ 0xA00 + n && 0xA00 + n < 0xB00 && ok (0xA00 + n - 0xA00)) = true := by rw [e, hk]; simp; omega
  unfold scalarIf
  rw [need_of g, bind_ok, e]; rfl

theorem bitCode_bitNat (b : Bool) : bitCode (bitNat b) = .ok b := by cases b <;> rfl

theorem bitNat_lt (b : Bool) : bitNat b < 2 := by cases b <;> simp [bitNat]

theorem bitNat_beq (b : Bool) : (bitNat b == 1) = b := by cases b <;> rfl

/-! ### Words of a format as the opcode map sees them -/

theorem decode_R {op : Nat} {p : Pred} {d a b c m : Nat} (hp : p.wf = true) (ho : op % 2 = 0) (hlt : op < 512)
    (hd : d < 4096) (ha : a < 4096) (hb : b < 4096) (hc : c < 4096) (hm : m < 4) :
    ∃ f : Fields, decodeWord (encR op p d a b c m) = decodeOp p f (op / 16) (op / 2 % 8) ∧
      f.d = d ∧ f.a = a ∧ f.b = b ∧ f.c = c ∧ f.m = m :=
  ⟨_, decodeWord_head hp ho hlt (by omega), fields_R ha hb hc hm hd⟩

theorem decode_S {op : Nat} {p : Pred} {d a imm : Nat} (hp : p.wf = true) (ho : op % 2 = 0) (hlt : op < 512)
    (hd : d < 4096) (ha : a < 4096) (hi : imm < 2 ^ 26) :
    ∃ f : Fields, decodeWord (encS op p d a imm) = decodeOp p f (op / 16) (op / 2 % 8) ∧ f.d = d ∧ f.a = a ∧ f.imm = imm :=
  ⟨_, decodeWord_head hp ho hlt (by omega), fields_S ha hi hd⟩

theorem decode_L {op : Nat} {p : Pred} {d m imm : Nat} (hp : p.wf = true) (ho : op % 2 = 0) (hlt : op < 512)
    (hd : d < 4096) (hm : m < 64) (hi : imm < 2 ^ 32) :
    ∃ f : Fields, decodeWord (encL op p d m imm) = decodeOp p f (op / 16) (op / 2 % 8) ∧ f.d = d ∧ f.lmod = m ∧ f.imm32 = imm :=
  ⟨_, decodeWord_head hp ho hlt (by omega), fields_L hm hi hd⟩

theorem decode_M {op : Nat} {p : Pred} {d a land off : Nat} (hp : p.wf = true) (ho : op % 2 = 0) (hlt : op < 512)
    (hd : d < 4096) (ha : a < 4096) (hl : land < 1024) (hf : off < 2 ^ 16) :
    ∃ f : Fields, decodeWord (encM op p d a land off) = decodeOp p f (op / 16) (op / 2 % 8) ∧
      f.d = d ∧ f.a = a ∧ f.land = land ∧ f.off = off :=
  ⟨_, decodeWord_head hp ho hlt (by omega), fields_M ha hl hf hd⟩

theorem decode_B {op : Nat} {p : Pred} {off jn : Nat} (hp : p.wf = true) (ho : op % 2 = 0) (hlt : op < 512)
    (hj : jn < 2 ^ 18) (hf : off < 2 ^ 32) :
    ∃ f : Fields, decodeWord (encB op p off jn) = decodeOp p f (op / 16) (op / 2 % 8) ∧ f.boff = off ∧ f.jn = jn :=
  ⟨_, decodeWord_head hp ho hlt (by omega), fields_B hj hf⟩

theorem decode_E {op : Nat} {p : Pred} {x y z q : Nat} {set : Bool} (hp : p.wf = true) (ho : op % 2 = 0) (hlt : op < 512)
    (hx : x < 4096) (hy : y < 4096) (hz : z < 4096) (hq : q < 2 ^ 13) :
    ∃ f : Fields, decodeWord (encE op p x y z set q) = decodeOp p f (op / 16) (op / 2 % 8) ∧
      f.d = x ∧ f.a = y ∧ f.b = z ∧ f.set = bitNat set ∧ f.q = q :=
  ⟨_, decodeWord_head hp ho hlt (by have := bitNat_lt set; omega), fields_E hx hy hz hq⟩

theorem RoundMode.code_lt (m : RoundMode) : m.code < 4 := by cases m <;> decide
theorem roundOf_code (m : RoundMode) : roundOf m.code = m := by cases m <;> rfl

end Sys2Proof
end

