-- ==== Sys2Proof/Laws/Memory.lean ====
section
/-! SUPPORT. Physical memory: what a write leaves, and that the canonical form is kept. -/

namespace Sys2Proof.Machine

/-! ### Lists with one place changed -/

theorem modAt_length {α : Type} (f : α → α) : ∀ (xs : List α) (n : Nat), (modAt xs n f).length = xs.length
  | [], _ => rfl
  | _ :: _, 0 => rfl
  | x :: xs, n + 1 => by simp [modAt, modAt_length f xs n]

theorem modAt_modAt {α : Type} (f g : α → α) : ∀ (xs : List α) (n : Nat), modAt (modAt xs n f) n g = modAt xs n (fun x => g (f x))
  | [], _ => rfl
  | _ :: _, 0 => rfl
  | x :: xs, n + 1 => by simp [modAt, modAt_modAt f g xs n]

theorem modAt_getD {α : Type} (f : α → α) (g : α → α → α) (d : α) :
    ∀ (xs : List α) (n : Nat), (∀ x, xs.getD n d = x → f x = g x x) → modAt xs n f = modAt xs n (g (xs.getD n d))
  | [], _, _ => rfl
  | x :: xs, 0, h => by simp [modAt, h x rfl]
  | x :: xs, n + 1, h => by
    simp only [modAt, List.cons.injEq, true_and]
    exact modAt_getD f g d xs n h

theorem modAt_id {α : Type} (f : α → α) (d : α) : ∀ (xs : List α) (n : Nat), f (xs.getD n d) = xs.getD n d → modAt xs n f = xs
  | [], _, _ => rfl
  | x :: xs, 0, h => by simp only [List.getD_cons_zero] at h; simp [modAt, h]
  | x :: xs, n + 1, h => by
    simp only [List.getD_cons_succ] at h
    simp [modAt, modAt_id f d xs n h]

/-! ### The canonical form -/

theorem Memory.wfFrom_mono {lo hi : Nat} (h : hi ≤ lo) : ∀ m : List Host.Cell, Memory.wfFrom lo m = true → Memory.wfFrom hi m = true
  | [], _ => rfl
  | (k, b) :: m, w => by
    simp only [Memory.wfFrom, Bool.and_eq_true, decide_eq_true_eq] at w ⊢
    exact ⟨⟨by omega, w.1.2⟩, w.2⟩

theorem Memory.wfFrom_write : ∀ (m : List Host.Cell) (lo a : Nat) (b : Byte), lo ≤ a → Memory.wfFrom lo m = true →
    Memory.wfFrom lo (Memory.write m a b) = true
  | [], lo, a, b, hl, _ => by
    unfold Memory.write
    split
    · rfl
    · next h => simp [Memory.wfFrom, hl, h]
  | (k, c) :: m, lo, a, b, hl, w => by
    simp only [Memory.wfFrom, Bool.and_eq_true, decide_eq_true_eq] at w
    unfold Memory.write
    split
    · next h1 =>
      split
      · simp [Memory.wfFrom, w.1.1, w.2]; simpa using w.1.2
      · next h2 =>
        simp only [Memory.wfFrom, Bool.and_eq_true, decide_eq_true_eq]
        exact ⟨⟨hl, by simpa using h2⟩, ⟨by omega, w.1.2⟩, w.2⟩
    · next h1 =>
      split
      · next h2 =>
        split
        · exact Memory.wfFrom_mono (by omega) m w.2
        · next h3 =>
          simp only [Memory.wfFrom, Bool.and_eq_true, decide_eq_true_eq]
          exact ⟨⟨w.1.1, by simpa using h3⟩, w.2⟩
      · next h2 =>
        simp only [Memory.wfFrom, Bool.and_eq_true, decide_eq_true_eq]
        exact ⟨⟨w.1.1, w.1.2⟩, Memory.wfFrom_write m (k + 1) a b (by omega) w.2⟩

theorem Memory.wf_write {m : List Host.Cell} (a : Nat) (b : Byte) (h : Memory.wf m = true) : Memory.wf (Memory.write m a b) = true :=
  Memory.wfFrom_write m 0 a b (Nat.zero_le a) h

theorem Memory.wf_writeBytes : ∀ (bs : List Byte) (m : List Host.Cell) (a : Nat), Memory.wf m = true →
    Memory.wf (Memory.writeBytes m a bs) = true
  | [], _, _, h => h
  | b :: bs, _, a, h => Memory.wf_writeBytes bs _ (a + 1) (Memory.wf_write a b h)

theorem Memory.wf_foldWrite : ∀ (cs m : List Host.Cell), Memory.wf m = true →
    Memory.wf (cs.foldl (fun m c => Memory.write m c.1 c.2) m) = true
  | [], _, h => h
  | c :: cs, _, h => Memory.wf_foldWrite cs _ (Memory.wf_write c.1 c.2 h)

/-! ### What a write leaves -/

theorem Memory.read_write : ∀ (m : List Host.Cell) (lo a : Nat) (b : Byte) (x : Nat), Memory.wfFrom lo m = true →
    Memory.read (Memory.write m a b) x = if x = a then b else Memory.read m x
  | [], lo, a, b, x, _ => by
    unfold Memory.write
    by_cases hb : b = memDefault
    · rw [if_pos hb]
      split
      · simp [Memory.read, hb]
      · rfl
    · rw [if_neg hb]
      simp only [Memory.read]
      split
      · rfl
      · simp
  | (k, c) :: m, lo, a, b, x, w => by
    simp only [Memory.wfFrom, Bool.and_eq_true, decide_eq_true_eq] at w
    have hlow : ∀ (m : List Host.Cell) (lo x : Nat), x < lo → Memory.wfFrom lo m = true → Memory.read m x = memDefault := by
      intro m lo x hx hw
      cases m with
      | nil => rfl
      | cons y m =>
        obtain ⟨j, d⟩ := y
        simp only [Memory.wfFrom, Bool.and_eq_true, decide_eq_true_eq] at hw
        simp only [Memory.read]
        rw [if_neg (by omega), if_pos (by omega)]
    unfold Memory.write
    split
    · next h1 =>
      split
      · next h2 =>
        split
        · next h3 => subst h3; simp only [Memory.read]; rw [if_neg (by omega), if_pos h1, h2]
        · rfl
      · simp only [Memory.read]
        split
        · rfl
        · next h3 =>
          split
          · next h4 => rw [if_neg (by omega), if_pos (by omega)]
          · rfl
    · next h1 =>
      split
      · next h2 =>
        subst h2
        split
        · next h3 =>
          split
          · next h4 => subst h4; rw [hlow m (x + 1) x (by omega) w.2, h3]
          · next h4 =>
            simp only [Memory.read]
            rw [if_neg h4]
            split
            · exact hlow m _ x (by omega) w.2
            · rfl
        · simp only [Memory.read]
          split
          · rfl
          · rfl
      · next h2 =>
        simp only [Memory.read]
        split
        · next h3 => subst h3; rw [if_neg (by omega)]
        · next h3 =>
          split
          · next h4 => rw [if_neg (by omega)]
          · exact Memory.read_write m (k + 1) a b x w.2

end Sys2Proof.Machine
end

