-- ==== Sys2Proof/Laws/Hierarchy.lean ====
section
/-! SUPPORT. What each operation of the memory hierarchy can change: the memory side of one core (`State.MemorySide`). A meaning
that only goes through these operations leaves everything else of the machine as it was. -/

namespace Sys2Proof.Machine

namespace State

/-! ### The relation -/

theorem MemorySide.refl (core : Nat) (s : State) : s.MemorySide core s := by
  refine ⟨⟨(s.coreAt core).l1, (s.hamAt (hamOf core)).tlb, (s.iss.map Issue.lines).getD [], ?_⟩, id⟩
  have h1 : modAt s.cores core (fun c => { c with l1 := (s.coreAt core).l1 }) = s.cores := modAt_id _ Core.reset _ _ rfl
  have h2 : modAt s.hamlets (hamOf core) (fun h => { h with tlb := (s.hamAt (hamOf core)).tlb }) = s.hamlets :=
    modAt_id _ Hamlet.reset _ _ rfl
  have h3 : (s.iss.map fun q => { q with lines := (s.iss.map Issue.lines).getD [] }) = s.iss := by cases s.iss <;> rfl
  rw [h1, h2, h3]

theorem MemorySide.trans {core : Nat} {s t u : State} (h1 : s.MemorySide core t) (h2 : t.MemorySide core u) :
    s.MemorySide core u := by
  obtain ⟨⟨l1, tlb, lines, e1⟩, w1⟩ := h1
  obtain ⟨⟨l1', tlb', lines', e2⟩, w2⟩ := h2
  refine ⟨⟨l1', tlb', lines', ?_⟩, fun h => w2 (w1 h)⟩
  have c : modAt t.cores core (fun c => { c with l1 := l1' }) = modAt s.cores core (fun c => { c with l1 := l1' }) := by
    rw [e1]; exact modAt_modAt _ _ _ _
  have h : modAt t.hamlets (hamOf core) (fun h => { h with tlb := tlb' }) =
      modAt s.hamlets (hamOf core) (fun h => { h with tlb := tlb' }) := by
    rw [e1]; exact modAt_modAt _ _ _ _
  have i : (t.iss.map fun q => { q with lines := lines' }) = s.iss.map fun q => { q with lines := lines' } := by
    rw [e1]; cases s.iss <;> rfl
  rw [c, h, i] at e2
  rw [e2]
  have e1' := e1
  rw [e1']

/-- Only the tables of the caches' knowledge change. -/
theorem MemorySide.of_tables (core : Nat) (s : State) (hp lp : List Nat) (l2 : List L2Line) (cs : List (List Nat)) (ev : List Evict)
    (n : Nat) :
    s.MemorySide core { s with hbmPoison := hp, l2Poison := lp, l2 := l2, counters := cs, evictions := ev, fresh := n } := by
  obtain ⟨⟨l1, tlb, lines, e⟩, -⟩ := MemorySide.refl core s
  refine ⟨⟨l1, tlb, lines, ?_⟩, id⟩
  have e1 : s.cores = modAt s.cores core fun c => { c with l1 := l1 } := congrArg State.cores e
  have e2 : s.hamlets = modAt s.hamlets (hamOf core) fun h => { h with tlb := tlb } := congrArg State.hamlets e
  have e3 : s.iss = s.iss.map fun q => { q with lines := lines } := congrArg State.iss e
  rw [← e1, ← e2, ← e3]

theorem MemorySide.of_mem (core : Nat) (s : State) (m : List Host.Cell) (h : Memory.wf s.mem = true → Memory.wf m = true) :
    s.MemorySide core { s with mem := m } := by
  obtain ⟨⟨l1, tlb, lines, e⟩, -⟩ := MemorySide.refl core s
  refine ⟨⟨l1, tlb, lines, ?_⟩, h⟩
  have e1 : s.cores = modAt s.cores core fun c => { c with l1 := l1 } := congrArg State.cores e
  have e2 : s.hamlets = modAt s.hamlets (hamOf core) fun h => { h with tlb := tlb } := congrArg State.hamlets e
  have e3 : s.iss = s.iss.map fun q => { q with lines := lines } := congrArg State.iss e
  rw [← e1, ← e2, ← e3]

theorem MemorySide.of_hostWrites (core : Nat) (s : State) (ws : List (Nat × Byte)) :
    s.MemorySide core { s with host := { s.host with hostWrites := ws } } := by
  obtain ⟨⟨l1, tlb, lines, e⟩, -⟩ := MemorySide.refl core s
  refine ⟨⟨l1, tlb, lines, ?_⟩, id⟩
  have e1 : s.cores = modAt s.cores core fun c => { c with l1 := l1 } := congrArg State.cores e
  have e2 : s.hamlets = modAt s.hamlets (hamOf core) fun h => { h with tlb := tlb } := congrArg State.hamlets e
  have e3 : s.iss = s.iss.map fun q => { q with lines := lines } := congrArg State.iss e
  rw [← e1, ← e2, ← e3]

theorem MemorySide.of_l1 (core : Nat) (s : State) (g : List L1Line → List L1Line) :
    s.MemorySide core (s.modCore core fun c => { c with l1 := g c.l1 }) := by
  obtain ⟨⟨l1, tlb, lines, e⟩, -⟩ := MemorySide.refl core s
  refine ⟨⟨g (s.coreAt core).l1, tlb, lines, ?_⟩, id⟩
  have e1 : modAt s.cores core (fun c => { c with l1 := g c.l1 }) = modAt s.cores core fun c => { c with l1 := g (s.coreAt core).l1 } :=
    modAt_getD _ (fun x c => { c with l1 := g x.l1 }) Core.reset _ _ (fun _ _ => rfl)
  have e2 : s.hamlets = modAt s.hamlets (hamOf core) fun h => { h with tlb := tlb } := congrArg State.hamlets e
  have e3 : s.iss = s.iss.map fun q => { q with lines := lines } := congrArg State.iss e
  unfold State.modCore
  rw [e1, ← e2, ← e3]

theorem MemorySide.of_tlb (core : Nat) (s : State) (g : List TlbEntry → List TlbEntry) (n : Nat) :
    s.MemorySide core { s.modHam (hamOf core) (fun h => { h with tlb := g h.tlb }) with fresh := n } := by
  obtain ⟨⟨l1, tlb, lines, e⟩, -⟩ := MemorySide.refl core s
  refine ⟨⟨l1, g (s.hamAt (hamOf core)).tlb, lines, ?_⟩, id⟩
  have e1 : s.cores = modAt s.cores core fun c => { c with l1 := l1 } := congrArg State.cores e
  have e2 : modAt s.hamlets (hamOf core) (fun h => { h with tlb := g h.tlb }) =
      modAt s.hamlets (hamOf core) fun h => { h with tlb := g (s.hamAt (hamOf core)).tlb } :=
    modAt_getD _ (fun x h => { h with tlb := g x.tlb }) Hamlet.reset _ _ (fun _ _ => rfl)
  have e3 : s.iss = s.iss.map fun q => { q with lines := lines } := congrArg State.iss e
  unfold State.modHam
  rw [← e1, e2, ← e3]

theorem MemorySide.of_lines (core : Nat) (s : State) (g : Issue → List Nat) :
    s.MemorySide core { s with iss := s.iss.map fun q => { q with lines := g q } } := by
  obtain ⟨⟨l1, tlb, lines, e⟩, -⟩ := MemorySide.refl core s
  refine ⟨⟨l1, tlb, (s.iss.map g).getD [], ?_⟩, id⟩
  have e1 : s.cores = modAt s.cores core fun c => { c with l1 := l1 } := congrArg State.cores e
  have e2 : s.hamlets = modAt s.hamlets (hamOf core) fun h => { h with tlb := tlb } := congrArg State.hamlets e
  have e3 : (s.iss.map fun q => { q with lines := (s.iss.map g).getD [] }) = s.iss.map fun q => { q with lines := g q } := by
    cases s.iss <;> rfl
  rw [← e1, ← e2, e3]

/-- A fold of operations that each stay on the memory side. -/
theorem MemorySide.fold {core : Nat} {α : Type} (f : State → α → State) (h : ∀ (s : State) (x : α), s.MemorySide core (f s x)) :
    ∀ (xs : List α) (s : State), s.MemorySide core (xs.foldl f s)
  | [], s => MemorySide.refl core s
  | x :: xs, s => (h s x).trans (MemorySide.fold f h xs (f s x))

/-! ### At home -/

theorem l2Drop_side (core : Nat) (s : State) (l : L2Line) : s.MemorySide core (s.l2Drop l) := by
  unfold State.l2Drop
  dsimp only
  split
  · exact MemorySide.of_tables core s s.hbmPoison s.l2Poison _ s.counters s.evictions s.fresh
  · exact MemorySide.of_tables core s _ _ _ s.counters s.evictions s.fresh

theorem countBy_side (core : Nat) (s : State) (t k n : Nat) : s.MemorySide core (s.countBy t k n) :=
  MemorySide.of_tables core s s.hbmPoison s.l2Poison s.l2 _ s.evictions s.fresh

theorem countIf_side (core : Nat) (s : State) (b : Traffic) (t k : Nat) : s.MemorySide core (s.countIf b t k) := by
  unfold State.countIf
  split
  · exact countBy_side core s t k 1
  · exact MemorySide.refl core s

theorem countEvict_side (core : Nat) (s : State) (b : Traffic) (t : Nat) (v : L2Line) : s.MemorySide core (s.countEvict b t v) := by
  unfold State.countEvict
  split
  · exact countIf_side core s b t 8
  · exact MemorySide.of_tables core s s.hbmPoison s.l2Poison s.l2 s.counters _ s.fresh

theorem l2Fill_side (core : Nat) (s : State) (b : Traffic) (t slice line : Nat) (w st : Bool) :
    s.MemorySide core (s.l2Fill b t slice line w st) := by
  unfold State.l2Fill
  dsimp only
  split
  · exact MemorySide.refl core s
  · refine MemorySide.trans ?_ (MemorySide.of_tables core _ _ _ _ (State.counters _) (State.evictions _) (State.fresh _))
    split
    · exact (countEvict_side core s b t _).trans (l2Drop_side core _ _)
    · exact MemorySide.refl core s

theorem l2Access_side (core : Nat) (s : State) (b : Traffic) (t slice pa : Nat) (w st : Bool) :
    s.MemorySide core (s.l2Access b t slice pa w st) := by
  unfold State.l2Access
  dsimp only
  split
  · split
    · exact MemorySide.of_tables core s s.hbmPoison s.l2Poison _ s.counters s.evictions s.fresh
    · exact MemorySide.trans (MemorySide.of_tables core s s.hbmPoison s.l2Poison _ s.counters s.evictions s.fresh) (countIf_side core _ _ _ _)
  · split
    · exact MemorySide.refl core s
    · exact ((MemorySide.fold _ (fun s l => l2Drop_side core s l) _ s).trans (countIf_side core _ _ _ _)).trans (l2Fill_side core _ _ _ _ _ _ _)

theorem homeRead_side (core : Nat) (s : State) (b : Traffic) (t slice : Nat) (st : Bool) (pa n : Nat) :
    s.MemorySide core (s.homeRead b t slice st pa n).2 := by
  unfold State.homeRead
  split
  · exact l2Access_side core s b t slice pa false st
  · exact MemorySide.of_tables core s s.hbmPoison s.l2Poison s.l2 s.counters s.evictions _

theorem homePut_side (core : Nat) (s : State) (b : Traffic) (t slice : Nat) (st : Bool) (cs : List Host.Cell) :
    s.MemorySide core (s.homePut b t slice st cs) := by
  unfold State.homePut
  cases cs with
  | nil => exact MemorySide.refl core s
  | cons c cs =>
    obtain ⟨pa, v⟩ := c
    dsimp only
    split
    · exact MemorySide.of_hostWrites core s _
    · split
      · exact MemorySide.refl core s
      · have h := (l2Access_side core s b t slice pa true st).trans (MemorySide.of_mem core (s.l2Access b t slice pa true st)
          (((pa, v) :: cs).foldl (fun m c => Memory.write m c.1 c.2) (s.l2Access b t slice pa true st).mem)
          (Memory.wf_foldWrite ((pa, v) :: cs) _))
        split
        · exact h
        · split
          · exact h.trans (MemorySide.of_tables core _ (State.hbmPoison _) _ (State.l2 _) (State.counters _) (State.evictions _) (State.fresh _))
          · exact h.trans (MemorySide.of_tables core _ _ (State.l2Poison _) (State.l2 _) (State.counters _) (State.evictions _) (State.fresh _))

/-! ### Translation -/

theorem tlbFill_side (s : State) (w : Who) (va : Nat) (leaf : DWord) (size : Nat) : s.MemorySide w.core (s.tlbFill w va leaf size) := by
  let new : TlbEntry := { tenant := w.tenant, asid := w.asid, page := va / size * size, size := size, leaf := leaf }
  unfold State.tlbFill
  dsimp only
  split
  · exact MemorySide.refl _ s
  · split
    · split
      · rename_i v _
        exact MemorySide.of_tlb w.core s (fun t => new :: t.filter fun e => !(e == v)) (s.fresh + 1)
      · exact MemorySide.refl _ s
    · split
      · split
        · rename_i v _
          exact MemorySide.of_tlb w.core s (fun t => new :: t.filter fun e => !(e == v)) (s.fresh + 1)
        · exact MemorySide.refl _ s
      · exact MemorySide.of_tlb w.core s (fun t => new :: t) s.fresh

theorem walkTouch_side (s : State) (w : Who) (va : Nat) : s.MemorySide w.core (s.walkTouch w va) := by
  unfold State.walkTouch
  refine MemorySide.fold _ (fun s pa => ?_) _ s
  split
  · exact l2Access_side _ s _ _ _ _ _ _
  · exact MemorySide.refl _ s

theorem xlatFill_side (s : State) (w : Who) (va : Nat) : s.MemorySide w.core (s.xlatFill w va).2 := by
  unfold State.xlatFill
  split
  · exact MemorySide.refl _ s
  · split
    · exact (walkTouch_side s w va).trans (tlbFill_side _ w va _ _)
    · exact walkTouch_side s w va

theorem request_side (core : Nat) (s : State) (line : Nat) : s.MemorySide core (s.request line).2 := by
  unfold State.request
  cases h : s.iss with
  | none => exact MemorySide.refl core s
  | some q =>
    dsimp only
    split
    · exact MemorySide.refl core s
    · have := MemorySide.of_lines core s fun q => line :: q.lines
      rw [h] at this
      exact this

/-! ### The L1 -/

theorem l1Drop_side (s : State) (core : Nat) (l : L1Line) : s.MemorySide core (s.l1Drop core l) := MemorySide.of_l1 core s _

theorem l1Put_side (s : State) (core : Nat) (l : L1Line) : s.MemorySide core (s.l1Put core l) := MemorySide.of_l1 core s _

theorem markHome_side (core : Nat) (s : State) (line : Nat) (ws : List Nat) : s.MemorySide core (s.markHome line ws) := by
  unfold State.markHome
  split
  · exact MemorySide.of_tables core s s.hbmPoison _ s.l2 s.counters s.evictions s.fresh
  · exact MemorySide.of_tables core s _ s.l2Poison s.l2 s.counters s.evictions s.fresh

theorem writeBack_side (s : State) (core : Nat) (l : L1Line) : s.MemorySide core (s.writeBack core l) := by
  unfold State.writeBack
  dsimp only
  split
  · exact MemorySide.refl core s
  · have h := homePut_side core s .silent l.tenant l.slice false l.dirtyCells
    split
    · exact h.trans (MemorySide.of_l1 core _ _)
    · exact (h.trans (markHome_side core _ _ _)).trans (MemorySide.of_l1 core _ _)

theorem flushLine_side (s : State) (core : Nat) (l : L1Line) : s.MemorySide core (s.flushLine core l) :=
  (writeBack_side s core l).trans (l1Drop_side _ core _)

theorem writeBackIf_side (s : State) (core : Nat) (p : L1Line → Bool) : s.MemorySide core (s.writeBackIf core p) :=
  MemorySide.fold _ (fun s l => writeBack_side s core l) _ s

theorem flushIf_side (s : State) (core : Nat) (p : L1Line → Bool) : s.MemorySide core (s.flushIf core p) :=
  MemorySide.fold _ (fun s l => flushLine_side s core l) _ s

theorem dropSynonyms_side (s : State) (core pa tag asid tenant : Nat) : s.MemorySide core (s.dropSynonyms core pa tag asid tenant) :=
  flushIf_side s core _

theorem passL1_side (s : State) (core pa : Nat) : s.MemorySide core (s.passL1 core pa) := flushIf_side s core _

theorem markStale_side (s : State) (core ctx : Nat) : s.MemorySide core (s.markStale core ctx) := MemorySide.of_l1 core s _

theorem l1Room_side (s : State) (core tenant tag : Nat) : s.MemorySide core (s.l1Room core tenant tag) := by
  unfold State.l1Room
  exact MemorySide.fold _ (fun s l => flushLine_side s core l) _ s

theorem l1Fill_side (s : State) (w : Who) (va : Nat) (leaf : DWord) (size : Nat) : s.MemorySide w.core (s.l1Fill w va leaf size).2 := by
  unfold State.l1Fill
  dsimp only
  refine MemorySide.trans ?_ (l1Put_side _ _ _)
  refine MemorySide.trans ?_ (homeRead_side _ _ _ _ _ _ _ _)
  have h := ((request_side w.core s (va / 128)).trans (dropSynonyms_side _ w.core (paOf leaf size va / 128) (va / 128) w.asid w.tenant)).trans
    (countIf_side w.core _ (s.request (va / 128)).1 w.tenant 4)
  split
  · exact h
  · exact h.trans (l1Room_side _ _ _ _)

theorem laneRead_side (s : State) (w : Who) (va n : Nat) : s.MemorySide w.core (s.laneRead w va n).2 := by
  have hx := xlatFill_side s w va
  have miss : s.MemorySide w.core (match s.xlatFill w va with
    | (.ok leaf size, s1) =>
      if leafStrm leaf || decide (hostBase ≤ paOf leaf size va) || s.l1Ways w.core w.tenant == 0 then
        let pa := paOf leaf size va
        let (req, s2) := s1.request (va / 128)
        ((s2.passL1 w.core pa).countIf req w.tenant 4).homeRead req w.tenant (homeSlice leaf size va pa) (leafStrm leaf) pa n
      else
        let (l, s2) := s1.l1Fill w va leaf size
        (((l.data.drop (va % 128)).take n, l.poisoned (va % 128) n), s2)
    | (_, s1) => (([], false), s1)).2 := by
    revert hx
    generalize s.xlatFill w va = x
    obtain ⟨x, s1⟩ := x
    intro hx
    cases x with
    | ok leaf size =>
      dsimp only
      split
      · exact (((hx.trans (request_side _ _ _)).trans (passL1_side _ _ _)).trans (countIf_side _ _ _ _ _)).trans
          (homeRead_side _ _ _ _ _ _ _ _)
      · exact hx.trans (l1Fill_side _ w va leaf size)
    | fault => exact hx
    | bad => exact hx
  unfold State.laneRead
  dsimp only
  split
  · split
    · exact l1Put_side s _ _
    · exact miss
  · exact miss

theorem laneWrite_side (s : State) (w : Who) (va : Nat) (bs : List Byte) : s.MemorySide w.core (s.laneWrite w va bs) := by
  have hx := xlatFill_side s w va
  have miss : s.MemorySide w.core (match s.xlatFill w va with
    | (.ok leaf size, s1) =>
      let pa := paOf leaf size va
      let slice := homeSlice leaf size va pa
      if leafStrm leaf || decide (hostBase ≤ pa) || s.l1Ways w.core w.tenant == 0 then
        let (req, s2) := s1.request (va / 128)
        ((s2.passL1 w.core pa).countIf req w.tenant 4).homePut req w.tenant slice (leafStrm leaf) (cellsFrom pa bs)
      else
        let (req, s0) := s1.request (va / 128)
        let s2 := (s0.dropSynonyms w.core (pa / 128) (va / 128) w.asid w.tenant).countIf req w.tenant 4
        match s2.l1Find w va with
        | some l => s2.l1Put w.core ({ l with leaf := leaf, size := size }.store (va % 128) bs)
        | none => (s2.l1Room w.core w.tenant (va / 128)).l1Put w.core ((L1Line.blank w va pa slice leaf size).store (va % 128) bs)
    | (_, s1) => s1) := by
    revert hx
    generalize s.xlatFill w va = x
    obtain ⟨x, s1⟩ := x
    intro hx
    cases x with
    | ok leaf size =>
      dsimp only
      split
      · exact (((hx.trans (request_side _ _ _)).trans (passL1_side _ _ _)).trans (countIf_side _ _ _ _ _)).trans
          (homePut_side _ _ _ _ _ _ _)
      · have h := ((hx.trans (request_side w.core s1 (va / 128))).trans (dropSynonyms_side _ w.core (paOf leaf size va / 128)
            (va / 128) w.asid w.tenant)).trans
            (countIf_side w.core _ (s1.request (va / 128)).1 w.tenant 4)
        split
        · exact h.trans (l1Put_side _ _ _)
        · exact (h.trans (l1Room_side _ _ _ _)).trans (l1Put_side _ _ _)
    | fault => exact hx
    | bad => exact hx
  unfold State.laneWrite
  dsimp only
  split
  · split
    · exact l1Put_side s _ _
    · exact miss
  · exact miss

theorem readAtHome_side (s : State) (b : Traffic) (w : Who) (va n : Nat) : s.MemorySide w.core (s.readAtHome b w va n).2 := by
  have hx := xlatFill_side s w va
  unfold State.readAtHome
  revert hx
  generalize s.xlatFill w va = x
  obtain ⟨x, s1⟩ := x
  intro hx
  cases x with
  | ok leaf size => exact hx.trans (homeRead_side _ _ _ _ _ _ _ _)
  | fault => exact hx
  | bad => exact hx

theorem writeAtHome_side (s : State) (b : Traffic) (w : Who) (va : Nat) (bs : List Byte) : s.MemorySide w.core (s.writeAtHome b w va bs) := by
  have hx := xlatFill_side s w va
  unfold State.writeAtHome
  revert hx
  generalize s.xlatFill w va = x
  obtain ⟨x, s1⟩ := x
  intro hx
  cases x with
  | ok leaf size => exact hx.trans (homePut_side _ _ _ _ _ _ _)
  | fault => exact hx
  | bad => exact hx

theorem phaseAt_side (s : State) (core ctx : Nat) (k : Scope) : s.MemorySide core (s.phaseAt core ctx k) := by
  unfold State.phaseAt
  split
  · exact MemorySide.refl core s
  · exact MemorySide.refl core s
  · exact (writeBackIf_side s core _).trans (markStale_side _ core ctx)

/-! ### Lane accesses -/

theorem readScoped_side (s : State) (w : Who) (sc : Option Scope) (a n : Nat) : s.MemorySide w.core (s.readScoped w sc a n).2 := by
  unfold State.readScoped
  split
  · exact laneRead_side s w a n
  · exact laneRead_side s w a n
  · exact laneRead_side s w a n
  · exact (((request_side _ s _).trans (writeBackIf_side _ _ _)).trans (countIf_side _ _ _ _ _)).trans (readAtHome_side _ _ w a n)

theorem acquire_side (s : State) (w : Who) (sc : Option Scope) : s.MemorySide w.core (s.acquire w sc) := by
  unfold State.acquire
  split
  · exact MemorySide.refl _ s
  · exact MemorySide.refl _ s
  · exact MemorySide.refl _ s
  · exact markStale_side s _ _

theorem readLanes_side (w : Who) (sc : Option Scope) (n : Nat) (d : Dst) : ∀ (xs : List (Nat × Nat)) (s : State),
    s.MemorySide w.core (s.readLanes w sc n d xs).2
  | [], s => MemorySide.refl _ s
  | (c, a) :: xs, s => by
    unfold State.readLanes
    exact (readScoped_side s w sc a n).trans (readLanes_side w sc n d xs _)

theorem release_side (s : State) (r : Resident) (sc : Option Scope) : s.MemorySide r.core (s.release r sc) := by
  unfold State.release
  split
  · exact MemorySide.refl _ s
  · exact phaseAt_side s _ _ _

theorem l1Patch_side (s : State) (w : Who) (a : Nat) (bs : List Byte) : s.MemorySide w.core (s.l1Patch w a bs) := MemorySide.of_l1 w.core s _

theorem doStore_global_side (s : State) (r : Resident) (st : PendStore) (h : st.sp = .g) : s.MemorySide r.core (s.doStore r st) := by
  unfold State.doStore
  rw [h]
  dsimp only
  split
  · exact (((request_side _ s _).trans (countIf_side _ _ _ _ _)).trans (writeAtHome_side _ _ (s.who r) _ _)).trans
      (l1Patch_side _ (s.who r) _ _)
  · exact laneWrite_side s (s.who r) _ _

theorem translate_side (s : State) (w : Who) (home : Bool) (kind n va : Nat) : s.MemorySide w.core (s.translate w home kind n va) := by
  unfold State.translate
  split
  · exact MemorySide.refl _ s
  · exact xlatFill_side s w va

theorem prefetch_side (s : State) (r : Resident) (l2 : Bool) (a : Nat) : s.MemorySide r.core (s.prefetch r l2 a) := by
  unfold State.prefetch
  dsimp only
  split
  · split
    · exact translate_side s (s.who r) _ _ _ _
    · split
      · exact ((request_side _ s _).trans (countIf_side _ _ _ _ _)).trans (readAtHome_side _ _ (s.who r) _ _)
      · exact laneRead_side s (s.who r) _ _
  · exact translate_side s (s.who r) _ _ _ _

end State

end Sys2Proof.Machine
end

