-- ==== Sys2Proof/Laws/Flush.lean ====
section
/-! SUPPORT. What the accesses that store nothing do to memory: only bytes that the core's L1 held dirty change, each to the value held
there (`State.ReadSide`). -/

namespace Sys2Proof.Machine

namespace State

/-! ### The relation -/

theorem ReadSide.trans {core : Nat} {s t u : State} (h1 : s.ReadSide core t) (h2 : t.ReadSide core u) : s.ReadSide core u := by
  obtain ⟨m1, r1, d1⟩ := h1
  obtain ⟨m2, r2, d2⟩ := h2
  refine ⟨m1.trans m2, fun hw a => ?_, fun a b h => d1 a b (d2 a b h)⟩
  rcases r2 (m1.2 hw) a with h | h
  · rcases r1 hw a with h' | h'
    · exact .inl (h.trans h')
    · exact .inr (h ▸ h')
  · exact .inr (d1 _ _ h)

/-- Neither memory nor a core changes. -/
theorem ReadSide.of_quiet {core : Nat} {s t : State} (h : s.MemorySide core t) (hm : t.mem = s.mem) (hc : t.cores = s.cores) :
    s.ReadSide core t := by
  refine ⟨h, fun _ a => .inl (by rw [hm]), fun a b hd => ?_⟩
  unfold State.DirtyByte State.coreAt at *
  rwa [hc] at hd

theorem ReadSide.refl (core : Nat) (s : State) : s.ReadSide core s := .of_quiet (MemorySide.refl core s) rfl rfl

theorem ReadSide.fold {core : Nat} {α : Type} (f : State → α → State) (h : ∀ (s : State) (x : α), s.ReadSide core (f s x)) :
    ∀ (xs : List α) (s : State), s.ReadSide core (xs.foldl f s)
  | [], s => .refl core s
  | x :: xs, s => (h s x).trans (ReadSide.fold f h xs (f s x))

theorem modAt_getD_self {α : Type} (f : α → α) (d : α) :
    ∀ (xs : List α) (n : Nat), (modAt xs n f).getD n d = if n < xs.length then f (xs.getD n d) else d
  | [], n => by simp [modAt]
  | x :: xs, 0 => by simp [modAt]
  | x :: xs, n + 1 => by simpa [modAt] using modAt_getD_self f d xs n

/-- A line's dirty bytes are dirty bytes of another line, with the same values. -/
def Within (l l' : L1Line) : Prop :=
  l'.pa = l.pa ∧ ∀ k < 128, l.dirty.getLsbD k = true → l'.dirty.getLsbD k = true ∧ l'.data.getD k 0 = l.data.getD k 0

theorem Within.refl (l : L1Line) : Within l l := ⟨rfl, fun _ _ h => ⟨h, rfl⟩⟩

/-- A change of the L1 that makes no byte dirty. -/
theorem ReadSide.of_l1 (core : Nat) (s : State) (g : List L1Line → List L1Line)
    (h : ∀ l ∈ g (s.coreAt core).l1, ∃ l' ∈ (s.coreAt core).l1, Within l l') :
    s.ReadSide core (s.modCore core fun c => { c with l1 := g c.l1 }) := by
  refine ⟨MemorySide.of_l1 core s g, fun _ a => .inl rfl, fun a b hd => ?_⟩
  obtain ⟨l, hl, k, hk, hb, ha, hv⟩ := hd
  have he : (s.modCore core fun c => { c with l1 := g c.l1 }).coreAt core =
      if core < s.cores.length then { s.coreAt core with l1 := g (s.coreAt core).l1 } else Core.reset := modAt_getD_self _ _ _ _
  rw [he] at hl
  split at hl
  · obtain ⟨l', hl', hp, hw⟩ := h l hl
    exact ⟨l', hl', k, hk, (hw k hk hb).1, by rw [hp, ha], by rw [hv, (hw k hk hb).2]⟩
  · simp [Core.reset] at hl

theorem ReadSide.of_filter (core : Nat) (s : State) (p : L1Line → Bool) :
    s.ReadSide core (s.modCore core fun c => { c with l1 := c.l1.filter p }) :=
  .of_l1 core s _ fun l hl => ⟨l, (List.mem_filter.mp hl).1, Within.refl l⟩

theorem ReadSide.of_map (core : Nat) (s : State) (f : L1Line → L1Line) (h : ∀ l, Within (f l) l) :
    s.ReadSide core (s.modCore core fun c => { c with l1 := c.l1.map f }) :=
  .of_l1 core s _ fun l hl => by
    obtain ⟨l', hl', rfl⟩ := List.mem_map.mp hl
    exact ⟨l', hl', h l'⟩

/-! ### At home -/

theorem l2Drop_quiet (s : State) (l : L2Line) : (s.l2Drop l).mem = s.mem ∧ (s.l2Drop l).cores = s.cores := by
  unfold State.l2Drop; dsimp only; split <;> exact ⟨rfl, rfl⟩

theorem countIf_quiet (s : State) (b : Traffic) (t k : Nat) : (s.countIf b t k).mem = s.mem ∧ (s.countIf b t k).cores = s.cores := by
  unfold State.countIf; split <;> exact ⟨rfl, rfl⟩

theorem countEvict_quiet (s : State) (b : Traffic) (t : Nat) (v : L2Line) :
    (s.countEvict b t v).mem = s.mem ∧ (s.countEvict b t v).cores = s.cores := by
  unfold State.countEvict
  split
  · exact countIf_quiet _ _ _ _
  · exact ⟨rfl, rfl⟩

theorem l2Fill_quiet (s : State) (b : Traffic) (t slice line : Nat) (w st : Bool) :
    (s.l2Fill b t slice line w st).mem = s.mem ∧ (s.l2Fill b t slice line w st).cores = s.cores := by
  unfold State.l2Fill
  dsimp only
  split
  · exact ⟨rfl, rfl⟩
  · split
    · exact ⟨(l2Drop_quiet _ _).1.trans (countEvict_quiet _ _ _ _).1, (l2Drop_quiet _ _).2.trans (countEvict_quiet _ _ _ _).2⟩
    · exact ⟨rfl, rfl⟩

theorem fold_quiet {α : Type} (f : State → α → State) (h : ∀ s x, (f s x).mem = s.mem ∧ (f s x).cores = s.cores) :
    ∀ (xs : List α) (s : State), (xs.foldl f s).mem = s.mem ∧ (xs.foldl f s).cores = s.cores
  | [], _ => ⟨rfl, rfl⟩
  | x :: xs, s => ⟨(fold_quiet f h xs (f s x)).1.trans (h s x).1, (fold_quiet f h xs (f s x)).2.trans (h s x).2⟩

theorem l2Access_quiet (s : State) (b : Traffic) (t slice pa : Nat) (w st : Bool) :
    (s.l2Access b t slice pa w st).mem = s.mem ∧ (s.l2Access b t slice pa w st).cores = s.cores := by
  unfold State.l2Access
  dsimp only
  split
  · split
    · exact ⟨rfl, rfl⟩
    · exact countIf_quiet _ _ _ _
  · split
    · exact ⟨rfl, rfl⟩
    have h := fold_quiet _ l2Drop_quiet (s.l2.filter fun l => l.line == pa / 128 && l.slice == slice) s
    exact ⟨((l2Fill_quiet _ _ _ _ _ _ _).1.trans (countIf_quiet _ _ _ _).1).trans h.1,
      ((l2Fill_quiet _ _ _ _ _ _ _).2.trans (countIf_quiet _ _ _ _).2).trans h.2⟩

theorem countIf_reads (core : Nat) (s : State) (b : Traffic) (t k : Nat) : s.ReadSide core (s.countIf b t k) :=
  .of_quiet (countIf_side core s b t k) (countIf_quiet s b t k).1 (countIf_quiet s b t k).2

theorem homeRead_reads (core : Nat) (s : State) (b : Traffic) (t slice : Nat) (st : Bool) (pa n : Nat) :
    s.ReadSide core (s.homeRead b t slice st pa n).2 := by
  refine .of_quiet (homeRead_side core s b t slice st pa n) ?_ ?_ <;> unfold State.homeRead <;> split
  · exact (l2Access_quiet _ _ _ _ _ _ _).1
  · rfl
  · exact (l2Access_quiet _ _ _ _ _ _ _).2
  · rfl

/-- After several writes a byte is as before, or one of those written. -/
theorem Memory.read_foldWrite : ∀ (cs m : List Host.Cell), Memory.wf m = true → ∀ x,
    Memory.read (cs.foldl (fun m c => Memory.write m c.1 c.2) m) x = Memory.read m x ∨
      (x, Memory.read (cs.foldl (fun m c => Memory.write m c.1 c.2) m) x) ∈ cs
  | [], m, _, x => .inl rfl
  | (a, b) :: cs, m, h, x => by
    have hw := Memory.wf_write a b h
    rcases Memory.read_foldWrite cs (Memory.write m a b) hw x with h1 | h1
    · have h2 : Memory.read (Memory.write m a b) x = if x = a then b else Memory.read m x := Memory.read_write m 0 a b x h
      by_cases hx : x = a
      · refine .inr ?_
        have e : Memory.read (List.foldl (fun m c => Memory.write m c.1 c.2) m ((a, b) :: cs)) x = b := by
          rw [List.foldl_cons, h1, h2, if_pos hx]
        rw [e, hx]
        exact List.mem_cons_self
      · exact .inl (by simp only [List.foldl_cons, h1, h2, hx, if_false])
    · exact .inr (List.mem_cons_of_mem _ h1)

theorem homePut_read (s : State) (b : Traffic) (t slice : Nat) (st : Bool) (cs : List Host.Cell) (h : Memory.wf s.mem = true) (x : Nat) :
    Memory.read (s.homePut b t slice st cs).mem x = Memory.read s.mem x ∨ (x, Memory.read (s.homePut b t slice st cs).mem x) ∈ cs := by
  unfold State.homePut
  cases cs with
  | nil => exact .inl rfl
  | cons c cs =>
    obtain ⟨pa, v⟩ := c
    dsimp only
    split
    · exact .inl rfl
    · split
      · exact .inl rfl
      · have hm := (l2Access_quiet s b t slice pa true st).1
        have key := Memory.read_foldWrite ((pa, v) :: cs) s.mem h x
        rw [← hm] at key
        rw [hm] at key
        split
        · simpa only [hm] using key
        · split <;> simpa only [hm] using key

theorem markHome_quiet (s : State) (line : Nat) (ws : List Nat) :
    (s.markHome line ws).mem = s.mem ∧ (s.markHome line ws).cores = s.cores := by
  unfold State.markHome; split <;> exact ⟨rfl, rfl⟩

theorem homePut_cores (s : State) (b : Traffic) (t slice : Nat) (st : Bool) (cs : List Host.Cell) : (s.homePut b t slice st cs).cores = s.cores := by
  unfold State.homePut
  cases cs with
  | nil => rfl
  | cons c cs =>
    obtain ⟨pa, v⟩ := c
    dsimp only
    split
    · rfl
    · split
      · rfl
      · have hm := (l2Access_quiet s b t slice pa true st).2
        split
        · exact hm
        · split <;> exact hm

/-! ### Translation -/

theorem tlbFill_quiet (s : State) (w : Who) (va : Nat) (leaf : DWord) (size : Nat) :
    (s.tlbFill w va leaf size).mem = s.mem ∧ (s.tlbFill w va leaf size).cores = s.cores := by
  unfold State.tlbFill
  dsimp only
  repeat' split
  all_goals exact ⟨rfl, rfl⟩

theorem walkTouch_quiet (s : State) (w : Who) (va : Nat) : (s.walkTouch w va).mem = s.mem ∧ (s.walkTouch w va).cores = s.cores := by
  unfold State.walkTouch
  refine fold_quiet _ (fun s pa => ?_) _ s
  split
  · exact l2Access_quiet _ _ _ _ _ _ _
  · exact ⟨rfl, rfl⟩

theorem xlatFill_reads (s : State) (w : Who) (va : Nat) : s.ReadSide w.core (s.xlatFill w va).2 := by
  refine .of_quiet (xlatFill_side s w va) ?_ ?_ <;> unfold State.xlatFill <;> split <;> first | rfl | split
  · exact (tlbFill_quiet _ _ _ _ _).1.trans (walkTouch_quiet _ _ _).1
  · exact (walkTouch_quiet _ _ _).1
  · exact (tlbFill_quiet _ _ _ _ _).2.trans (walkTouch_quiet _ _ _).2
  · exact (walkTouch_quiet _ _ _).2

theorem translate_reads (s : State) (w : Who) (home : Bool) (kind n va : Nat) : s.ReadSide w.core (s.translate w home kind n va) := by
  unfold State.translate
  split
  · exact .refl _ s
  · exact xlatFill_reads s w va

theorem request_reads (core : Nat) (s : State) (line : Nat) : s.ReadSide core (s.request line).2 := by
  refine .of_quiet (request_side core s line) ?_ ?_ <;> unfold State.request <;> split <;> first | rfl | split <;> rfl

/-! ### The L1 -/

theorem l1Drop_reads (s : State) (core : Nat) (l : L1Line) : s.ReadSide core (s.l1Drop core l) := .of_filter core s _

theorem dirtyCells_mem {l : L1Line} {a : Nat} {b : Byte} (h : (a, b) ∈ l.dirtyCells) :
    ∃ k < 128, l.dirty.getLsbD k = true ∧ a = l.pa * 128 + k ∧ b = l.data.getD k 0 := by
  unfold L1Line.dirtyCells cellsFrom at h
  obtain ⟨h1, h2⟩ := List.mem_filter.mp h
  obtain ⟨k, hk, he⟩ := List.mem_iff_getElem.mp h1
  simp only [List.getElem_zipWith, List.getElem_range, Prod.mk.injEq] at he
  obtain ⟨rfl, rfl⟩ := he
  have hl : k < l.data.length := by simpa using hk
  have hd : l.dirty.getLsbD k = true := by simpa using h2
  exact ⟨k, BitVec.lt_of_getLsbD hd, hd, rfl, by simp [List.getD, List.getElem?_eq_getElem hl]⟩

/-- A line that the core held in an earlier state goes home. -/
theorem ReadSide.writeBack {core : Nat} {s t : State} (h : s.ReadSide core t) {l : L1Line} (hl : l ∈ (s.coreAt core).l1) :
    s.ReadSide core (t.writeBack core l) := by
  by_cases h0 : l.dirty = 0
  · unfold State.writeBack
    rwa [if_pos h0]
  · have first : s.ReadSide core (t.homePut .silent l.tenant l.slice false l.dirtyCells) := by
      refine ⟨h.1.trans (homePut_side core t _ _ _ _ _), fun hw a => ?_, fun a b hd => h.2.2 a b ?_⟩
      · rcases homePut_read t .silent l.tenant l.slice false l.dirtyCells (h.1.2 hw) a with e | e
        · rw [e]; exact h.2.1 hw a
        · obtain ⟨k, hk, hb, ha, hv⟩ := dirtyCells_mem e
          exact .inr ⟨l, hl, k, hk, hb, ha, hv⟩
      · unfold State.DirtyByte State.coreAt at *
        rwa [homePut_cores] at hd
    unfold State.writeBack
    rw [if_neg h0]
    dsimp only
    have marked : s.ReadSide core (if l.badWords.isEmpty || t.lostLine l.slice (l.pa * 128) then
        t.homePut .silent l.tenant l.slice false l.dirtyCells
        else (t.homePut .silent l.tenant l.slice false l.dirtyCells).markHome l.pa l.badWords) := by
      split
      · exact first
      · exact first.trans (.of_quiet (markHome_side core _ _ _) (markHome_quiet _ _ _).1 (markHome_quiet _ _ _).2)
    refine marked.trans (.of_map core _ _ fun x => ?_)
    split
    · exact ⟨rfl, fun k _ hb => by simp at hb⟩
    · exact Within.refl x

theorem ReadSide.flushLine {core : Nat} {s t : State} (h : s.ReadSide core t) {l : L1Line} (hl : l ∈ (s.coreAt core).l1) :
    s.ReadSide core (t.flushLine core l) := (h.writeBack hl).trans (l1Drop_reads _ core _)

/-- Lines of a state go home one after another. -/
theorem ReadSide.lines {core : Nat} {s : State} (f : State → L1Line → State)
    (hf : ∀ t l, s.ReadSide core t → l ∈ (s.coreAt core).l1 → s.ReadSide core (f t l)) :
    ∀ (ls : List L1Line) (t : State), s.ReadSide core t → (∀ l ∈ ls, l ∈ (s.coreAt core).l1) → s.ReadSide core (ls.foldl f t)
  | [], _, h, _ => h
  | l :: ls, t, h, hm => ReadSide.lines f hf ls (f t l) (hf t l h (hm l List.mem_cons_self)) fun x hx => hm x (List.mem_cons_of_mem _ hx)

theorem writeBackIf_reads (s : State) (core : Nat) (p : L1Line → Bool) : s.ReadSide core (s.writeBackIf core p) :=
  ReadSide.lines _ (fun _ _ h hl => h.writeBack hl) _ _ (.refl core s) fun _ hl => (List.mem_filter.mp hl).1

theorem flushIf_reads (s : State) (core : Nat) (p : L1Line → Bool) : s.ReadSide core (s.flushIf core p) :=
  ReadSide.lines _ (fun _ _ h hl => h.flushLine hl) _ _ (.refl core s) fun _ hl => (List.mem_filter.mp hl).1

theorem dropSynonyms_reads (s : State) (core pa tag asid tenant : Nat) : s.ReadSide core (s.dropSynonyms core pa tag asid tenant) :=
  flushIf_reads s core _

theorem passL1_reads (s : State) (core pa : Nat) : s.ReadSide core (s.passL1 core pa) := flushIf_reads s core _

theorem markStale_reads (s : State) (core ctx : Nat) : s.ReadSide core (s.markStale core ctx) :=
  .of_map core s _ fun l => by split <;> exact Within.refl _

theorem beyondWays_mem {s : State} {core tag t ways : Nat} {l : L1Line} (h : l ∈ s.beyondWays core tag t ways) : l ∈ (s.coreAt core).l1 :=
  (List.mem_filter.mp (List.mem_of_mem_drop (List.mem_reverse.mp h))).1

theorem l1Room_reads (s : State) (core tenant tag : Nat) : s.ReadSide core (s.l1Room core tenant tag) := by
  refine ReadSide.lines _ (fun _ _ h hl => h.flushLine hl) _ _ (.refl core s) fun l hl => ?_
  rcases List.mem_append.mp hl with h | h
  · exact beyondWays_mem h
  · obtain ⟨t, -, h⟩ := List.mem_flatMap.mp h
    exact beyondWays_mem h

/-- A line is put that makes no byte dirty which none was. -/
theorem ReadSide.l1Put {core : Nat} {s t : State} (h : s.ReadSide core t) {l : L1Line}
    (hl : l.dirty = 0 ∨ ∃ l' ∈ (t.coreAt core).l1, Within l l') : s.ReadSide core (t.l1Put core l) := by
  rcases hl with h0 | ⟨l', hl', hw⟩
  · refine ⟨h.1.trans (l1Put_side t core l), fun hm a => h.2.1 hm a, fun a b hd => h.2.2 a b ?_⟩
    obtain ⟨x, hx, k, hk, hb, ha, hv⟩ := hd
    have he : (t.l1Put core l).coreAt core = if core < t.cores.length then
        { t.coreAt core with l1 := putBy (fun x => x.tag == l.tag && x.asid == l.asid && x.tenant == l.tenant) l (t.coreAt core).l1 }
        else Core.reset := modAt_getD_self _ _ _ _
    rw [he] at hx
    split at hx
    · rcases List.mem_cons.mp hx with rfl | hx
      · simp [h0] at hb
      · exact ⟨x, (List.mem_filter.mp hx).1, k, hk, hb, ha, hv⟩
    · simp [Core.reset] at hx
  · refine h.trans (.of_l1 core t _ fun x hx => ?_)
    rcases List.mem_cons.mp hx with rfl | hx
    · exact ⟨l', hl', hw⟩
    · exact ⟨x, (List.mem_filter.mp hx).1, Within.refl x⟩

theorem l1Find_mem {s : State} {w : Who} {va : Nat} {l : L1Line} (h : s.l1Find w va = some l) : l ∈ (s.coreAt w.core).l1 :=
  List.mem_of_find?_eq_some h

theorem mergeDirty_getD (old new : List Byte) (dirty : BitVec 128) (k : Nat) (hk : k < 128) (hd : dirty.getLsbD k = true) :
    (mergeDirty old new dirty).getD k 0 = old.getD k 0 := by
  simp [mergeDirty, List.getD, hk, hd]

theorem homeRead_l1 (core : Nat) (s : State) (b : Traffic) (t slice : Nat) (st : Bool) (pa n : Nat) :
    ((s.homeRead b t slice st pa n).2.coreAt core).l1 = (s.coreAt core).l1 := by
  unfold State.homeRead State.coreAt
  split
  · rw [(l2Access_quiet _ _ _ _ _ _ _).2]
  · rfl

theorem l1Fill_reads (s : State) (w : Who) (va : Nat) (leaf : DWord) (size : Nat) : s.ReadSide w.core (s.l1Fill w va leaf size).2 := by
  unfold State.l1Fill
  dsimp only
  have h := ((request_reads w.core s (va / 128)).trans (dropSynonyms_reads _ w.core (paOf leaf size va / 128) (va / 128) w.asid w.tenant)).trans
    (countIf_reads w.core _ (s.request (va / 128)).1 w.tenant 4)
  revert h
  generalize ((s.request (va / 128)).2.dropSynonyms w.core (paOf leaf size va / 128) (va / 128) w.asid w.tenant).countIf
    (s.request (va / 128)).1 w.tenant 4 = s1
  intro h
  cases hf : s1.l1Find w va with
  | none =>
    refine ReadSide.l1Put ((h.trans ?_).trans (homeRead_reads _ _ _ _ _ _ _ _)) (.inl rfl)
    exact l1Room_reads s1 w.core w.tenant (va / 128)
  | some old =>
    refine ReadSide.l1Put ((h.trans ?_).trans (homeRead_reads _ _ _ _ _ _ _ _)) (.inr ⟨old, ?_, rfl, fun k hk hb => ⟨hb, ?_⟩⟩)
    · exact .refl _ s1
    · rw [homeRead_l1]
      exact l1Find_mem hf
    · exact (mergeDirty_getD _ _ _ k hk hb).symm

theorem laneRead_reads (s : State) (w : Who) (va n : Nat) : s.ReadSide w.core (s.laneRead w va n).2 := by
  have hx := xlatFill_reads s w va
  have miss : s.ReadSide w.core (match s.xlatFill w va with
    | (.ok leaf size, s1) =>
      if leafStrm leaf || decide (hostBase ≤ paOf leaf size va) || s.l1Ways w.core w.tenant == 0 then
        let pa := paOf leaf size va
        let (req, s2) := s1.request (va / 128)
        ((s2.passL1 w.core pa).countIf req w.tenant 4).homeRead req w.tenant (homeSlice leaf size va pa) (leafStrm leaf) pa n
      else
        let (l, s2) := s1.l1Fill w va leaf size
        (((l.data.drop (va % 128)).take n, l.poisoned (va % 128) n), s2)
    | (_, s1) => (([], false), s1)).2 := by
    revert hx
    generalize s.xlatFill w va = x
    obtain ⟨x, s1⟩ := x
    intro hx
    cases x with
    | ok leaf size =>
      dsimp only
      split
      · exact (((hx.trans (request_reads _ _ _)).trans (passL1_reads _ _ _)).trans (countIf_reads _ _ _ _ _)).trans
          (homeRead_reads _ _ _ _ _ _ _ _)
      · exact hx.trans (l1Fill_reads _ w va leaf size)
    | fault => exact hx
    | bad => exact hx
  unfold State.laneRead
  dsimp only
  split
  · split
    · rename_i l hl _
      exact ReadSide.l1Put (.refl _ s) (.inr ⟨l, l1Find_mem hl, Within.refl l⟩)
    · exact miss
  · exact miss

theorem readAtHome_reads (s : State) (b : Traffic) (w : Who) (va n : Nat) : s.ReadSide w.core (s.readAtHome b w va n).2 := by
  have hx := xlatFill_reads s w va
  unfold State.readAtHome
  revert hx
  generalize s.xlatFill w va = x
  obtain ⟨x, s1⟩ := x
  intro hx
  cases x with
  | ok leaf size => exact hx.trans (homeRead_reads _ _ _ _ _ _ _ _)
  | fault => exact hx
  | bad => exact hx

theorem phaseAt_reads (s : State) (core ctx : Nat) (k : Scope) : s.ReadSide core (s.phaseAt core ctx k) := by
  unfold State.phaseAt
  split
  · exact .refl core s
  · exact .refl core s
  · exact (writeBackIf_reads s core _).trans (markStale_reads _ core ctx)

theorem readScoped_reads (s : State) (w : Who) (sc : Option Scope) (a n : Nat) : s.ReadSide w.core (s.readScoped w sc a n).2 := by
  unfold State.readScoped
  split
  · exact laneRead_reads s w a n
  · exact laneRead_reads s w a n
  · exact laneRead_reads s w a n
  · exact (((request_reads _ s _).trans (writeBackIf_reads _ _ _)).trans (countIf_reads _ _ _ _ _)).trans (readAtHome_reads _ _ w a n)

theorem acquire_reads (s : State) (w : Who) (sc : Option Scope) : s.ReadSide w.core (s.acquire w sc) := by
  unfold State.acquire
  split
  · exact .refl _ s
  · exact .refl _ s
  · exact .refl _ s
  · exact markStale_reads s _ _

theorem readLanes_reads (w : Who) (sc : Option Scope) (n : Nat) (d : Dst) : ∀ (xs : List (Nat × Nat)) (s : State),
    s.ReadSide w.core (s.readLanes w sc n d xs).2
  | [], s => .refl _ s
  | (c, a) :: xs, s => by
    unfold State.readLanes
    exact (readScoped_reads s w sc a n).trans (readLanes_reads w sc n d xs _)

theorem release_reads (s : State) (r : Resident) (sc : Option Scope) : s.ReadSide r.core (s.release r sc) := by
  unfold State.release
  split
  · exact .refl _ s
  · exact phaseAt_reads s _ _ _

theorem prefetch_reads (s : State) (r : Resident) (l2 : Bool) (a : Nat) : s.ReadSide r.core (s.prefetch r l2 a) := by
  unfold State.prefetch
  dsimp only
  split
  · split
    · exact translate_reads s (s.who r) _ _ _ _
    · split
      · exact ((request_reads _ s _).trans (countIf_reads _ _ _ _ _)).trans (readAtHome_reads _ _ (s.who r) _ _)
      · exact laneRead_reads s (s.who r) _ _
  · exact translate_reads s (s.who r) _ _ _ _

end State

end Sys2Proof.Machine
end

