-- ==== Sys2Proof/Laws/PerInstr.lean ====
section
/-! SUPPORT. One lemma for each constructor: an instruction word that stands for a well-formed instruction decodes to it
(R283 to R289). A step that no word names has no word. -/

set_option Elab.async false
set_option linter.unusedSimpArgs false

namespace Sys2Proof

/-- What the round trip says of one instruction. -/
def Laws.RoundTrip.Statement (i : Instr) : Prop := ∀ w, i.wf = true → encode i = some w → decodeWord w = .ok i

open Laws.RoundTrip (Statement)

theorem pure_ok {α : Type} (x : α) : (pure x : Except DecodeError α) = .ok x := rfl

/-! ### Shapes of the R format -/

theorem rt_dec3 {op m : Nat} {p : Pred} {d : Dst} {a b c : Src} {k : Dst → Src → Src → Src → Instr} (ho : op % 2 = 0)
    (hlt : op < 512) (hm : m < 4) (hrow : ∀ f : Fields, f.m = m → decodeOp p f (op / 16) (op / 2 % 8) = dec3 k f)
    (h : wf3 p d a b c = true) :
    decodeWord (encR op p (encDst d) (encSrc a) (encSrc b) (encSrc c) m) = .ok (k d a b c) := by
  simp only [wf3, Bool.and_eq_true] at h
  obtain ⟨⟨⟨⟨hp, hd⟩, ha⟩, hb⟩, hc⟩ := h
  obtain ⟨f, e, h1, h2, h3, h4, h5⟩ := decode_R hp ho hlt (encDst_lt (Dst.wf_of_isReg hd)) (encSrc_lt ha) (encSrc_lt hb)
    (encSrc_lt hc) hm
  rw [e, hrow f h5]
  simp only [dec3, h1, h2, h3, h4, regDst_enc hd, anySrc_enc ha, anySrc_enc hb, anySrc_enc hc, bind_ok, pure_ok]

theorem rt_dec2 {op m : Nat} {p : Pred} {d : Dst} {a b : Src} {k : Dst → Src → Src → Instr} (ho : op % 2 = 0)
    (hlt : op < 512) (hm : m < 4) (hrow : ∀ f : Fields, f.m = m → decodeOp p f (op / 16) (op / 2 % 8) = dec2 k f)
    (h : wf2 p d a b = true) : decodeWord (encR op p (encDst d) (encSrc a) (encSrc b) 0 m) = .ok (k d a b) := by
  simp only [wf2, Bool.and_eq_true] at h
  obtain ⟨⟨⟨hp, hd⟩, ha⟩, hb⟩ := h
  obtain ⟨f, e, h1, h2, h3, h4, h5⟩ := decode_R hp ho hlt (encDst_lt (Dst.wf_of_isReg hd)) (encSrc_lt ha) (encSrc_lt hb)
    (by decide : 0 < 4096) hm
  rw [e, hrow f h5]
  simp only [dec2, h1, h2, h3, h4, regDst_enc hd, anySrc_enc ha, anySrc_enc hb, unused_zero, bind_ok, pure_ok]

theorem rt_dec1 {op m : Nat} {p : Pred} {d : Dst} {a : Src} {k : Dst → Src → Instr} (ho : op % 2 = 0)
    (hlt : op < 512) (hm : m < 4) (hrow : ∀ f : Fields, f.m = m → decodeOp p f (op / 16) (op / 2 % 8) = dec1 k f)
    (h : wf1 p d a = true) : decodeWord (encR op p (encDst d) (encSrc a) 0 0 m) = .ok (k d a) := by
  simp only [wf1, Bool.and_eq_true] at h
  obtain ⟨⟨hp, hd⟩, ha⟩ := h
  obtain ⟨f, e, h1, h2, h3, h4, h5⟩ := decode_R hp ho hlt (encDst_lt (Dst.wf_of_isReg hd)) (encSrc_lt ha)
    (by decide : 0 < 4096) (by decide : 0 < 4096) hm
  rw [e, hrow f h5]
  simp only [dec1, h1, h2, h3, h4, regDst_enc hd, anySrc_enc ha, unused_zero, bind_ok, pure_ok]

theorem rt_half {op : Nat} {p : Pred} {d : Dst} {a b : Src} {hf : HalfFmt} {m : RoundMode} {ok : Dst → Bool}
    {k : Dst → Src → Src → HalfFmt → RoundMode → Instr} (ho : op % 2 = 0) (hlt : op < 512)
    (hrow : ∀ f : Fields, decodeOp p f (op / 16) (op / 2 % 8) = decHalf f ok k)
    (hp : p.wf = true) (hd : d.wf = true) (hk : ok d = true) (ha : a.wf = true) (hb : b.wf = true) :
    decodeWord (encR op p (encDst d) (encSrc a) (encSrc b) hf.code m.code) = .ok (k d a b hf m) := by
  obtain ⟨f, e, h1, h2, h3, h4, h5⟩ := decode_R hp ho hlt (encDst_lt hd) (encSrc_lt ha) (encSrc_lt hb)
    (show hf.code < 4096 by cases hf <;> decide) m.code_lt
  rw [e, hrow f]
  have hh : halfOf hf.code = .ok hf := by cases hf <;> rfl
  simp only [decHalf, h1, h2, h3, h4, h5, dstIf_enc hd hk, anySrc_enc ha, anySrc_enc hb, hh, roundOf_code, bind_ok, pure_ok]

theorem Grade.code_lt (g : Grade) : g.code < 4096 := by cases g <;> decide
theorem gradeOf_code (g : Grade) : gradeOf g.code = .ok g := by cases g <;> rfl

theorem rt_special {op : Nat} {p : Pred} {d : Dst} {a : Src} {g : Grade} {k : Dst → Src → Grade → Instr} (ho : op % 2 = 0)
    (hlt : op < 512) (hrow : ∀ f : Fields, decodeOp p f (op / 16) (op / 2 % 8) = decSpecial f k)
    (h : wf1 p d a = true) : decodeWord (encR op p (encDst d) (encSrc a) 0 g.code 0) = .ok (k d a g) := by
  simp only [wf1, Bool.and_eq_true] at h
  obtain ⟨⟨hp, hd⟩, ha⟩ := h
  obtain ⟨f, e, h1, h2, h3, h4, h5⟩ := decode_R hp ho hlt (encDst_lt (Dst.wf_of_isReg hd)) (encSrc_lt ha)
    (by decide : 0 < 4096) g.code_lt (by decide : 0 < 4)
  rw [e, hrow f]
  simp [decSpecial, h1, h2, h3, h4, h5, regDst_enc hd, anySrc_enc ha, gradeOf_code, unused_zero, bind_ok, need, pure_ok]

theorem rt_pred2 {op : Nat} {p : Pred} {d : Dst} {a b : Src} {na nb : Bool} {k : Dst → Src → Src → Bool → Bool → Instr}
    (ho : op % 2 = 0) (hlt : op < 512) (hrow : ∀ f : Fields, decodeOp p f (op / 16) (op / 2 % 8) = decPred2 f k)
    (hp : p.wf = true) (hd : d.isPred = true) (ha : a.isPredBit = true) (hb : b.isPredBit = true) :
    decodeWord (encR op p (encDst d) (encSrc a) (encSrc b) 0 (bitNat na + 2 * bitNat nb)) = .ok (k d a b na nb) := by
  have wa := Src.wf_of_isPredBit ha
  have wb := Src.wf_of_isPredBit hb
  obtain ⟨f, e, h1, h2, h3, h4, h5⟩ := decode_R hp ho hlt (encDst_lt (Dst.wf_of_isPred hd)) (encSrc_lt wa) (encSrc_lt wb)
    (by decide : 0 < 4096) (show bitNat na + 2 * bitNat nb < 4 by cases na <;> cases nb <;> decide)
  rw [e, hrow f]
  have e1 : ((bitNat na + 2 * bitNat nb) % 2 == 1) = na := by cases na <;> cases nb <;> rfl
  have e2 : ((bitNat na + 2 * bitNat nb) / 2 == 1) = nb := by cases na <;> cases nb <;> rfl
  simp only [decPred2, h1, h2, h3, h4, h5, dstIf_enc (Dst.wf_of_isPred hd) hd, srcIf_enc wa ha, srcIf_enc wb hb, e1, e2,
    unused_zero, bind_ok, pure_ok]

/-! ### Shapes of the other formats -/

theorem BitVec_ofNat_toNat {n : Nat} (x : BitVec n) : BitVec.ofNat n x.toNat = x := by simp

theorem rt_loadG {op land : Nat} {p : Pred} {d : Dst} {a : Src} {off : BitVec 16} {ok : Dst → Bool}
    {k : Dst → Src → Nat → BitVec 16 → Instr} (ho : op % 2 = 0) (hlt : op < 512)
    (hrow : ∀ f : Fields, decodeOp p f (op / 16) (op / 2 % 8) = decLoadG f ok k)
    (hp : p.wf = true) (hd : d.wf = true) (hk : ok d = true) (ha : a.isPair = true) (hl : land < 1024) :
    decodeWord (encM op p (encDst d) (encSrc a) land off.toNat) = .ok (k d a land off) := by
  have wa := Src.wf_of_isPair ha
  obtain ⟨f, e, h1, h2, h3, h4⟩ := decode_M hp ho hlt (encDst_lt hd) (encSrc_lt wa) hl off.isLt
  rw [e, hrow f]
  simp only [decLoadG, h1, h2, h3, h4, dstIf_enc hd hk, srcIf_enc wa ha, BitVec_ofNat_toNat, bind_ok, pure_ok]

theorem rt_loadSp {op : Nat} {p : Pred} {d : Dst} {a : Src} {off : BitVec 16} {ok : Dst → Bool}
    {k : Dst → Src → BitVec 16 → Instr} (ho : op % 2 = 0) (hlt : op < 512)
    (hrow : ∀ f : Fields, decodeOp p f (op / 16) (op / 2 % 8) = decLoadSp f ok k)
    (hp : p.wf = true) (hd : d.wf = true) (hk : ok d = true) (ha : a.isBase = true) :
    decodeWord (encM op p (encDst d) (encSrc a) 0 off.toNat) = .ok (k d a off) := by
  have wa := Src.wf_of_isBase ha
  obtain ⟨f, e, h1, h2, h3, h4⟩ := decode_M hp ho hlt (encDst_lt hd) (encSrc_lt wa) (by decide : 0 < 1024) off.isLt
  rw [e, hrow f]
  simp only [decLoadSp, h1, h2, h3, h4, dstIf_enc hd hk, srcIf_enc wa ha, BitVec_ofNat_toNat, unused_zero, bind_ok, pure_ok]

theorem rt_store {op : Nat} {p : Pred} {d a : Src} {off : BitVec 16} {okd oka : Src → Bool}
    {k : Src → Src → BitVec 16 → Instr} (ho : op % 2 = 0) (hlt : op < 512)
    (hrow : ∀ f : Fields, decodeOp p f (op / 16) (op / 2 % 8) = decStore f okd oka k)
    (hp : p.wf = true) (hd : d.wf = true) (hkd : okd d = true) (ha : a.wf = true) (hka : oka a = true) :
    decodeWord (encM op p (encSrc d) (encSrc a) 0 off.toNat) = .ok (k d a off) := by
  obtain ⟨f, e, h1, h2, h3, h4⟩ := decode_M hp ho hlt (encSrc_lt hd) (encSrc_lt ha) (by decide : 0 < 1024) off.isLt
  rw [e, hrow f]
  simp only [decStore, h1, h2, h3, h4, srcIf_enc hd hkd, srcIf_enc ha hka, BitVec_ofNat_toNat, unused_zero, bind_ok, pure_ok]

/-- An S-format word with only its immediate in use. -/
theorem rt_imm {op imm : Nat} {p : Pred} {i : Instr} (ho : op % 2 = 0) (hlt : op < 512) (hp : p.wf = true) (hi : imm < 2 ^ 26)
    (hrow : ∀ f : Fields, f.d = 0 → f.a = 0 → f.imm = imm → decodeOp p f (op / 16) (op / 2 % 8) = .ok i) :
    decodeWord (encS op p 0 0 imm) = .ok i := by
  obtain ⟨f, e, h1, h2, h3⟩ := decode_S (d := 0) (a := 0) hp ho hlt (by decide) (by decide) hi
  rw [e, hrow f h1 h2 h3]

theorem ScopeSel.code_lt {k : ScopeSel} (h : k.wf = true) : k.code < 16 := by
  cases k with
  | scope s => cases s <;> decide
  | level n => simp [ScopeSel.wf, ScopeSel.code] at *; omega

theorem scopeOf_code (k : Scope) : scopeOf k.code = .ok k := by cases k <;> rfl
theorem Scope.code_lt (k : Scope) : k.code < 6 := by cases k <;> decide

theorem scopeSelOf_code {k : ScopeSel} (h : k.wf = true) : scopeSelOf k.code = .ok k := by
  cases k with
  | scope s => cases s <;> rfl
  | level n =>
    simp only [ScopeSel.wf, decide_eq_true_eq] at h
    show scopeSelOf (8 + n) = _; unfold scopeSelOf
    rw [if_neg (by omega), if_pos (by omega), Nat.add_sub_cancel_left]

theorem spaceOf_code (x : Space) : spaceOf x.code = x := by cases x <;> rfl
theorem Space.code_lt (x : Space) : x.code < 2 := by cases x <;> decide

theorem spaceScalar_lt {sp : Space} {n : Nat} (h : spaceScalar sp n = true) : n < 256 := by
  cases sp <;> simp [spaceScalar, evenScalar] at h <;> omega

theorem evenScalar_lt {n : Nat} (h : evenScalar n = true) : n < 256 := by simp [evenScalar] at h; omega
theorem quadScalar_lt {n : Nat} (h : quadScalar n = true) : n < 256 := by simp [quadScalar] at h; omega

theorem RowSel.code_lt {r : RowSel} (h : r.wf = true) : r.code < 4096 := by
  cases r <;> simp [RowSel.wf, RowSel.code] at * <;> omega

theorem rowSelOf_code {r : RowSel} (h : r.wf = true) : rowSelOf r.code = .ok r := by
  cases r with
  | s n =>
    simp only [RowSel.wf, decide_eq_true_eq] at h
    unfold rowSelOf RowSel.code
    dsimp only
    rw [if_neg (by omega), scalarIf_enc (by omega) (by simpa using h)]; rfl
  | imm r =>
    simp only [RowSel.wf, decide_eq_true_eq] at h
    unfold rowSelOf RowSel.code
    dsimp only
    rw [if_pos (by omega), Nat.add_sub_cancel_left]

theorem KRange.code_lt {k : KRange} (h : k.wf = true) : k.code < 4096 := by
  cases k <;> simp [KRange.wf, KRange.code, evenScalar] at * <;> omega

theorem kRangeOf_code {k : KRange} (h : k.wf = true) : kRangeOf k.code = .ok k := by
  cases k with
  | imm f c =>
    simp only [KRange.wf, Bool.and_eq_true, decide_eq_true_eq] at h
    unfold kRangeOf KRange.code
    dsimp only
    rw [if_pos (by omega)]
    have e1 : (f * 64 + c) / 64 = f := by omega
    have e2 : (f * 64 + c) % 64 = c := by omega
    rw [e1, e2]
  | regs n =>
    simp only [KRange.wf] at h
    unfold kRangeOf KRange.code
    dsimp only
    rw [if_neg (by omega), scalarIf_enc (evenScalar_lt h) h]; rfl

/-! ### One lemma for each constructor -/

theorem Laws.RoundTrip.mov (p : Pred) (d : Dst) (a : Src) : Statement (.mov p d a) := by
  intro w hw he
  cases he
  exact rt_dec1 (by decide) (by decide) (by decide) (fun f hf => by simp [decodeOp, row00, noMod, hf, unused_zero, bind_ok]) hw

theorem Laws.RoundTrip.clz (p : Pred) (d : Dst) (a : Src) : Statement (.clz p d a) := by
  intro w hw he
  cases he
  exact rt_dec1 (by decide) (by decide) (by decide) (fun f hf => by simp [decodeOp, row03, noMod, hf, unused_zero, bind_ok]) hw

theorem Laws.RoundTrip.popc (p : Pred) (d : Dst) (a : Src) : Statement (.popc p d a) := by
  intro w hw he
  cases he
  exact rt_dec1 (by decide) (by decide) (by decide) (fun f hf => by simp [decodeOp, row03, noMod, hf, unused_zero, bind_ok]) hw

theorem Laws.RoundTrip.brev (p : Pred) (d : Dst) (a : Src) : Statement (.brev p d a) := by
  intro w hw he
  cases he
  exact rt_dec1 (by decide) (by decide) (by decide) (fun f hf => by simp [decodeOp, row03, noMod, hf, unused_zero, bind_ok]) hw

theorem Laws.RoundTrip.imul (p : Pred) (d : Dst) (a b : Src) : Statement (.imul p d a b) := by
  intro w hw he
  cases he
  exact rt_dec2 (by decide) (by decide) (by decide) (fun f hf => by simp [decodeOp, row01, noMod, hf, unused_zero, bind_ok]) hw

theorem Laws.RoundTrip.and (p : Pred) (d : Dst) (a b : Src) : Statement (.and p d a b) := by
  intro w hw he
  cases he
  exact rt_dec2 (by decide) (by decide) (by decide) (fun f hf => by simp [decodeOp, row02, noMod, hf, unused_zero, bind_ok]) hw

theorem Laws.RoundTrip.or (p : Pred) (d : Dst) (a b : Src) : Statement (.or p d a b) := by
  intro w hw he
  cases he
  exact rt_dec2 (by decide) (by decide) (by decide) (fun f hf => by simp [decodeOp, row02, noMod, hf, unused_zero, bind_ok]) hw

theorem Laws.RoundTrip.xor (p : Pred) (d : Dst) (a b : Src) : Statement (.xor p d a b) := by
  intro w hw he
  cases he
  exact rt_dec2 (by decide) (by decide) (by decide) (fun f hf => by simp [decodeOp, row02, noMod, hf, unused_zero, bind_ok]) hw

theorem Laws.RoundTrip.andn (p : Pred) (d : Dst) (a b : Src) : Statement (.andn p d a b) := by
  intro w hw he
  cases he
  exact rt_dec2 (by decide) (by decide) (by decide) (fun f hf => by simp [decodeOp, row02, noMod, hf, unused_zero, bind_ok]) hw

theorem Laws.RoundTrip.shl (p : Pred) (d : Dst) (a b : Src) : Statement (.shl p d a b) := by
  intro w hw he
  cases he
  exact rt_dec2 (by decide) (by decide) (by decide) (fun f hf => by simp [decodeOp, row02, noMod, hf, unused_zero, bind_ok]) hw

theorem Laws.RoundTrip.fmin (p : Pred) (d : Dst) (a b : Src) : Statement (.fmin p d a b) := by
  intro w hw he
  cases he
  exact rt_dec2 (by decide) (by decide) (by decide) (fun f hf => by simp [decodeOp, row04, noMod, hf, unused_zero, bind_ok]) hw

theorem Laws.RoundTrip.fmax (p : Pred) (d : Dst) (a b : Src) : Statement (.fmax p d a b) := by
  intro w hw he
  cases he
  exact rt_dec2 (by decide) (by decide) (by decide) (fun f hf => by simp [decodeOp, row04, noMod, hf, unused_zero, bind_ok]) hw

theorem Laws.RoundTrip.iadd (p : Pred) (d : Dst) (a b : Src) (sat : Bool) : Statement (.iadd p d a b sat) := by
  intro w hw he
  cases he
  exact rt_dec2 (k := fun d a b => .iadd p d a b sat) (by decide) (by decide) (by have := bitNat_lt sat; omega) (fun f hf => by simp [decodeOp, row01, bitMod, hf, bitCode_bitNat, bind_ok]) hw

theorem Laws.RoundTrip.imulhi (p : Pred) (d : Dst) (a b : Src) (u : Bool) : Statement (.imulhi p d a b u) := by
  intro w hw he
  cases he
  exact rt_dec2 (k := fun d a b => .imulhi p d a b u) (by decide) (by decide) (by have := bitNat_lt u; omega) (fun f hf => by simp [decodeOp, row01, bitMod, hf, bitCode_bitNat, bind_ok]) hw

theorem Laws.RoundTrip.imin (p : Pred) (d : Dst) (a b : Src) (u : Bool) : Statement (.imin p d a b u) := by
  intro w hw he
  cases he
  exact rt_dec2 (k := fun d a b => .imin p d a b u) (by decide) (by decide) (by have := bitNat_lt u; omega) (fun f hf => by simp [decodeOp, row01, bitMod, hf, bitCode_bitNat, bind_ok]) hw

theorem Laws.RoundTrip.imax (p : Pred) (d : Dst) (a b : Src) (u : Bool) : Statement (.imax p d a b u) := by
  intro w hw he
  cases he
  exact rt_dec2 (k := fun d a b => .imax p d a b u) (by decide) (by decide) (by have := bitNat_lt u; omega) (fun f hf => by simp [decodeOp, row01, bitMod, hf, bitCode_bitNat, bind_ok]) hw

theorem Laws.RoundTrip.shr (p : Pred) (d : Dst) (a b : Src) (arith : Bool) : Statement (.shr p d a b arith) := by
  intro w hw he
  cases he
  exact rt_dec2 (k := fun d a b => .shr p d a b arith) (by decide) (by decide) (by have := bitNat_lt arith; omega) (fun f hf => by simp [decodeOp, row02, bitMod, hf, bitCode_bitNat, bind_ok]) hw

theorem Laws.RoundTrip.rot (p : Pred) (d : Dst) (a b : Src) (right : Bool) : Statement (.rot p d a b right) := by
  intro w hw he
  cases he
  exact rt_dec2 (k := fun d a b => .rot p d a b right) (by decide) (by decide) (by have := bitNat_lt right; omega) (fun f hf => by simp [decodeOp, row02, bitMod, hf, bitCode_bitNat, bind_ok]) hw

theorem Laws.RoundTrip.bfx (p : Pred) (d : Dst) (a b : Src) (sx : Bool) : Statement (.bfx p d a b sx) := by
  intro w hw he
  cases he
  exact rt_dec2 (k := fun d a b => .bfx p d a b sx) (by decide) (by decide) (by have := bitNat_lt sx; omega) (fun f hf => by simp [decodeOp, row03, bitMod, hf, bitCode_bitNat, bind_ok]) hw

theorem Laws.RoundTrip.iabs (p : Pred) (d : Dst) (a : Src) (sat : Bool) : Statement (.iabs p d a sat) := by
  intro w hw he
  cases he
  exact rt_dec1 (k := fun d a => .iabs p d a sat) (by decide) (by decide) (by have := bitNat_lt sat; omega) (fun f hf => by simp [decodeOp, row01, bitMod, hf, bitCode_bitNat, bind_ok]) hw

theorem Laws.RoundTrip.sel (p : Pred) (d : Dst) (a b c : Src) (neg : Bool) : Statement (.sel p d a b c neg) := by
  intro w hw he
  cases he
  exact rt_dec3 (k := fun d a b c => .sel p d a b c neg) (by decide) (by decide) (by have := bitNat_lt neg; omega) (fun f hf => by simp [decodeOp, row00, bitMod, hf, bitCode_bitNat, bind_ok]) hw

theorem Laws.RoundTrip.imad (p : Pred) (d : Dst) (a b c : Src) : Statement (.imad p d a b c) := by
  intro w hw he
  cases he
  exact rt_dec3 (by decide) (by decide) (by decide) (fun f hf => by simp [decodeOp, row01, noMod, hf, unused_zero, bind_ok]) hw

theorem Laws.RoundTrip.bfi (p : Pred) (d : Dst) (a b c : Src) : Statement (.bfi p d a b c) := by
  intro w hw he
  cases he
  exact rt_dec3 (by decide) (by decide) (by decide) (fun f hf => by simp [decodeOp, row03, noMod, hf, unused_zero, bind_ok]) hw

theorem Laws.RoundTrip.idp4 (p : Pred) (d : Dst) (a b c : Src) (k : Dp4) : Statement (.idp4 p d a b c k) := by
  intro w hw he
  cases he
  exact rt_dec3 (k := fun d a b c => .idp4 p d a b c k) (by decide) (by decide) (by cases k <;> decide) (fun f hf => by cases k <;> simp [decodeOp, row03, hf, Dp4.code, dp4Of, bind_ok]) hw

theorem Laws.RoundTrip.fadd (p : Pred) (d : Dst) (a b : Src) (m : RoundMode) : Statement (.fadd p d a b m) := by
  intro w hw he
  cases he
  exact rt_dec2 (k := fun d a b => .fadd p d a b m) (by decide) (by decide) m.code_lt (fun f hf => by simp [decodeOp, row04, hf, roundOf_code]) hw

theorem Laws.RoundTrip.fsub (p : Pred) (d : Dst) (a b : Src) (m : RoundMode) : Statement (.fsub p d a b m) := by
  intro w hw he
  cases he
  exact rt_dec2 (k := fun d a b => .fsub p d a b m) (by decide) (by decide) m.code_lt (fun f hf => by simp [decodeOp, row04, hf, roundOf_code]) hw

theorem Laws.RoundTrip.fmul (p : Pred) (d : Dst) (a b : Src) (m : RoundMode) : Statement (.fmul p d a b m) := by
  intro w hw he
  cases he
  exact rt_dec2 (k := fun d a b => .fmul p d a b m) (by decide) (by decide) m.code_lt (fun f hf => by simp [decodeOp, row04, hf, roundOf_code]) hw

theorem Laws.RoundTrip.ffma (p : Pred) (d : Dst) (a b c : Src) (m : RoundMode) : Statement (.ffma p d a b c m) := by
  intro w hw he
  cases he
  exact rt_dec3 (k := fun d a b c => .ffma p d a b c m) (by decide) (by decide) m.code_lt (fun f hf => by simp [decodeOp, row04, hf, roundOf_code]) hw

theorem Laws.RoundTrip.frnd (p : Pred) (d : Dst) (a : Src) (m : RoundMode) : Statement (.frnd p d a m) := by
  intro w hw he
  cases he
  exact rt_dec1 (k := fun d a => .frnd p d a m) (by decide) (by decide) m.code_lt (fun f hf => by simp [decodeOp, row05, hf, roundOf_code]) hw

theorem Laws.RoundTrip.hadd2 (p : Pred) (d : Dst) (a b : Src) (f : HalfFmt) (m : RoundMode) : Statement (.hadd2 p d a b f m) := by
  intro w hw he
  cases he
  simp only [Instr.wf, wf2, Bool.and_eq_true] at hw
  obtain ⟨⟨⟨hp, hd⟩, ha⟩, hb⟩ := hw
  exact rt_half (by decide) (by decide) (fun f => by simp [decodeOp, row05]) hp (Dst.wf_of_isReg hd) hd ha hb

theorem Laws.RoundTrip.hmul2 (p : Pred) (d : Dst) (a b : Src) (f : HalfFmt) (m : RoundMode) : Statement (.hmul2 p d a b f m) := by
  intro w hw he
  cases he
  simp only [Instr.wf, wf2, Bool.and_eq_true] at hw
  obtain ⟨⟨⟨hp, hd⟩, ha⟩, hb⟩ := hw
  exact rt_half (by decide) (by decide) (fun f => by simp [decodeOp, row05]) hp (Dst.wf_of_isReg hd) hd ha hb

theorem Laws.RoundTrip.hfma2 (p : Pred) (d : Dst) (a b : Src) (f : HalfFmt) (m : RoundMode) : Statement (.hfma2 p d a b f m) := by
  intro w hw he
  cases he
  simp only [Instr.wf, wf2, Bool.and_eq_true] at hw
  obtain ⟨⟨⟨hp, hd⟩, ha⟩, hb⟩ := hw
  exact rt_half (by decide) (by decide) (fun f => by simp [decodeOp, row05]) hp (Dst.wf_of_isLane hd) hd ha hb

theorem Laws.RoundTrip.frcp (p : Pred) (d : Dst) (a : Src) (g : Grade) : Statement (.frcp p d a g) := by
  intro w hw he
  cases he
  exact rt_special (by decide) (by decide) (fun f => by simp [decodeOp, row06]) hw

theorem Laws.RoundTrip.frsq (p : Pred) (d : Dst) (a : Src) (g : Grade) : Statement (.frsq p d a g) := by
  intro w hw he
  cases he
  exact rt_special (by decide) (by decide) (fun f => by simp [decodeOp, row06]) hw

theorem Laws.RoundTrip.fex2 (p : Pred) (d : Dst) (a : Src) (g : Grade) : Statement (.fex2 p d a g) := by
  intro w hw he
  cases he
  exact rt_special (by decide) (by decide) (fun f => by simp [decodeOp, row06]) hw

theorem Laws.RoundTrip.flg2 (p : Pred) (d : Dst) (a : Src) (g : Grade) : Statement (.flg2 p d a g) := by
  intro w hw he
  cases he
  exact rt_special (by decide) (by decide) (fun f => by simp [decodeOp, row06]) hw

theorem Laws.RoundTrip.fsin (p : Pred) (d : Dst) (a : Src) (g : Grade) : Statement (.fsin p d a g) := by
  intro w hw he
  cases he
  exact rt_special (by decide) (by decide) (fun f => by simp [decodeOp, row06]) hw

theorem Laws.RoundTrip.fcos (p : Pred) (d : Dst) (a : Src) (g : Grade) : Statement (.fcos p d a g) := by
  intro w hw he
  cases he
  exact rt_special (by decide) (by decide) (fun f => by simp [decodeOp, row06]) hw

theorem Laws.RoundTrip.ftanh (p : Pred) (d : Dst) (a : Src) (g : Grade) : Statement (.ftanh p d a g) := by
  intro w hw he
  cases he
  exact rt_special (by decide) (by decide) (fun f => by simp [decodeOp, row07]) hw

theorem Laws.RoundTrip.fsigm (p : Pred) (d : Dst) (a : Src) (g : Grade) : Statement (.fsigm p d a g) := by
  intro w hw he
  cases he
  exact rt_special (by decide) (by decide) (fun f => by simp [decodeOp, row07]) hw

theorem Laws.RoundTrip.pand (p : Pred) (d : Dst) (a b : Src) (na nb : Bool) : Statement (.pand p d a b na nb) := by
  intro w hw he
  cases he
  simp only [Instr.wf, Bool.and_eq_true] at hw
  obtain ⟨⟨⟨hp, hd⟩, ha⟩, hb⟩ := hw
  exact rt_pred2 (by decide) (by decide) (fun f => by simp [decodeOp, row08]) hp hd ha hb

theorem Laws.RoundTrip.por (p : Pred) (d : Dst) (a b : Src) (na nb : Bool) : Statement (.por p d a b na nb) := by
  intro w hw he
  cases he
  simp only [Instr.wf, Bool.and_eq_true] at hw
  obtain ⟨⟨⟨hp, hd⟩, ha⟩, hb⟩ := hw
  exact rt_pred2 (by decide) (by decide) (fun f => by simp [decodeOp, row08]) hp hd ha hb

theorem Laws.RoundTrip.pxor (p : Pred) (d : Dst) (a b : Src) (na nb : Bool) : Statement (.pxor p d a b na nb) := by
  intro w hw he
  cases he
  simp only [Instr.wf, Bool.and_eq_true] at hw
  obtain ⟨⟨⟨hp, hd⟩, ha⟩, hb⟩ := hw
  exact rt_pred2 (by decide) (by decide) (fun f => by simp [decodeOp, row08]) hp hd ha hb

theorem Laws.RoundTrip.lea (p : Pred) (d : Dst) (a b : Src) (sh : Nat) (sx : Bool) : Statement (.lea p d a b sh sx) := by
  intro w hw he
  cases he
  simp only [Instr.wf, wf1, wf2, wf3, Bool.and_eq_true, decide_eq_true_eq] at hw
  obtain ⟨⟨⟨⟨hp, hd⟩, ha⟩, hb⟩, hs⟩ := hw
  obtain ⟨f, e, h1, h2, h3, h4, h5⟩ := decode_R (op := 0x00A) (c := sh) hp (by decide) (by decide) (encDst_lt (Dst.wf_of_isPair hd)) (encSrc_lt (Src.wf_of_isPair ha)) (encSrc_lt hb) (by omega) (show bitNat sx < 4 by have := bitNat_lt sx; omega)
  rw [e]
  simp [decodeOp, row00, bitMod, bitCode_bitNat, dstIf_enc (Dst.wf_of_isPair hd) hd, srcIf_enc (Src.wf_of_isPair ha) ha, anySrc_enc hb, hs, h1, h2, h3, h4, h5, bind_ok, pure_ok, unused_zero, need]

theorem Laws.RoundTrip.iadd64 (p : Pred) (d : Dst) (a b : Src) (ext : Ext64) : Statement (.iadd64 p d a b ext) := by
  intro w hw he
  cases he
  have h : p.wf = true ∧ d.isPair = true ∧ a.isPair = true ∧ b.wf = true ∧ (ext = .pair → b.isPair = true) := by
    cases ext <;> simp only [Instr.wf, Bool.and_eq_true] at hw
    · exact ⟨hw.1.1.1, hw.1.1.2, hw.1.2, hw.2, fun h => nomatch h⟩
    · exact ⟨hw.1.1.1, hw.1.1.2, hw.1.2, hw.2, fun h => nomatch h⟩
    · exact ⟨hw.1.1.1, hw.1.1.2, hw.1.2, Src.wf_of_isPair hw.2, fun _ => hw.2⟩
  obtain ⟨hp, hd, ha, hb, hx⟩ := h
  obtain ⟨f, e, h1, h2, h3, h4, h5⟩ := decode_R (op := 0x012) (c := 0) hp (by decide) (by decide) (encDst_lt (Dst.wf_of_isPair hd))
    (encSrc_lt (Src.wf_of_isPair ha)) (encSrc_lt hb) (by decide) (show ext.code < 4 by cases ext <;> decide)
  rw [e]
  cases ext with
  | pair => simp [decodeOp, row01, decIadd64, h1, h2, h3, h4, h5, Ext64.code, dstIf_enc (Dst.wf_of_isPair hd) hd, srcIf_enc (Src.wf_of_isPair ha) ha, srcIf_enc hb (hx rfl), bind_ok, pure_ok, unused_zero]
  | _ => simp [decodeOp, row01, decIadd64, h1, h2, h3, h4, h5, Ext64.code, dstIf_enc (Dst.wf_of_isPair hd) hd, srcIf_enc (Src.wf_of_isPair ha) ha, anySrc_enc hb, bind_ok, pure_ok, unused_zero]

theorem Laws.RoundTrip.icmp (p : Pred) (d : Dst) (a b : Src) (cc : ICond) : Statement (.icmp p d a b cc) := by
  intro w hw he
  cases he
  simp only [Instr.wf, wf1, wf2, wf3, Bool.and_eq_true, decide_eq_true_eq] at hw
  obtain ⟨⟨⟨hp, hd⟩, ha⟩, hb⟩ := hw
  have hcc : icondOf cc.code = .ok cc := by cases cc <;> rfl
  obtain ⟨f, e, h1, h2, h3, h4, h5⟩ := decode_R (op := 0x03A) (m := 0) hp (by decide) (by decide) (encDst_lt hd) (encSrc_lt ha) (encSrc_lt hb) (show cc.code < 4096 by cases cc <;> decide) (by decide)
  rw [e]
  simp [decodeOp, row03, hcc, decCmp, dstIf_enc hd hd, anySrc_enc ha, anySrc_enc hb, h1, h2, h3, h4, h5, bind_ok, pure_ok, unused_zero, need]

theorem Laws.RoundTrip.fcmp (p : Pred) (d : Dst) (a b : Src) (cc : FCond) : Statement (.fcmp p d a b cc) := by
  intro w hw he
  cases he
  simp only [Instr.wf, wf1, wf2, wf3, Bool.and_eq_true, decide_eq_true_eq] at hw
  obtain ⟨⟨⟨hp, hd⟩, ha⟩, hb⟩ := hw
  have hcc : fcondOf cc.code = .ok cc := by cases cc <;> rfl
  obtain ⟨f, e, h1, h2, h3, h4, h5⟩ := decode_R (op := 0x04C) (m := 0) hp (by decide) (by decide) (encDst_lt hd) (encSrc_lt ha) (encSrc_lt hb) (show cc.code < 4096 by cases cc <;> decide) (by decide)
  rw [e]
  simp [decodeOp, row04, hcc, decCmp, dstIf_enc hd hd, anySrc_enc ha, anySrc_enc hb, h1, h2, h3, h4, h5, bind_ok, pure_ok, unused_zero, need]

theorem Laws.RoundTrip.fcvt (p : Pred) (d : Dst) (a : Src) (dt st : Fmt) (m : RoundMode) : Statement (.fcvt p d a dt st m) := by
  intro w hw he
  cases he
  simp only [Instr.wf, wf1, Bool.and_eq_true] at hw
  obtain ⟨⟨⟨⟨⟨⟨hp, hd⟩, ha⟩, h6⟩, h7⟩, h8⟩, h9⟩ := hw
  obtain ⟨f, e, h1, h2, h3, h4, h5⟩ := decode_R (op := 0x04E) (b := 0) hp (by decide) (by decide) (encDst_lt (Dst.wf_of_isReg hd)) (encSrc_lt ha)
    (by decide) (show st.code * 16 + dt.code < 4096 by cases st <;> cases dt <;> decide) m.code_lt
  rw [e]
  have e1 : (st.code * 16 + dt.code) / 16 = st.code := by cases st <;> cases dt <;> rfl
  have e2 : (st.code * 16 + dt.code) % 16 = dt.code := by cases st <;> cases dt <;> rfl
  have e3 : (st.code * 16 + dt.code < 256) := by cases st <;> cases dt <;> decide
  have e4 : fmtOf st.code = .ok st := by cases st <;> rfl
  have e5 : fmtOf dt.code = .ok dt := by cases dt <;> rfl
  have e6 : (dt.isPlain && st.isPlain && dt != st && !(dt.isInt && st.isInt)) = true := by simp only [h6, h7, h8, h9, Bool.and_self]
  simp only [decodeOp, row04, decFcvt, h1, h2, h3, h4, h5, regDst_enc hd, anySrc_enc ha, unused_zero, bind_ok, e1, e2, e4, e5, roundOf_code, pure_ok, need_of (decide_eq_true e3), need_of e6]
  rfl

theorem Laws.RoundTrip.fsqrt (p : Pred) (d : Dst) (a : Src) (g : Grade) (m : RoundMode) : Statement (.fsqrt p d a g m) := by
  intro w hw he
  cases he
  simp only [Instr.wf, wf1, wf2, wf3, Bool.and_eq_true, decide_eq_true_eq] at hw
  obtain ⟨⟨⟨hp, hd⟩, ha⟩, hg⟩ := hw
  obtain ⟨f, e, h1, h2, h3, h4, h5⟩ := decode_R (op := 0x064) (b := 0) hp (by decide) (by decide) (encDst_lt (Dst.wf_of_isReg hd)) (encSrc_lt ha) (by decide) g.code_lt m.code_lt
  rw [e]
  simp [decodeOp, row06, regDst_enc hd, anySrc_enc ha, gradeOf_code, roundOf_code, hg, h1, h2, h3, h4, h5, bind_ok, pure_ok, unused_zero, need]

theorem Laws.RoundTrip.fdiv (p : Pred) (d : Dst) (a b : Src) (g : Grade) (m : RoundMode) : Statement (.fdiv p d a b g m) := by
  intro w hw he
  cases he
  simp only [Instr.wf, wf1, wf2, wf3, Bool.and_eq_true, decide_eq_true_eq] at hw
  obtain ⟨⟨⟨⟨hp, hd⟩, ha⟩, hb⟩, hg⟩ := hw
  obtain ⟨f, e, h1, h2, h3, h4, h5⟩ := decode_R (op := 0x066) hp (by decide) (by decide) (encDst_lt (Dst.wf_of_isReg hd)) (encSrc_lt ha) (encSrc_lt hb) g.code_lt m.code_lt
  rw [e]
  simp [decodeOp, row06, regDst_enc hd, anySrc_enc ha, anySrc_enc hb, gradeOf_code, roundOf_code, hg, h1, h2, h3, h4, h5, bind_ok, pure_ok, unused_zero, need]

theorem Laws.RoundTrip.pmov (p : Pred) (d : Dst) (a : Src) (na : Bool) : Statement (.pmov p d a na) := by
  intro w hw he
  cases he
  simp only [Instr.wf, wf1, wf2, wf3, Bool.and_eq_true, decide_eq_true_eq] at hw
  obtain ⟨⟨hp, hd⟩, ha⟩ := hw
  obtain ⟨f, e, h1, h2, h3, h4, h5⟩ := decode_R (op := 0x086) (b := 0) (c := 0) hp (by decide) (by decide) (encDst_lt (Dst.wf_of_isPred hd)) (encSrc_lt ha) (by decide) (by decide) (show bitNat na < 4 by have := bitNat_lt na; omega)
  rw [e]
  simp [decodeOp, row08, bitMod, bitCode_bitNat, dstIf_enc (Dst.wf_of_isPred hd) hd, anySrc_enc ha, h1, h2, h3, h4, h5, bind_ok, pure_ok, unused_zero, need]

theorem Laws.RoundTrip.shfl (p : Pred) (d : Dst) (a b m : Src) (mode : ShflMode) : Statement (.shfl p d a b m mode) := by
  intro w hw he
  cases he
  simp only [Instr.wf, wf1, wf2, wf3, Bool.and_eq_true, decide_eq_true_eq] at hw
  obtain ⟨⟨⟨⟨hp, hd⟩, ha⟩, hb⟩, hm⟩ := hw
  have hk : shflOf mode.code = mode := by cases mode <;> rfl
  obtain ⟨f, e, h1, h2, h3, h4, h5⟩ := decode_R (op := 0x088) hp (by decide) (by decide) (encDst_lt (Dst.wf_of_isLane hd)) (encSrc_lt (Src.wf_of_isLane ha)) (encSrc_lt hb) (encSrc_lt (Src.wf_of_isScalarImm hm)) (show mode.code < 4 by cases mode <;> decide)
  rw [e]
  simp [decodeOp, row08, dstIf_enc (Dst.wf_of_isLane hd) hd, srcIf_enc (Src.wf_of_isLane ha) ha, anySrc_enc hb, srcIf_enc (Src.wf_of_isScalarImm hm) hm, hk, h1, h2, h3, h4, h5, bind_ok, pure_ok, unused_zero, need]

theorem Laws.RoundTrip.vote (p : Pred) (d : Dst) (a m : Src) (mode : VoteMode) : Statement (.vote p d a m mode) := by
  intro w hw he
  cases he
  have h : p.wf = true ∧ d.wf = true ∧ a.wf = true ∧ m.isScalarImm = true ∧ (mode = .ballot → d.isReg = true) := by
    cases mode <;> simp only [Instr.wf, Bool.and_eq_true] at hw
    · exact ⟨hw.1.1.1, hw.1.1.2, hw.1.2, hw.2, fun h => nomatch h⟩
    · exact ⟨hw.1.1.1, hw.1.1.2, hw.1.2, hw.2, fun h => nomatch h⟩
    · exact ⟨hw.1.1.1, Dst.wf_of_isReg hw.1.1.2, hw.1.2, hw.2, fun _ => hw.1.1.2⟩
    · exact ⟨hw.1.1.1, hw.1.1.2, hw.1.2, hw.2, fun h => nomatch h⟩
  obtain ⟨hp, hd, ha, hm, hx⟩ := h
  obtain ⟨f, e, h1, h2, h3, h4, h5⟩ := decode_R (op := 0x08A) (c := 0) hp (by decide) (by decide) (encDst_lt hd)
    (encSrc_lt ha) (encSrc_lt (Src.wf_of_isScalarImm hm)) (by decide) (show mode.code < 4 by cases mode <;> decide)
  rw [e]
  cases mode with
  | ballot => simp [decodeOp, row08, decVote, h1, h2, h3, h4, h5, VoteMode.code, regDst_enc (hx rfl), anySrc_enc ha, srcIf_enc (Src.wf_of_isScalarImm hm) hm, bind_ok, pure_ok, unused_zero]
  | _ => simp [decodeOp, row08, decVote, h1, h2, h3, h4, h5, VoteMode.code, dstIf_enc hd hd, anySrc_enc ha, srcIf_enc (Src.wf_of_isScalarImm hm) hm, bind_ok, pure_ok, unused_zero]

theorem Laws.RoundTrip.wred (p : Pred) (d : Dst) (a m : Src) (op : RedOp) (ty : RedTy) : Statement (.wred p d a m op ty) := by
  intro w hw he
  cases he
  simp only [Instr.wf, Bool.and_eq_true] at hw
  obtain ⟨⟨⟨⟨hp, hd⟩, ha⟩, hm⟩, hx⟩ := hw
  have ho : redOpOf op.code = .ok op := by cases op <;> rfl
  have ht : redTyOf ty.code = .ok ty := by cases ty <;> rfl
  obtain ⟨f, e, h1, h2, h3, h4, h5⟩ := decode_R (op := 0x08C) hp (by decide) (by decide) (encDst_lt (Dst.wf_of_isReg hd)) (encSrc_lt ha) (encSrc_lt (Src.wf_of_isScalarImm hm)) (show ty.code < 4096 by cases ty <;> decide) (show op.code < 4 by cases op <;> decide)
  rw [e]
  show decWred p f = _
  simp only [decWred, h1, h2, h3, h4, h5, regDst_enc hd, anySrc_enc ha, srcIf_enc (Src.wf_of_isScalarImm hm) hm, ho, ht, bind_ok, need_of hx, pure_ok]

theorem Laws.RoundTrip.movi (p : Pred) (d : Dst) (k : Word) : Statement (.movi p d k) := by
  intro w hw he
  cases he
  simp only [Instr.wf, Bool.and_eq_true] at hw
  obtain ⟨hp, hd⟩ := hw
  obtain ⟨f, e, h1, h2, h3⟩ := decode_L (op := 0x006) (m := 0) hp (by decide) (by decide) (encDst_lt (Dst.wf_of_isReg hd)) (by decide) k.isLt
  rw [e]
  simp [decodeOp, row00, h1, h2, h3, regDst_enc hd, bind_ok, pure_ok, need]

theorem Laws.RoundTrip.nop (p : Pred) : Statement (.nop p) := by
  intro w hw he
  cases he
  exact rt_imm (imm := 0) (by decide) (by decide) hw (by decide) fun f h1 h2 h3 => by
    simp [decodeOp, row00, h1, h2, h3, bind_ok, pure_ok, unused_zero, need]

theorem Laws.RoundTrip.exit (p : Pred) : Statement (.exit p) := by
  intro w hw he
  cases he
  exact rt_imm (imm := 0) (by decide) (by decide) hw (by decide) fun f h1 h2 h3 => by
    simp [decodeOp, row09, bare, h1, h2, h3, bind_ok, pure_ok, unused_zero, need]

theorem Laws.RoundTrip.lexit (p : Pred) : Statement (.lexit p) := by
  intro w hw he
  cases he
  exact rt_imm (imm := 0) (by decide) (by decide) hw (by decide) fun f h1 h2 h3 => by
    simp [decodeOp, row0A, bare, h1, h2, h3, bind_ok, pure_ok, unused_zero, need]

theorem Laws.RoundTrip.rleave (p : Pred) : Statement (.rleave p) := by
  intro w hw he
  cases he
  exact rt_imm (imm := 0) (by decide) (by decide) hw (by decide) fun f h1 h2 h3 => by
    simp [decodeOp, row15, bare, h1, h2, h3, bind_ok, pure_ok, unused_zero, need]

theorem Laws.RoundTrip.join : Statement (.join) := by
  intro w hw he
  cases he
  exact rt_imm (imm := 0) (by decide) (by decide) rfl (by decide) fun f h1 h2 h3 => by
    simp [decodeOp, row09, mustAlways, bare, h1, h2, h3, bind_ok, pure_ok, unused_zero, need]

theorem Laws.RoundTrip.fold : Statement (.fold) := by
  intro w hw he
  cases he
  exact rt_imm (imm := 0) (by decide) (by decide) rfl (by decide) fun f h1 h2 h3 => by
    simp [decodeOp, row0A, mustAlways, bare, h1, h2, h3, bind_ok, pure_ok, unused_zero, need]

theorem Laws.RoundTrip.unfold : Statement (.unfold) := by
  intro w hw he
  cases he
  exact rt_imm (imm := 0) (by decide) (by decide) rfl (by decide) fun f h1 h2 h3 => by
    simp [decodeOp, row0A, mustAlways, bare, h1, h2, h3, bind_ok, pure_ok, unused_zero, need]

theorem Laws.RoundTrip.trap (p : Pred) (code : BitVec 16) : Statement (.trap p code) := by
  intro w hw he
  cases he
  exact rt_imm (imm := code.toNat) (by decide) (by decide) hw (by have := code.isLt; omega) fun f h1 h2 h3 => by
    simp [decodeOp, row0A, (show code.toNat < 65536 from code.isLt), h1, h2, h3, bind_ok, pure_ok, unused_zero, need]

theorem Laws.RoundTrip.brk (p : Pred) (code : BitVec 16) : Statement (.brk p code) := by
  intro w hw he
  cases he
  exact rt_imm (imm := code.toNat) (by decide) (by decide) hw (by have := code.isLt; omega) fun f h1 h2 h3 => by
    simp [decodeOp, row0A, (show code.toNat < 65536 from code.isLt), h1, h2, h3, bind_ok, pure_ok, unused_zero, need]

theorem Laws.RoundTrip.renter (p : Pred) (id : BitVec 16) : Statement (.renter p id) := by
  intro w hw he
  cases he
  exact rt_imm (imm := id.toNat) (by decide) (by decide) hw (by have := id.isLt; omega) fun f h1 h2 h3 => by
    simp [decodeOp, row15, (show id.toNat < 65536 from id.isLt), h1, h2, h3, bind_ok, pure_ok, unused_zero, need]

theorem Laws.RoundTrip.mark (p : Pred) (n : Nat) : Statement (.mark p n) := by
  intro w hw he
  cases he
  simp only [Instr.wf, Bool.and_eq_true, decide_eq_true_eq] at hw
  obtain ⟨⟨hp, h6⟩, h7⟩ := hw
  have hn := And.intro h6 h7
  exact rt_imm (imm := n) (by decide) (by decide) hp (by omega) fun f h1 h2 h3 => by
    simp [decodeOp, row0A, hn.1, hn.2, h1, h2, h3, bind_ok, pure_ok, unused_zero, need]

theorem Laws.RoundTrip.phase (p : Pred) (k : ScopeSel) : Statement (.phase p k) := by
  intro w hw he
  cases he
  simp only [Instr.wf, Bool.and_eq_true] at hw
  obtain ⟨hp, hk⟩ := hw
  exact rt_imm (imm := k.code) (by decide) (by decide) hp (by have := ScopeSel.code_lt hk; omega) fun f h1 h2 h3 => by
    simp [decodeOp, row0D, decScope, scopeSelOf_code hk, h1, h2, h3, bind_ok, pure_ok, unused_zero, need]

theorem Laws.RoundTrip.ifence (p : Pred) (k : ScopeSel) : Statement (.ifence p k) := by
  intro w hw he
  cases he
  simp only [Instr.wf, Bool.and_eq_true] at hw
  obtain ⟨hp, hk⟩ := hw
  exact rt_imm (imm := k.code) (by decide) (by decide) hp (by have := ScopeSel.code_lt hk; omega) fun f h1 h2 h3 => by
    simp [decodeOp, row0D, decScope, scopeSelOf_code hk, h1, h2, h3, bind_ok, pure_ok, unused_zero, need]

theorem Laws.RoundTrip.rput (p : Pred) (k : Nat) : Statement (.rput p k) := by
  intro w hw he
  cases he
  simp only [Instr.wf, Bool.and_eq_true, decide_eq_true_eq] at hw
  obtain ⟨hp, hk⟩ := hw
  exact rt_imm (imm := k) (by decide) (by decide) hp (by omega) fun f h1 h2 h3 => by
    simp [decodeOp, row0E, hk, h1, h2, h3, bind_ok, pure_ok, unused_zero, need]

theorem Laws.RoundTrip.rdone (p : Pred) (k : Nat) : Statement (.rdone p k) := by
  intro w hw he
  cases he
  simp only [Instr.wf, Bool.and_eq_true, decide_eq_true_eq] at hw
  obtain ⟨hp, hk⟩ := hw
  exact rt_imm (imm := k) (by decide) (by decide) hp (by omega) fun f h1 h2 h3 => by
    simp [decodeOp, row0E, hk, h1, h2, h3, bind_ok, pure_ok, unused_zero, need]

theorem Laws.RoundTrip.wclr (p : Pred) (k : Nat) : Statement (.wclr p k) := by
  intro w hw he
  cases he
  simp only [Instr.wf, Bool.and_eq_true, decide_eq_true_eq] at hw
  obtain ⟨hp, hk⟩ := hw
  exact rt_imm (imm := k) (by decide) (by decide) hp (by omega) fun f h1 h2 h3 => by
    simp [decodeOp, row15, hk, h1, h2, h3, bind_ok, pure_ok, unused_zero, need]

theorem Laws.RoundTrip.bar (k : Nat) : Statement (.bar k) := by
  intro w hw he
  cases he
  have hk : k < 8 := by simpa [Instr.wf] using hw
  exact rt_imm (imm := k) (by decide) (by decide) rfl (by omega) fun f h1 h2 h3 => by
    simp [decodeOp, row15, mustAlways, hk, h1, h2, h3, bind_ok, pure_ok, unused_zero, need]

theorem Laws.RoundTrip.tret (k : TretKind) : Statement (.tret k) := by
  intro w hw he
  cases he
  have hk : tretOf k.code = .ok k := by cases k <;> rfl
  exact rt_imm (imm := k.code) (by decide) (by decide) rfl (by cases k <;> decide) fun f h1 h2 h3 => by
    simp [decodeOp, row16, mustAlways, hk, h1, h2, h3, bind_ok, pure_ok, unused_zero, need]

theorem Laws.RoundTrip.wait (p : Pred) (d : Nat) : Statement (.wait p d) := by
  intro w hw he
  cases he
  simp only [Instr.wf, Bool.and_eq_true, decide_eq_true_eq] at hw
  obtain ⟨hp, hd⟩ := hw
  obtain ⟨f, e, h1, h2, h3⟩ := decode_S (op := 0x0DA) (a := 0) (imm := 0) hp (by decide) (by decide) (show 0xA00 + d < 4096 by omega) (by decide) (by decide)
  rw [e]
  simp [decodeOp, row0D, scalarIf_enc (ok := fun n => decide (n < 128)) (show d < 256 by omega) (by simpa using hd), h1, h2, h3, bind_ok, pure_ok, unused_zero, need]

theorem Laws.RoundTrip.rget (p : Pred) (d k : Nat) : Statement (.rget p d k) := by
  intro w hw he
  cases he
  simp only [Instr.wf, Bool.and_eq_true, decide_eq_true_eq] at hw
  obtain ⟨⟨hp, hd⟩, hk⟩ := hw
  obtain ⟨f, e, h1, h2, h3⟩ := decode_S (op := 0x0E0) (a := 0) (imm := k) hp (by decide) (by decide) (show 0xA00 + d < 4096 by omega) (by decide) (by omega)
  rw [e]
  simp [decodeOp, row0E, scalarIf_enc (ok := fun n => decide (n < 128)) (show d < 256 by omega) (by simpa using hd), hk, h1, h2, h3, bind_ok, pure_ok, unused_zero, need]

theorem Laws.RoundTrip.rgetW (p : Pred) (d k : Nat) : Statement (.rgetW p d k) := by
  intro w hw he
  cases he
  simp only [Instr.wf, Bool.and_eq_true, decide_eq_true_eq] at hw
  obtain ⟨⟨hp, hd⟩, hk⟩ := hw
  have hk32 : 16 + k < 32 := by omega
  obtain ⟨f, e, h1, h2, h3⟩ := decode_S (op := 0x0E0) (a := 0) (imm := 16 + k) hp (by decide) (by decide) (show 0xA00 + d < 4096 by omega) (by decide) (by omega)
  rw [e]
  simp [decodeOp, row0E, scalarIf_enc (ok := fun n => decide (n < 128)) (show d < 256 by omega) (by simpa using hd), hk32, h1, h2, h3, bind_ok, pure_ok, unused_zero, need]

theorem Laws.RoundTrip.tset (p : Pred) (n b : Nat) : Statement (.tset p n b) := by
  intro w hw he
  cases he
  simp only [Instr.wf, Bool.and_eq_true, decide_eq_true_eq] at hw
  obtain ⟨⟨hp, hn⟩, hb⟩ := hw
  obtain ⟨f, e, h1, h2, h3⟩ := decode_S (op := 0x14A) (d := 0) (imm := n) hp (by decide) (by decide) (by decide) (show 0xA00 + b < 4096 by have := quadScalar_lt hb; omega) (by omega)
  rw [e]
  simp [decodeOp, row14, scalarIf_enc (quadScalar_lt hb) hb, hn, h1, h2, h3, bind_ok, pure_ok, unused_zero, need]

theorem Laws.RoundTrip.wset (p : Pred) (k b : Nat) : Statement (.wset p k b) := by
  intro w hw he
  cases he
  simp only [Instr.wf, Bool.and_eq_true, decide_eq_true_eq] at hw
  obtain ⟨⟨hp, hn⟩, hb⟩ := hw
  obtain ⟨f, e, h1, h2, h3⟩ := decode_S (op := 0x15C) (d := 0) (imm := k) hp (by decide) (by decide) (by decide) (show 0xA00 + b < 4096 by have := quadScalar_lt hb; omega) (by omega)
  rw [e]
  simp [decodeOp, row15, scalarIf_enc (quadScalar_lt hb) hb, hn, h1, h2, h3, bind_ok, pure_ok, unused_zero, need]

theorem Laws.RoundTrip.spawn (p : Pred) (d a : Nat) : Statement (.spawn p d a) := by
  intro w hw he
  cases he
  simp only [Instr.wf, Bool.and_eq_true, decide_eq_true_eq] at hw
  obtain ⟨⟨hp, hd⟩, ha⟩ := hw
  obtain ⟨f, e, h1, h2, h3⟩ := decode_S (op := 0x150) (imm := 0) hp (by decide) (by decide) (show 0xA00 + d < 4096 by have := evenScalar_lt hd; omega) (show 0xA00 + a < 4096 by have := evenScalar_lt ha; omega) (by decide)
  rw [e]
  simp [decodeOp, row15, scalarIf_enc (evenScalar_lt hd) hd, scalarIf_enc (evenScalar_lt ha) ha, h1, h2, h3, bind_ok, pure_ok, unused_zero, need]

theorem Laws.RoundTrip.barv (k : Nat) (c : Src) : Statement (.barv k c) := by
  intro w hw he
  cases he
  simp only [Instr.wf, Bool.and_eq_true, decide_eq_true_eq] at hw
  obtain ⟨hk, hc⟩ := hw
  obtain ⟨f, e, h1, h2, h3⟩ := decode_S (op := 0x154) (p := .always) (d := 0) (imm := k) rfl (by decide) (by decide) (by decide) (encSrc_lt (Src.wf_of_isScalarImm hc)) (by omega)
  rw [e]
  simp [decodeOp, row15, mustAlways, srcIf_enc (Src.wf_of_isScalarImm hc) hc, hk, h1, h2, h3, bind_ok, pure_ok, unused_zero, need]

theorem Laws.RoundTrip.tlbi (p : Pred) (k : TlbiKind) : Statement (.tlbi p k) := by
  intro w hw he
  cases k with
  | page a =>
    cases he
    simp only [Instr.wf, Bool.and_eq_true] at hw
    obtain ⟨hp, ha⟩ := hw
    obtain ⟨f, e, h1, h2, h3⟩ := decode_S (op := 0x166) (d := 0) (imm := 0) hp (by decide) (by decide) (by decide)
      (show 0xA00 + a < 4096 by have := evenScalar_lt ha; omega) (by decide)
    rw [e]
    simp [decodeOp, row16, h1, h2, h3, scalarIf_enc (evenScalar_lt ha) ha, bind_ok, pure_ok, unused_zero]
  | ctx =>
    cases he
    exact rt_imm (imm := 1) (by decide) (by decide) hw (by decide) fun f h1 h2 h3 => by
      simp [decodeOp, row16, h1, h2, h3, bind_ok, pure_ok, unused_zero]

theorem Laws.RoundTrip.csrr (p : Pred) (d : Dst) (n : Nat) : Statement (.csrr p d n) := by
  intro w hw he
  cases he
  simp only [Instr.wf, Bool.and_eq_true, bne_iff_ne, ne_eq] at hw
  obtain ⟨⟨⟨⟨hp, hd⟩, hn⟩, h10⟩, h19⟩ := hw
  have hlt : n < 512 := by simp [isSpecialNumber] at hn; omega
  obtain ⟨f, e, h1, h2, h3⟩ := decode_S (op := 0x162) (a := 0) (imm := n) hp (by decide) (by decide) (encDst_lt (Dst.wf_of_isReg hd)) (by decide) (by omega)
  rw [e]
  simp [decodeOp, row16, decCsrr, h1, h2, h3, regDst_enc hd, hn, h10, h19, bind_ok, pure_ok, unused_zero, need]

theorem Laws.RoundTrip.ectrloRead (p : Pred) (d : Dst) : Statement (.ectrloRead p d) := by
  intro w hw he
  cases he
  simp only [Instr.wf, Bool.and_eq_true] at hw
  obtain ⟨hp, hd⟩ := hw
  obtain ⟨f, e, h1, h2, h3⟩ := decode_S (op := 0x162) (a := 0) (imm := 0x19) hp (by decide) (by decide) (encDst_lt (Dst.wf_of_isReg hd)) (by decide) (by decide)
  rw [e]
  simp [decodeOp, row16, decCsrr, h1, h2, h3, regDst_enc hd, bind_ok, pure_ok, unused_zero, need, isSpecialNumber]

theorem Laws.RoundTrip.clkRead (p : Pred) (d : Dst) : Statement (.clkRead p d) := by
  intro w hw he
  cases he
  simp only [Instr.wf, Bool.and_eq_true] at hw
  obtain ⟨hp, hd⟩ := hw
  obtain ⟨f, e, h1, h2, h3⟩ := decode_S (op := 0x162) (a := 0) (imm := 0x10) hp (by decide) (by decide) (encDst_lt (Dst.wf_of_isReg hd)) (by decide) (by decide)
  rw [e]
  simp [decodeOp, row16, decCsrr, h1, h2, h3, regDst_enc hd, bind_ok, pure_ok, unused_zero, need, isSpecialNumber]

theorem Laws.RoundTrip.csrw (p : Pred) (n : Nat) (a : Src) : Statement (.csrw p n a) := by
  intro w hw he
  cases he
  simp only [Instr.wf, Bool.and_eq_true, bne_iff_ne, ne_eq, Bool.not_eq_true', Bool.and_eq_false_iff, decide_eq_false_iff_not] at hw
  obtain ⟨⟨⟨⟨⟨hp, ha⟩, hn⟩, hr⟩, h1A⟩, h1C⟩ := hw
  have hlt : n < 512 := by simp [isSpecialNumber] at hn; omega
  have hr' : ¬ (32 ≤ n ∧ n ≤ 47) := by omega
  obtain ⟨f, e, h1, h2, h3⟩ := decode_S (op := 0x164) (d := 0) (imm := n) hp (by decide) (by decide) (by decide) (encSrc_lt (Src.wf_of_isScalarImm ha)) (by omega)
  rw [e]
  simp [decodeOp, row16, decCsrw, h1, h2, h3, srcIf_enc (Src.wf_of_isScalarImm ha) ha, hn, hr', h1A, h1C, bind_ok, pure_ok, unused_zero, need]

theorem Laws.RoundTrip.carveWrite (p : Pred) (a : Src) : Statement (.carveWrite p a) := by
  intro w hw he
  cases he
  simp only [Instr.wf, Bool.and_eq_true] at hw
  obtain ⟨hp, ha⟩ := hw
  obtain ⟨f, e, h1, h2, h3⟩ := decode_S (op := 0x164) (d := 0) (imm := 0x10A) hp (by decide) (by decide) (by decide) (encSrc_lt (Src.wf_of_isScalarImm ha)) (by decide)
  rw [e]
  simp [decodeOp, row16, decCsrw, h1, h2, h3, srcIf_enc (Src.wf_of_isScalarImm ha) ha, bind_ok, pure_ok, unused_zero, need, isSpecialNumber]

theorem Laws.RoundTrip.wdctlWrite (p : Pred) (a : Src) : Statement (.wdctlWrite p a) := by
  intro w hw he
  cases he
  simp only [Instr.wf, Bool.and_eq_true] at hw
  obtain ⟨hp, ha⟩ := hw
  obtain ⟨f, e, h1, h2, h3⟩ := decode_S (op := 0x164) (d := 0) (imm := 0x10C) hp (by decide) (by decide) (by decide) (encSrc_lt (Src.wf_of_isScalarImm ha)) (by decide)
  rw [e]
  simp [decodeOp, row16, decCsrw, h1, h2, h3, srcIf_enc (Src.wf_of_isScalarImm ha) ha, bind_ok, pure_ok, unused_zero, need, isSpecialNumber]

theorem Laws.RoundTrip.rgcfgWrite (p : Pred) (k : Nat) (a : Src) : Statement (.rgcfgWrite p k a) := by
  intro w hw he
  cases he
  simp only [Instr.wf, Bool.and_eq_true, decide_eq_true_eq] at hw
  obtain ⟨⟨hp, hk⟩, ha⟩ := hw
  obtain ⟨f, e, h1, h2, h3⟩ := decode_S (op := 0x164) (d := 0) (imm := 0x20 + k) hp (by decide) (by decide) (by decide) (encSrc_lt (Src.wf_of_isScalarImm ha)) (by omega)
  rw [e]
  have hn : isSpecialNumber (0x20 + k) = true := by simp [isSpecialNumber]; omega
  have e1 : ¬ 32 + k = 266 := by omega
  have e2 : ¬ 32 + k = 268 := by omega
  have e3 : 32 + k ≤ 47 := by omega
  simp [decodeOp, row16, decCsrw, h1, h2, h3, srcIf_enc (Src.wf_of_isScalarImm ha) ha, hn, e1, e2, e3, bind_ok, pure_ok, unused_zero, need]

theorem Laws.RoundTrip.brx (p : Pred) (a : Nat) : Statement (.brx p a) := by
  intro w hw he
  cases he
  simp only [Instr.wf, wf1, wf2, wf3, Bool.and_eq_true, decide_eq_true_eq] at hw
  obtain ⟨hp, ha⟩ := hw
  obtain ⟨f, e, h1, h2, h3, h4, h5⟩ := decode_R (op := 0x096) (d := 0) (b := 0) (c := 0) (m := 0) hp (by decide) (by decide) (by decide) (show 0xA00 + a < 4096 by have := evenScalar_lt ha; omega) (by decide) (by decide) (by decide)
  rw [e]
  simp [decodeOp, row09, decPairA, scalarIf_enc (evenScalar_lt ha) ha, h1, h2, h3, h4, h5, bind_ok, pure_ok, unused_zero, need]

theorem Laws.RoundTrip.ret (p : Pred) (a : Nat) : Statement (.ret p a) := by
  intro w hw he
  cases he
  simp only [Instr.wf, wf1, wf2, wf3, Bool.and_eq_true, decide_eq_true_eq] at hw
  obtain ⟨hp, ha⟩ := hw
  obtain ⟨f, e, h1, h2, h3, h4, h5⟩ := decode_R (op := 0x09C) (d := 0) (b := 0) (c := 0) (m := 0) hp (by decide) (by decide) (by decide) (show 0xA00 + a < 4096 by have := evenScalar_lt ha; omega) (by decide) (by decide) (by decide)
  rw [e]
  simp [decodeOp, row09, decPairA, scalarIf_enc (evenScalar_lt ha) ha, h1, h2, h3, h4, h5, bind_ok, pure_ok, unused_zero, need]

theorem Laws.RoundTrip.callr (p : Pred) (link a : Nat) : Statement (.callr p link a) := by
  intro w hw he
  cases he
  simp only [Instr.wf, wf1, wf2, wf3, Bool.and_eq_true, decide_eq_true_eq] at hw
  obtain ⟨⟨hp, hl⟩, ha⟩ := hw
  obtain ⟨f, e, h1, h2, h3, h4, h5⟩ := decode_R (op := 0x09A) (b := 0) (c := 0) (m := 0) hp (by decide) (by decide) (show 0xA00 + link < 4096 by have := evenScalar_lt hl; omega) (show 0xA00 + a < 4096 by have := evenScalar_lt ha; omega) (by decide) (by decide) (by decide)
  rw [e]
  simp [decodeOp, row09, scalarIf_enc (evenScalar_lt ha) ha, scalarIf_enc (evenScalar_lt hl) hl, h1, h2, h3, h4, h5, bind_ok, pure_ok, unused_zero, need]

theorem Laws.RoundTrip.xmov (p : Pred) (d : Dst) (a : Src) (j : Nat) : Statement (.xmov p d a j) := by
  intro w hw he
  cases he
  simp only [Instr.wf, wf1, wf2, wf3, Bool.and_eq_true, decide_eq_true_eq] at hw
  obtain ⟨⟨⟨hp, hd⟩, ha⟩, hj⟩ := hw
  obtain ⟨f, e, h1, h2, h3, h4, h5⟩ := decode_R (op := 0x0B0) (b := j) (c := 0) (m := 0) hp (by decide) (by decide) (encDst_lt (Dst.wf_of_isLane hd)) (encSrc_lt (Src.wf_of_isLane ha)) (by omega) (by decide) (by decide)
  rw [e]
  simp [decodeOp, row0B, numBelow, dstIf_enc (Dst.wf_of_isLane hd) hd, srcIf_enc (Src.wf_of_isLane ha) ha, hj, h1, h2, h3, h4, h5, bind_ok, pure_ok, unused_zero, need]

theorem Laws.RoundTrip.xbc (p : Pred) (d : Dst) (a : Src) (j : Nat) (m : Src) : Statement (.xbc p d a j m) := by
  intro w hw he
  cases he
  simp only [Instr.wf, wf1, wf2, wf3, Bool.and_eq_true, decide_eq_true_eq] at hw
  obtain ⟨⟨⟨⟨hp, hd⟩, ha⟩, hj⟩, hm⟩ := hw
  obtain ⟨f, e, h1, h2, h3, h4, h5⟩ := decode_R (op := 0x0B2) (b := j) (m := 0) hp (by decide) (by decide) (encDst_lt (Dst.wf_of_isLane hd)) (encSrc_lt (Src.wf_of_isLane ha)) (by omega) (encSrc_lt (Src.wf_of_isScalarImm hm)) (by decide)
  rw [e]
  simp [decodeOp, row0B, numBelow, dstIf_enc (Dst.wf_of_isLane hd) hd, srcIf_enc (Src.wf_of_isLane ha) ha, srcIf_enc (Src.wf_of_isScalarImm hm) hm, hj, h1, h2, h3, h4, h5, bind_ok, pure_ok, unused_zero, need]

theorem Laws.RoundTrip.arm (p : Pred) (lo hi tok : Src) : Statement (.arm p lo hi tok) := by
  intro w hw he
  cases he
  simp only [Instr.wf, wf1, wf2, wf3, Bool.and_eq_true, decide_eq_true_eq] at hw
  obtain ⟨⟨⟨hp, h6⟩, h7⟩, h8⟩ := hw
  obtain ⟨f, e, h1, h2, h3, h4, h5⟩ := decode_R (op := 0x0D8) (d := 0) (m := 0) hp (by decide) (by decide) (by decide) (encSrc_lt (Src.wf_of_isScalarImm h6)) (encSrc_lt (Src.wf_of_isScalarImm h7)) (encSrc_lt (Src.wf_of_isScalarImm h8)) (by decide)
  rw [e]
  simp [decodeOp, row0D, srcIf_enc (Src.wf_of_isScalarImm h6) h6, srcIf_enc (Src.wf_of_isScalarImm h7) h7, srcIf_enc (Src.wf_of_isScalarImm h8) h8, h1, h2, h3, h4, h5, bind_ok, pure_ok, unused_zero, need]

theorem Laws.RoundTrip.bra (p : Pred) (off : BitVec 32) : Statement (.bra p off) := by
  intro w hw he
  cases he
  simp only [Instr.wf, Bool.and_eq_true, decide_eq_true_eq] at hw
  have hp := hw
  obtain ⟨f, e, h1, h2⟩ := decode_B (op := 0x090) (jn := 0) hp (by decide) (by decide) (by decide) off.isLt
  rw [e]
  simp [decodeOp, row09, h1, h2, bind_ok, pure_ok, unused_zero]

theorem Laws.RoundTrip.bdiv (p : Pred) (off : BitVec 32) (rejoin : BitVec 18) : Statement (.bdiv p off rejoin) := by
  intro w hw he
  cases he
  simp only [Instr.wf, Bool.and_eq_true, decide_eq_true_eq] at hw
  have hp := hw
  obtain ⟨f, e, h1, h2⟩ := decode_B (op := 0x092) hp (by decide) (by decide) rejoin.isLt off.isLt
  rw [e]
  simp [decodeOp, row09, h1, h2, bind_ok, pure_ok, unused_zero]

theorem Laws.RoundTrip.call (p : Pred) (off : BitVec 32) (link : Nat) : Statement (.call p off link) := by
  intro w hw he
  cases he
  simp only [Instr.wf, Bool.and_eq_true, decide_eq_true_eq] at hw
  obtain ⟨hp, hl⟩ := hw
  obtain ⟨f, e, h1, h2⟩ := decode_B (op := 0x098) (jn := 0xA00 + link) hp (by decide) (by decide) (by have := evenScalar_lt hl; omega) off.isLt
  rw [e]
  simp [decodeOp, row09, scalarIf_enc (evenScalar_lt hl) hl, h1, h2, bind_ok, pure_ok, unused_zero]

theorem Laws.RoundTrip.loop (p : Pred) (off : BitVec 32) (stages cnt : Nat) : Statement (.loop p off stages cnt) := by
  intro w hw he
  cases he
  simp only [Instr.wf, Bool.and_eq_true, decide_eq_true_eq] at hw
  obtain ⟨⟨⟨hp, h6⟩, h7⟩, h8⟩ := hw
  have e1 : ((stages - 1) * 32768 + (2560 + cnt)) % 32768 = 2560 + cnt := by omega
  have e2 : ((stages - 1) * 32768 + (2560 + cnt)) / 32768 = stages - 1 := by omega
  have e3 : stages - 1 + 1 = stages := by omega
  obtain ⟨f, e, h1, h2⟩ := decode_B (op := 0x0A0) (jn := (stages - 1) * 2 ^ 15 + (0xA00 + cnt)) hp (by decide) (by decide) (by omega) off.isLt
  rw [e]
  simp [decodeOp, row0A, e1, e2, e3, scalarIf_enc (ok := fun n => decide (n < 128)) (show cnt < 256 by omega) (by simpa using h8), h1, h2, bind_ok, pure_ok, unused_zero]

theorem Laws.RoundTrip.ldG32 (p : Pred) (d : Dst) (a : Src) (land : Nat) (off : BitVec 16) : Statement (.ldG32 p d a land off) := by
  intro w hw he
  cases he
  simp only [Instr.wf, Bool.and_eq_true, decide_eq_true_eq] at hw
  obtain ⟨⟨⟨hp, hd⟩, ha⟩, hl⟩ := hw
  exact rt_loadG (by decide) (by decide) (fun f => by simp [decodeOp, row0C]) hp (Dst.wf_of_isReg hd) hd ha hl

theorem Laws.RoundTrip.ldG64 (p : Pred) (d : Dst) (a : Src) (land : Nat) (off : BitVec 16) : Statement (.ldG64 p d a land off) := by
  intro w hw he
  cases he
  simp only [Instr.wf, Bool.and_eq_true, decide_eq_true_eq] at hw
  obtain ⟨⟨⟨hp, hd⟩, ha⟩, hl⟩ := hw
  exact rt_loadG (by decide) (by decide) (fun f => by simp [decodeOp, row0C]) hp (Dst.wf_of_isLoadPair hd) hd ha hl

theorem Laws.RoundTrip.ldSp32 (p : Pred) (d : Dst) (a : Src) (off : BitVec 16) : Statement (.ldSp32 p d a off) := by
  intro w hw he
  cases he
  simp only [Instr.wf, Bool.and_eq_true] at hw
  obtain ⟨⟨hp, hd⟩, ha⟩ := hw
  exact rt_loadSp (by decide) (by decide) (fun f => by simp [decodeOp, row0C]) hp (Dst.wf_of_isReg hd) hd ha

theorem Laws.RoundTrip.ldSp64 (p : Pred) (d : Dst) (a : Src) (off : BitVec 16) : Statement (.ldSp64 p d a off) := by
  intro w hw he
  cases he
  simp only [Instr.wf, Bool.and_eq_true] at hw
  obtain ⟨⟨hp, hd⟩, ha⟩ := hw
  exact rt_loadSp (by decide) (by decide) (fun f => by simp [decodeOp, row0C]) hp (Dst.wf_of_isLoadPair hd) hd ha

theorem Laws.RoundTrip.ldc (p : Pred) (d : Dst) (a : Src) (off : BitVec 16) : Statement (.ldc p d a off) := by
  intro w hw he
  cases he
  simp only [Instr.wf, Bool.and_eq_true] at hw
  obtain ⟨⟨hp, hd⟩, ha⟩ := hw
  exact rt_loadSp (by decide) (by decide) (fun f => by simp [decodeOp, row0D]) hp (Dst.wf_of_isReg hd) hd ha

theorem Laws.RoundTrip.stG32 (p : Pred) (d a : Src) (off : BitVec 16) : Statement (.stG32 p d a off) := by
  intro w hw he
  cases he
  simp only [Instr.wf, Bool.and_eq_true] at hw
  obtain ⟨⟨hp, hd⟩, ha⟩ := hw
  exact rt_store (by decide) (by decide) (fun f => by simp [decodeOp, row0C]) hp (Src.wf_of_isData hd) hd (Src.wf_of_isPair ha) ha

theorem Laws.RoundTrip.stG64 (p : Pred) (d a : Src) (off : BitVec 16) : Statement (.stG64 p d a off) := by
  intro w hw he
  cases he
  simp only [Instr.wf, Bool.and_eq_true] at hw
  obtain ⟨⟨hp, hd⟩, ha⟩ := hw
  exact rt_store (by decide) (by decide) (fun f => by simp [decodeOp, row0C]) hp (Src.wf_of_isDataPair hd) hd (Src.wf_of_isPair ha) ha

theorem Laws.RoundTrip.stSp32 (p : Pred) (d a : Src) (off : BitVec 16) : Statement (.stSp32 p d a off) := by
  intro w hw he
  cases he
  simp only [Instr.wf, Bool.and_eq_true] at hw
  obtain ⟨⟨hp, hd⟩, ha⟩ := hw
  exact rt_store (by decide) (by decide) (fun f => by simp [decodeOp, row0C]) hp (Src.wf_of_isData hd) hd (Src.wf_of_isBase ha) ha

theorem Laws.RoundTrip.stSp64 (p : Pred) (d a : Src) (off : BitVec 16) : Statement (.stSp64 p d a off) := by
  intro w hw he
  cases he
  simp only [Instr.wf, Bool.and_eq_true] at hw
  obtain ⟨⟨hp, hd⟩, ha⟩ := hw
  exact rt_store (by decide) (by decide) (fun f => by simp [decodeOp, row0C]) hp (Src.wf_of_isDataPair hd) hd (Src.wf_of_isBase ha) ha

theorem Laws.RoundTrip.ldo32 (p : Pred) (d : Dst) (a : Src) (land : Nat) (off : BitVec 16) (k : Scope) : Statement (.ldo32 p d a land off k) := by
  intro w hw he
  cases he
  simp only [Instr.wf, Bool.and_eq_true, decide_eq_true_eq] at hw
  obtain ⟨⟨⟨hp, hd⟩, ha⟩, hl⟩ := hw
  exact rt_loadG (k := fun d a l o => .ldo32 p d a l o k) (by omega) (by have := k.code_lt; omega)
    (fun f => by cases k <;> simp [decodeOp, rowLdo, scopePair, scopeOf, Scope.code, bind_ok]) hp (Dst.wf_of_isReg hd) hd ha hl

theorem Laws.RoundTrip.ldo64 (p : Pred) (d : Dst) (a : Src) (land : Nat) (off : BitVec 16) (k : Scope) : Statement (.ldo64 p d a land off k) := by
  intro w hw he
  cases he
  simp only [Instr.wf, Bool.and_eq_true, decide_eq_true_eq] at hw
  obtain ⟨⟨⟨hp, hd⟩, ha⟩, hl⟩ := hw
  exact rt_loadG (k := fun d a l o => .ldo64 p d a l o k) (by omega) (by have := k.code_lt; omega)
    (fun f => by cases k <;> simp [decodeOp, rowLdo, scopePair, scopeOf, Scope.code, bind_ok]) hp (Dst.wf_of_isLoadPair hd) hd ha hl

theorem Laws.RoundTrip.sto32 (p : Pred) (d a : Src) (off : BitVec 16) (k : Scope) : Statement (.sto32 p d a off k) := by
  intro w hw he
  cases he
  simp only [Instr.wf, Bool.and_eq_true] at hw
  obtain ⟨⟨hp, hd⟩, ha⟩ := hw
  exact rt_store (k := fun d a o => .sto32 p d a o k) (by omega) (by have := k.code_lt; omega)
    (fun f => by cases k <;> simp [decodeOp, rowSto, scopePair, scopeOf, Scope.code, bind_ok]) hp (Src.wf_of_isData hd) hd (Src.wf_of_isPair ha) ha

theorem Laws.RoundTrip.sto64 (p : Pred) (d a : Src) (off : BitVec 16) (k : Scope) : Statement (.sto64 p d a off k) := by
  intro w hw he
  cases he
  simp only [Instr.wf, Bool.and_eq_true] at hw
  obtain ⟨⟨hp, hd⟩, ha⟩ := hw
  exact rt_store (k := fun d a o => .sto64 p d a o k) (by omega) (by have := k.code_lt; omega)
    (fun f => by cases k <;> simp [decodeOp, rowSto, scopePair, scopeOf, Scope.code, bind_ok]) hp (Src.wf_of_isDataPair hd) hd (Src.wf_of_isPair ha) ha

theorem Laws.RoundTrip.pf (p : Pred) (a : Src) (l2 : Bool) (off : BitVec 16) : Statement (.pf p a l2 off) := by
  intro w hw he
  cases he
  simp only [Instr.wf, Bool.and_eq_true] at hw
  obtain ⟨hp, ha⟩ := hw
  obtain ⟨f, e, h1, h2, h3, h4⟩ := decode_M (op := 0x0D2) (d := 0) (land := bitNat l2) hp (by decide) (by decide) (by decide) (encSrc_lt (Src.wf_of_isPair ha)) (by have := bitNat_lt l2; omega) off.isLt
  rw [e]
  simp [decodeOp, row0D, h1, h2, h3, h4, srcIf_enc (Src.wf_of_isPair ha) ha, bitCode_bitNat, bind_ok, pure_ok, unused_zero]

theorem Laws.RoundTrip.cpy (p : Pred) (x y b : Nat) (set : Bool) (xs ys : Space) (twoD : Bool) : Statement (.cpy p x y b set xs ys twoD) := by
  intro w hw he
  cases he
  simp only [Instr.wf, Bool.and_eq_true, decide_eq_true_eq] at hw
  obtain ⟨⟨⟨hp, hx⟩, hy⟩, hb⟩ := hw
  have q0 : fld (xs.code * 2 ^ 12 + ys.code * 2 ^ 11 + bitNat twoD * 2 ^ 10) 12 1 = xs.code := by cases xs <;> cases ys <;> cases twoD <;> rfl
  have q1 : fld (xs.code * 2 ^ 12 + ys.code * 2 ^ 11 + bitNat twoD * 2 ^ 10) 11 1 = ys.code := by cases xs <;> cases ys <;> cases twoD <;> rfl
  have q2 : fld (xs.code * 2 ^ 12 + ys.code * 2 ^ 11 + bitNat twoD * 2 ^ 10) 10 1 = bitNat twoD := by cases xs <;> cases ys <;> cases twoD <;> rfl
  have q3 : fld (xs.code * 2 ^ 12 + ys.code * 2 ^ 11 + bitNat twoD * 2 ^ 10) 0 10 = 0 := by cases xs <;> cases ys <;> cases twoD <;> rfl
  obtain ⟨f, e, h1, h2, h3, h4, h5⟩ := decode_E (op := 0x130) (set := set) hp (by decide) (by decide) (show 0xA00 + x < 4096 by have := spaceScalar_lt hx; omega) (show 0xA00 + y < 4096 by have := spaceScalar_lt hy; omega) (show 0xA00 + b < 4096 by have := quadScalar_lt hb; omega) (show xs.code * 2 ^ 12 + ys.code * 2 ^ 11 + bitNat twoD * 2 ^ 10 < 2 ^ 13 by cases xs <;> cases ys <;> cases twoD <;> decide)
  rw [e]
  simp only [decodeOp, row13, scalarIf_enc (spaceScalar_lt hx) hx, scalarIf_enc (spaceScalar_lt hy) hy, scalarIf_enc (quadScalar_lt hb) hb, h1, h2, h3, h4, h5, q0, q1, q2, q3, bind_ok, pure_ok, unused_zero, spaceOf_code, bitNat_beq]

theorem Laws.RoundTrip.cpyt (p : Pred) (td ts : Nat) (set : Bool) (tr commit : Bool) : Statement (.cpyt p td ts set tr commit) := by
  intro w hw he
  cases he
  simp only [Instr.wf, Bool.and_eq_true, decide_eq_true_eq] at hw
  obtain ⟨⟨hp, hx⟩, hy⟩ := hw
  have q0 : fld (bitNat tr * 2 ^ 10 + bitNat commit * 2 ^ 9) 11 2 = 0 := by cases tr <;> cases commit <;> rfl
  have q1 : fld (bitNat tr * 2 ^ 10 + bitNat commit * 2 ^ 9) 10 1 = bitNat tr := by cases tr <;> cases commit <;> rfl
  have q2 : fld (bitNat tr * 2 ^ 10 + bitNat commit * 2 ^ 9) 9 1 = bitNat commit := by cases tr <;> cases commit <;> rfl
  have q3 : fld (bitNat tr * 2 ^ 10 + bitNat commit * 2 ^ 9) 0 9 = 0 := by cases tr <;> cases commit <;> rfl
  obtain ⟨f, e, h1, h2, h3, h4, h5⟩ := decode_E (op := 0x132) (z := 0) (set := set) hp (by decide) (by decide) (show td < 4096 by omega) (show ts < 4096 by omega) (by decide) (show bitNat tr * 2 ^ 10 + bitNat commit * 2 ^ 9 < 2 ^ 13 by cases tr <;> cases commit <;> decide)
  rw [e]
  simp only [decodeOp, row13, numBelow, need_of (decide_eq_true hx), need_of (decide_eq_true hy), h1, h2, h3, h4, h5, q0, q1, q2, q3, bind_ok, pure_ok, unused_zero, spaceOf_code, bitNat_beq]

theorem Laws.RoundTrip.cacc (p : Pred) (x y b : Nat) (set : Bool) (xs ys : Space) (imm : Bool) (op : AccOp) (ty : AccTy) : Statement (.cacc p x y b set xs ys imm op ty) := by
  intro w hw he
  cases he
  simp only [Instr.wf, Bool.and_eq_true] at hw
  obtain ⟨⟨⟨⟨hp, hx⟩, hy⟩, hb⟩, ho⟩ := hw
  have q0 : fld (xs.code * 2 ^ 12 + ys.code * 2 ^ 11 + bitNat imm * 2 ^ 10 + op.code * 2 ^ 6 + ty.code * 2 ^ 4) 12 1 = xs.code := by cases xs <;> cases ys <;> cases imm <;> cases op <;> cases ty <;> rfl
  have q1 : fld (xs.code * 2 ^ 12 + ys.code * 2 ^ 11 + bitNat imm * 2 ^ 10 + op.code * 2 ^ 6 + ty.code * 2 ^ 4) 11 1 = ys.code := by cases xs <;> cases ys <;> cases imm <;> cases op <;> cases ty <;> rfl
  have q2 : fld (xs.code * 2 ^ 12 + ys.code * 2 ^ 11 + bitNat imm * 2 ^ 10 + op.code * 2 ^ 6 + ty.code * 2 ^ 4) 10 1 = bitNat imm := by cases xs <;> cases ys <;> cases imm <;> cases op <;> cases ty <;> rfl
  have q3 : fld (xs.code * 2 ^ 12 + ys.code * 2 ^ 11 + bitNat imm * 2 ^ 10 + op.code * 2 ^ 6 + ty.code * 2 ^ 4) 9 1 = 0 := by cases xs <;> cases ys <;> cases imm <;> cases op <;> cases ty <;> rfl
  have q4 : fld (xs.code * 2 ^ 12 + ys.code * 2 ^ 11 + bitNat imm * 2 ^ 10 + op.code * 2 ^ 6 + ty.code * 2 ^ 4) 0 4 = 0 := by cases xs <;> cases ys <;> cases imm <;> cases op <;> cases ty <;> rfl
  have q5 : fld (xs.code * 2 ^ 12 + ys.code * 2 ^ 11 + bitNat imm * 2 ^ 10 + op.code * 2 ^ 6 + ty.code * 2 ^ 4) 6 3 = op.code := by cases xs <;> cases ys <;> cases imm <;> cases op <;> cases ty <;> rfl
  have q6 : fld (xs.code * 2 ^ 12 + ys.code * 2 ^ 11 + bitNat imm * 2 ^ 10 + op.code * 2 ^ 6 + ty.code * 2 ^ 4) 4 2 = ty.code := by cases xs <;> cases ys <;> cases imm <;> cases op <;> cases ty <;> rfl
  have q7 : xs.code * 2 ^ 12 + ys.code * 2 ^ 11 + bitNat imm * 2 ^ 10 + op.code * 2 ^ 6 + ty.code * 2 ^ 4 < 2 ^ 13 := by cases xs <;> cases ys <;> cases imm <;> cases op <;> cases ty <;> decide
  have e1 : accOpOf op.code = .ok op := by cases op <;> rfl
  have e2 : accTyOf ty.code = ty := by cases ty <;> rfl
  have hyl : (if imm then 0 else 0xA00 + y) < 4096 := by
    cases imm
    · simp only [Bool.false_eq_true, if_false] at hy ⊢; have := spaceScalar_lt hy; omega
    · simp
  obtain ⟨f, e, h1, h2, h3, h4, h5⟩ := decode_E (op := 0x134) (set := set) hp (by decide) (by decide) (show 0xA00 + x < 4096 by have := spaceScalar_lt hx; omega) hyl (show 0xA00 + b < 4096 by have := quadScalar_lt hb; omega) q7
  rw [e]
  cases imm with
  | true =>
    simp only [if_true, Bool.and_eq_true, beq_iff_eq] at hy
    obtain ⟨rfl, rfl⟩ := hy
    simp only [decodeOp, row13, decCacc, h1, h2, h3, h4, h5, q0, q1, q2, q3, q4, q5, q6, e1, e2, bind_ok, pure_ok, unused_zero, spaceOf_code, bitNat_beq, need_of ho,
      scalarIf_enc (spaceScalar_lt hx) hx, scalarIf_enc (quadScalar_lt hb) hb, if_true, show unused Space.g.code = .ok () from rfl]
  | false =>
    simp only [Bool.false_eq_true, if_false] at hy
    simp only [decodeOp, row13, decCacc, h1, h2, h3, h4, h5, q0, q1, q2, q3, q4, q5, q6, e1, e2, bind_ok, pure_ok, unused_zero, spaceOf_code, bitNat_beq, need_of ho,
      scalarIf_enc (spaceScalar_lt hx) hx, scalarIf_enc (spaceScalar_lt hy) hy, scalarIf_enc (quadScalar_lt hb) hb, if_false, Bool.false_eq_true]

theorem Laws.RoundTrip.ccas (p : Pred) (x y b : Nat) (set : Bool) (xs : Space) (w64 : Bool) (land : Nat) : Statement (.ccas p x y b set xs w64 land) := by
  intro w hw he
  cases he
  simp only [Instr.wf, Bool.and_eq_true, decide_eq_true_eq] at hw
  obtain ⟨⟨⟨⟨hp, hx⟩, hy⟩, hb⟩, hl⟩ := hw
  have q0 : fld (xs.code * 2 ^ 12 + bitNat w64 * 2 ^ 10 + land) 12 1 = xs.code := by
    have := xs.code_lt; have := bitNat_lt w64; unfold fld; omega
  have q1 : fld (xs.code * 2 ^ 12 + bitNat w64 * 2 ^ 10 + land) 11 1 = 0 := by
    have := xs.code_lt; have := bitNat_lt w64; unfold fld; omega
  have q2 : fld (xs.code * 2 ^ 12 + bitNat w64 * 2 ^ 10 + land) 10 1 = bitNat w64 := by
    have := xs.code_lt; have := bitNat_lt w64; unfold fld; omega
  have q3 : fld (xs.code * 2 ^ 12 + bitNat w64 * 2 ^ 10 + land) 0 10 = land := by
    have := xs.code_lt; have := bitNat_lt w64; unfold fld; omega
  have q4 : xs.code * 2 ^ 12 + bitNat w64 * 2 ^ 10 + land < 2 ^ 13 := by
    have := xs.code_lt; have := bitNat_lt w64; omega
  have hy' : y < 256 ∧ (if w64 then evenScalar y else decide (y < 128)) = true := by
    refine ⟨?_, hy⟩
    cases w64 <;> simp [evenScalar] at hy <;> omega
  obtain ⟨f, e, h1, h2, h3, h4, h5⟩ := decode_E (op := 0x136) (set := set) hp (by decide) (by decide) (show 0xA00 + x < 4096 by have := spaceScalar_lt hx; omega) (show 0xA00 + y < 4096 by have := hy'.1; omega) (show 0xA00 + b < 4096 by have := quadScalar_lt hb; omega) q4
  rw [e]
  simp only [decodeOp, row13, decCcas, h1, h2, h3, h4, h5, q0, q1, q2, q3, bind_ok, pure_ok, unused_zero, spaceOf_code, bitNat_beq,
      scalarIf_enc (spaceScalar_lt hx) hx, scalarIf_enc (ok := fun n => if w64 then evenScalar n else decide (n < 128)) hy'.1 hy'.2, scalarIf_enc (quadScalar_lt hb) hb]

theorem Laws.RoundTrip.cfill (p : Pred) (x b : Nat) (set : Bool) (xs : Space) : Statement (.cfill p x b set xs) := by
  intro w hw he
  cases he
  simp only [Instr.wf, Bool.and_eq_true, decide_eq_true_eq] at hw
  obtain ⟨⟨hp, hx⟩, hb⟩ := hw
  have q0 : fld (xs.code * 2 ^ 12) 12 1 = xs.code := by cases xs <;> rfl
  have q1 : fld (xs.code * 2 ^ 12) 0 12 = 0 := by cases xs <;> rfl
  obtain ⟨f, e, h1, h2, h3, h4, h5⟩ := decode_E (op := 0x138) (y := 0) (set := set) hp (by decide) (by decide) (show 0xA00 + x < 4096 by have := spaceScalar_lt hx; omega) (by decide) (show 0xA00 + b < 4096 by have := quadScalar_lt hb; omega) (show xs.code * 2 ^ 12 < 2 ^ 13 by cases xs <;> decide)
  rw [e]
  simp only [decodeOp, row13, scalarIf_enc (spaceScalar_lt hx) hx, scalarIf_enc (quadScalar_lt hb) hb, h1, h2, h3, h4, h5, q0, q1, bind_ok, pure_ok, unused_zero, spaceOf_code, bitNat_beq]

theorem Laws.RoundTrip.ccrc (p : Pred) (x y b : Nat) (set : Bool) (xs ys : Space) : Statement (.ccrc p x y b set xs ys) := by
  intro w hw he
  cases he
  simp only [Instr.wf, Bool.and_eq_true, decide_eq_true_eq] at hw
  obtain ⟨⟨⟨hp, hx⟩, hy⟩, hb⟩ := hw
  have q0 : fld (xs.code * 2 ^ 12 + ys.code * 2 ^ 11) 12 1 = xs.code := by cases xs <;> cases ys <;> rfl
  have q1 : fld (xs.code * 2 ^ 12 + ys.code * 2 ^ 11) 11 1 = ys.code := by cases xs <;> cases ys <;> rfl
  have q2 : fld (xs.code * 2 ^ 12 + ys.code * 2 ^ 11) 0 11 = 0 := by cases xs <;> cases ys <;> rfl
  obtain ⟨f, e, h1, h2, h3, h4, h5⟩ := decode_E (op := 0x13A) (set := set) hp (by decide) (by decide) (show 0xA00 + x < 4096 by have := spaceScalar_lt hx; omega) (show 0xA00 + y < 4096 by have := spaceScalar_lt hy; omega) (show 0xA00 + b < 4096 by have := quadScalar_lt hb; omega) (show xs.code * 2 ^ 12 + ys.code * 2 ^ 11 < 2 ^ 13 by cases xs <;> cases ys <;> decide)
  rw [e]
  simp only [decodeOp, row13, scalarIf_enc (spaceScalar_lt hx) hx, scalarIf_enc (spaceScalar_lt hy) hy, scalarIf_enc (quadScalar_lt hb) hb, h1, h2, h3, h4, h5, q0, q1, q2, bind_ok, pure_ok, unused_zero, spaceOf_code, bitNat_beq]

theorem Laws.RoundTrip.cred (p : Pred) (x y b : Nat) (set : Bool) (op : RedOp) (ty : CredTy) : Statement (.cred p x y b set op ty) := by
  intro w hw he
  cases he
  simp only [Instr.wf, Bool.and_eq_true, decide_eq_true_eq] at hw
  obtain ⟨⟨⟨hp, hx⟩, hy⟩, hb⟩ := hw
  have q0 : fld (op.code * 2 ^ 7 + ty.code * 2 ^ 5) 9 4 = 0 := by cases op <;> cases ty <;> rfl
  have q1 : redOpOf (fld (op.code * 2 ^ 7 + ty.code * 2 ^ 5) 7 2) = .ok op := by cases op <;> cases ty <;> rfl
  have q2 : credTyOf (fld (op.code * 2 ^ 7 + ty.code * 2 ^ 5) 5 2) = .ok ty := by cases op <;> cases ty <;> rfl
  have q3 : fld (op.code * 2 ^ 7 + ty.code * 2 ^ 5) 0 5 = 0 := by cases op <;> cases ty <;> rfl
  obtain ⟨f, e, h1, h2, h3, h4, h5⟩ := decode_E (op := 0x13C) (set := set) hp (by decide) (by decide) (show 0xA00 + x < 4096 by have := evenScalar_lt hx; omega) (show 0xA00 + y < 4096 by have := evenScalar_lt hy; omega) (show 0xA00 + b < 4096 by have := quadScalar_lt hb; omega) (show op.code * 2 ^ 7 + ty.code * 2 ^ 5 < 2 ^ 13 by cases op <;> cases ty <;> decide)
  rw [e]
  simp only [decodeOp, row13, scalarIf_enc (evenScalar_lt hx) hx, scalarIf_enc (evenScalar_lt hy) hy, scalarIf_enc (quadScalar_lt hb) hb, h1, h2, h3, h4, h5, q0, q1, q2, q3, bind_ok, pure_ok, unused_zero, spaceOf_code, bitNat_beq]

theorem Laws.RoundTrip.jdec (p : Pred) (x : Nat) (set : Bool) : Statement (.jdec p x set) := by
  intro w hw he
  cases he
  simp only [Instr.wf, Bool.and_eq_true] at hw
  obtain ⟨hp, hx⟩ := hw
  obtain ⟨f, e, h1, h2, h3, h4, h5⟩ := decode_E (op := 0x156) (y := 0) (z := 0) (q := 0) (set := set) hp (by decide) (by decide) (show 0xA00 + x < 4096 by have := evenScalar_lt hx; omega) (by decide) (by decide) (by decide)
  rw [e]
  simp only [decodeOp, row15, h1, h2, h3, h4, h5, bind_ok, pure_ok, unused_zero, bitNat_beq, scalarIf_enc (evenScalar_lt hx) hx]

theorem Laws.RoundTrip.mma (p : Pred) (ta tb : Nat) (k : KRange) (set : Bool) (t : Nat) (kend : Bool) : Statement (.mma p ta tb k set t kend) := by
  intro w hw he
  cases he
  simp only [Instr.wf, Bool.and_eq_true, decide_eq_true_eq] at hw
  obtain ⟨⟨⟨⟨hp, hx⟩, hy⟩, hk⟩, ht⟩ := hw
  have q0 : fld (t * 2 ^ 7 + bitNat kend * 2 ^ 6) 0 6 = 0 := by have := bitNat_lt kend; unfold fld; omega
  have q1 : fld (t * 2 ^ 7 + bitNat kend * 2 ^ 6) 7 6 = t := by have := bitNat_lt kend; unfold fld; omega
  have q2 : fld (t * 2 ^ 7 + bitNat kend * 2 ^ 6) 6 1 = bitNat kend := by have := bitNat_lt kend; unfold fld; omega
  obtain ⟨f, e, h1, h2, h3, h4, h5⟩ := decode_E (op := 0x140) (set := set) hp (by decide) (by decide) (show ta < 4096 by omega) (show tb < 4096 by omega) (KRange.code_lt hk) (show t * 2 ^ 7 + bitNat kend * 2 ^ 6 < 2 ^ 13 by have := bitNat_lt kend; omega)
  rw [e]
  simp only [decodeOp, row14, numBelow, need_of (decide_eq_true hx), need_of (decide_eq_true hy), kRangeOf_code hk, h1, h2, h3, h4, h5, q0, q1, q2, bind_ok, pure_ok, unused_zero, spaceOf_code, bitNat_beq]

theorem Laws.RoundTrip.mzero (p : Pred) (t : Nat) : Statement (.mzero p t) := by
  intro w hw he
  cases he
  simp only [Instr.wf, Bool.and_eq_true, decide_eq_true_eq] at hw
  obtain ⟨hp, ht⟩ := hw
  have q0 : fld (t * 2 ^ 7) 0 7 = 0 := by unfold fld; omega
  have q1 : fld (t * 2 ^ 7) 7 6 = t := by unfold fld; omega
  have q2 : bitNat false = 0 := by rfl
  obtain ⟨f, e, h1, h2, h3, h4, h5⟩ := decode_E (op := 0x142) (x := 0) (y := 0) (z := 0) (set := false) hp (by decide) (by decide) (by decide) (by decide) (by decide) (show t * 2 ^ 7 < 2 ^ 13 by omega)
  rw [e]
  simp only [decodeOp, row14, h1, h2, h3, h4, h5, q0, q1, q2, bind_ok, pure_ok, unused_zero, spaceOf_code, bitNat_beq]

theorem Laws.RoundTrip.acrd (p : Pred) (n : Nat) (r : RowSel) (t : Nat) : Statement (.acrd p n r t) := by
  intro w hw he
  cases he
  simp only [Instr.wf, Bool.and_eq_true, decide_eq_true_eq] at hw
  obtain ⟨⟨⟨hp, hn⟩, hr⟩, ht⟩ := hw
  have q0 : fld (t * 2 ^ 7) 0 7 = 0 := by unfold fld; omega
  have q1 : fld (t * 2 ^ 7) 7 6 = t := by unfold fld; omega
  have q2 : bitNat false = 0 := by rfl
  obtain ⟨f, e, h1, h2, h3, h4, h5⟩ := decode_E (op := 0x144) (z := 0) (set := false) hp (by decide) (by decide) (show n < 4096 by omega) (RowSel.code_lt hr) (by decide) (show t * 2 ^ 7 < 2 ^ 13 by omega)
  rw [e]
  simp only [decodeOp, row14, numBelow, need_of (decide_eq_true hn), rowSelOf_code hr, h1, h2, h3, h4, h5, q0, q1, q2, bind_ok, pure_ok, unused_zero, spaceOf_code, bitNat_beq]

theorem Laws.RoundTrip.acwr (p : Pred) (n : Nat) (r : RowSel) (t : Nat) : Statement (.acwr p n r t) := by
  intro w hw he
  cases he
  simp only [Instr.wf, Bool.and_eq_true, decide_eq_true_eq] at hw
  obtain ⟨⟨⟨hp, hn⟩, hr⟩, ht⟩ := hw
  have q0 : fld (t * 2 ^ 7) 0 7 = 0 := by unfold fld; omega
  have q1 : fld (t * 2 ^ 7) 7 6 = t := by unfold fld; omega
  have q2 : bitNat false = 0 := by rfl
  obtain ⟨f, e, h1, h2, h3, h4, h5⟩ := decode_E (op := 0x146) (z := 0) (set := false) hp (by decide) (by decide) (show n < 4096 by omega) (RowSel.code_lt hr) (by decide) (show t * 2 ^ 7 < 2 ^ 13 by omega)
  rw [e]
  simp only [decodeOp, row14, numBelow, need_of (decide_eq_true hn), rowSelOf_code hr, h1, h2, h3, h4, h5, q0, q1, q2, bind_ok, pure_ok, unused_zero, spaceOf_code, bitNat_beq]

theorem Laws.RoundTrip.apatch (p : Pred) (n : Nat) (r : RowSel) (mask t : Nat) (op : PatchOp) : Statement (.apatch p n r mask t op) := by
  intro w hw he
  cases he
  simp only [Instr.wf, Bool.and_eq_true, decide_eq_true_eq] at hw
  obtain ⟨⟨⟨⟨hp, hn⟩, hr⟩, hm⟩, ht⟩ := hw
  have q0 : fld (t * 2 ^ 7 + op.code) 2 5 = 0 := by cases op <;> simp only [PatchOp.code, fld] <;> omega
  have q1 : fld (t * 2 ^ 7 + op.code) 7 6 = t := by cases op <;> simp only [PatchOp.code, fld] <;> omega
  have q2 : fld (t * 2 ^ 7 + op.code) 0 2 = op.code := by cases op <;> simp only [PatchOp.code, fld] <;> omega
  have q3 : bitNat false = 0 := by rfl
  have q4 : patchOpOf op.code = .ok op := by cases op <;> rfl
  obtain ⟨f, e, h1, h2, h3, h4, h5⟩ := decode_E (op := 0x148) (set := false) hp (by decide) (by decide) (show n < 4096 by omega) (RowSel.code_lt hr) (show 0xA00 + mask < 4096 by have := evenScalar_lt hm; omega) (show t * 2 ^ 7 + op.code < 2 ^ 13 by cases op <;> simp only [PatchOp.code] <;> omega)
  rw [e]
  simp only [decodeOp, row14, numBelow, need_of (decide_eq_true hn), rowSelOf_code hr, scalarIf_enc (evenScalar_lt hm) hm, h1, h2, h3, h4, h5, q0, q1, q2, q3, q4, bind_ok, pure_ok, unused_zero, spaceOf_code, bitNat_beq]

/-! ### Steps that no word names -/

theorem Laws.RoundTrip.simtLoadLanding (rid k : Nat) : Statement (.simtLoadLanding rid k) := fun _ _ he => nomatch he

theorem Laws.RoundTrip.lateDataArrival (rid k : Nat) : Statement (.lateDataArrival rid k) := fun _ _ he => nomatch he

theorem Laws.RoundTrip.mergeEntryFreedWait (hamlet : Nat) : Statement (.mergeEntryFreedWait hamlet) := fun _ _ he => nomatch he

theorem Laws.RoundTrip.faultRecordDeliver (hamlet : Nat) : Statement (.faultRecordDeliver hamlet) := fun _ _ he => nomatch he

theorem Laws.RoundTrip.copyCommandStart (core id units : Nat) : Statement (.copyCommandStart core id units) := fun _ _ he => nomatch he

theorem Laws.RoundTrip.copyCommandComplete (core id : Nat) : Statement (.copyCommandComplete core id) := fun _ _ he => nomatch he

theorem Laws.RoundTrip.copyCommandStop (core id : Nat) : Statement (.copyCommandStop core id) := fun _ _ he => nomatch he

theorem Laws.RoundTrip.jdecApply (core id : Nat) : Statement (.jdecApply core id) := fun _ _ he => nomatch he

theorem Laws.RoundTrip.mmaGroup (core id : Nat) : Statement (.mmaGroup core id) := fun _ _ he => nomatch he

theorem Laws.RoundTrip.mmaRetire (core id : Nat) : Statement (.mmaRetire core id) := fun _ _ he => nomatch he

theorem Laws.RoundTrip.mmaStop (core id : Nat) : Statement (.mmaStop core id) := fun _ _ he => nomatch he

theorem Laws.RoundTrip.rowTransferPerform (core id : Nat) : Statement (.rowTransferPerform core id) := fun _ _ he => nomatch he

theorem Laws.RoundTrip.credComplete (core id status : Nat) (parts : List CredPart) : Statement (.credComplete core id status parts) := fun _ _ he => nomatch he

theorem Laws.RoundTrip.residentRetire (rid : Nat) : Statement (.residentRetire rid) := fun _ _ he => nomatch he

theorem Laws.RoundTrip.placementRound (core : Nat) : Statement (.placementRound core) := fun _ _ he => nomatch he

theorem Laws.RoundTrip.classAgeing (qid : Nat) : Statement (.classAgeing qid) := fun _ _ he => nomatch he

theorem Laws.RoundTrip.queueUnderflowMove (hamletLevel : Bool) (n : Nat) : Statement (.queueUnderflowMove hamletLevel n) := fun _ _ he => nomatch he

theorem Laws.RoundTrip.slotEdge : Statement (.slotEdge) := fun _ _ he => nomatch he

theorem Laws.RoundTrip.stileTakeOff (rid : Nat) : Statement (.stileTakeOff rid) := fun _ _ he => nomatch he

theorem Laws.RoundTrip.overrunSnapshot (rid : Nat) : Statement (.overrunSnapshot rid) := fun _ _ he => nomatch he

theorem Laws.RoundTrip.slackDonation (tenant : Nat) : Statement (.slackDonation tenant) := fun _ _ he => nomatch he

theorem Laws.RoundTrip.faultWaitSnapshot (rid : Nat) : Statement (.faultWaitSnapshot rid) := fun _ _ he => nomatch he

theorem Laws.RoundTrip.watchdogExpiry (ctx : Nat) : Statement (.watchdogExpiry ctx) := fun _ _ he => nomatch he

theorem Laws.RoundTrip.sampleLatch : Statement (.sampleLatch) := fun _ _ he => nomatch he

theorem Laws.RoundTrip.carveChangeTakeEffect (core : Nat) : Statement (.carveChangeTakeEffect core) := fun _ _ he => nomatch he

theorem Laws.RoundTrip.carveTimeout (core : Nat) : Statement (.carveTimeout core) := fun _ _ he => nomatch he

theorem Laws.RoundTrip.commandDoorbell (v : Word) : Statement (.commandDoorbell v) := fun _ _ he => nomatch he

theorem Laws.RoundTrip.ringSizeWrite (v : Word) : Statement (.ringSizeWrite v) := fun _ _ he => nomatch he

theorem Laws.RoundTrip.faultRingSetup (v : Word) : Statement (.faultRingSetup v) := fun _ _ he => nomatch he

theorem Laws.RoundTrip.eventRingSetup (v : Word) : Statement (.eventRingSetup v) := fun _ _ he => nomatch he

theorem Laws.RoundTrip.rollCall (hi : Word) : Statement (.rollCall hi) := fun _ _ he => nomatch he

theorem Laws.RoundTrip.rotaGo (v : Word) : Statement (.rotaGo v) := fun _ _ he => nomatch he

theorem Laws.RoundTrip.rotaStop (v : Word) : Statement (.rotaStop v) := fun _ _ he => nomatch he

theorem Laws.RoundTrip.registerWrite (off : Nat) (v : Word) : Statement (.registerWrite off v) := fun _ _ he => nomatch he

theorem Laws.RoundTrip.bar2Access (write : Bool) (off : Nat) (data : List Byte) : Statement (.bar2Access write off data) := fun _ _ he => nomatch he

theorem Laws.RoundTrip.submit (h : CmdHead) (va : DWord) (die : Nat) : Statement (.submit h va die) := fun _ _ he => nomatch he

theorem Laws.RoundTrip.contextCreate (h : CmdHead) (root : DWord) (asid tenant : Nat) (tvec emuvec ring : DWord) (ringLast : Nat) : Statement (.contextCreate h root asid tenant tvec emuvec ring ringLast) := fun _ _ he => nomatch he

theorem Laws.RoundTrip.contextDestroy (h : CmdHead) : Statement (.contextDestroy h) := fun _ _ he => nomatch he

theorem Laws.RoundTrip.saveAreaAllot (h : CmdHead) (pa bytes : DWord) : Statement (.saveAreaAllot h pa bytes) := fun _ _ he => nomatch he

theorem Laws.RoundTrip.codeObjectRegister (h : CmdHead) (va : DWord) : Statement (.codeObjectRegister h va) := fun _ _ he => nomatch he

theorem Laws.RoundTrip.faultResolve (h : CmdHead) (hamlet entry : Nat) (refuse : Bool) : Statement (.faultResolve h hamlet entry refuse) := fun _ _ he => nomatch he

theorem Laws.RoundTrip.codePatch (h : CmdHead) : Statement (.codePatch h) := fun _ _ he => nomatch he

theorem Laws.RoundTrip.halt (h : CmdHead) (core : Nat) : Statement (.halt h core) := fun _ _ he => nomatch he

theorem Laws.RoundTrip.freeze (h : CmdHead) (r : ResName) : Statement (.freeze h r) := fun _ _ he => nomatch he

theorem Laws.RoundTrip.resume (h : CmdHead) (withdraw : Bool) (r : ResName) : Statement (.resume h withdraw r) := fun _ _ he => nomatch he

theorem Laws.RoundTrip.snapshot (h : CmdHead) (r : ResName) : Statement (.snapshot h r) := fun _ _ he => nomatch he

theorem Laws.RoundTrip.stateAccess (h : CmdHead) (r : ResName) (isCsr : Bool) (reg lane : Nat) (v : DWord) (write : Bool) : Statement (.stateAccess h r isCsr reg lane v write) := fun _ _ he => nomatch he

theorem Laws.RoundTrip.contextRegister (h : CmdHead) (reg : Nat) (v : DWord) : Statement (.contextRegister h reg v) := fun _ _ he => nomatch he

theorem Laws.RoundTrip.sampling (h : CmdHead) (k tenant : Nat) (pa : DWord) (last : Nat) : Statement (.sampling h k tenant pa last) := fun _ _ he => nomatch he

theorem Laws.RoundTrip.traceConfigure (h : CmdHead) (enable : Bool) (va : DWord) (last : Nat) : Statement (.traceConfigure h enable va last) := fun _ _ he => nomatch he

theorem Laws.RoundTrip.power (h : CmdHead) (p : Nat) : Statement (.power h p) := fun _ _ he => nomatch he

theorem Laws.RoundTrip.advanceStage (h : CmdHead) : Statement (.advanceStage h) := fun _ _ he => nomatch he

theorem Laws.RoundTrip.attest (h : CmdHead) (nonce report : DWord) : Statement (.attest h nonce report) := fun _ _ he => nomatch he

theorem Laws.RoundTrip.firmwareLoad (h : CmdHead) (pa bytes : DWord) : Statement (.firmwareLoad h pa bytes) := fun _ _ he => nomatch he

theorem Laws.RoundTrip.configurationLoad (h : CmdHead) (pa bytes : DWord) : Statement (.configurationLoad h pa bytes) := fun _ _ he => nomatch he

theorem Laws.RoundTrip.peerGroupConfigure (h : CmdHead) (group : Nat) (pa : DWord) (entries : Nat) : Statement (.peerGroupConfigure h group pa entries) := fun _ _ he => nomatch he

theorem Laws.RoundTrip.linkRetrain (h : CmdHead) (link : Nat) : Statement (.linkRetrain h link) := fun _ _ he => nomatch he

theorem Laws.RoundTrip.powerGoodReset (powerGood : Bool) : Statement (.powerGoodReset powerGood) := fun _ _ he => nomatch he

theorem Laws.RoundTrip.thermalCutoff : Statement (.thermalCutoff) := fun _ _ he => nomatch he

theorem Laws.RoundTrip.uncorrectableError (w : ErrSite) : Statement (.uncorrectableError w) := fun _ _ he => nomatch he

theorem Laws.RoundTrip.unitFailed (u : FailUnit) : Statement (.unitFailed u) := fun _ _ he => nomatch he

theorem Laws.RoundTrip.linkDown (link : Nat) : Statement (.linkDown link) := fun _ _ he => nomatch he

theorem Laws.RoundTrip.emptyBundle (hdr : DWord) : Statement (.emptyBundle hdr) := fun _ _ he => nomatch he

theorem Laws.RoundTrip.illegalEncodingPath (word : DWord) (slot : Nat) : Statement (.illegalEncodingPath word slot) := fun _ _ he => nomatch he

theorem Laws.RoundTrip.hcplheadWrite (v : Word) : Statement (.hcplheadWrite v) := fun _ _ he => nomatch he

end Sys2Proof
end

