-- ==== Sys2Proof/Laws/Registers.lean ====
section
/-! SUPPORT. Register files, and what the shared shape of register-computing instructions leaves: `compute`, `intOp`, `laneOp`
and the cross-lane shapes are cited through these lemmas. -/

namespace Sys2Proof.Machine

/-! ### Register files -/

theorem find_putBy {α : Type} (p : α → Bool) (x : α) (xs : List α) (h : p x = true) : (putBy p x xs).find? p = some x := by
  simp [putBy, h]

theorem find_putBy_ne {α : Type} (p r : α → Bool) (x : α) (xs : List α) (h : r x = false) (hr : ∀ y, r y = true → p y = false) :
    (putBy p x xs).find? r = xs.find? r := by
  simp only [putBy, List.find?_cons, h]
  induction xs with
  | nil => rfl
  | cons y ys ih =>
    cases hp : p y with
    | true =>
      have hy : r y = false := by
        cases hr' : r y with
        | false => rfl
        | true => have := hr y hr'; simp_all
      simp [hp, hy, ih]
    | false => cases hy : r y <;> simp [hp, hy, ih]

theorem RegFile.read_put_same (f : RegFile) (g : Reg) (x : Word) (b : Bool) : (f.put g x b).read g = g.trim x := by
  simp [RegFile.put, RegFile.read, find_putBy]

theorem RegFile.poisoned_put_same (f : RegFile) (g : Reg) (x : Word) (b : Bool) : (f.put g x b).poisoned g = b := by
  simp [RegFile.put, RegFile.poisoned, find_putBy]

theorem RegFile.find_put_ne (f : RegFile) {g h : Reg} (x : Word) (b : Bool) (hne : h ≠ g) :
    (f.put g x b).cells.find? (fun c => c.reg == h) = f.cells.find? (fun c => c.reg == h) := by
  refine find_putBy_ne _ _ _ _ ?_ ?_
  · simp [Ne.symm hne]
  · intro y hy
    simp only [beq_iff_eq] at hy
    simp [hy, hne]

theorem RegFile.read_put_ne (f : RegFile) {g h : Reg} (x : Word) (b : Bool) (hne : h ≠ g) : (f.put g x b).read h = f.read h := by
  unfold RegFile.read
  rw [RegFile.find_put_ne f x b hne]
  rfl

theorem RegFile.poisoned_put_ne (f : RegFile) {g h : Reg} (x : Word) (b : Bool) (hne : h ≠ g) :
    (f.put g x b).poisoned h = f.poisoned h := by
  unfold RegFile.poisoned
  rw [RegFile.find_put_ne f x b hne]

theorem RegFile.read_put (f : RegFile) (g h : Reg) (x : Word) (b : Bool) :
    (f.put g x b).read h = if h = g then g.trim x else f.read h := by
  split
  · next e => subst e; exact f.read_put_same h x b
  · next e => exact f.read_put_ne x b e

theorem RegFile.poisoned_put (f : RegFile) (g h : Reg) (x : Word) (b : Bool) :
    (f.put g x b).poisoned h = if h = g then b else f.poisoned h := by
  split
  · next e => subst e; exact f.poisoned_put_same h x b
  · next e => exact f.poisoned_put_ne x b e

/-! ### One result -/

/-- The registers after one result is written: the cells, then the last-result file. -/
def RegFile.landed (f : RegFile) (ws : List RegCell) (lane : Nat) (ys : List Word) : RegFile :=
  ys.foldl (fun f x => (f.write (.y lane 1) (f.read (.y lane 0))).write (.y lane 0) x) (f.putAll ws)

theorem Resident.land_eq (r : Resident) (x : Flight) :
    r.land x = { r with regs := r.regs.landed x.writes x.lane x.ys, fflags := r.fflags ||| x.ff } := rfl

theorem RegFile.shift_other (lane : Nat) (ys : List Word) (f : RegFile) (g : Reg) (h : g ≠ .y lane 0 ∧ g ≠ .y lane 1) :
    let f' := ys.foldl (fun f x => (f.write (.y lane 1) (f.read (.y lane 0))).write (.y lane 0) x) f
    f'.read g = f.read g ∧ f'.poisoned g = f.poisoned g := by
  induction ys generalizing f with
  | nil => exact ⟨rfl, rfl⟩
  | cons y ys ih =>
    obtain ⟨h1, h2⟩ := ih ((f.write (.y lane 1) (f.read (.y lane 0))).write (.y lane 0) y)
    refine ⟨?_, ?_⟩
    · rw [List.foldl_cons, h1]; simp [RegFile.write, RegFile.read_put, h.1, h.2]
    · rw [List.foldl_cons, h2]; simp [RegFile.write, RegFile.poisoned_put, h.1, h.2]

theorem RegFile.shift_own (lane : Nat) (ys : List Word) (f : RegFile) (n : Nat) (hn : n < 2) :
    let f' := ys.foldl (fun f x => (f.write (.y lane 1) (f.read (.y lane 0))).write (.y lane 0) x) f
    f'.read (.y lane n) = (ys.reverse ++ [f.read (.y lane 0), f.read (.y lane 1)]).getD n 0 ∧
      f'.poisoned (.y lane n) = if ys = [] then f.poisoned (.y lane n) else false := by
  induction ys generalizing f with
  | nil =>
    have : n = 0 ∨ n = 1 := by omega
    rcases this with rfl | rfl <;> simp
  | cons y ys ih =>
    obtain ⟨h1, h2⟩ := ih ((f.write (.y lane 1) (f.read (.y lane 0))).write (.y lane 0) y)
    have : n = 0 ∨ n = 1 := by omega
    refine ⟨?_, ?_⟩
    · rw [List.foldl_cons, h1]
      simp only [RegFile.write, RegFile.read_put, List.reverse_cons, List.append_assoc, List.singleton_append]
      rcases this with rfl | rfl
      · rcases hr : ys.reverse with _ | ⟨a, _ | ⟨b, l⟩⟩ <;> simp [Reg.trim]
      · rcases hr : ys.reverse with _ | ⟨a, _ | ⟨b, l⟩⟩ <;> simp [Reg.trim]
    · rw [List.foldl_cons, h2]
      rcases this with rfl | rfl <;> simp [RegFile.write, RegFile.poisoned_put]

/-! ### Results of some lanes -/

theorem dstReg_next_ne (d : Dst) (c : Nat) : dstReg (Dst.next d) c ≠ dstReg d c := by cases d <;> simp [dstReg, Dst.next]

theorem dstReg_inj {d : Dst} (h : dstScalar d = false) {c c' : Nat} (e : dstReg d c = dstReg d c') : c = c' := by
  cases d <;> simp_all [dstReg, dstScalar]

theorem dstReg_not_y (d : Dst) (c l n : Nat) : dstReg d c ≠ .y l n := by cases d <;> simp [dstReg]

/-- What one lane's result of at most two words leaves in the registers. -/
theorem RegFile.landed_one (f : RegFile) (d : Dst) (res : Nat → Result) (c : Nat) (h2 : (res c).words.length ≤ 2) (g : Reg) :
    (f.landed (resultCells d c (res c).words) c (shiftedBy d res c)).read g = valueAfter d res [c] f.read g ∧
      (f.landed (resultCells d c (res c).words) c (shiftedBy d res c)).poisoned g = markAfter d res [c] f.poisoned g := by
  have key : ∀ ws : List Word, ws.length ≤ 2 → ∀ k : Reg,
      (f.putAll (resultCells d c ws)).read k =
        (match (if k = dstReg d c then ws[0]? else if k = dstReg (Dst.next d) c then ws[1]? else none) with
          | some x => k.trim x
          | none => f.read k) ∧
      (f.putAll (resultCells d c ws)).poisoned k =
        (if (if k = dstReg d c then ws[0]? else if k = dstReg (Dst.next d) c then ws[1]? else none).isSome then false
          else f.poisoned k) := by
    intro ws hws k
    match ws, hws with
    | [], _ => simp [resultCells, RegFile.putAll]
    | [x], _ =>
      by_cases e : k = dstReg d c
      · subst e; simp [resultCells, RegFile.putAll, RegFile.read_put, RegFile.poisoned_put]
      · simp [resultCells, RegFile.putAll, RegFile.read_put, RegFile.poisoned_put, e]
    | [x, y], _ =>
      by_cases e : k = dstReg d c
      · subst e
        simp [resultCells, RegFile.putAll, RegFile.read_put, RegFile.poisoned_put, Ne.symm (dstReg_next_ne d c)]
      · by_cases e2 : k = dstReg (Dst.next d) c
        · subst e2
          simp [resultCells, RegFile.putAll, RegFile.read_put, RegFile.poisoned_put, dstReg_next_ne]
        · simp [resultCells, RegFile.putAll, RegFile.read_put, RegFile.poisoned_put, e, e2]
  by_cases hy : ∃ n, n < 2 ∧ g = .y c n
  · obtain ⟨n, hn, rfl⟩ := hy
    have k0 := key (res c).words h2 (.y c 0)
    have k1 := key (res c).words h2 (.y c 1)
    have kn := key (res c).words h2 (.y c n)
    have w : ∀ m, writtenBy d res (.y c m) c = none := by
      intro m; simp [writtenBy, Ne.symm (dstReg_not_y _ _ _ _)]
    simp only [Ne.symm (dstReg_not_y _ _ _ _), if_false] at k0 k1 kn
    obtain ⟨a, b⟩ := RegFile.shift_own c (shiftedBy d res c) (f.putAll (resultCells d c (res c).words)) n hn
    refine ⟨?_, ?_⟩
    · rw [RegFile.landed, a, k0.1, k1.1]
      simp [valueAfter, w, hn]
    · rw [RegFile.landed, b, kn.2]
      simp [markAfter, w, hn]
  · have hn : g ≠ .y c 0 ∧ g ≠ .y c 1 := ⟨fun e => hy ⟨0, by omega, e⟩, fun e => hy ⟨1, by omega, e⟩⟩
    have kg := key (res c).words h2 g
    have hw : (if g = dstReg d c then (res c).words[0]? else if g = dstReg (Dst.next d) c then (res c).words[1]? else none) =
        writtenBy d res g c := rfl
    have hf : [c].findSome? (writtenBy d res g) = writtenBy d res g c := by
      simp only [List.findSome?_cons, List.findSome?_nil]; cases writtenBy d res g c <;> rfl
    obtain ⟨a, b⟩ := RegFile.shift_other c (shiftedBy d res c) (f.putAll (resultCells d c (res c).words)) g hn
    refine ⟨?_, ?_⟩
    · rw [RegFile.landed, a, kg.1]
      unfold valueAfter
      rw [hf]
      cases e : writtenBy d res g c with
      | some x => rw [hw, e]
      | none =>
        rw [hw, e]
        cases g <;> simp only
        rename_i l n
        rw [if_neg]
        rintro ⟨hl, hn2⟩
        simp only [List.mem_singleton] at hl
        exact hy ⟨n, hn2, by rw [hl]⟩
    · rw [RegFile.landed, b, kg.2]
      unfold markAfter
      rw [hf, hw]
      cases e : writtenBy d res g c with
      | some x => rfl
      | none =>
        simp only [Option.isSome_none, Bool.false_eq_true, if_false]
        cases g <;> simp only
        rename_i l n
        rw [if_neg]
        rintro ⟨hl, hn2, -⟩
        simp only [List.mem_singleton] at hl
        exact hy ⟨n, hn2, by rw [hl]⟩

theorem writtenBy_other {d : Dst} (h : dstScalar d = false) {res : Nat → Result} {g : Reg} {c c' : Nat} (hne : c ≠ c')
    (hw : writtenBy d res g c ≠ none) : writtenBy d res g c' = none := by
  have hg : g = dstReg d c ∨ g = dstReg (Dst.next d) c := by
    unfold writtenBy at hw
    by_cases h1 : g = dstReg d c
    · exact .inl h1
    · rw [if_neg h1] at hw
      by_cases h2 : g = dstReg (Dst.next d) c
      · exact .inr h2
      · rw [if_neg h2] at hw; exact absurd rfl hw
  unfold writtenBy
  cases d with
  | s n => simp [dstScalar] at h
  | v n | o n | p n => rcases hg with rfl | rfl <;> simp [dstReg, Dst.next, hne]

theorem findSome_writtenBy {d : Dst} (h : dstScalar d = false) {res : Nat → Result} {g : Reg} {c : Nat} {cs : List Nat}
    (hc : c ∉ cs) (hw : writtenBy d res g c ≠ none) : cs.findSome? (writtenBy d res g) = none := by
  rw [List.findSome?_eq_none_iff]
  intro x hx
  exact writtenBy_other h (fun e => hc (by rw [e]; exact hx)) hw

theorem writtenBy_y (d : Dst) (res : Nat → Result) (l n c : Nat) : writtenBy d res (.y l n) c = none := by
  simp [writtenBy, Ne.symm (dstReg_not_y _ _ _ _)]

theorem findSome_cons_none {d : Dst} {res : Nat → Result} {g : Reg} {c : Nat} {cs : List Nat} (hw : writtenBy d res g c = none) :
    (c :: cs).findSome? (writtenBy d res g) = cs.findSome? (writtenBy d res g) := by simp [hw]

theorem valueAfter_cons {d : Dst} {res : Nat → Result} {c : Nat} {cs : List Nat} (hc : c ∉ cs)
    (h : dstScalar d = false ∨ cs = []) (old : Reg → Word) (g : Reg) :
    valueAfter d res (c :: cs) old g = valueAfter d res cs (valueAfter d res [c] old) g := by
  cases hw : writtenBy d res g c with
  | some x =>
    have hs : cs.findSome? (writtenBy d res g) = none := by
      rcases h with h | rfl
      · exact findSome_writtenBy h hc (by simp [hw])
      · rfl
    have h1 : ∀ l, (c :: l).findSome? (writtenBy d res g) = some x := by intro l; simp [hw]
    unfold valueAfter
    rw [h1, hs]
    cases g with
    | y l n => rw [writtenBy_y] at hw; simp at hw
    | _ => simp only [h1]
  | none =>
    unfold valueAfter
    rw [findSome_cons_none hw]
    cases hs : cs.findSome? (writtenBy d res g) with
    | some x => rfl
    | none =>
      simp only [findSome_cons_none hw, List.findSome?_nil]
      cases g <;> simp only
      rename_i l n
      have w : ∀ m, [c].findSome? (writtenBy d res (.y l m)) = none := by
        intro m; simp [writtenBy_y]
      simp only [w]
      by_cases hl : l = c
      · subst hl; simp [hc]
      · simp [hl]

theorem markAfter_cons {d : Dst} {res : Nat → Result} {c : Nat} {cs : List Nat} (hc : c ∉ cs)
    (h : dstScalar d = false ∨ cs = []) (old : Reg → Bool) (g : Reg) :
    markAfter d res (c :: cs) old g = markAfter d res cs (markAfter d res [c] old) g := by
  cases hw : writtenBy d res g c with
  | some x =>
    have hs : cs.findSome? (writtenBy d res g) = none := by
      rcases h with h | rfl
      · exact findSome_writtenBy h hc (by simp [hw])
      · rfl
    have h1 : ∀ l, (c :: l).findSome? (writtenBy d res g) = some x := by intro l; simp [hw]
    unfold markAfter
    rw [h1, hs]
    cases g with
    | y l n => rw [writtenBy_y] at hw; simp at hw
    | _ => simp only [h1]
  | none =>
    unfold markAfter
    rw [findSome_cons_none hw]
    cases hs : cs.findSome? (writtenBy d res g) with
    | some x => rfl
    | none =>
      simp only [findSome_cons_none hw, List.findSome?_nil]
      cases g <;> simp only
      rename_i l n
      by_cases hl : l = c
      · subst hl; simp [hc]
      · simp [hl]

/-- What `writeLanes` leaves of a wave: the registers of the lanes and the conditions, at once. -/
theorem Resident.writeLanes_simt {lat : Nat} {d : Dst} {f : Nat → Result} (h2 : ∀ c, (f c).words.length ≤ 2) :
    ∀ (cs : List Nat) (r : Resident), r.simt = true → cs.Nodup → (dstScalar d = true → cs.length ≤ 1) →
      (∀ g, (r.writeLanes lat d f cs).regs.read g = valueAfter d f cs r.regs.read g) ∧
      (∀ g, (r.writeLanes lat d f cs).regs.poisoned g = markAfter d f cs r.regs.poisoned g) ∧
      r.writeLanes lat d f cs = { r with
        regs := (r.writeLanes lat d f cs).regs
        fflags := cs.foldl (fun a c => a ||| (f c).ff) r.fflags } := by
  intro cs
  induction cs with
  | nil =>
    intro r hr _ _
    refine ⟨fun g => ?_, fun g => ?_, rfl⟩
    · cases g <;> simp [Resident.writeLanes, valueAfter]
    · cases g <;> simp [Resident.writeLanes, markAfter]
  | cons c cs ih =>
    intro r hr hnd hlen
    obtain ⟨hc, hnd⟩ := List.nodup_cons.mp hnd
    have hor : dstScalar d = false ∨ cs = [] := by
      cases hd : dstScalar d with
      | false => exact .inl rfl
      | true => have := hlen hd; simp at this; exact .inr this
    have e : r.writeLanes lat d f (c :: cs) =
        ({ r with
            regs := r.regs.landed (resultCells d c (f c).words) c (shiftedBy d f c)
            fflags := r.fflags ||| (f c).ff } : Resident).writeLanes lat d f cs := by
      simp only [Resident.writeLanes, List.foldl_cons]
      congr 1
      simp only [Resident.after, hr, if_true, Resident.land_eq, shiftedBy]
    have hl2 : dstScalar d = true → cs.length ≤ 1 := fun h => by have := hlen h; simp at this; simp [this]
    obtain ⟨h1, h2', h3⟩ := ih ({ r with
            regs := r.regs.landed (resultCells d c (f c).words) c (shiftedBy d f c)
            fflags := r.fflags ||| (f c).ff } : Resident) hr hnd hl2
    refine ⟨fun g => ?_, fun g => ?_, ?_⟩
    · rw [e, h1, valueAfter_cons hc hor]
      congr 1
      funext k
      exact (RegFile.landed_one r.regs d f c (h2 c) k).1
    · rw [e, h2', markAfter_cons hc hor]
      congr 1
      funext k
      exact (RegFile.landed_one r.regs d f c (h2 c) k).2
    · rw [e, h3]; rfl

/-- What `writeLanes` leaves of a wide thread: one result on its way for each lane. -/
theorem Resident.writeLanes_vliw {lat : Nat} {d : Dst} {f : Nat → Result} :
    ∀ (cs : List Nat) (r : Resident), r.simt = false →
      r.writeLanes lat d f cs = { r with
        flights := r.flights ++ cs.map fun c =>
          { due := r.count + lat, seq := 32 * r.count, writes := resultCells d c (f c).words, lane := c,
            ys := shiftedBy d f c, ff := (f c).ff } } := by
  intro cs
  induction cs with
  | nil => intro r _; simp [Resident.writeLanes]
  | cons c cs ih =>
    intro r hr
    have e : r.writeLanes lat d f (c :: cs) = (r.after lat c (resultCells d c (f c).words) (shiftedBy d f c) (f c).ff).writeLanes lat d f cs := by
      simp only [Resident.writeLanes, List.foldl_cons, shiftedBy]
    have e2 : r.after lat c (resultCells d c (f c).words) (shiftedBy d f c) (f c).ff =
        { r with flights := r.flights ++ [Flight.mk (r.count + lat) (32 * r.count) (resultCells d c (f c).words) c (shiftedBy d f c) (f c).ff] } := by
      unfold Resident.after; rw [hr]; rfl
    rw [e, e2]
    refine (ih { r with flights := r.flights ++ [Flight.mk (r.count + lat) (32 * r.count) (resultCells d c (f c).words) c
        (shiftedBy d f c) (f c).ff] } hr).trans ?_
    simp

/-! ### Reading special registers -/

theorem State.latchSrcs_eq (s : State) : ∀ (reads : List Src) (r : Resident),
    s.latchSrcs reads r = { r with clkh := State.clkhAfter r reads, ectrhi := s.ectrhiAfter r reads } := by
  intro reads
  induction reads with
  | nil => intro r; rfl
  | cons a as_ ih =>
    intro r
    have e : s.latchSrcs (a :: as_) r = s.latchSrcs as_ (match a with
      | .special n => s.latchCsr n r
      | _ => r) := rfl
    rw [e, ih]
    cases a <;> simp only [State.clkhAfter, State.ectrhiAfter, List.mem_cons, reduceCtorEq, false_or]
    rename_i n
    unfold State.latchCsr
    by_cases h1 : n = 0x10
    · subst h1; simp
    · by_cases h2 : n = 0x19
      · subst h2; simp
      · simp [h1, h2, Ne.symm h1, Ne.symm h2]

/-! ### The issue latch -/

theorem State.attemptAs_next {s : State} {q : Issue} (h : s.Issues q) (name : Issue → Cause → Cause) (k : Issue → State → State) :
    s.attemptAs name [] false [] k = k q s := by
  unfold State.attemptAs
  rw [h.1]
  simp only [h.2, Bool.false_eq_true, if_false]
  split
  · rfl
  · simp [dueCause, pickCause]

theorem State.attemptF_next {s : State} {q : Issue} (h : s.Issues q) (k : Issue → State → State) : s.attemptF [] false [] k = k q s :=
  State.attemptAs_next h Issue.named k

theorem State.attempt_next {s : State} {q : Issue} (h : s.Issues q) (k : Issue → State → State) : s.attempt [] false k = k q s :=
  State.attemptF_next h k

theorem Issue.illegalIf_of {q : Issue} {b : Bool} (h : b = true) : q.illegalIf (!b) = [] := by subst h; rfl

theorem Resident.poisonCauses_clean {r : Resident} {reads : List Src} {cs : List Nat} (h : r.Clean reads cs) : r.poisonCauses reads cs = [] := by
  unfold Resident.poisonCauses
  rw [List.filterMap_eq_nil_iff]
  intro a ha
  have : cs.filter (fun c => r.srcPoison a c) = [] := by
    rw [List.filter_eq_nil_iff]; intro c hc; simp [h a ha c hc]
  simp [this]

theorem State.modCur_eq {s : State} {q : Issue} (h : s.iss = some q) (f : Resident → Resident) : s.modCur f = s.withRes q (f q.res) := by
  simp [State.modCur, State.modIss, State.withRes, h]

/-! ### Lanes -/

theorem Resident.lanes_nodup (r : Resident) : r.lanes.Nodup := List.nodup_range

theorem Issue.lanes_nodup (q : Issue) (p : Pred) (once : Bool) : (q.lanes p once).Nodup := by
  unfold Issue.lanes
  split
  · exact ((Resident.lanes_nodup _).filter _).filter _
  · split <;> simp

theorem Issue.lanes_once (q : Issue) (p : Pred) : (q.lanes p true).length ≤ 1 := by
  unfold Issue.lanes; simp only [Bool.not_true, Bool.and_false, Bool.false_eq_true, if_false]; split <;> simp

/-! ### The shared shape -/

theorem State.writeLanes_computes {s : State} {q : Issue} (h : s.iss = some q) {lat : Nat} {d : Dst} {f : Nat → Result} {cs : List Nat}
    {reads : List Src} (h2 : ∀ c, (f c).words.length ≤ 2) (hnd : cs.Nodup) (hl : dstScalar d = true → cs.length ≤ 1) :
    s.Computes q (s.modCur fun r => s.latchSrcs reads (r.writeLanes lat d f cs)) lat d f cs reads := by
  rw [State.modCur_eq h]
  refine ⟨_, rfl, ?_⟩
  rw [State.latchSrcs_eq]
  cases hs : q.res.simt with
  | true =>
    obtain ⟨h1, h3, h4⟩ := Resident.writeLanes_simt (lat := lat) (d := d) (f := f) h2 cs q.res hs hnd hl
    simp only [if_true]
    refine ⟨h1, h3, ?_⟩
    rw [h4]; rfl
  | false =>
    simp only [Bool.false_eq_true, if_false]
    rw [Resident.writeLanes_vliw cs q.res hs]; rfl

/-- `compute` on an instruction that meets no cause: its results and nothing else. -/
theorem State.compute_next {s : State} {q : Issue} (h : s.Issues q) {legal : Issue → Bool} {p : Pred} {lat : Nat} {d : Dst}
    {reads : List Src} {f : State → Resident → Nat → Result} (hl : legal q = true) (hp : predOk q.res p = true)
    (hc : q.res.Clean reads (q.lanes p (dstScalar d))) (h2 : ∀ s r c, (f s r c).words.length ≤ 2) :
    s.Computes q (s.compute legal p lat d reads f) lat d (f s q.res) (q.lanes p (dstScalar d))
      (if q.lanes p (dstScalar d) = [] then [] else reads) := by
  unfold State.compute
  rw [h.1]
  simp only
  rw [Issue.illegalIf_of (by simp [hl, hp]), Resident.poisonCauses_clean hc, List.append_nil, State.attempt_next h]
  have hn := Issue.lanes_nodup q p (dstScalar d)
  have h1 : dstScalar d = true → (q.lanes p (dstScalar d)).length ≤ 1 := by
    intro e; rw [e]; exact Issue.lanes_once q p
  by_cases he : q.lanes p (dstScalar d) = []
  · have := State.writeLanes_computes (reads := []) h.1 (lat := lat) (f := f s q.res) (h2 s q.res) hn h1
    simpa [he, State.latchSrcs] using this
  · have := State.writeLanes_computes (reads := reads) h.1 (lat := lat) (f := f s q.res) (h2 s q.res) hn h1
    simpa [he] using this

end Sys2Proof.Machine
end

