-- ==== Sys2Proof/Laws/State.lean ====
section
/-! SUPPORT. What the named updates of the state leave in each field: one lemma for each update and field. Generated from the list of
the fields of `State` and of the updates. -/

namespace Sys2Proof.Machine

/-! ### `modCore` -/

@[simp] theorem State.modCore_mem (s : State) (n : Nat) (f : Core → Core) : (s.modCore n f).mem = s.mem := rfl
@[simp] theorem State.modCore_hbmPoison (s : State) (n : Nat) (f : Core → Core) : (s.modCore n f).hbmPoison = s.hbmPoison := rfl
@[simp] theorem State.modCore_l2Poison (s : State) (n : Nat) (f : Core → Core) : (s.modCore n f).l2Poison = s.l2Poison := rfl
@[simp] theorem State.modCore_l2 (s : State) (n : Nat) (f : Core → Core) : (s.modCore n f).l2 = s.l2 := rfl
@[simp] theorem State.modCore_timebase (s : State) (n : Nat) (f : Core → Core) : (s.modCore n f).timebase = s.timebase := rfl
@[simp] theorem State.modCore_cores (s : State) (n : Nat) (f : Core → Core) : (s.modCore n f).cores = modAt s.cores n f := rfl
@[simp] theorem State.modCore_hamlets (s : State) (n : Nat) (f : Core → Core) : (s.modCore n f).hamlets = s.hamlets := rfl
@[simp] theorem State.modCore_dieQ (s : State) (n : Nat) (f : Core → Core) : (s.modCore n f).dieQ = s.dieQ := rfl
@[simp] theorem State.modCore_running (s : State) (n : Nat) (f : Core → Core) : (s.modCore n f).running = s.running := rfl
@[simp] theorem State.modCore_residents (s : State) (n : Nat) (f : Core → Core) : (s.modCore n f).residents = s.residents := rfl
@[simp] theorem State.modCore_units (s : State) (n : Nat) (f : Core → Core) : (s.modCore n f).units = s.units := rfl
@[simp] theorem State.modCore_barriers (s : State) (n : Nat) (f : Core → Core) : (s.modCore n f).barriers = s.barriers := rfl
@[simp] theorem State.modCore_contexts (s : State) (n : Nat) (f : Core → Core) : (s.modCore n f).contexts = s.contexts := rfl
@[simp] theorem State.modCore_counters (s : State) (n : Nat) (f : Core → Core) : (s.modCore n f).counters = s.counters := rfl
@[simp] theorem State.modCore_evictions (s : State) (n : Nat) (f : Core → Core) : (s.modCore n f).evictions = s.evictions := rfl
@[simp] theorem State.modCore_failedSlices (s : State) (n : Nat) (f : Core → Core) : (s.modCore n f).failedSlices = s.failedSlices := rfl
@[simp] theorem State.modCore_failedChannels (s : State) (n : Nat) (f : Core → Core) : (s.modCore n f).failedChannels = s.failedChannels := rfl
@[simp] theorem State.modCore_failedUnits (s : State) (n : Nat) (f : Core → Core) : (s.modCore n f).failedUnits = s.failedUnits := rfl
@[simp] theorem State.modCore_testFails (s : State) (n : Nat) (f : Core → Core) : (s.modCore n f).testFails = s.testFails := rfl
@[simp] theorem State.modCore_badLinks (s : State) (n : Nat) (f : Core → Core) : (s.modCore n f).badLinks = s.badLinks := rfl
@[simp] theorem State.modCore_rota (s : State) (n : Nat) (f : Core → Core) : (s.modCore n f).rota = s.rota := rfl
@[simp] theorem State.modCore_host (s : State) (n : Nat) (f : Core → Core) : (s.modCore n f).host = s.host := rfl
@[simp] theorem State.modCore_stage (s : State) (n : Nat) (f : Core → Core) : (s.modCore n f).stage = s.stage := rfl
@[simp] theorem State.modCore_power (s : State) (n : Nat) (f : Core → Core) : (s.modCore n f).power = s.power := rfl
@[simp] theorem State.modCore_starts (s : State) (n : Nat) (f : Core → Core) : (s.modCore n f).starts = s.starts := rfl
@[simp] theorem State.modCore_fwVersion (s : State) (n : Nat) (f : Core → Core) : (s.modCore n f).fwVersion = s.fwVersion := rfl
@[simp] theorem State.modCore_fwDigest (s : State) (n : Nat) (f : Core → Core) : (s.modCore n f).fwDigest = s.fwDigest := rfl
@[simp] theorem State.modCore_cfgDigest (s : State) (n : Nat) (f : Core → Core) : (s.modCore n f).cfgDigest = s.cfgDigest := rfl
@[simp] theorem State.modCore_samplers (s : State) (n : Nat) (f : Core → Core) : (s.modCore n f).samplers = s.samplers := rfl
@[simp] theorem State.modCore_peerGroups (s : State) (n : Nat) (f : Core → Core) : (s.modCore n f).peerGroups = s.peerGroups := rfl
@[simp] theorem State.modCore_links (s : State) (n : Nat) (f : Core → Core) : (s.modCore n f).links = s.links := rfl
@[simp] theorem State.modCore_errs (s : State) (n : Nat) (f : Core → Core) : (s.modCore n f).errs = s.errs := rfl
@[simp] theorem State.modCore_regErrs (s : State) (n : Nat) (f : Core → Core) : (s.modCore n f).regErrs = s.regErrs := rfl
@[simp] theorem State.modCore_agenda (s : State) (n : Nat) (f : Core → Core) : (s.modCore n f).agenda = s.agenda := rfl
@[simp] theorem State.modCore_oracle (s : State) (n : Nat) (f : Core → Core) : (s.modCore n f).oracle = s.oracle := rfl
@[simp] theorem State.modCore_iss (s : State) (n : Nat) (f : Core → Core) : (s.modCore n f).iss = s.iss := rfl
@[simp] theorem State.modCore_fresh (s : State) (n : Nat) (f : Core → Core) : (s.modCore n f).fresh = s.fresh := rfl
@[simp] theorem State.modCore_nextId (s : State) (n : Nat) (f : Core → Core) : (s.modCore n f).nextId = s.nextId := rfl

/-! ### `modHam` -/

@[simp] theorem State.modHam_mem (s : State) (n : Nat) (f : Hamlet → Hamlet) : (s.modHam n f).mem = s.mem := rfl
@[simp] theorem State.modHam_hbmPoison (s : State) (n : Nat) (f : Hamlet → Hamlet) : (s.modHam n f).hbmPoison = s.hbmPoison := rfl
@[simp] theorem State.modHam_l2Poison (s : State) (n : Nat) (f : Hamlet → Hamlet) : (s.modHam n f).l2Poison = s.l2Poison := rfl
@[simp] theorem State.modHam_l2 (s : State) (n : Nat) (f : Hamlet → Hamlet) : (s.modHam n f).l2 = s.l2 := rfl
@[simp] theorem State.modHam_timebase (s : State) (n : Nat) (f : Hamlet → Hamlet) : (s.modHam n f).timebase = s.timebase := rfl
@[simp] theorem State.modHam_cores (s : State) (n : Nat) (f : Hamlet → Hamlet) : (s.modHam n f).cores = s.cores := rfl
@[simp] theorem State.modHam_hamlets (s : State) (n : Nat) (f : Hamlet → Hamlet) : (s.modHam n f).hamlets = modAt s.hamlets n f := rfl
@[simp] theorem State.modHam_dieQ (s : State) (n : Nat) (f : Hamlet → Hamlet) : (s.modHam n f).dieQ = s.dieQ := rfl
@[simp] theorem State.modHam_running (s : State) (n : Nat) (f : Hamlet → Hamlet) : (s.modHam n f).running = s.running := rfl
@[simp] theorem State.modHam_residents (s : State) (n : Nat) (f : Hamlet → Hamlet) : (s.modHam n f).residents = s.residents := rfl
@[simp] theorem State.modHam_units (s : State) (n : Nat) (f : Hamlet → Hamlet) : (s.modHam n f).units = s.units := rfl
@[simp] theorem State.modHam_barriers (s : State) (n : Nat) (f : Hamlet → Hamlet) : (s.modHam n f).barriers = s.barriers := rfl
@[simp] theorem State.modHam_contexts (s : State) (n : Nat) (f : Hamlet → Hamlet) : (s.modHam n f).contexts = s.contexts := rfl
@[simp] theorem State.modHam_counters (s : State) (n : Nat) (f : Hamlet → Hamlet) : (s.modHam n f).counters = s.counters := rfl
@[simp] theorem State.modHam_evictions (s : State) (n : Nat) (f : Hamlet → Hamlet) : (s.modHam n f).evictions = s.evictions := rfl
@[simp] theorem State.modHam_failedSlices (s : State) (n : Nat) (f : Hamlet → Hamlet) : (s.modHam n f).failedSlices = s.failedSlices := rfl
@[simp] theorem State.modHam_failedChannels (s : State) (n : Nat) (f : Hamlet → Hamlet) : (s.modHam n f).failedChannels = s.failedChannels := rfl
@[simp] theorem State.modHam_failedUnits (s : State) (n : Nat) (f : Hamlet → Hamlet) : (s.modHam n f).failedUnits = s.failedUnits := rfl
@[simp] theorem State.modHam_testFails (s : State) (n : Nat) (f : Hamlet → Hamlet) : (s.modHam n f).testFails = s.testFails := rfl
@[simp] theorem State.modHam_badLinks (s : State) (n : Nat) (f : Hamlet → Hamlet) : (s.modHam n f).badLinks = s.badLinks := rfl
@[simp] theorem State.modHam_rota (s : State) (n : Nat) (f : Hamlet → Hamlet) : (s.modHam n f).rota = s.rota := rfl
@[simp] theorem State.modHam_host (s : State) (n : Nat) (f : Hamlet → Hamlet) : (s.modHam n f).host = s.host := rfl
@[simp] theorem State.modHam_stage (s : State) (n : Nat) (f : Hamlet → Hamlet) : (s.modHam n f).stage = s.stage := rfl
@[simp] theorem State.modHam_power (s : State) (n : Nat) (f : Hamlet → Hamlet) : (s.modHam n f).power = s.power := rfl
@[simp] theorem State.modHam_starts (s : State) (n : Nat) (f : Hamlet → Hamlet) : (s.modHam n f).starts = s.starts := rfl
@[simp] theorem State.modHam_fwVersion (s : State) (n : Nat) (f : Hamlet → Hamlet) : (s.modHam n f).fwVersion = s.fwVersion := rfl
@[simp] theorem State.modHam_fwDigest (s : State) (n : Nat) (f : Hamlet → Hamlet) : (s.modHam n f).fwDigest = s.fwDigest := rfl
@[simp] theorem State.modHam_cfgDigest (s : State) (n : Nat) (f : Hamlet → Hamlet) : (s.modHam n f).cfgDigest = s.cfgDigest := rfl
@[simp] theorem State.modHam_samplers (s : State) (n : Nat) (f : Hamlet → Hamlet) : (s.modHam n f).samplers = s.samplers := rfl
@[simp] theorem State.modHam_peerGroups (s : State) (n : Nat) (f : Hamlet → Hamlet) : (s.modHam n f).peerGroups = s.peerGroups := rfl
@[simp] theorem State.modHam_links (s : State) (n : Nat) (f : Hamlet → Hamlet) : (s.modHam n f).links = s.links := rfl
@[simp] theorem State.modHam_errs (s : State) (n : Nat) (f : Hamlet → Hamlet) : (s.modHam n f).errs = s.errs := rfl
@[simp] theorem State.modHam_regErrs (s : State) (n : Nat) (f : Hamlet → Hamlet) : (s.modHam n f).regErrs = s.regErrs := rfl
@[simp] theorem State.modHam_agenda (s : State) (n : Nat) (f : Hamlet → Hamlet) : (s.modHam n f).agenda = s.agenda := rfl
@[simp] theorem State.modHam_oracle (s : State) (n : Nat) (f : Hamlet → Hamlet) : (s.modHam n f).oracle = s.oracle := rfl
@[simp] theorem State.modHam_iss (s : State) (n : Nat) (f : Hamlet → Hamlet) : (s.modHam n f).iss = s.iss := rfl
@[simp] theorem State.modHam_fresh (s : State) (n : Nat) (f : Hamlet → Hamlet) : (s.modHam n f).fresh = s.fresh := rfl
@[simp] theorem State.modHam_nextId (s : State) (n : Nat) (f : Hamlet → Hamlet) : (s.modHam n f).nextId = s.nextId := rfl

/-! ### `modRing` -/

@[simp] theorem State.modRing_mem (s : State) (core k : Nat) (f : Ring → Ring) : (s.modRing core k f).mem = s.mem := rfl
@[simp] theorem State.modRing_hbmPoison (s : State) (core k : Nat) (f : Ring → Ring) : (s.modRing core k f).hbmPoison = s.hbmPoison := rfl
@[simp] theorem State.modRing_l2Poison (s : State) (core k : Nat) (f : Ring → Ring) : (s.modRing core k f).l2Poison = s.l2Poison := rfl
@[simp] theorem State.modRing_l2 (s : State) (core k : Nat) (f : Ring → Ring) : (s.modRing core k f).l2 = s.l2 := rfl
@[simp] theorem State.modRing_timebase (s : State) (core k : Nat) (f : Ring → Ring) : (s.modRing core k f).timebase = s.timebase := rfl
@[simp] theorem State.modRing_cores (s : State) (core k : Nat) (f : Ring → Ring) : (s.modRing core k f).cores = modAt s.cores core fun c => { c with rings := modAt c.rings k f } := rfl
@[simp] theorem State.modRing_hamlets (s : State) (core k : Nat) (f : Ring → Ring) : (s.modRing core k f).hamlets = s.hamlets := rfl
@[simp] theorem State.modRing_dieQ (s : State) (core k : Nat) (f : Ring → Ring) : (s.modRing core k f).dieQ = s.dieQ := rfl
@[simp] theorem State.modRing_running (s : State) (core k : Nat) (f : Ring → Ring) : (s.modRing core k f).running = s.running := rfl
@[simp] theorem State.modRing_residents (s : State) (core k : Nat) (f : Ring → Ring) : (s.modRing core k f).residents = s.residents := rfl
@[simp] theorem State.modRing_units (s : State) (core k : Nat) (f : Ring → Ring) : (s.modRing core k f).units = s.units := rfl
@[simp] theorem State.modRing_barriers (s : State) (core k : Nat) (f : Ring → Ring) : (s.modRing core k f).barriers = s.barriers := rfl
@[simp] theorem State.modRing_contexts (s : State) (core k : Nat) (f : Ring → Ring) : (s.modRing core k f).contexts = s.contexts := rfl
@[simp] theorem State.modRing_counters (s : State) (core k : Nat) (f : Ring → Ring) : (s.modRing core k f).counters = s.counters := rfl
@[simp] theorem State.modRing_evictions (s : State) (core k : Nat) (f : Ring → Ring) : (s.modRing core k f).evictions = s.evictions := rfl
@[simp] theorem State.modRing_failedSlices (s : State) (core k : Nat) (f : Ring → Ring) : (s.modRing core k f).failedSlices = s.failedSlices := rfl
@[simp] theorem State.modRing_failedChannels (s : State) (core k : Nat) (f : Ring → Ring) : (s.modRing core k f).failedChannels = s.failedChannels := rfl
@[simp] theorem State.modRing_failedUnits (s : State) (core k : Nat) (f : Ring → Ring) : (s.modRing core k f).failedUnits = s.failedUnits := rfl
@[simp] theorem State.modRing_testFails (s : State) (core k : Nat) (f : Ring → Ring) : (s.modRing core k f).testFails = s.testFails := rfl
@[simp] theorem State.modRing_badLinks (s : State) (core k : Nat) (f : Ring → Ring) : (s.modRing core k f).badLinks = s.badLinks := rfl
@[simp] theorem State.modRing_rota (s : State) (core k : Nat) (f : Ring → Ring) : (s.modRing core k f).rota = s.rota := rfl
@[simp] theorem State.modRing_host (s : State) (core k : Nat) (f : Ring → Ring) : (s.modRing core k f).host = s.host := rfl
@[simp] theorem State.modRing_stage (s : State) (core k : Nat) (f : Ring → Ring) : (s.modRing core k f).stage = s.stage := rfl
@[simp] theorem State.modRing_power (s : State) (core k : Nat) (f : Ring → Ring) : (s.modRing core k f).power = s.power := rfl
@[simp] theorem State.modRing_starts (s : State) (core k : Nat) (f : Ring → Ring) : (s.modRing core k f).starts = s.starts := rfl
@[simp] theorem State.modRing_fwVersion (s : State) (core k : Nat) (f : Ring → Ring) : (s.modRing core k f).fwVersion = s.fwVersion := rfl
@[simp] theorem State.modRing_fwDigest (s : State) (core k : Nat) (f : Ring → Ring) : (s.modRing core k f).fwDigest = s.fwDigest := rfl
@[simp] theorem State.modRing_cfgDigest (s : State) (core k : Nat) (f : Ring → Ring) : (s.modRing core k f).cfgDigest = s.cfgDigest := rfl
@[simp] theorem State.modRing_samplers (s : State) (core k : Nat) (f : Ring → Ring) : (s.modRing core k f).samplers = s.samplers := rfl
@[simp] theorem State.modRing_peerGroups (s : State) (core k : Nat) (f : Ring → Ring) : (s.modRing core k f).peerGroups = s.peerGroups := rfl
@[simp] theorem State.modRing_links (s : State) (core k : Nat) (f : Ring → Ring) : (s.modRing core k f).links = s.links := rfl
@[simp] theorem State.modRing_errs (s : State) (core k : Nat) (f : Ring → Ring) : (s.modRing core k f).errs = s.errs := rfl
@[simp] theorem State.modRing_regErrs (s : State) (core k : Nat) (f : Ring → Ring) : (s.modRing core k f).regErrs = s.regErrs := rfl
@[simp] theorem State.modRing_agenda (s : State) (core k : Nat) (f : Ring → Ring) : (s.modRing core k f).agenda = s.agenda := rfl
@[simp] theorem State.modRing_oracle (s : State) (core k : Nat) (f : Ring → Ring) : (s.modRing core k f).oracle = s.oracle := rfl
@[simp] theorem State.modRing_iss (s : State) (core k : Nat) (f : Ring → Ring) : (s.modRing core k f).iss = s.iss := rfl
@[simp] theorem State.modRing_fresh (s : State) (core k : Nat) (f : Ring → Ring) : (s.modRing core k f).fresh = s.fresh := rfl
@[simp] theorem State.modRing_nextId (s : State) (core k : Nat) (f : Ring → Ring) : (s.modRing core k f).nextId = s.nextId := rfl

/-! ### `mapRes` -/

@[simp] theorem State.mapRes_mem (s : State) (f : Resident → Resident) : (s.mapRes f).mem = s.mem := rfl
@[simp] theorem State.mapRes_hbmPoison (s : State) (f : Resident → Resident) : (s.mapRes f).hbmPoison = s.hbmPoison := rfl
@[simp] theorem State.mapRes_l2Poison (s : State) (f : Resident → Resident) : (s.mapRes f).l2Poison = s.l2Poison := rfl
@[simp] theorem State.mapRes_l2 (s : State) (f : Resident → Resident) : (s.mapRes f).l2 = s.l2 := rfl
@[simp] theorem State.mapRes_timebase (s : State) (f : Resident → Resident) : (s.mapRes f).timebase = s.timebase := rfl
@[simp] theorem State.mapRes_cores (s : State) (f : Resident → Resident) : (s.mapRes f).cores = s.cores := rfl
@[simp] theorem State.mapRes_hamlets (s : State) (f : Resident → Resident) : (s.mapRes f).hamlets = s.hamlets := rfl
@[simp] theorem State.mapRes_dieQ (s : State) (f : Resident → Resident) : (s.mapRes f).dieQ = s.dieQ := rfl
@[simp] theorem State.mapRes_running (s : State) (f : Resident → Resident) : (s.mapRes f).running = s.running := rfl
@[simp] theorem State.mapRes_residents (s : State) (f : Resident → Resident) : (s.mapRes f).residents = s.residents.map f := rfl
@[simp] theorem State.mapRes_units (s : State) (f : Resident → Resident) : (s.mapRes f).units = s.units := rfl
@[simp] theorem State.mapRes_barriers (s : State) (f : Resident → Resident) : (s.mapRes f).barriers = s.barriers := rfl
@[simp] theorem State.mapRes_contexts (s : State) (f : Resident → Resident) : (s.mapRes f).contexts = s.contexts := rfl
@[simp] theorem State.mapRes_counters (s : State) (f : Resident → Resident) : (s.mapRes f).counters = s.counters := rfl
@[simp] theorem State.mapRes_evictions (s : State) (f : Resident → Resident) : (s.mapRes f).evictions = s.evictions := rfl
@[simp] theorem State.mapRes_failedSlices (s : State) (f : Resident → Resident) : (s.mapRes f).failedSlices = s.failedSlices := rfl
@[simp] theorem State.mapRes_failedChannels (s : State) (f : Resident → Resident) : (s.mapRes f).failedChannels = s.failedChannels := rfl
@[simp] theorem State.mapRes_failedUnits (s : State) (f : Resident → Resident) : (s.mapRes f).failedUnits = s.failedUnits := rfl
@[simp] theorem State.mapRes_testFails (s : State) (f : Resident → Resident) : (s.mapRes f).testFails = s.testFails := rfl
@[simp] theorem State.mapRes_badLinks (s : State) (f : Resident → Resident) : (s.mapRes f).badLinks = s.badLinks := rfl
@[simp] theorem State.mapRes_rota (s : State) (f : Resident → Resident) : (s.mapRes f).rota = s.rota := rfl
@[simp] theorem State.mapRes_host (s : State) (f : Resident → Resident) : (s.mapRes f).host = s.host := rfl
@[simp] theorem State.mapRes_stage (s : State) (f : Resident → Resident) : (s.mapRes f).stage = s.stage := rfl
@[simp] theorem State.mapRes_power (s : State) (f : Resident → Resident) : (s.mapRes f).power = s.power := rfl
@[simp] theorem State.mapRes_starts (s : State) (f : Resident → Resident) : (s.mapRes f).starts = s.starts := rfl
@[simp] theorem State.mapRes_fwVersion (s : State) (f : Resident → Resident) : (s.mapRes f).fwVersion = s.fwVersion := rfl
@[simp] theorem State.mapRes_fwDigest (s : State) (f : Resident → Resident) : (s.mapRes f).fwDigest = s.fwDigest := rfl
@[simp] theorem State.mapRes_cfgDigest (s : State) (f : Resident → Resident) : (s.mapRes f).cfgDigest = s.cfgDigest := rfl
@[simp] theorem State.mapRes_samplers (s : State) (f : Resident → Resident) : (s.mapRes f).samplers = s.samplers := rfl
@[simp] theorem State.mapRes_peerGroups (s : State) (f : Resident → Resident) : (s.mapRes f).peerGroups = s.peerGroups := rfl
@[simp] theorem State.mapRes_links (s : State) (f : Resident → Resident) : (s.mapRes f).links = s.links := rfl
@[simp] theorem State.mapRes_errs (s : State) (f : Resident → Resident) : (s.mapRes f).errs = s.errs := rfl
@[simp] theorem State.mapRes_regErrs (s : State) (f : Resident → Resident) : (s.mapRes f).regErrs = s.regErrs := rfl
@[simp] theorem State.mapRes_agenda (s : State) (f : Resident → Resident) : (s.mapRes f).agenda = s.agenda := rfl
@[simp] theorem State.mapRes_oracle (s : State) (f : Resident → Resident) : (s.mapRes f).oracle = s.oracle := rfl
@[simp] theorem State.mapRes_iss (s : State) (f : Resident → Resident) : (s.mapRes f).iss = s.iss.map fun q => { q with res := f q.res } := rfl
@[simp] theorem State.mapRes_fresh (s : State) (f : Resident → Resident) : (s.mapRes f).fresh = s.fresh := rfl
@[simp] theorem State.mapRes_nextId (s : State) (f : Resident → Resident) : (s.mapRes f).nextId = s.nextId := rfl

/-! ### `modRes` -/

@[simp] theorem State.modRes_mem (s : State) (rid : Nat) (f : Resident → Resident) : (s.modRes rid f).mem = s.mem := rfl
@[simp] theorem State.modRes_hbmPoison (s : State) (rid : Nat) (f : Resident → Resident) : (s.modRes rid f).hbmPoison = s.hbmPoison := rfl
@[simp] theorem State.modRes_l2Poison (s : State) (rid : Nat) (f : Resident → Resident) : (s.modRes rid f).l2Poison = s.l2Poison := rfl
@[simp] theorem State.modRes_l2 (s : State) (rid : Nat) (f : Resident → Resident) : (s.modRes rid f).l2 = s.l2 := rfl
@[simp] theorem State.modRes_timebase (s : State) (rid : Nat) (f : Resident → Resident) : (s.modRes rid f).timebase = s.timebase := rfl
@[simp] theorem State.modRes_cores (s : State) (rid : Nat) (f : Resident → Resident) : (s.modRes rid f).cores = s.cores := rfl
@[simp] theorem State.modRes_hamlets (s : State) (rid : Nat) (f : Resident → Resident) : (s.modRes rid f).hamlets = s.hamlets := rfl
@[simp] theorem State.modRes_dieQ (s : State) (rid : Nat) (f : Resident → Resident) : (s.modRes rid f).dieQ = s.dieQ := rfl
@[simp] theorem State.modRes_running (s : State) (rid : Nat) (f : Resident → Resident) : (s.modRes rid f).running = s.running := rfl
@[simp] theorem State.modRes_residents (s : State) (rid : Nat) (f : Resident → Resident) : (s.modRes rid f).residents = s.residents.map fun r => if r.rid = rid then f r else r := rfl
@[simp] theorem State.modRes_units (s : State) (rid : Nat) (f : Resident → Resident) : (s.modRes rid f).units = s.units := rfl
@[simp] theorem State.modRes_barriers (s : State) (rid : Nat) (f : Resident → Resident) : (s.modRes rid f).barriers = s.barriers := rfl
@[simp] theorem State.modRes_contexts (s : State) (rid : Nat) (f : Resident → Resident) : (s.modRes rid f).contexts = s.contexts := rfl
@[simp] theorem State.modRes_counters (s : State) (rid : Nat) (f : Resident → Resident) : (s.modRes rid f).counters = s.counters := rfl
@[simp] theorem State.modRes_evictions (s : State) (rid : Nat) (f : Resident → Resident) : (s.modRes rid f).evictions = s.evictions := rfl
@[simp] theorem State.modRes_failedSlices (s : State) (rid : Nat) (f : Resident → Resident) : (s.modRes rid f).failedSlices = s.failedSlices := rfl
@[simp] theorem State.modRes_failedChannels (s : State) (rid : Nat) (f : Resident → Resident) : (s.modRes rid f).failedChannels = s.failedChannels := rfl
@[simp] theorem State.modRes_failedUnits (s : State) (rid : Nat) (f : Resident → Resident) : (s.modRes rid f).failedUnits = s.failedUnits := rfl
@[simp] theorem State.modRes_testFails (s : State) (rid : Nat) (f : Resident → Resident) : (s.modRes rid f).testFails = s.testFails := rfl
@[simp] theorem State.modRes_badLinks (s : State) (rid : Nat) (f : Resident → Resident) : (s.modRes rid f).badLinks = s.badLinks := rfl
@[simp] theorem State.modRes_rota (s : State) (rid : Nat) (f : Resident → Resident) : (s.modRes rid f).rota = s.rota := rfl
@[simp] theorem State.modRes_host (s : State) (rid : Nat) (f : Resident → Resident) : (s.modRes rid f).host = s.host := rfl
@[simp] theorem State.modRes_stage (s : State) (rid : Nat) (f : Resident → Resident) : (s.modRes rid f).stage = s.stage := rfl
@[simp] theorem State.modRes_power (s : State) (rid : Nat) (f : Resident → Resident) : (s.modRes rid f).power = s.power := rfl
@[simp] theorem State.modRes_starts (s : State) (rid : Nat) (f : Resident → Resident) : (s.modRes rid f).starts = s.starts := rfl
@[simp] theorem State.modRes_fwVersion (s : State) (rid : Nat) (f : Resident → Resident) : (s.modRes rid f).fwVersion = s.fwVersion := rfl
@[simp] theorem State.modRes_fwDigest (s : State) (rid : Nat) (f : Resident → Resident) : (s.modRes rid f).fwDigest = s.fwDigest := rfl
@[simp] theorem State.modRes_cfgDigest (s : State) (rid : Nat) (f : Resident → Resident) : (s.modRes rid f).cfgDigest = s.cfgDigest := rfl
@[simp] theorem State.modRes_samplers (s : State) (rid : Nat) (f : Resident → Resident) : (s.modRes rid f).samplers = s.samplers := rfl
@[simp] theorem State.modRes_peerGroups (s : State) (rid : Nat) (f : Resident → Resident) : (s.modRes rid f).peerGroups = s.peerGroups := rfl
@[simp] theorem State.modRes_links (s : State) (rid : Nat) (f : Resident → Resident) : (s.modRes rid f).links = s.links := rfl
@[simp] theorem State.modRes_errs (s : State) (rid : Nat) (f : Resident → Resident) : (s.modRes rid f).errs = s.errs := rfl
@[simp] theorem State.modRes_regErrs (s : State) (rid : Nat) (f : Resident → Resident) : (s.modRes rid f).regErrs = s.regErrs := rfl
@[simp] theorem State.modRes_agenda (s : State) (rid : Nat) (f : Resident → Resident) : (s.modRes rid f).agenda = s.agenda := rfl
@[simp] theorem State.modRes_oracle (s : State) (rid : Nat) (f : Resident → Resident) : (s.modRes rid f).oracle = s.oracle := rfl
@[simp] theorem State.modRes_iss (s : State) (rid : Nat) (f : Resident → Resident) : (s.modRes rid f).iss = s.iss.map fun q => { q with res := if q.res.rid = rid then f q.res else q.res } := rfl
@[simp] theorem State.modRes_fresh (s : State) (rid : Nat) (f : Resident → Resident) : (s.modRes rid f).fresh = s.fresh := rfl
@[simp] theorem State.modRes_nextId (s : State) (rid : Nat) (f : Resident → Resident) : (s.modRes rid f).nextId = s.nextId := rfl

/-! ### `modIss` -/

@[simp] theorem State.modIss_mem (s : State) (f : Issue → Issue) : (s.modIss f).mem = s.mem := rfl
@[simp] theorem State.modIss_hbmPoison (s : State) (f : Issue → Issue) : (s.modIss f).hbmPoison = s.hbmPoison := rfl
@[simp] theorem State.modIss_l2Poison (s : State) (f : Issue → Issue) : (s.modIss f).l2Poison = s.l2Poison := rfl
@[simp] theorem State.modIss_l2 (s : State) (f : Issue → Issue) : (s.modIss f).l2 = s.l2 := rfl
@[simp] theorem State.modIss_timebase (s : State) (f : Issue → Issue) : (s.modIss f).timebase = s.timebase := rfl
@[simp] theorem State.modIss_cores (s : State) (f : Issue → Issue) : (s.modIss f).cores = s.cores := rfl
@[simp] theorem State.modIss_hamlets (s : State) (f : Issue → Issue) : (s.modIss f).hamlets = s.hamlets := rfl
@[simp] theorem State.modIss_dieQ (s : State) (f : Issue → Issue) : (s.modIss f).dieQ = s.dieQ := rfl
@[simp] theorem State.modIss_running (s : State) (f : Issue → Issue) : (s.modIss f).running = s.running := rfl
@[simp] theorem State.modIss_residents (s : State) (f : Issue → Issue) : (s.modIss f).residents = s.residents := rfl
@[simp] theorem State.modIss_units (s : State) (f : Issue → Issue) : (s.modIss f).units = s.units := rfl
@[simp] theorem State.modIss_barriers (s : State) (f : Issue → Issue) : (s.modIss f).barriers = s.barriers := rfl
@[simp] theorem State.modIss_contexts (s : State) (f : Issue → Issue) : (s.modIss f).contexts = s.contexts := rfl
@[simp] theorem State.modIss_counters (s : State) (f : Issue → Issue) : (s.modIss f).counters = s.counters := rfl
@[simp] theorem State.modIss_evictions (s : State) (f : Issue → Issue) : (s.modIss f).evictions = s.evictions := rfl
@[simp] theorem State.modIss_failedSlices (s : State) (f : Issue → Issue) : (s.modIss f).failedSlices = s.failedSlices := rfl
@[simp] theorem State.modIss_failedChannels (s : State) (f : Issue → Issue) : (s.modIss f).failedChannels = s.failedChannels := rfl
@[simp] theorem State.modIss_failedUnits (s : State) (f : Issue → Issue) : (s.modIss f).failedUnits = s.failedUnits := rfl
@[simp] theorem State.modIss_testFails (s : State) (f : Issue → Issue) : (s.modIss f).testFails = s.testFails := rfl
@[simp] theorem State.modIss_badLinks (s : State) (f : Issue → Issue) : (s.modIss f).badLinks = s.badLinks := rfl
@[simp] theorem State.modIss_rota (s : State) (f : Issue → Issue) : (s.modIss f).rota = s.rota := rfl
@[simp] theorem State.modIss_host (s : State) (f : Issue → Issue) : (s.modIss f).host = s.host := rfl
@[simp] theorem State.modIss_stage (s : State) (f : Issue → Issue) : (s.modIss f).stage = s.stage := rfl
@[simp] theorem State.modIss_power (s : State) (f : Issue → Issue) : (s.modIss f).power = s.power := rfl
@[simp] theorem State.modIss_starts (s : State) (f : Issue → Issue) : (s.modIss f).starts = s.starts := rfl
@[simp] theorem State.modIss_fwVersion (s : State) (f : Issue → Issue) : (s.modIss f).fwVersion = s.fwVersion := rfl
@[simp] theorem State.modIss_fwDigest (s : State) (f : Issue → Issue) : (s.modIss f).fwDigest = s.fwDigest := rfl
@[simp] theorem State.modIss_cfgDigest (s : State) (f : Issue → Issue) : (s.modIss f).cfgDigest = s.cfgDigest := rfl
@[simp] theorem State.modIss_samplers (s : State) (f : Issue → Issue) : (s.modIss f).samplers = s.samplers := rfl
@[simp] theorem State.modIss_peerGroups (s : State) (f : Issue → Issue) : (s.modIss f).peerGroups = s.peerGroups := rfl
@[simp] theorem State.modIss_links (s : State) (f : Issue → Issue) : (s.modIss f).links = s.links := rfl
@[simp] theorem State.modIss_errs (s : State) (f : Issue → Issue) : (s.modIss f).errs = s.errs := rfl
@[simp] theorem State.modIss_regErrs (s : State) (f : Issue → Issue) : (s.modIss f).regErrs = s.regErrs := rfl
@[simp] theorem State.modIss_agenda (s : State) (f : Issue → Issue) : (s.modIss f).agenda = s.agenda := rfl
@[simp] theorem State.modIss_oracle (s : State) (f : Issue → Issue) : (s.modIss f).oracle = s.oracle := rfl
@[simp] theorem State.modIss_iss (s : State) (f : Issue → Issue) : (s.modIss f).iss = s.iss.map f := rfl
@[simp] theorem State.modIss_fresh (s : State) (f : Issue → Issue) : (s.modIss f).fresh = s.fresh := rfl
@[simp] theorem State.modIss_nextId (s : State) (f : Issue → Issue) : (s.modIss f).nextId = s.nextId := rfl

/-! ### `modCur` -/

@[simp] theorem State.modCur_mem (s : State) (f : Resident → Resident) : (s.modCur f).mem = s.mem := rfl
@[simp] theorem State.modCur_hbmPoison (s : State) (f : Resident → Resident) : (s.modCur f).hbmPoison = s.hbmPoison := rfl
@[simp] theorem State.modCur_l2Poison (s : State) (f : Resident → Resident) : (s.modCur f).l2Poison = s.l2Poison := rfl
@[simp] theorem State.modCur_l2 (s : State) (f : Resident → Resident) : (s.modCur f).l2 = s.l2 := rfl
@[simp] theorem State.modCur_timebase (s : State) (f : Resident → Resident) : (s.modCur f).timebase = s.timebase := rfl
@[simp] theorem State.modCur_cores (s : State) (f : Resident → Resident) : (s.modCur f).cores = s.cores := rfl
@[simp] theorem State.modCur_hamlets (s : State) (f : Resident → Resident) : (s.modCur f).hamlets = s.hamlets := rfl
@[simp] theorem State.modCur_dieQ (s : State) (f : Resident → Resident) : (s.modCur f).dieQ = s.dieQ := rfl
@[simp] theorem State.modCur_running (s : State) (f : Resident → Resident) : (s.modCur f).running = s.running := rfl
@[simp] theorem State.modCur_residents (s : State) (f : Resident → Resident) : (s.modCur f).residents = s.residents := rfl
@[simp] theorem State.modCur_units (s : State) (f : Resident → Resident) : (s.modCur f).units = s.units := rfl
@[simp] theorem State.modCur_barriers (s : State) (f : Resident → Resident) : (s.modCur f).barriers = s.barriers := rfl
@[simp] theorem State.modCur_contexts (s : State) (f : Resident → Resident) : (s.modCur f).contexts = s.contexts := rfl
@[simp] theorem State.modCur_counters (s : State) (f : Resident → Resident) : (s.modCur f).counters = s.counters := rfl
@[simp] theorem State.modCur_evictions (s : State) (f : Resident → Resident) : (s.modCur f).evictions = s.evictions := rfl
@[simp] theorem State.modCur_failedSlices (s : State) (f : Resident → Resident) : (s.modCur f).failedSlices = s.failedSlices := rfl
@[simp] theorem State.modCur_failedChannels (s : State) (f : Resident → Resident) : (s.modCur f).failedChannels = s.failedChannels := rfl
@[simp] theorem State.modCur_failedUnits (s : State) (f : Resident → Resident) : (s.modCur f).failedUnits = s.failedUnits := rfl
@[simp] theorem State.modCur_testFails (s : State) (f : Resident → Resident) : (s.modCur f).testFails = s.testFails := rfl
@[simp] theorem State.modCur_badLinks (s : State) (f : Resident → Resident) : (s.modCur f).badLinks = s.badLinks := rfl
@[simp] theorem State.modCur_rota (s : State) (f : Resident → Resident) : (s.modCur f).rota = s.rota := rfl
@[simp] theorem State.modCur_host (s : State) (f : Resident → Resident) : (s.modCur f).host = s.host := rfl
@[simp] theorem State.modCur_stage (s : State) (f : Resident → Resident) : (s.modCur f).stage = s.stage := rfl
@[simp] theorem State.modCur_power (s : State) (f : Resident → Resident) : (s.modCur f).power = s.power := rfl
@[simp] theorem State.modCur_starts (s : State) (f : Resident → Resident) : (s.modCur f).starts = s.starts := rfl
@[simp] theorem State.modCur_fwVersion (s : State) (f : Resident → Resident) : (s.modCur f).fwVersion = s.fwVersion := rfl
@[simp] theorem State.modCur_fwDigest (s : State) (f : Resident → Resident) : (s.modCur f).fwDigest = s.fwDigest := rfl
@[simp] theorem State.modCur_cfgDigest (s : State) (f : Resident → Resident) : (s.modCur f).cfgDigest = s.cfgDigest := rfl
@[simp] theorem State.modCur_samplers (s : State) (f : Resident → Resident) : (s.modCur f).samplers = s.samplers := rfl
@[simp] theorem State.modCur_peerGroups (s : State) (f : Resident → Resident) : (s.modCur f).peerGroups = s.peerGroups := rfl
@[simp] theorem State.modCur_links (s : State) (f : Resident → Resident) : (s.modCur f).links = s.links := rfl
@[simp] theorem State.modCur_errs (s : State) (f : Resident → Resident) : (s.modCur f).errs = s.errs := rfl
@[simp] theorem State.modCur_regErrs (s : State) (f : Resident → Resident) : (s.modCur f).regErrs = s.regErrs := rfl
@[simp] theorem State.modCur_agenda (s : State) (f : Resident → Resident) : (s.modCur f).agenda = s.agenda := rfl
@[simp] theorem State.modCur_oracle (s : State) (f : Resident → Resident) : (s.modCur f).oracle = s.oracle := rfl
@[simp] theorem State.modCur_iss (s : State) (f : Resident → Resident) : (s.modCur f).iss = s.iss.map fun q => { q with res := f q.res } := rfl
@[simp] theorem State.modCur_fresh (s : State) (f : Resident → Resident) : (s.modCur f).fresh = s.fresh := rfl
@[simp] theorem State.modCur_nextId (s : State) (f : Resident → Resident) : (s.modCur f).nextId = s.nextId := rfl

/-! ### `modUnit` -/

@[simp] theorem State.modUnit_mem (s : State) (uid core : Nat) (f : Unit44 → Unit44) : (s.modUnit uid core f).mem = s.mem := rfl
@[simp] theorem State.modUnit_hbmPoison (s : State) (uid core : Nat) (f : Unit44 → Unit44) : (s.modUnit uid core f).hbmPoison = s.hbmPoison := rfl
@[simp] theorem State.modUnit_l2Poison (s : State) (uid core : Nat) (f : Unit44 → Unit44) : (s.modUnit uid core f).l2Poison = s.l2Poison := rfl
@[simp] theorem State.modUnit_l2 (s : State) (uid core : Nat) (f : Unit44 → Unit44) : (s.modUnit uid core f).l2 = s.l2 := rfl
@[simp] theorem State.modUnit_timebase (s : State) (uid core : Nat) (f : Unit44 → Unit44) : (s.modUnit uid core f).timebase = s.timebase := rfl
@[simp] theorem State.modUnit_cores (s : State) (uid core : Nat) (f : Unit44 → Unit44) : (s.modUnit uid core f).cores = s.cores := rfl
@[simp] theorem State.modUnit_hamlets (s : State) (uid core : Nat) (f : Unit44 → Unit44) : (s.modUnit uid core f).hamlets = s.hamlets := rfl
@[simp] theorem State.modUnit_dieQ (s : State) (uid core : Nat) (f : Unit44 → Unit44) : (s.modUnit uid core f).dieQ = s.dieQ := rfl
@[simp] theorem State.modUnit_running (s : State) (uid core : Nat) (f : Unit44 → Unit44) : (s.modUnit uid core f).running = s.running := rfl
@[simp] theorem State.modUnit_residents (s : State) (uid core : Nat) (f : Unit44 → Unit44) : (s.modUnit uid core f).residents = s.residents := rfl
@[simp] theorem State.modUnit_units (s : State) (uid core : Nat) (f : Unit44 → Unit44) : (s.modUnit uid core f).units = updIf (fun u => u.uid == uid && u.core == core) f s.units := rfl
@[simp] theorem State.modUnit_barriers (s : State) (uid core : Nat) (f : Unit44 → Unit44) : (s.modUnit uid core f).barriers = s.barriers := rfl
@[simp] theorem State.modUnit_contexts (s : State) (uid core : Nat) (f : Unit44 → Unit44) : (s.modUnit uid core f).contexts = s.contexts := rfl
@[simp] theorem State.modUnit_counters (s : State) (uid core : Nat) (f : Unit44 → Unit44) : (s.modUnit uid core f).counters = s.counters := rfl
@[simp] theorem State.modUnit_evictions (s : State) (uid core : Nat) (f : Unit44 → Unit44) : (s.modUnit uid core f).evictions = s.evictions := rfl
@[simp] theorem State.modUnit_failedSlices (s : State) (uid core : Nat) (f : Unit44 → Unit44) : (s.modUnit uid core f).failedSlices = s.failedSlices := rfl
@[simp] theorem State.modUnit_failedChannels (s : State) (uid core : Nat) (f : Unit44 → Unit44) : (s.modUnit uid core f).failedChannels = s.failedChannels := rfl
@[simp] theorem State.modUnit_failedUnits (s : State) (uid core : Nat) (f : Unit44 → Unit44) : (s.modUnit uid core f).failedUnits = s.failedUnits := rfl
@[simp] theorem State.modUnit_testFails (s : State) (uid core : Nat) (f : Unit44 → Unit44) : (s.modUnit uid core f).testFails = s.testFails := rfl
@[simp] theorem State.modUnit_badLinks (s : State) (uid core : Nat) (f : Unit44 → Unit44) : (s.modUnit uid core f).badLinks = s.badLinks := rfl
@[simp] theorem State.modUnit_rota (s : State) (uid core : Nat) (f : Unit44 → Unit44) : (s.modUnit uid core f).rota = s.rota := rfl
@[simp] theorem State.modUnit_host (s : State) (uid core : Nat) (f : Unit44 → Unit44) : (s.modUnit uid core f).host = s.host := rfl
@[simp] theorem State.modUnit_stage (s : State) (uid core : Nat) (f : Unit44 → Unit44) : (s.modUnit uid core f).stage = s.stage := rfl
@[simp] theorem State.modUnit_power (s : State) (uid core : Nat) (f : Unit44 → Unit44) : (s.modUnit uid core f).power = s.power := rfl
@[simp] theorem State.modUnit_starts (s : State) (uid core : Nat) (f : Unit44 → Unit44) : (s.modUnit uid core f).starts = s.starts := rfl
@[simp] theorem State.modUnit_fwVersion (s : State) (uid core : Nat) (f : Unit44 → Unit44) : (s.modUnit uid core f).fwVersion = s.fwVersion := rfl
@[simp] theorem State.modUnit_fwDigest (s : State) (uid core : Nat) (f : Unit44 → Unit44) : (s.modUnit uid core f).fwDigest = s.fwDigest := rfl
@[simp] theorem State.modUnit_cfgDigest (s : State) (uid core : Nat) (f : Unit44 → Unit44) : (s.modUnit uid core f).cfgDigest = s.cfgDigest := rfl
@[simp] theorem State.modUnit_samplers (s : State) (uid core : Nat) (f : Unit44 → Unit44) : (s.modUnit uid core f).samplers = s.samplers := rfl
@[simp] theorem State.modUnit_peerGroups (s : State) (uid core : Nat) (f : Unit44 → Unit44) : (s.modUnit uid core f).peerGroups = s.peerGroups := rfl
@[simp] theorem State.modUnit_links (s : State) (uid core : Nat) (f : Unit44 → Unit44) : (s.modUnit uid core f).links = s.links := rfl
@[simp] theorem State.modUnit_errs (s : State) (uid core : Nat) (f : Unit44 → Unit44) : (s.modUnit uid core f).errs = s.errs := rfl
@[simp] theorem State.modUnit_regErrs (s : State) (uid core : Nat) (f : Unit44 → Unit44) : (s.modUnit uid core f).regErrs = s.regErrs := rfl
@[simp] theorem State.modUnit_agenda (s : State) (uid core : Nat) (f : Unit44 → Unit44) : (s.modUnit uid core f).agenda = s.agenda := rfl
@[simp] theorem State.modUnit_oracle (s : State) (uid core : Nat) (f : Unit44 → Unit44) : (s.modUnit uid core f).oracle = s.oracle := rfl
@[simp] theorem State.modUnit_iss (s : State) (uid core : Nat) (f : Unit44 → Unit44) : (s.modUnit uid core f).iss = s.iss := rfl
@[simp] theorem State.modUnit_fresh (s : State) (uid core : Nat) (f : Unit44 → Unit44) : (s.modUnit uid core f).fresh = s.fresh := rfl
@[simp] theorem State.modUnit_nextId (s : State) (uid core : Nat) (f : Unit44 → Unit44) : (s.modUnit uid core f).nextId = s.nextId := rfl

/-! ### `modCtx` -/

@[simp] theorem State.modCtx_mem (s : State) (n : Nat) (f : Context → Context) : (s.modCtx n f).mem = s.mem := rfl
@[simp] theorem State.modCtx_hbmPoison (s : State) (n : Nat) (f : Context → Context) : (s.modCtx n f).hbmPoison = s.hbmPoison := rfl
@[simp] theorem State.modCtx_l2Poison (s : State) (n : Nat) (f : Context → Context) : (s.modCtx n f).l2Poison = s.l2Poison := rfl
@[simp] theorem State.modCtx_l2 (s : State) (n : Nat) (f : Context → Context) : (s.modCtx n f).l2 = s.l2 := rfl
@[simp] theorem State.modCtx_timebase (s : State) (n : Nat) (f : Context → Context) : (s.modCtx n f).timebase = s.timebase := rfl
@[simp] theorem State.modCtx_cores (s : State) (n : Nat) (f : Context → Context) : (s.modCtx n f).cores = s.cores := rfl
@[simp] theorem State.modCtx_hamlets (s : State) (n : Nat) (f : Context → Context) : (s.modCtx n f).hamlets = s.hamlets := rfl
@[simp] theorem State.modCtx_dieQ (s : State) (n : Nat) (f : Context → Context) : (s.modCtx n f).dieQ = s.dieQ := rfl
@[simp] theorem State.modCtx_running (s : State) (n : Nat) (f : Context → Context) : (s.modCtx n f).running = s.running := rfl
@[simp] theorem State.modCtx_residents (s : State) (n : Nat) (f : Context → Context) : (s.modCtx n f).residents = s.residents := rfl
@[simp] theorem State.modCtx_units (s : State) (n : Nat) (f : Context → Context) : (s.modCtx n f).units = s.units := rfl
@[simp] theorem State.modCtx_barriers (s : State) (n : Nat) (f : Context → Context) : (s.modCtx n f).barriers = s.barriers := rfl
@[simp] theorem State.modCtx_contexts (s : State) (n : Nat) (f : Context → Context) : (s.modCtx n f).contexts = updIf (fun c => c.num == n) f s.contexts := rfl
@[simp] theorem State.modCtx_counters (s : State) (n : Nat) (f : Context → Context) : (s.modCtx n f).counters = s.counters := rfl
@[simp] theorem State.modCtx_evictions (s : State) (n : Nat) (f : Context → Context) : (s.modCtx n f).evictions = s.evictions := rfl
@[simp] theorem State.modCtx_failedSlices (s : State) (n : Nat) (f : Context → Context) : (s.modCtx n f).failedSlices = s.failedSlices := rfl
@[simp] theorem State.modCtx_failedChannels (s : State) (n : Nat) (f : Context → Context) : (s.modCtx n f).failedChannels = s.failedChannels := rfl
@[simp] theorem State.modCtx_failedUnits (s : State) (n : Nat) (f : Context → Context) : (s.modCtx n f).failedUnits = s.failedUnits := rfl
@[simp] theorem State.modCtx_testFails (s : State) (n : Nat) (f : Context → Context) : (s.modCtx n f).testFails = s.testFails := rfl
@[simp] theorem State.modCtx_badLinks (s : State) (n : Nat) (f : Context → Context) : (s.modCtx n f).badLinks = s.badLinks := rfl
@[simp] theorem State.modCtx_rota (s : State) (n : Nat) (f : Context → Context) : (s.modCtx n f).rota = s.rota := rfl
@[simp] theorem State.modCtx_host (s : State) (n : Nat) (f : Context → Context) : (s.modCtx n f).host = s.host := rfl
@[simp] theorem State.modCtx_stage (s : State) (n : Nat) (f : Context → Context) : (s.modCtx n f).stage = s.stage := rfl
@[simp] theorem State.modCtx_power (s : State) (n : Nat) (f : Context → Context) : (s.modCtx n f).power = s.power := rfl
@[simp] theorem State.modCtx_starts (s : State) (n : Nat) (f : Context → Context) : (s.modCtx n f).starts = s.starts := rfl
@[simp] theorem State.modCtx_fwVersion (s : State) (n : Nat) (f : Context → Context) : (s.modCtx n f).fwVersion = s.fwVersion := rfl
@[simp] theorem State.modCtx_fwDigest (s : State) (n : Nat) (f : Context → Context) : (s.modCtx n f).fwDigest = s.fwDigest := rfl
@[simp] theorem State.modCtx_cfgDigest (s : State) (n : Nat) (f : Context → Context) : (s.modCtx n f).cfgDigest = s.cfgDigest := rfl
@[simp] theorem State.modCtx_samplers (s : State) (n : Nat) (f : Context → Context) : (s.modCtx n f).samplers = s.samplers := rfl
@[simp] theorem State.modCtx_peerGroups (s : State) (n : Nat) (f : Context → Context) : (s.modCtx n f).peerGroups = s.peerGroups := rfl
@[simp] theorem State.modCtx_links (s : State) (n : Nat) (f : Context → Context) : (s.modCtx n f).links = s.links := rfl
@[simp] theorem State.modCtx_errs (s : State) (n : Nat) (f : Context → Context) : (s.modCtx n f).errs = s.errs := rfl
@[simp] theorem State.modCtx_regErrs (s : State) (n : Nat) (f : Context → Context) : (s.modCtx n f).regErrs = s.regErrs := rfl
@[simp] theorem State.modCtx_agenda (s : State) (n : Nat) (f : Context → Context) : (s.modCtx n f).agenda = s.agenda := rfl
@[simp] theorem State.modCtx_oracle (s : State) (n : Nat) (f : Context → Context) : (s.modCtx n f).oracle = s.oracle := rfl
@[simp] theorem State.modCtx_iss (s : State) (n : Nat) (f : Context → Context) : (s.modCtx n f).iss = s.iss := rfl
@[simp] theorem State.modCtx_fresh (s : State) (n : Nat) (f : Context → Context) : (s.modCtx n f).fresh = s.fresh := rfl
@[simp] theorem State.modCtx_nextId (s : State) (n : Nat) (f : Context → Context) : (s.modCtx n f).nextId = s.nextId := rfl

/-! ### `modHost` -/

@[simp] theorem State.modHost_mem (s : State) (f : HostRegs → HostRegs) : (s.modHost f).mem = s.mem := rfl
@[simp] theorem State.modHost_hbmPoison (s : State) (f : HostRegs → HostRegs) : (s.modHost f).hbmPoison = s.hbmPoison := rfl
@[simp] theorem State.modHost_l2Poison (s : State) (f : HostRegs → HostRegs) : (s.modHost f).l2Poison = s.l2Poison := rfl
@[simp] theorem State.modHost_l2 (s : State) (f : HostRegs → HostRegs) : (s.modHost f).l2 = s.l2 := rfl
@[simp] theorem State.modHost_timebase (s : State) (f : HostRegs → HostRegs) : (s.modHost f).timebase = s.timebase := rfl
@[simp] theorem State.modHost_cores (s : State) (f : HostRegs → HostRegs) : (s.modHost f).cores = s.cores := rfl
@[simp] theorem State.modHost_hamlets (s : State) (f : HostRegs → HostRegs) : (s.modHost f).hamlets = s.hamlets := rfl
@[simp] theorem State.modHost_dieQ (s : State) (f : HostRegs → HostRegs) : (s.modHost f).dieQ = s.dieQ := rfl
@[simp] theorem State.modHost_running (s : State) (f : HostRegs → HostRegs) : (s.modHost f).running = s.running := rfl
@[simp] theorem State.modHost_residents (s : State) (f : HostRegs → HostRegs) : (s.modHost f).residents = s.residents := rfl
@[simp] theorem State.modHost_units (s : State) (f : HostRegs → HostRegs) : (s.modHost f).units = s.units := rfl
@[simp] theorem State.modHost_barriers (s : State) (f : HostRegs → HostRegs) : (s.modHost f).barriers = s.barriers := rfl
@[simp] theorem State.modHost_contexts (s : State) (f : HostRegs → HostRegs) : (s.modHost f).contexts = s.contexts := rfl
@[simp] theorem State.modHost_counters (s : State) (f : HostRegs → HostRegs) : (s.modHost f).counters = s.counters := rfl
@[simp] theorem State.modHost_evictions (s : State) (f : HostRegs → HostRegs) : (s.modHost f).evictions = s.evictions := rfl
@[simp] theorem State.modHost_failedSlices (s : State) (f : HostRegs → HostRegs) : (s.modHost f).failedSlices = s.failedSlices := rfl
@[simp] theorem State.modHost_failedChannels (s : State) (f : HostRegs → HostRegs) : (s.modHost f).failedChannels = s.failedChannels := rfl
@[simp] theorem State.modHost_failedUnits (s : State) (f : HostRegs → HostRegs) : (s.modHost f).failedUnits = s.failedUnits := rfl
@[simp] theorem State.modHost_testFails (s : State) (f : HostRegs → HostRegs) : (s.modHost f).testFails = s.testFails := rfl
@[simp] theorem State.modHost_badLinks (s : State) (f : HostRegs → HostRegs) : (s.modHost f).badLinks = s.badLinks := rfl
@[simp] theorem State.modHost_rota (s : State) (f : HostRegs → HostRegs) : (s.modHost f).rota = s.rota := rfl
@[simp] theorem State.modHost_host (s : State) (f : HostRegs → HostRegs) : (s.modHost f).host = f s.host := rfl
@[simp] theorem State.modHost_stage (s : State) (f : HostRegs → HostRegs) : (s.modHost f).stage = s.stage := rfl
@[simp] theorem State.modHost_power (s : State) (f : HostRegs → HostRegs) : (s.modHost f).power = s.power := rfl
@[simp] theorem State.modHost_starts (s : State) (f : HostRegs → HostRegs) : (s.modHost f).starts = s.starts := rfl
@[simp] theorem State.modHost_fwVersion (s : State) (f : HostRegs → HostRegs) : (s.modHost f).fwVersion = s.fwVersion := rfl
@[simp] theorem State.modHost_fwDigest (s : State) (f : HostRegs → HostRegs) : (s.modHost f).fwDigest = s.fwDigest := rfl
@[simp] theorem State.modHost_cfgDigest (s : State) (f : HostRegs → HostRegs) : (s.modHost f).cfgDigest = s.cfgDigest := rfl
@[simp] theorem State.modHost_samplers (s : State) (f : HostRegs → HostRegs) : (s.modHost f).samplers = s.samplers := rfl
@[simp] theorem State.modHost_peerGroups (s : State) (f : HostRegs → HostRegs) : (s.modHost f).peerGroups = s.peerGroups := rfl
@[simp] theorem State.modHost_links (s : State) (f : HostRegs → HostRegs) : (s.modHost f).links = s.links := rfl
@[simp] theorem State.modHost_errs (s : State) (f : HostRegs → HostRegs) : (s.modHost f).errs = s.errs := rfl
@[simp] theorem State.modHost_regErrs (s : State) (f : HostRegs → HostRegs) : (s.modHost f).regErrs = s.regErrs := rfl
@[simp] theorem State.modHost_agenda (s : State) (f : HostRegs → HostRegs) : (s.modHost f).agenda = s.agenda := rfl
@[simp] theorem State.modHost_oracle (s : State) (f : HostRegs → HostRegs) : (s.modHost f).oracle = s.oracle := rfl
@[simp] theorem State.modHost_iss (s : State) (f : HostRegs → HostRegs) : (s.modHost f).iss = s.iss := rfl
@[simp] theorem State.modHost_fresh (s : State) (f : HostRegs → HostRegs) : (s.modHost f).fresh = s.fresh := rfl
@[simp] theorem State.modHost_nextId (s : State) (f : HostRegs → HostRegs) : (s.modHost f).nextId = s.nextId := rfl

/-! ### `msix` -/

@[simp] theorem State.msix_mem (s : State) (v : Nat) : (s.msix v).mem = s.mem := rfl
@[simp] theorem State.msix_hbmPoison (s : State) (v : Nat) : (s.msix v).hbmPoison = s.hbmPoison := rfl
@[simp] theorem State.msix_l2Poison (s : State) (v : Nat) : (s.msix v).l2Poison = s.l2Poison := rfl
@[simp] theorem State.msix_l2 (s : State) (v : Nat) : (s.msix v).l2 = s.l2 := rfl
@[simp] theorem State.msix_timebase (s : State) (v : Nat) : (s.msix v).timebase = s.timebase := rfl
@[simp] theorem State.msix_cores (s : State) (v : Nat) : (s.msix v).cores = s.cores := rfl
@[simp] theorem State.msix_hamlets (s : State) (v : Nat) : (s.msix v).hamlets = s.hamlets := rfl
@[simp] theorem State.msix_dieQ (s : State) (v : Nat) : (s.msix v).dieQ = s.dieQ := rfl
@[simp] theorem State.msix_running (s : State) (v : Nat) : (s.msix v).running = s.running := rfl
@[simp] theorem State.msix_residents (s : State) (v : Nat) : (s.msix v).residents = s.residents := rfl
@[simp] theorem State.msix_units (s : State) (v : Nat) : (s.msix v).units = s.units := rfl
@[simp] theorem State.msix_barriers (s : State) (v : Nat) : (s.msix v).barriers = s.barriers := rfl
@[simp] theorem State.msix_contexts (s : State) (v : Nat) : (s.msix v).contexts = s.contexts := rfl
@[simp] theorem State.msix_counters (s : State) (v : Nat) : (s.msix v).counters = s.counters := rfl
@[simp] theorem State.msix_evictions (s : State) (v : Nat) : (s.msix v).evictions = s.evictions := rfl
@[simp] theorem State.msix_failedSlices (s : State) (v : Nat) : (s.msix v).failedSlices = s.failedSlices := rfl
@[simp] theorem State.msix_failedChannels (s : State) (v : Nat) : (s.msix v).failedChannels = s.failedChannels := rfl
@[simp] theorem State.msix_failedUnits (s : State) (v : Nat) : (s.msix v).failedUnits = s.failedUnits := rfl
@[simp] theorem State.msix_testFails (s : State) (v : Nat) : (s.msix v).testFails = s.testFails := rfl
@[simp] theorem State.msix_badLinks (s : State) (v : Nat) : (s.msix v).badLinks = s.badLinks := rfl
@[simp] theorem State.msix_rota (s : State) (v : Nat) : (s.msix v).rota = s.rota := rfl
@[simp] theorem State.msix_host (s : State) (v : Nat) : (s.msix v).host = { s.host with msix := s.host.msix ++ [v] } := rfl
@[simp] theorem State.msix_stage (s : State) (v : Nat) : (s.msix v).stage = s.stage := rfl
@[simp] theorem State.msix_power (s : State) (v : Nat) : (s.msix v).power = s.power := rfl
@[simp] theorem State.msix_starts (s : State) (v : Nat) : (s.msix v).starts = s.starts := rfl
@[simp] theorem State.msix_fwVersion (s : State) (v : Nat) : (s.msix v).fwVersion = s.fwVersion := rfl
@[simp] theorem State.msix_fwDigest (s : State) (v : Nat) : (s.msix v).fwDigest = s.fwDigest := rfl
@[simp] theorem State.msix_cfgDigest (s : State) (v : Nat) : (s.msix v).cfgDigest = s.cfgDigest := rfl
@[simp] theorem State.msix_samplers (s : State) (v : Nat) : (s.msix v).samplers = s.samplers := rfl
@[simp] theorem State.msix_peerGroups (s : State) (v : Nat) : (s.msix v).peerGroups = s.peerGroups := rfl
@[simp] theorem State.msix_links (s : State) (v : Nat) : (s.msix v).links = s.links := rfl
@[simp] theorem State.msix_errs (s : State) (v : Nat) : (s.msix v).errs = s.errs := rfl
@[simp] theorem State.msix_regErrs (s : State) (v : Nat) : (s.msix v).regErrs = s.regErrs := rfl
@[simp] theorem State.msix_agenda (s : State) (v : Nat) : (s.msix v).agenda = s.agenda := rfl
@[simp] theorem State.msix_oracle (s : State) (v : Nat) : (s.msix v).oracle = s.oracle := rfl
@[simp] theorem State.msix_iss (s : State) (v : Nat) : (s.msix v).iss = s.iss := rfl
@[simp] theorem State.msix_fresh (s : State) (v : Nat) : (s.msix v).fresh = s.fresh := rfl
@[simp] theorem State.msix_nextId (s : State) (v : Nat) : (s.msix v).nextId = s.nextId := rfl

/-! ### `countBy` -/

@[simp] theorem State.countBy_mem (s : State) (t k n : Nat) : (s.countBy t k n).mem = s.mem := rfl
@[simp] theorem State.countBy_hbmPoison (s : State) (t k n : Nat) : (s.countBy t k n).hbmPoison = s.hbmPoison := rfl
@[simp] theorem State.countBy_l2Poison (s : State) (t k n : Nat) : (s.countBy t k n).l2Poison = s.l2Poison := rfl
@[simp] theorem State.countBy_l2 (s : State) (t k n : Nat) : (s.countBy t k n).l2 = s.l2 := rfl
@[simp] theorem State.countBy_timebase (s : State) (t k n : Nat) : (s.countBy t k n).timebase = s.timebase := rfl
@[simp] theorem State.countBy_cores (s : State) (t k n : Nat) : (s.countBy t k n).cores = s.cores := rfl
@[simp] theorem State.countBy_hamlets (s : State) (t k n : Nat) : (s.countBy t k n).hamlets = s.hamlets := rfl
@[simp] theorem State.countBy_dieQ (s : State) (t k n : Nat) : (s.countBy t k n).dieQ = s.dieQ := rfl
@[simp] theorem State.countBy_running (s : State) (t k n : Nat) : (s.countBy t k n).running = s.running := rfl
@[simp] theorem State.countBy_residents (s : State) (t k n : Nat) : (s.countBy t k n).residents = s.residents := rfl
@[simp] theorem State.countBy_units (s : State) (t k n : Nat) : (s.countBy t k n).units = s.units := rfl
@[simp] theorem State.countBy_barriers (s : State) (t k n : Nat) : (s.countBy t k n).barriers = s.barriers := rfl
@[simp] theorem State.countBy_contexts (s : State) (t k n : Nat) : (s.countBy t k n).contexts = s.contexts := rfl
@[simp] theorem State.countBy_counters (s : State) (t k n : Nat) : (s.countBy t k n).counters = modAt s.counters t fun cs => modAt cs k fun x => (x + n) % 2 ^ 64 := rfl
@[simp] theorem State.countBy_evictions (s : State) (t k n : Nat) : (s.countBy t k n).evictions = s.evictions := rfl
@[simp] theorem State.countBy_failedSlices (s : State) (t k n : Nat) : (s.countBy t k n).failedSlices = s.failedSlices := rfl
@[simp] theorem State.countBy_failedChannels (s : State) (t k n : Nat) : (s.countBy t k n).failedChannels = s.failedChannels := rfl
@[simp] theorem State.countBy_failedUnits (s : State) (t k n : Nat) : (s.countBy t k n).failedUnits = s.failedUnits := rfl
@[simp] theorem State.countBy_testFails (s : State) (t k n : Nat) : (s.countBy t k n).testFails = s.testFails := rfl
@[simp] theorem State.countBy_badLinks (s : State) (t k n : Nat) : (s.countBy t k n).badLinks = s.badLinks := rfl
@[simp] theorem State.countBy_rota (s : State) (t k n : Nat) : (s.countBy t k n).rota = s.rota := rfl
@[simp] theorem State.countBy_host (s : State) (t k n : Nat) : (s.countBy t k n).host = s.host := rfl
@[simp] theorem State.countBy_stage (s : State) (t k n : Nat) : (s.countBy t k n).stage = s.stage := rfl
@[simp] theorem State.countBy_power (s : State) (t k n : Nat) : (s.countBy t k n).power = s.power := rfl
@[simp] theorem State.countBy_starts (s : State) (t k n : Nat) : (s.countBy t k n).starts = s.starts := rfl
@[simp] theorem State.countBy_fwVersion (s : State) (t k n : Nat) : (s.countBy t k n).fwVersion = s.fwVersion := rfl
@[simp] theorem State.countBy_fwDigest (s : State) (t k n : Nat) : (s.countBy t k n).fwDigest = s.fwDigest := rfl
@[simp] theorem State.countBy_cfgDigest (s : State) (t k n : Nat) : (s.countBy t k n).cfgDigest = s.cfgDigest := rfl
@[simp] theorem State.countBy_samplers (s : State) (t k n : Nat) : (s.countBy t k n).samplers = s.samplers := rfl
@[simp] theorem State.countBy_peerGroups (s : State) (t k n : Nat) : (s.countBy t k n).peerGroups = s.peerGroups := rfl
@[simp] theorem State.countBy_links (s : State) (t k n : Nat) : (s.countBy t k n).links = s.links := rfl
@[simp] theorem State.countBy_errs (s : State) (t k n : Nat) : (s.countBy t k n).errs = s.errs := rfl
@[simp] theorem State.countBy_regErrs (s : State) (t k n : Nat) : (s.countBy t k n).regErrs = s.regErrs := rfl
@[simp] theorem State.countBy_agenda (s : State) (t k n : Nat) : (s.countBy t k n).agenda = s.agenda := rfl
@[simp] theorem State.countBy_oracle (s : State) (t k n : Nat) : (s.countBy t k n).oracle = s.oracle := rfl
@[simp] theorem State.countBy_iss (s : State) (t k n : Nat) : (s.countBy t k n).iss = s.iss := rfl
@[simp] theorem State.countBy_fresh (s : State) (t k n : Nat) : (s.countBy t k n).fresh = s.fresh := rfl
@[simp] theorem State.countBy_nextId (s : State) (t k n : Nat) : (s.countBy t k n).nextId = s.nextId := rfl

/-! ### `latch` -/

@[simp] theorem State.latch_mem (s : State) (q : Issue) : (s.latch q).mem = s.mem := rfl
@[simp] theorem State.latch_hbmPoison (s : State) (q : Issue) : (s.latch q).hbmPoison = s.hbmPoison := rfl
@[simp] theorem State.latch_l2Poison (s : State) (q : Issue) : (s.latch q).l2Poison = s.l2Poison := rfl
@[simp] theorem State.latch_l2 (s : State) (q : Issue) : (s.latch q).l2 = s.l2 := rfl
@[simp] theorem State.latch_timebase (s : State) (q : Issue) : (s.latch q).timebase = s.timebase := rfl
@[simp] theorem State.latch_cores (s : State) (q : Issue) : (s.latch q).cores = s.cores := rfl
@[simp] theorem State.latch_hamlets (s : State) (q : Issue) : (s.latch q).hamlets = s.hamlets := rfl
@[simp] theorem State.latch_dieQ (s : State) (q : Issue) : (s.latch q).dieQ = s.dieQ := rfl
@[simp] theorem State.latch_running (s : State) (q : Issue) : (s.latch q).running = s.running := rfl
@[simp] theorem State.latch_residents (s : State) (q : Issue) : (s.latch q).residents = s.residents.filter fun x => x.rid != q.res.rid := rfl
@[simp] theorem State.latch_units (s : State) (q : Issue) : (s.latch q).units = s.units := rfl
@[simp] theorem State.latch_barriers (s : State) (q : Issue) : (s.latch q).barriers = s.barriers := rfl
@[simp] theorem State.latch_contexts (s : State) (q : Issue) : (s.latch q).contexts = s.contexts := rfl
@[simp] theorem State.latch_counters (s : State) (q : Issue) : (s.latch q).counters = s.counters := rfl
@[simp] theorem State.latch_evictions (s : State) (q : Issue) : (s.latch q).evictions = s.evictions := rfl
@[simp] theorem State.latch_failedSlices (s : State) (q : Issue) : (s.latch q).failedSlices = s.failedSlices := rfl
@[simp] theorem State.latch_failedChannels (s : State) (q : Issue) : (s.latch q).failedChannels = s.failedChannels := rfl
@[simp] theorem State.latch_failedUnits (s : State) (q : Issue) : (s.latch q).failedUnits = s.failedUnits := rfl
@[simp] theorem State.latch_testFails (s : State) (q : Issue) : (s.latch q).testFails = s.testFails := rfl
@[simp] theorem State.latch_badLinks (s : State) (q : Issue) : (s.latch q).badLinks = s.badLinks := rfl
@[simp] theorem State.latch_rota (s : State) (q : Issue) : (s.latch q).rota = s.rota := rfl
@[simp] theorem State.latch_host (s : State) (q : Issue) : (s.latch q).host = s.host := rfl
@[simp] theorem State.latch_stage (s : State) (q : Issue) : (s.latch q).stage = s.stage := rfl
@[simp] theorem State.latch_power (s : State) (q : Issue) : (s.latch q).power = s.power := rfl
@[simp] theorem State.latch_starts (s : State) (q : Issue) : (s.latch q).starts = s.starts := rfl
@[simp] theorem State.latch_fwVersion (s : State) (q : Issue) : (s.latch q).fwVersion = s.fwVersion := rfl
@[simp] theorem State.latch_fwDigest (s : State) (q : Issue) : (s.latch q).fwDigest = s.fwDigest := rfl
@[simp] theorem State.latch_cfgDigest (s : State) (q : Issue) : (s.latch q).cfgDigest = s.cfgDigest := rfl
@[simp] theorem State.latch_samplers (s : State) (q : Issue) : (s.latch q).samplers = s.samplers := rfl
@[simp] theorem State.latch_peerGroups (s : State) (q : Issue) : (s.latch q).peerGroups = s.peerGroups := rfl
@[simp] theorem State.latch_links (s : State) (q : Issue) : (s.latch q).links = s.links := rfl
@[simp] theorem State.latch_errs (s : State) (q : Issue) : (s.latch q).errs = s.errs := rfl
@[simp] theorem State.latch_regErrs (s : State) (q : Issue) : (s.latch q).regErrs = s.regErrs := rfl
@[simp] theorem State.latch_agenda (s : State) (q : Issue) : (s.latch q).agenda = s.agenda := rfl
@[simp] theorem State.latch_oracle (s : State) (q : Issue) : (s.latch q).oracle = s.oracle := rfl
@[simp] theorem State.latch_iss (s : State) (q : Issue) : (s.latch q).iss = some q := rfl
@[simp] theorem State.latch_fresh (s : State) (q : Issue) : (s.latch q).fresh = s.fresh := rfl
@[simp] theorem State.latch_nextId (s : State) (q : Issue) : (s.latch q).nextId = s.nextId := rfl

/-! ### `setRes` -/

@[simp] theorem State.setRes_mem (s : State) (r : Resident) : (s.setRes r).mem = s.mem := rfl
@[simp] theorem State.setRes_hbmPoison (s : State) (r : Resident) : (s.setRes r).hbmPoison = s.hbmPoison := rfl
@[simp] theorem State.setRes_l2Poison (s : State) (r : Resident) : (s.setRes r).l2Poison = s.l2Poison := rfl
@[simp] theorem State.setRes_l2 (s : State) (r : Resident) : (s.setRes r).l2 = s.l2 := rfl
@[simp] theorem State.setRes_timebase (s : State) (r : Resident) : (s.setRes r).timebase = s.timebase := rfl
@[simp] theorem State.setRes_cores (s : State) (r : Resident) : (s.setRes r).cores = s.cores := rfl
@[simp] theorem State.setRes_hamlets (s : State) (r : Resident) : (s.setRes r).hamlets = s.hamlets := rfl
@[simp] theorem State.setRes_dieQ (s : State) (r : Resident) : (s.setRes r).dieQ = s.dieQ := rfl
@[simp] theorem State.setRes_running (s : State) (r : Resident) : (s.setRes r).running = s.running := rfl
@[simp] theorem State.setRes_residents (s : State) (r : Resident) : (s.setRes r).residents = s.residents.map fun x => if x.rid = r.rid then r else x := rfl
@[simp] theorem State.setRes_units (s : State) (r : Resident) : (s.setRes r).units = s.units := rfl
@[simp] theorem State.setRes_barriers (s : State) (r : Resident) : (s.setRes r).barriers = s.barriers := rfl
@[simp] theorem State.setRes_contexts (s : State) (r : Resident) : (s.setRes r).contexts = s.contexts := rfl
@[simp] theorem State.setRes_counters (s : State) (r : Resident) : (s.setRes r).counters = s.counters := rfl
@[simp] theorem State.setRes_evictions (s : State) (r : Resident) : (s.setRes r).evictions = s.evictions := rfl
@[simp] theorem State.setRes_failedSlices (s : State) (r : Resident) : (s.setRes r).failedSlices = s.failedSlices := rfl
@[simp] theorem State.setRes_failedChannels (s : State) (r : Resident) : (s.setRes r).failedChannels = s.failedChannels := rfl
@[simp] theorem State.setRes_failedUnits (s : State) (r : Resident) : (s.setRes r).failedUnits = s.failedUnits := rfl
@[simp] theorem State.setRes_testFails (s : State) (r : Resident) : (s.setRes r).testFails = s.testFails := rfl
@[simp] theorem State.setRes_badLinks (s : State) (r : Resident) : (s.setRes r).badLinks = s.badLinks := rfl
@[simp] theorem State.setRes_rota (s : State) (r : Resident) : (s.setRes r).rota = s.rota := rfl
@[simp] theorem State.setRes_host (s : State) (r : Resident) : (s.setRes r).host = s.host := rfl
@[simp] theorem State.setRes_stage (s : State) (r : Resident) : (s.setRes r).stage = s.stage := rfl
@[simp] theorem State.setRes_power (s : State) (r : Resident) : (s.setRes r).power = s.power := rfl
@[simp] theorem State.setRes_starts (s : State) (r : Resident) : (s.setRes r).starts = s.starts := rfl
@[simp] theorem State.setRes_fwVersion (s : State) (r : Resident) : (s.setRes r).fwVersion = s.fwVersion := rfl
@[simp] theorem State.setRes_fwDigest (s : State) (r : Resident) : (s.setRes r).fwDigest = s.fwDigest := rfl
@[simp] theorem State.setRes_cfgDigest (s : State) (r : Resident) : (s.setRes r).cfgDigest = s.cfgDigest := rfl
@[simp] theorem State.setRes_samplers (s : State) (r : Resident) : (s.setRes r).samplers = s.samplers := rfl
@[simp] theorem State.setRes_peerGroups (s : State) (r : Resident) : (s.setRes r).peerGroups = s.peerGroups := rfl
@[simp] theorem State.setRes_links (s : State) (r : Resident) : (s.setRes r).links = s.links := rfl
@[simp] theorem State.setRes_errs (s : State) (r : Resident) : (s.setRes r).errs = s.errs := rfl
@[simp] theorem State.setRes_regErrs (s : State) (r : Resident) : (s.setRes r).regErrs = s.regErrs := rfl
@[simp] theorem State.setRes_agenda (s : State) (r : Resident) : (s.setRes r).agenda = s.agenda := rfl
@[simp] theorem State.setRes_oracle (s : State) (r : Resident) : (s.setRes r).oracle = s.oracle := rfl
@[simp] theorem State.setRes_iss (s : State) (r : Resident) : (s.setRes r).iss = s.iss.map fun q => { q with res := if q.res.rid = r.rid then r else q.res } := rfl
@[simp] theorem State.setRes_fresh (s : State) (r : Resident) : (s.setRes r).fresh = s.fresh := rfl
@[simp] theorem State.setRes_nextId (s : State) (r : Resident) : (s.setRes r).nextId = s.nextId := rfl

/-! ### `nextHead` -/

@[simp] theorem State.nextHead_mem (s : State) : (s.nextHead).mem = s.mem := rfl
@[simp] theorem State.nextHead_hbmPoison (s : State) : (s.nextHead).hbmPoison = s.hbmPoison := rfl
@[simp] theorem State.nextHead_l2Poison (s : State) : (s.nextHead).l2Poison = s.l2Poison := rfl
@[simp] theorem State.nextHead_l2 (s : State) : (s.nextHead).l2 = s.l2 := rfl
@[simp] theorem State.nextHead_timebase (s : State) : (s.nextHead).timebase = s.timebase := rfl
@[simp] theorem State.nextHead_cores (s : State) : (s.nextHead).cores = s.cores := rfl
@[simp] theorem State.nextHead_hamlets (s : State) : (s.nextHead).hamlets = s.hamlets := rfl
@[simp] theorem State.nextHead_dieQ (s : State) : (s.nextHead).dieQ = s.dieQ := rfl
@[simp] theorem State.nextHead_running (s : State) : (s.nextHead).running = s.running := rfl
@[simp] theorem State.nextHead_residents (s : State) : (s.nextHead).residents = s.residents := rfl
@[simp] theorem State.nextHead_units (s : State) : (s.nextHead).units = s.units := rfl
@[simp] theorem State.nextHead_barriers (s : State) : (s.nextHead).barriers = s.barriers := rfl
@[simp] theorem State.nextHead_contexts (s : State) : (s.nextHead).contexts = s.contexts := rfl
@[simp] theorem State.nextHead_counters (s : State) : (s.nextHead).counters = s.counters := rfl
@[simp] theorem State.nextHead_evictions (s : State) : (s.nextHead).evictions = s.evictions := rfl
@[simp] theorem State.nextHead_failedSlices (s : State) : (s.nextHead).failedSlices = s.failedSlices := rfl
@[simp] theorem State.nextHead_failedChannels (s : State) : (s.nextHead).failedChannels = s.failedChannels := rfl
@[simp] theorem State.nextHead_failedUnits (s : State) : (s.nextHead).failedUnits = s.failedUnits := rfl
@[simp] theorem State.nextHead_testFails (s : State) : (s.nextHead).testFails = s.testFails := rfl
@[simp] theorem State.nextHead_badLinks (s : State) : (s.nextHead).badLinks = s.badLinks := rfl
@[simp] theorem State.nextHead_rota (s : State) : (s.nextHead).rota = s.rota := rfl
@[simp] theorem State.nextHead_host (s : State) : (s.nextHead).host = { s.host with cmdHead := (s.host.cmdHead + 1) % s.host.slots } := rfl
@[simp] theorem State.nextHead_stage (s : State) : (s.nextHead).stage = s.stage := rfl
@[simp] theorem State.nextHead_power (s : State) : (s.nextHead).power = s.power := rfl
@[simp] theorem State.nextHead_starts (s : State) : (s.nextHead).starts = s.starts := rfl
@[simp] theorem State.nextHead_fwVersion (s : State) : (s.nextHead).fwVersion = s.fwVersion := rfl
@[simp] theorem State.nextHead_fwDigest (s : State) : (s.nextHead).fwDigest = s.fwDigest := rfl
@[simp] theorem State.nextHead_cfgDigest (s : State) : (s.nextHead).cfgDigest = s.cfgDigest := rfl
@[simp] theorem State.nextHead_samplers (s : State) : (s.nextHead).samplers = s.samplers := rfl
@[simp] theorem State.nextHead_peerGroups (s : State) : (s.nextHead).peerGroups = s.peerGroups := rfl
@[simp] theorem State.nextHead_links (s : State) : (s.nextHead).links = s.links := rfl
@[simp] theorem State.nextHead_errs (s : State) : (s.nextHead).errs = s.errs := rfl
@[simp] theorem State.nextHead_regErrs (s : State) : (s.nextHead).regErrs = s.regErrs := rfl
@[simp] theorem State.nextHead_agenda (s : State) : (s.nextHead).agenda = s.agenda := rfl
@[simp] theorem State.nextHead_oracle (s : State) : (s.nextHead).oracle = s.oracle := rfl
@[simp] theorem State.nextHead_iss (s : State) : (s.nextHead).iss = s.iss := rfl
@[simp] theorem State.nextHead_fresh (s : State) : (s.nextHead).fresh = s.fresh := rfl
@[simp] theorem State.nextHead_nextId (s : State) : (s.nextHead).nextId = s.nextId := rfl

end Sys2Proof.Machine
end

