-- ==== Sys2Proof/Laws/Shared.lean ====
section
/-! SUPPORT. What the shared operations can do, each said once: `attemptAs`, `onceAs`, `once`, `takeTrap`, `trapNow`, writes of the device to
memory rings, and the latch. -/

namespace Sys2Proof.Machine

/-- Everything `attemptAs` can do: nothing without an issuing resident; record in the first pass; go on in the second; else a trap, a
hold, or the effect. -/
theorem State.attemptAs_cases (s : State) (name : Issue → Cause → Cause) (causes : List Cause) (held : Bool) (faults : List (Nat × Nat))
    (k : Issue → State → State) :
    (s.iss = none ∧ s.attemptAs name causes held faults k = s) ∨
    ∃ q, s.iss = some q ∧
      ((q.probe = true ∧ s.attemptAs name causes held faults k =
          { s with iss := some { q with raised := q.raised ++ causes.map (name q), held := q.held || held, faults := q.faults ++ faults } }) ∨
        (q.probe = false ∧ q.commit = true ∧ s.attemptAs name causes held faults k = k q s) ∨
        (q.probe = false ∧ q.commit = false ∧ ∃ c, dueCause (causes.map (name q)) (!faults.isEmpty) = some c ∧
          s.attemptAs name causes held faults k = s.trapNow c) ∨
        (q.probe = false ∧ q.commit = false ∧ dueCause (causes.map (name q)) (!faults.isEmpty) = none ∧ (held = true ∨ faults ≠ []) ∧
          s.attemptAs name causes held faults k = { s with iss := some { q with held := true, faults := faults } }) ∨
        (q.probe = false ∧ q.commit = false ∧ dueCause (causes.map (name q)) (!faults.isEmpty) = none ∧ held = false ∧ faults = [] ∧
          s.attemptAs name causes held faults k = k q s)) := by
  unfold State.attemptAs
  cases h : s.iss with
  | none => exact .inl ⟨rfl, rfl⟩
  | some q =>
    refine .inr ⟨q, rfl, ?_⟩
    cases hp : q.probe with
    | true => exact .inl ⟨rfl, by simp [hp]⟩
    | false =>
      cases hc : q.commit with
      | true => exact .inr (.inl ⟨rfl, rfl, by simp [hp, hc]⟩)
      | false =>
        cases hd : dueCause (causes.map (name q)) (!faults.isEmpty) with
        | some c => exact .inr (.inr (.inl ⟨rfl, rfl, c, rfl, by simp [hp, hc, hd]⟩))
        | none =>
          cases held with
          | true => exact .inr (.inr (.inr (.inl ⟨rfl, rfl, rfl, .inl rfl, by simp [hp, hc, hd]⟩)))
          | false =>
            cases faults with
            | nil => exact .inr (.inr (.inr (.inr ⟨rfl, rfl, rfl, rfl, rfl, by simp_all⟩)))
            | cons f fs => exact .inr (.inr (.inr (.inl ⟨rfl, rfl, rfl, .inr (by simp), by simp_all⟩)))

/-- `onceAs` on an instruction that is not taken and is legal: nothing. -/
theorem State.onceAs_untaken {s : State} {q : Issue} (h : s.Issues q) (name : Issue → Cause → Cause) {slots : List Nat} {p : Pred} {legal : Issue → Bool} {reads : List Nat}
    {causes : Issue → State → List Cause} {held : Issue → State → Bool} {k : Issue → State → State}
    (hl : (q.slotPlace slots && predOk q.res p && legal q) = true) (ht : q.taken p = false) :
    State.onceAs name s slots p legal reads causes held k = s := by
  unfold State.onceAs
  rw [h.1]
  simp only [hl, ht, Issue.illegalIf_of, Issue.scalarPoison, Bool.false_and, Bool.false_eq_true, if_false, List.append_nil]
  exact State.attemptAs_next h name _

theorem State.once_untaken {s : State} {q : Issue} (h : s.Issues q) {slots : List Nat} {p : Pred} {legal : Issue → Bool} {reads : List Nat}
    {causes : Issue → State → List Cause} {held : Issue → State → Bool} {k : Issue → State → State}
    (hl : (q.slotPlace slots && predOk q.res p && legal q) = true) (ht : q.taken p = false) :
    s.once slots p legal reads causes held k = s :=
  State.onceAs_untaken h Issue.named hl ht

/-- `onceAs` on an instruction that is taken, with clean sources, no cause and no hold: its effect. -/
theorem State.onceAs_taken {s : State} {q : Issue} (h : s.Issues q) (name : Issue → Cause → Cause) {slots : List Nat} {p : Pred} {legal : Issue → Bool} {reads : List Nat}
    {causes : Issue → State → List Cause} {held : Issue → State → Bool} {k : Issue → State → State}
    (hl : (q.slotPlace slots && predOk q.res p && legal q) = true) (ht : q.taken p = true)
    (hc : q.res.Clean (reads.map Src.s) [q.onceLane]) (hn : causes q s = []) (hh : held q s = false) :
    State.onceAs name s slots p legal reads causes held k = k q s := by
  unfold State.onceAs
  rw [h.1]
  simp only [hl, ht, Issue.illegalIf_of, Issue.scalarPoison, Resident.poisonCauses_clean hc, hn, hh, Bool.true_and, if_true,
    List.append_nil, ite_self]
  exact State.attemptAs_next h name _

theorem State.once_taken {s : State} {q : Issue} (h : s.Issues q) {slots : List Nat} {p : Pred} {legal : Issue → Bool} {reads : List Nat}
    {causes : Issue → State → List Cause} {held : Issue → State → Bool} {k : Issue → State → State}
    (hl : (q.slotPlace slots && predOk q.res p && legal q) = true) (ht : q.taken p = true)
    (hc : q.res.Clean (reads.map Src.s) [q.onceLane]) (hn : causes q s = []) (hh : held q s = false) :
    s.once slots p legal reads causes held k = k q s :=
  State.onceAs_taken h Issue.named hl ht hc hn hh

/-- Taking a trap: a double trap inside a handler or without one, which freezes the resident; else the handler is entered and the
state stays as it is. -/
theorem State.takeTrap_cases (s : State) (r : Resident) (c : Cause) (tpc hdr place : Nat) (ended : Bool) (point : TrapPoint) :
    (s.noHandler r c.code = true ∧ (s.takeTrap r c tpc hdr place ended point).1.stop = .doubleTrap ∧
      (s.takeTrap r c tpc hdr place ended point).1.regs = r.regs ∧
      ∃ w2 w3, (s.takeTrap r c tpc hdr place ended point).2 = s.hostEvent 16 r.launch.tenant r.launch.ctx w2 w3) ∨
    (∃ addr reeve emu, s.noHandler r c.code = false ∧ (s.ctxOf r).handler c.code = some (addr, reeve, emu) ∧
      (s.takeTrap r c tpc hdr place ended point).2 = s ∧
      (s.takeTrap r c tpc hdr place ended point).1.hdr = addr ∧ (s.takeTrap r c tpc hdr place ended point).1.place = 0 ∧
      (s.takeTrap r c tpc hdr place ended point).1.reeve = reeve ∧ (s.takeTrap r c tpc hdr place ended point).1.trap.inh = true ∧
      (s.takeTrap r c tpc hdr place ended point).1.trap.code = c.code ∧ (s.takeTrap r c tpc hdr place ended point).1.trap.tpc = tpc ∧
      (s.takeTrap r c tpc hdr place ended point).1.regs = r.regs ∧ (s.takeTrap r c tpc hdr place ended point).1.stop = r.stop) := by
  unfold State.takeTrap
  cases hi : r.trap.inh with
  | true => exact .inl ⟨by simp [State.noHandler, hi], by simp [State.doubleTrap], by simp [State.doubleTrap], _, _, by simp [State.doubleTrap]; rfl⟩
  | false =>
    cases hh : (s.ctxOf r).handler c.code with
    | none => exact .inl ⟨by simp [State.noHandler, hi, hh], by simp [State.doubleTrap], by simp [State.doubleTrap], _, _, by simp [State.doubleTrap]; rfl⟩
    | some x =>
      obtain ⟨addr, reeve, emu⟩ := x
      exact .inr ⟨addr, reeve, emu, by simp [State.noHandler, hi, hh], rfl, by simp [trapRegs]⟩

/-- What a device write may change: memory, whose canonical form it keeps, the poison marks and the host's memory. -/
def State.DeviceWrite (s t : State) : Prop :=
  ∃ m hp lp ws, t = { s with mem := m, hbmPoison := hp, l2Poison := lp, host := { s.host with hostWrites := ws } } ∧
    (Memory.wf s.mem = true → Memory.wf m = true)

theorem State.DeviceWrite.refl (s : State) : s.DeviceWrite s := ⟨_, _, _, _, rfl, id⟩

theorem State.DeviceWrite.trans {s t u : State} (h1 : s.DeviceWrite t) (h2 : t.DeviceWrite u) : s.DeviceWrite u := by
  obtain ⟨m, hp, lp, ws, rfl, hm⟩ := h1
  obtain ⟨m2, hp2, lp2, ws2, rfl, hm2⟩ := h2
  exact ⟨m2, hp2, lp2, ws2, rfl, fun h => hm2 (hm h)⟩

theorem State.pokeLine_frame (s : State) (slice pa : Nat) (bs : List Byte) : s.DeviceWrite (s.pokeLine slice pa bs) := by
  unfold State.pokeLine
  split
  · split
    · exact .refl s
    · exact ⟨_, _, _, s.host.hostWrites, rfl, Memory.wf_writeBytes _ _ _⟩
  · exact ⟨s.mem, s.hbmPoison, s.l2Poison, _, rfl, id⟩

/-- A write of the device: memory keeps its canonical form, and the cores, hamlets, counters, residents and the latch stay. -/
theorem State.pokeBytes_frame (s : State) (pa : Nat) (bs : List Byte) : s.DeviceWrite (s.pokeBytes pa bs) := by
  unfold State.pokeBytes State.pokeVia
  generalize pieces128 pa bs.length = ps
  suffices h : ∀ t, s.DeviceWrite t →
      s.DeviceWrite (ps.foldl (fun s p => s.pokeLine (hashSlice p.1) p.1 ((bs.drop (p.1 - pa)).take p.2)) t) from h s (.refl s)
  induction ps with
  | nil => exact fun t h => h
  | cons p ps ih => exact fun t h => ih _ (h.trans (State.pokeLine_frame _ _ _ _))

/-- The latch empties whatever goes back. -/
@[simp] theorem State.unlatch_iss (s : State) (f : Resident → Resident) : (s.unlatch f).iss = none := by
  unfold State.unlatch; split <;> simp_all

@[simp] theorem State.unlatch_mem (s : State) (f : Resident → Resident) : (s.unlatch f).mem = s.mem := by
  unfold State.unlatch; split <;> rfl

@[simp] theorem State.unlatch_cores (s : State) (f : Resident → Resident) : (s.unlatch f).cores = s.cores := by
  unfold State.unlatch; split <;> rfl

@[simp] theorem State.unlatch_hamlets (s : State) (f : Resident → Resident) : (s.unlatch f).hamlets = s.hamlets := by
  unfold State.unlatch; split <;> rfl

end Sys2Proof.Machine
end

