-- ==== Sys2Proof/Tests/Slice0.lean ====
section
/-! SUPPORT. The author's tests: well-formedness, decoding by words of the reference entries, worked examples of the spec on small
states, and for each statement states and operands that meet its hypotheses. -/

namespace Sys2Proof.Tests

open Sys2Proof Sys2Proof.Machine Sys2Proof.Claim

/-! ### Well-formedness: for each check a term it refuses -/

theorem test_wf_predicates : ([.nop (.reg 7 false), .nop (.gate 8), .join, .fold] : List Instr).map Instr.wf = [false, false, true, true] := by decide

theorem test_wf_specifiers : ([.mov .always (.v 1536) (.v 0), .mov .always (.v 0) (.v 1536), .mov .always (.o 8) (.v 0), .mov .always (.v 0) (.y 2),
    .mov .always (.s 128) (.v 0), .mov .always (.v 0) (.special 0x1F), .mov .always (.v 0) (.special 0x100), .mov .always (.v 0) (.p 7),
    .mov .always (.p 0) (.v 0), .fcmp .always (.p 7) (.v 0) (.v 1) .eq] : List Instr).all (fun i => !i.wf) = true := by decide

theorem test_wf_pairs : ([.iadd64 .always (.v 1) (.v 0) (.v 0) .zx, .iadd64 .always (.v 0) (.v 1) (.v 0) .zx, .iadd64 .always (.v 0) (.v 0) (.v 1) .pair,
    .lea .always (.v 0) (.o 0) (.v 0) 0 false, .lea .always (.v 0) (.v 0) (.v 0) 64 false, .ldG64 .always (.v 1) (.v 0) 0 0,
    .ldG32 .always (.v 0) (.o 0) 0 0, .ldSp32 .always (.v 0) (.o 0) 0, .stG64 .always (.v 1) (.v 0) 0, .brx .always 1, .callr .always 1 0,
    .ret .always 3] : List Instr).all (fun i => !i.wf) = true := by decide

theorem test_wf_codes : ([.wred .always (.v 0) (.v 1) (.imm 0) .add .u32, .fsqrt .always (.v 0) (.v 1) .f .rz,
    .fcvt .always (.v 0) (.v 1) .qt8 .fp32 .rne, .pand .always (.v 0) (.p 0) (.p 1) false false, .shfl .always (.s 0) (.v 0) (.imm 0) (.imm 0) .idx,
    .vote .always (.v 0) (.p 0) (.v 0) .any, .xmov .always (.v 0) (.v 0) 16, .xbc .always (.v 0) (.v 0) 16 (.imm 0), .mark .always 0,
    .loop .always 0 0 0, .ldo32 .always (.p 0) (.v 0) 0 0 .die] : List Instr).all (fun i => !i.wf) = true := by decide

theorem test_wf_engines : ([.cpy .always 0 0 1 false .s .s false, .cpy .always 1 0 0 false .g .s false, .cpyt .always 256 0 false false false,
    .cacc .always 0 0 0 false .g .g false .and .f32, .ccas .always 0 0 0 false .s false 1024, .cfill .always 1 0 false .g,
    .ccrc .always 0 1 0 false .s .g, .cred .always 1 0 0 false .add .f32, .jdec .always 1 false, .mma .always 256 0 (.imm 0 0) false 0 false,
    .mma .always 0 0 (.imm 32 0) false 0 false, .mma .always 0 0 (.regs 1) false 0 false, .mma .always 0 0 (.imm 0 0) false 64 false,
    .mzero .always 64, .acrd .always 0 (.imm 64) 0, .acwr .always 2048 (.imm 0) 0, .apatch .always 0 (.s 0) 1 0 .rep,
    .tset .always 256 0, .tset .always 0 1] : List Instr).all (fun i => !i.wf) = true := by decide

theorem test_wf_system : ([.spawn .always 1 0, .bar 8, .barv 0 (.v 0), .wset .always 8 0, .wset .always 0 2, .wclr .always 8,
    .csrr .always (.v 0) 0x10F, .csrw .always 0x10F (.s 0), .csrr .always (.p 0) 0, .tlbi .always (.page 1), .rget .always 0 16, .rgetW .always 128 0,
    .rput .always 16, .rdone .always 16, .wait .always 128, .arm .always (.v 0) (.imm 0) (.imm 0), .phase .always (.level 8),
    .carveWrite .always (.v 0), .rgcfgWrite .always 16 (.s 0), .wdctlWrite .always (.v 0), .clkRead .always (.p 0)] : List Instr).all
    (fun i => !i.wf) = true := by decide

theorem test_wf_events : ([.copyCommandStart 192 0 0, .faultRecordDeliver 24, .queueUnderflowMove false 192, .slackDonation 16, .rotaGo 2,
    .rotaStop 3, .registerWrite (2 ^ 26) 0, .linkDown 18, .illegalEncodingPath 0 32, .submit ⟨2 ^ 32, 0⟩ 0 0, .submit ⟨0, 0⟩ 0 2,
    .contextCreate ⟨0, 0⟩ 0 65536 0 0 0 0 0, .power ⟨0, 0⟩ 4, .halt ⟨0, 0⟩ 256, .credComplete 0 0 16 []] : List Instr).all
    (fun i => !i.wf) = true := by decide

/-! ### Decoding, by words of the reference entries and words assembled by hand from the formats (R283 to R289) -/

/-- The instruction of a 64-bit word. -/
def read (w : Nat) : Option Instr := decodeTableWord 64 w

def words_moves_integers : List (Nat × Instr) := [
  (0x011C000000000000, .nop .always),
  (0x021C01C018000000, .mov .always (.v 7) (.v 6)),
  (0x031E830000000404, .movi .always (.s 12) 1028),
  (0x041C00C00400B410, .sel .always (.v 3) (.v 1) (.v 2) (.p 4) false),
  (0x051C022840004010, .lea .always (.v 8) (.s 16) (.v 1) 4 false),
  (0x081C008006808000, .iadd .always (.v 2) (.v 1) (.s 2) false),
  (0x091C022810004000, .iadd64 .always (.v 8) (.s 4) (.v 1) .zx),
  (0x0A1C00C0073F4000, .imul .always (.v 3) (.v 1) (.imm 0xFD)),
  (0x0B1C00C004008001, .imulhi .always (.v 3) (.v 1) (.v 2) true),
  (0x0C1C00C00400A404, .imad .always (.v 3) (.v 1) (.v 2) (.y 1)),
  (0x0D9000C004000001, .iabs (.reg 4 true) (.v 3) (.v 1) true),
  (0x0E1C00C004008001, .imin .always (.v 3) (.v 1) (.v 2) true),
  (0x0F1C00C004008000, .imax .always (.v 3) (.v 1) (.v 2) false)]

theorem test_decode_moves_integers : (words_moves_integers.all fun x => read x.1 == some x.2 && encode x.2 == some x.1 && x.2.wf) = true := by decide

def words_bits : List (Nat × Instr) := [
  (0x101C00C004008000, .and .always (.v 3) (.v 1) (.v 2)),
  (0x111C00C004008000, .or .always (.v 3) (.v 1) (.v 2)),
  (0x121C00C004008000, .xor .always (.v 3) (.v 1) (.v 2)),
  (0x131E00E004008000, .andn .always (.o 3) (.o 1) (.v 2)),
  (0x141C006C03008000, .shl .always (.v 1) (.special 0) (.imm 2)),
  (0x1484014013004000, .shl (.reg 1 true) (.v 5) (.v 4) (.imm 1)),
  (0x151E832833040000, .shr .always (.s 12) (.s 12) (.imm 16) false),
  (0x161C00C004008001, .rot .always (.v 3) (.v 1) (.v 2) true),
  (0x181C00C004000000, .clz .always (.v 3) (.v 1)),
  (0x191C00C004000000, .popc .always (.v 3) (.v 1)),
  (0x1A1C00C004000000, .brev .always (.v 3) (.v 1)),
  (0x1B1C00C004008001, .bfx .always (.v 3) (.v 1) (.v 2) true),
  (0x1C1C00C00400A824, .bfi .always (.v 3) (.v 1) (.v 2) (.s 9)),
  (0x1D1F404013000008, .icmp .always (.p 1) (.v 4) (.imm 0) .lt),
  (0x1E1C00C004008012, .idp4 .always (.v 3) (.v 1) (.v 2) (.v 4) .su)]

theorem test_decode_bits : (words_bits.all fun x => read x.1 == some x.2 && encode x.2 == some x.1 && x.2.wf) = true := by decide

def words_floats : List (Nat × Instr) := [
  (0x201C018010014000, .fadd .always (.v 6) (.v 4) (.v 5) .rne),
  (0x211C00C004008001, .fsub .always (.v 3) (.v 1) (.v 2) .rz),
  (0x221C00C004008003, .fmul .always (.v 3) (.v 1) (.v 2) .rp),
  (0x231C00C00400B006, .ffma .always (.v 3) (.v 1) (.v 2) (.imm 1) .rm),
  (0x241C00C004008000, .fmin .always (.v 3) (.v 1) (.v 2)),
  (0x251C00C004008000, .fmax .always (.v 3) (.v 1) (.v 2)),
  (0x261F40800700000C, .fcmp .always (.p 2) (.v 1) (.imm 0) .le),
  (0x271C00C00800000C, .fcvt .always (.v 3) (.v 2) .e4m3 .fp32 .rne),
  (0x281C00C004000002, .frnd .always (.v 3) (.v 1) .rm),
  (0x291C00C004008001, .hadd2 .always (.v 3) (.v 1) (.v 2) .f16 .rz),
  (0x2A1C00C004008004, .hmul2 .always (.v 3) (.v 1) (.v 2) .bf16 .rne),
  (0x2B1C00C004008007, .hfma2 .always (.v 3) (.v 1) (.v 2) .bf16 .rp),
  (0x301C010004000000, .frcp .always (.v 4) (.v 1) .f),
  (0x311C010004000004, .frsq .always (.v 4) (.v 1) .a),
  (0x321C010004000004, .fsqrt .always (.v 4) (.v 1) .a .rne),
  (0x331C010004008007, .fdiv .always (.v 4) (.v 1) (.v 2) .a .rp),
  (0x341C010004000004, .fex2 .always (.v 4) (.v 1) .a),
  (0x351C010004000000, .flg2 .always (.v 4) (.v 1) .f),
  (0x361C010004000004, .fsin .always (.v 4) (.v 1) .a),
  (0x371C010004000004, .fcos .always (.v 4) (.v 1) .a),
  (0x381C010004000004, .ftanh .always (.v 4) (.v 1) .a),
  (0x391C010004000000, .fsigm .always (.v 4) (.v 1) .f)]

theorem test_decode_floats : (words_floats.all fun x => read x.1 == some x.2 && encode x.2 == some x.1 && x.2.wf) = true := by decide

def words_predicates_waves : List (Nat × Instr) := [
  (0x401F40740B40C002, .pand .always (.p 1) (.p 2) (.p 3) false true),
  (0x411F40740B40C001, .por .always (.p 1) (.p 2) (.p 3) true false),
  (0x421F40740B40C000, .pxor .always (.p 1) (.p 2) (.p 3) false false),
  (0x431F41B408000001, .pmov .always (.p 6) (.p 2) true),
  (0x441C018017022813, .shfl .always (.v 6) (.v 5) (.imm 8) (.s 4) .xor),
  (0x451E81B406810002, .vote .always (.s 6) (.p 1) (.s 4) .ballot),
  (0x461C01C016810008, .wred .always (.v 7) (.v 5) (.s 4) .add .f32)]

theorem test_decode_predicates_waves : (words_predicates_waves.all fun x => read x.1 == some x.2 && encode x.2 == some x.1 && x.2.wf) = true := by decide

def words_control : List (Nat × Instr) := [
  (0x480BFFFFFFF40000, .bra (.reg 2 false) 0xFFFFFFFD),
  (0x49040000001C000B, .bdiv (.reg 1 false) 7 11),
  (0x4A1C000000000000, .join),
  (0x4B1C002820000000, .brx .always 8),
  (0x4C1C000000140A1E, .call .always 5 30),
  (0x4D1E87A820000000, .callr .always 30 8),
  (0x4E1C002878000000, .ret .always 30),
  (0x4F08000000000000, .exit (.reg 2 false)),
  (0x501C000000908A08, .loop .always 36 2 8),
  (0x5108000000000000, .lexit (.reg 2 false)),
  (0x521C000000000008, .mark .always 8),
  (0x531C000000000042, .trap .always 0x0042),
  (0x541C00000000BEEF, .brk .always 0xBEEF),
  (0x551C000000000000, .fold),
  (0x561C000000000000, .unfold),
  (0x581C018014008000, .xmov .always (.v 6) (.v 5) 2),
  (0x591C0100100033FC, .xbc .always (.v 4) (.v 4) 0 (.imm 0xFF))]

theorem test_decode_control : (words_control.all fun x => read x.1 == some x.2 && encode x.2 == some x.1 && x.2.wf) = true := by decide

def words_memory : List (Nat × Instr) := [
  (0x601C010008060000, .ldG32 .always (.v 4) (.v 2) 6 0),
  (0x611C01A80801FFF8, .ldG64 .always (.v 6) (.s 2) 1 0xFFF8),
  (0x621C010008000000, .ldSp32 .always (.v 4) (.v 2) 0),
  (0x631C01800C000010, .ldSp64 .always (.v 6) (.v 3) 16),
  (0x641C01C020000000, .stG32 .always (.v 7) (.v 8) 0),
  (0x651C01A80800FFF8, .stG64 .always (.v 6) (.s 2) 0xFFF8),
  (0x661C018008000000, .stSp32 .always (.v 6) (.v 2) 0),
  (0x671C01800C000008, .stSp64 .always (.v 6) (.v 3) 8),
  (0x681E80A800000004, .ldc .always (.s 2) (.s 0) 4),
  (0x691C002810000000, .pf .always (.s 4) false 0),
  (0x6A1C000000000004, .phase .always (.scope .dev)),
  (0x6A1C00000000000A, .phase .always (.level 2)),
  (0x6B1C000000000004, .ifence .always (.scope .dev)),
  (0x6C1C00280680B014, .arm .always (.s 1) (.s 2) (.imm 5)),
  (0x6D1E81C000000000, .wait .always 7),
  (0x701E810000000003, .rget .always 4 3),
  (0x701E810000000013, .rgetW .always 4 3),
  (0x711C00000000000F, .rput .always 15),
  (0x721C000000000001, .rdone .always 1),
  (0x7A1C018008000004, .ldo32 .always (.v 6) (.v 2) 0 4 .ham),
  (0x841E822810000000, .ldo64 .always (.s 8) (.s 4) 0 0 .dev),
  (0x881C018008000004, .sto32 .always (.v 6) (.v 2) 4 .lg),
  (0x941E822810000000, .sto64 .always (.s 8) (.s 4) 0 .dev)]

theorem test_decode_memory : (words_memory.all fun x => read x.1 == some x.2 && encode x.2 == some x.1 && x.2.wf) = true := by decide

def words_engines : List (Nat × Instr) := [
  (0x981E80A842831000, .cpy .always 2 16 12 false .s .g false),
  (0x991C3FC00C002600, .cpyt .always 255 3 true true true),
  (0x9A1E80A812820990, .cacc .always 2 4 8 false .g .s false .exch .i64),
  (0x9A1E8080028224A0, .cacc .always 2 0 8 true .g .g true .max .f32),
  (0x9B1E80A812822401, .ccas .always 2 4 8 true .g true 1),
  (0x9C1E808002821000, .cfill .always 2 8 false .s),
  (0x9D1E80A812820000, .ccrc .always 2 4 8 false .g .g),
  (0x9E1E80A812822120, .cred .always 2 4 8 true .max .bf16),
  (0xAB1E810000000000, .jdec .always 4 false),
  (0xA01C01001400C000, .mma .always 4 5 (.imm 0 3) false 0 false),
  (0xA01C00400C00C040, .mma .always 1 3 (.imm 0 3) false 0 true),
  (0xA01C00400A81BF80, .mma .always 1 2 (.regs 6) true 63 false),
  (0xA11C000000000280, .mzero .always 5),
  (0xA21C053000000000, .acrd .always 20 (.imm 0) 0),
  (0xA31C05280C000080, .acwr .always 20 (.s 3) 1),
  (0xA41C0530FE810082, .apatch .always 20 (.imm 63) 4 1 .addI32),
  (0xA51C002840000004, .tset .always 4 16)]

theorem test_decode_engines : (words_engines.all fun x => read x.1 == some x.2 && encode x.2 == some x.1 && x.2.wf) = true := by decide

def words_system : List (Nat × Instr) := [
  (0xA81E822828000000, .spawn .always 8 10),
  (0xA91C000000000002, .bar 2),
  (0xAA1C003010000007, .barv 7 (.imm 4)),
  (0xAC1C000000000102, .renter .always 0x0102),
  (0xAD1C000000000000, .rleave .always),
  (0xAE1C002860000000, .wset .always 0 24),
  (0xAF8C000000000005, .wclr (.reg 3 true) 5),
  (0xB01C000000000000, .tret .retry),
  (0xB01C000000000001, .tret .skip),
  (0xB01C000000000002, .tret .kill),
  (0xB11E830000000017, .csrr .always (.s 12) 0x17),
  (0xB11C00C000000010, .clkRead .always (.v 3)),
  (0xB11C00C000000019, .ectrloRead .always (.v 3)),
  (0xB21C00280C000014, .csrw .always 0x14 (.s 3)),
  (0xB21C00300800010A, .carveWrite .always (.imm 2)),
  (0xB21C00280C00002F, .rgcfgWrite .always 15 (.s 3)),
  (0xB21C00280C00010C, .wdctlWrite .always (.s 3)),
  (0xB31C002810000000, .tlbi .always (.page 4)),
  (0xB31C000000000001, .tlbi .always .ctx)]

theorem test_decode_system : (words_system.all fun x => read x.1 == some x.2 && encode x.2 == some x.1 && x.2.wf) = true := by decide

theorem test_decode_refused : ([0x0000000000000000, 0x3A1C008006808000, 0x0840008006808000, 0x089C008006808000, 0x08A4008006808000, 0x081C008006808004,
    0x081C008006808002, 0x081C009C02808000, 0x081C009800004000, 0x081F400004004000, 0x081C008007800000, 0x081C008006020000,
    0x081C008006A00000, 0x081C00800741C000, 0x091C00C000004000, 0x1D1C00C004008028, 0x271C00C004000154, 0x551C000000000001,
    0x5508000000000000, 0x559C000000000000, 0xB01C000000000003, 0xB11C00C00000001F, 0xFF1C000000000000, 0x621C010008010000,
    0x9E1E80A812820180, 0x9A1E80A8128201C0, 0xA11C000000002000, 0x481C000000000001, 0xAA18003010000007] : List Nat).all (fun w => read w == none) = true := by decide

theorem test_decode_headers : (decodeClauseHeader 0x00070000FF800000).toOption.map (fun h => (h.count, h.waitMask, h.seta, h.setb, h.last)) =
      some (7, 0, 15, 15, true) ∧
    (decodeClauseHeader 0x0003000A1F400800).toOption.map (fun h => (h.count, h.waitMask, h.seta, h.stile, h.live)) = some (3, 10, 1, true, 1) ∧
    (decodeBundleHeader 0x000480010F480800).toOption.map (fun h => (h.slots, h.waitMask, h.seta, h.stile, h.shape, h.live)) =
      some ([2, 16], 1, 0, true, 1, 1) ∧
    (decodeClauseHeader 0x00000000FF800000).isOk = false ∧ (decodeClauseHeader 0x00070000CF800000).isOk = false ∧
    (decodeClauseHeader 0x00070000FF000800).isOk = false ∧ (decodeBundleHeader 0x00000000FF180000).isOk = false := by
  and_intros <;> decide

/-- Commands of the ring by their words (R220, R223). -/
theorem test_decode_commands : decodeCommand [0x0000000500030001, 0x4000, 1, 0, 0, 0, 0, 0] = some (.submit ⟨5, 3⟩ 0x4000 1) ∧
    decodeCommand [0x0000000600000006, 0x10203, 0, 0, 0, 0, 0, 0] = some (.faultResolve ⟨6, 0⟩ 3 2 true) ∧
    decodeCommand [0x0000000700030008, 0xFF, 0, 0, 0, 0, 0, 0] = some (.halt ⟨7, 3⟩ 255) ∧
    decodeCommand [0x0000000700000010, 3, 0, 0, 0, 0, 0, 0] = some (.power ⟨7, 0⟩ 3) ∧
    decodeCommand [0x0000000700000010, 4, 0, 0, 0, 0, 0, 0] = none ∧ decodeCommand [0x0000000700000017, 0, 0, 0, 0, 0, 0, 0] = none := by decide

/-! ### Small states -/

/-- Registers of one resident. -/
def cells (xs : List (Reg × Word)) : RegFile := { fill := .zero, cells := xs.map fun x => ⟨x.1, x.2, false⟩ }

/-- A resident of context 7 in the full shape, on core 0. -/
def man (simt : Bool) (f : RegFile) : Resident := { (soloLaunch 1 7 simt).newResident 2 3 0 16 0 0 0 0 .zero with regs := f }

/-- A header of one instruction that names flags 1 and 2. -/
def hdr1 : Header := { Header.blank with count := 1, seta := 1, setb := 2 }

/-- A resident at an instruction in a slot. -/
def at_ (r : Resident) (slot : Nat) : Issue := Issue.start r 0x1000 hdr1 0 slot 0x081C008006808000

/-- Its context, with a reeve handler; the TLB maps the first GiB to itself for it. -/
def ctx7 : Context := Context.new 7 0x10000 7 0 0x5000 0 none

/-- Its unit: 256 KiB of scratchpad, one tile. -/
def unit7 : Unit44 :=
  { uid := 3, core := 0, ctx := 7, lid := 1, index := 0, base := 0, size := 262144, spad := { fill := .zero, cells := [], poison := [] },
    tiles := [Tile.zero], held := [], rings := [], away := false }

/-- One core, one hamlet, that context and unit, nobody issuing. -/
def quiet : State :=
  { State.reset with
    cores := [Core.reset], hamlets := [{ Hamlet.reset with tlb := [⟨0, 7, 0, 2 ^ 30, 0x1F⟩] }], contexts := [ctx7], units := [unit7], stage := 2,
    mem := [(0x8000, 1), (0x8001, 2)], nextId := 9 }

/-- The same with a resident issuing. -/
def busy (q : Issue) : State := { quiet with iss := some q }

/-- A wave, and a wide thread in a slot. -/
def wave (f : RegFile) : Issue := at_ (man true f) 0
def wide (slot : Nat) (f : RegFile) : Issue := at_ (man false f) slot

/-- No register written. -/
def none_ : RegFile := cells []

theorem issues_of {q : Issue} (h : q.probe = false) : (busy q).Issues q := ⟨rfl, h⟩

/-! ### Hypotheses that are met: registers and control -/

theorem test_meets_integer : ∃ o, intResult (.iadd .always (.v 3) (.v 1) (.s 2) true) = some o ∧ (busy (wave none_)).Issues (wave none_) ∧
    o.Legal ((wave none_).intPlace o.d o.srcs) (wave none_) ∧ (wave none_).res.Clean o.srcs (o.lanes (wave none_)) ∧ o.lanes (wave none_) ≠ [] :=
  ⟨_, rfl, issues_of rfl, by unfold RegOp.Legal; decide, by unfold Resident.Clean; decide, by decide⟩

theorem test_meets_bits : ∃ o, bitResult (.shl .always (.s 3) (.s 1) (.imm 2)) = some o ∧ (busy (wide 16 none_)).Issues (wide 16 none_) ∧
    o.Legal ((wide 16 none_).intPlace o.d o.srcs) (wide 16 none_) ∧ (wide 16 none_).res.Clean o.srcs (o.lanes (wide 16 none_)) ∧
    o.lanes (wide 16 none_) ≠ [] :=
  ⟨_, rfl, issues_of rfl, by unfold RegOp.Legal; decide, by unfold Resident.Clean; decide, by decide⟩

theorem test_meets_pairs : ∃ o, pairResult (.iadd64 .always (.v 8) (.s 4) (.v 2) .pair) = some o ∧ (busy (wide 15 none_)).Issues (wide 15 none_) ∧
    o.Legal ((wide 15 none_).intPlace o.d o.srcs) (wide 15 none_) ∧ (wide 15 none_).res.dstOk (Dst.next o.d) = true ∧
    (wide 15 none_).res.Clean o.srcs (o.lanes (wide 15 none_)) ∧ o.lanes (wide 15 none_) = [15] :=
  ⟨_, rfl, issues_of rfl, by unfold RegOp.Legal; decide, by decide, by unfold Resident.Clean; decide, by decide⟩

theorem test_meets_predicates : ∃ o, predResult (.icmp (.reg 1 true) (.p 0) (.v 1) (.imm 0) .ltu) = some o ∧
    (busy (wave none_)).Issues (wave none_) ∧ o.Legal ((wave none_).lanePlace o.d) (wave none_) ∧
    (wave none_).res.Clean o.srcs (o.lanes (wave none_)) ∧ o.lanes (wave none_) ≠ [] :=
  ⟨_, rfl, issues_of rfl, by unfold RegOp.Legal; decide, by unfold Resident.Clean; decide, by decide⟩

theorem test_meets_floats : ∃ o, floatResult (.hfma2 .always (.v 3) (.v 1) (.v 2) .bf16 .rp) = some o ∧ (busy (wide 0 none_)).Issues (wide 0 none_) ∧
    o.Legal ((wide 0 none_).lanePlace o.d) (wide 0 none_) ∧ (wide 0 none_).res.Clean o.srcs (o.lanes (wide 0 none_)) ∧
    o.lanes (wide 0 none_) ≠ [] :=
  ⟨_, rfl, issues_of rfl, by unfold RegOp.Legal; decide, by unfold Resident.Clean; decide, by decide⟩

theorem test_meets_special : ∃ o, specialResult (.fdiv .always (.v 3) (.v 1) (.v 2) .a .rz) = some o ∧ (busy (wave none_)).Issues (wave none_) ∧
    o.Legal ((wave none_).lanePlace o.d) (wave none_) ∧ (wave none_).res.Clean o.srcs (o.lanes (wave none_)) ∧ o.lanes (wave none_) ≠ [] :=
  ⟨_, rfl, issues_of rfl, by unfold RegOp.Legal; decide, by unfold Resident.Clean; decide, by decide⟩

theorem test_meets_rounding : fmtF32 ∈ ieeeFormats ∧ valueOf (fmtF32.decode 0x3F800000) = some 1 ∧ valueOf (XR.fin false 3 (-1)) = some (3 / 2) ∧
    valueOf (fmtF32.decode (roundF fmtF32 .rne (.fin false 3 (-1))).1) = some (3 / 2) ∧ (0x3F800000 < 2 * fmtF32.signBit) ∧
    fmtF32.isNaN 0x3F800000 = false := by
  refine ⟨by decide, ?_, ?_, ?_, by decide, by decide⟩ <;> decide +kernel

/-- A member mask of all threads. -/
theorem test_meets_waves : (busy (wave none_)).Issues (wave none_) ∧ (wave none_).res.simt = true ∧ predOk (wave none_).res .always = true ∧
    (wave none_).res.within (.v 6) [.v 5, .imm 8, .imm 255] = true ∧ (wave none_).res.Clean [.imm 8, .imm 255] ((wave none_).lanes .always false) ∧
    inMask (busy (wave none_)) (wave none_) (.imm 255) 15 = true ∧ (wave none_).res.within (.s 6) [.p 1, .imm 255] = true ∧
    (wave none_).res.Clean [.p 1] (((wave none_).lanes .always false).filter fun c => inMask (busy (wave none_)) (wave none_) (.imm 255) c) :=
  ⟨issues_of rfl, rfl, rfl, by decide, by unfold Resident.Clean; decide, by decide, by decide, by unfold Resident.Clean; decide⟩

theorem test_meets_clusters : (busy (wide 15 none_)).Issues (wide 15 none_) ∧ (wide 15 none_).slot < 16 ∧ 15 < (wide 15 none_).res.width ∧
    (wide 15 none_).res.within (.v 6) [.v 5, .imm 3] = true ∧ (wide 15 none_).res.effect true .always 15 = true ∧
    (wide 15 none_).res.srcPoison (.v 5) 15 = false ∧ (wide 15 none_).res.effect true (.reg 0 false) 15 = false :=
  ⟨issues_of rfl, by decide⟩

/-- A transfer taken with a link, one through a pair, and one not taken. -/
theorem test_meets_transfers : ∃ o o', transferOf (.call .always 5 30) = some o ∧ transferOf (.ret .always 8) = some o' ∧
    (busy (wide 16 none_)).Issues (wide 16 none_) ∧ TransferPlace (wide 16 none_) ∧ TransferPlace (wave none_) ∧
    (wide 16 none_).taken o.p = true ∧ GoodTarget (o.target (wide 16 none_)) ∧ GoodTarget (o'.target (wave none_)) ∧
    (∀ n ∈ o.link, n + 2 ≤ (wide 16 none_).res.allotS) ∧ (∀ n ∈ o'.reads, n + 2 ≤ (wave none_).res.allotS) ∧
    (wave none_).taken (.reg 2 false) = false :=
  ⟨_, _, rfl, rfl, issues_of rfl, by unfold TransferPlace; decide, by unfold TransferPlace; decide, by decide, by unfold GoodTarget; decide,
    by unfold GoodTarget; decide, by decide, by decide, by decide⟩

/-- A stack of one entry with threads to go to. -/
def split1 : Resident := { man true (cells [(.p 0 1, 1)]) with div := [⟨0x2000, 0xFFFF, 1, 0x3000⟩], active := 0xFFFE }

theorem test_meets_divergence : (busy (at_ split1 0)).Issues (at_ split1 0) ∧ (at_ split1 0).idx + 1 = (at_ split1 0).hdr.count ∧
    split1.div.length < 8 ∧ GoodTarget (fromHeader (at_ split1 0) (7 : BitVec 32).toInt) ∧ GoodTarget (0x2000) ∧
    takingMask (wave none_) .always = (wave none_).res.active ∧ takingMask (wave (cells [(.p 0 1, 1)])) (.reg 1 false) = 1 ∧
    (wave (cells [(.p 0 1, 1)])).res.active ≠ 1 := by
  unfold GoodTarget
  exact ⟨issues_of rfl, by decide⟩

/-- A wide thread in a loop. -/
def looping : Resident := { man false (cells [(.s 8, 3)]) with loops := [⟨0x1010, 0x1800, 3, 2, 1⟩] }

theorem test_meets_loops : (busy (at_ looping 16)).Issues (at_ looping 16) ∧ (at_ looping 16).hdr.lend = false ∧ 8 + 1 ≤ looping.allotS ∧
    (at_ looping 16).taken .always = true ∧ (at_ looping 16).res.Clean [.s 8] [(at_ looping 16).onceLane] ∧ looping.loops.length < 8 ∧
    GoodTarget (fromHeader (at_ looping 16) (36 : BitVec 32).toInt) ∧ (looping.regs.read (.s 8)).toNat = 3 ∧ (looping.regs.read (.s 9)).toNat = 0 ∧
    (at_ looping 16).taken (.gate 0) = true ∧ (at_ looping 16).taken (.gate 2) = false ∧
    ((busy (at_ looping 16)).ctxOf looping).loopBound 0x1000 0x1120 = none :=
  ⟨issues_of rfl, rfl, by decide, by decide, by unfold Resident.Clean; decide, by decide, by unfold GoodTarget; decide, by decide, by decide,
    by decide, by decide, by decide⟩

theorem test_meets_modes : (busy (wave none_)).Issues (wave none_) ∧ (wave none_).res.active = 0xFFFF ∧ (wave none_).res.div = [] ∧
    (wave none_).res.trap.inh = false ∧ (wave none_).res.acrdPending = [] ∧ (wide 16 none_).res.loops = [] ∧ (wide 16 none_).res.launch.shape = 0 ∧
    (wide 16 none_).hdr.lend = false :=
  ⟨issues_of rfl, by decide, rfl, rfl, rfl, rfl, rfl, rfl⟩

/-- The reeve handler of context 7, an emulation handler, and none. -/
theorem test_meets_traps : handlerFor ((busy (wave none_)).ctxOf (wave none_).res) 1 = some (0x5000, true, false) ∧
    handlerFor { ctx7 with emuvec := 0x6000 } 1 = some (0x6000, false, true) ∧ handlerFor { ctx7 with tvec := 0 } 1 = none ∧
    (wave none_).commit = false ∧ ((busy (wave none_)).ctxOf (wave none_).res).tvec ≠ 0 ∧ (wave none_).taken .always = true ∧
    (wide 16 none_).taken .always = true ∧ (wide 16 none_).taken (.reg 0 false) = false :=
  by decide

/-- A marked register. -/
def marked : Issue := wave { fill := .zero, cells := [⟨.v 3 1, 5, true⟩] }

theorem test_meets_poison : ∃ o p, regOp marked (.mov .always (.v 2) (.v 1)) = some (o, p) ∧ o.Legal p marked ∧
    ¬ marked.res.Clean o.srcs (o.lanes marked) ∧ marked.commit = false :=
  ⟨_, _, rfl, by unfold RegOp.Legal; decide, by unfold Resident.Clean; decide, rfl⟩

theorem test_meets_misplaced : ∃ o p, regOp (wide 16 none_) (.fadd .always (.v 2) (.v 1) (.v 1) .rne) = some (o, p) ∧ ¬ o.Legal p (wide 16 none_) :=
  ⟨_, _, rfl, by unfold RegOp.Legal; decide⟩

theorem test_causes : (pickCause [illegalOf 0 3, { Cause.zero with code := 3, i2 := 1 }, { Cause.zero with code := 12 }]).map (fun c => c.code) =
    some 1 ∧ (pickCause [{ Cause.zero with code := 3, i2 := 1 }, { Cause.zero with code := 5 }, { Cause.zero with code := 3, i2 := 4 }]).map
      (fun c => (c.code, c.i2)) = some (3, 5) := by decide

theorem test_meets_lanes : (wave none_).res.simt = true ∧ (wide 15 none_).res.simt = false ∧ (wide 15 none_).slot < 16 ∧
    (wide 15 none_).lanes .always false = [15] := ⟨rfl, rfl, by decide, by decide⟩


/-- The same in a code object that gives the loop at most two iterations; a count above it, a full stack, marks. -/
theorem test_meets_loop_traps : let s : State := { busy (at_ looping 16) with contexts := [{ ctx7 with codes := [⟨0x1000, 0x2000, 0, 0, [(0x1120, 2)]⟩] }] }
    (s.ctxOf looping).loopBound 0x1000 (fromHeader (at_ looping 16) (36 : BitVec 32).toInt) = some 2 ∧ 2 < (looping.regs.read (.s 8)).toNat ∧
    8 ≤ (List.replicate 8 looping.loops).length ∧ (man false none_).loops = [] ∧ (Instr.loop .always 36 2 8).wf = true ∧
    (Instr.mark .always 64).wf = true ∧ s.pinned looping = false ∧ s.pinned { looping with pin := some ⟨1, looping.hdr, []⟩ } = true := by decide

/-- Where `fold` and `unfold` may not: in a handler, a thread asleep, a divided path, a divided lane group, a loop. -/
theorem test_meets_mode_traps : ({ Trap.reset with inh := true } : Trap).inh = true ∧ (at_ split1 0).res.active ≠ 0xFFFF ∧
    (at_ { split1 with active := 0xFFFF } 0).res.div ≠ [] ∧ ({ (man false none_).launch with shape := 2 } : Launch).shape ≠ 0 ∧
    (at_ looping 16).res.loops ≠ [] ∧ (at_ looping 16).res.launch.shape = 0 := by decide
/-! ### Hypotheses that are met: memory -/

/-- Registers with the address 0x8000 in s2:s3, in s4 and, per lane, in v1 and in the pair v2:v3. -/
def based : RegFile :=
  cells ([(.s 3, 0x8000), (.s 4, 0x8000)] ++ [0, 15].flatMap fun c => [(.v c 1, 0x8000), (.v c 3, 0x8000 + BitVec.ofNat 32 (8 * c))])

/-- A wave of threads 0 and 15 with them. -/
def wave2 : Issue := at_ { man true based with active := 0x8001 } 0

theorem not_refused {r : Resident} (h : r.refused = []) (a : Nat) : NotRefused r a := fun p hp => by
  rw [h] at hp
  cases hp

theorem passes_all {s : State} {r : Resident} {w h : Bool} {n : Nat} {f : Nat → Nat} {cs : List Nat} (leaf : DWord) (hr : r.refused = [])
    (hd : ∀ c ∈ cs, f c % n = 0 ∧ f c < 2 ^ 56 ∧ (s.ctxOf r).brambleCause r w false [(f c, n)] = [] ∧
      (if h then s.checkHome (s.who r) (if w then 1 else 0) (f c) else s.checkLane (s.who r) (if w then 1 else 0) (f c) n) = .ok leaf ∧
      (w = true ∨ leafPk leaf = false)) : ∀ c ∈ cs, Passes s r w n h (f c) :=
  fun c hc => ⟨(hd c hc).1, (hd c hc).2.1, not_refused hr _, (hd c hc).2.2.1, leaf, (hd c hc).2.2.2⟩

/-- A load of a wave that takes effect, and one of a wide thread. -/
theorem test_meets_global_loads : ∃ o o', globalLoadOf (.ldG32 .always (.v 4) (.v 2) 0 0) = some o ∧
    globalLoadOf (.ldo64 .always (.s 8) (.s 2) 9 0 .dev) = some o' ∧ (busy wave2).Issues wave2 ∧ (busy (wide 16 based)).Issues (wide 16 based) ∧
    o.LoadPlace wave2 ∧ o'.LoadPlace (wide 16 based) ∧ o.DstOk wave2.res ∧ o'.DstOk (wide 16 based).res ∧ wave2.res.pairOk o.a = true ∧
    (wide 16 based).res.pairOk o'.a = true ∧ wave2.res.Clean [o.a, Src.next o.a] (o.loadLanes wave2) ∧
    (wide 16 based).res.Clean [o'.a, Src.next o'.a] (o'.loadLanes (wide 16 based)) ∧
    (∀ c ∈ o.loadLanes wave2, Passes (busy wave2) wave2.res false o.n (atHome o.scope) (globalAddr (busy wave2) wave2.res o.a o.off c)) ∧
    (∀ c ∈ o'.loadLanes (wide 16 based), Passes (busy (wide 16 based)) (wide 16 based).res false o'.n (atHome o'.scope)
      (globalAddr (busy (wide 16 based)) (wide 16 based).res o'.a o'.off c)) ∧
    o.loadLanes wave2 = [0, 15] ∧ o.land < 2 ∧ flagNamed wave2 (o.land == 1) < 12 ∧ wave2.res.flags.getD (flagNamed wave2 (o.land == 1)) 0 < 63 ∧
    o'.loadLanes (wide 16 based) = [0] ∧ 0 < o'.land ∧ (busy (wide 16 based)).porchFull (wide 16 based) 1 = false ∧
    (globalLoadOf (.ldG32 (.reg 0 false) (.v 4) (.v 2) 0 0)).map (fun o => o.loadLanes wave2) = some [] :=
  by
    refine ⟨_, _, rfl, rfl, issues_of rfl, issues_of rfl, ?_⟩
    unfold MemOp.LoadPlace MemOp.DstOk Resident.Clean
    and_intros
    all_goals first
      | decide
      | exact passes_all 0x1F rfl (by decide)

/-- A scratchpad load and a load from the constant bank, which lies at 0x4000 to 0x4FFF. -/
theorem test_meets_local_loads : ∃ o, localLoadOf (.ldSp64 .always (.v 4) (.v 1) 8) = some o ∧ o.LoadPlace wave2 ∧ o.DstOk wave2.res ∧
    wave2.res.srcOk o.a = true ∧ wave2.res.Clean [o.a] (o.loadLanes wave2) ∧
    (∀ c ∈ o.loadLanes wave2, PassesLocal (busy wave2) wave2.res false o.n (localAddr (busy wave2) wave2.res o.a o.off c)) ∧
    (let o : MemOp := ⟨.always, .s 2, .imm 0, .s 0, 8, 4, 0xFFC, none⟩
     o.LoadPlace (wide 16 based) ∧ o.DstOk (wide 16 based).res ∧ (wide 16 based).res.Clean [.s 0] (o.loadLanes (wide 16 based)) ∧
     o.loadLanes (wide 16 based) = [0] ∧ ∀ c ∈ o.loadLanes (wide 16 based),
      localAddr (busy (wide 16 based)) (wide 16 based).res (.s 0) 0xFFC c + 4 ≤ (wide 16 based).res.launch.cbsize ∧
      Passes (busy (wide 16 based)) (wide 16 based).res false 4 false
        ((wide 16 based).res.launch.cbank + localAddr (busy (wide 16 based)) (wide 16 based).res (.s 0) 0xFFC c)) :=
  ⟨_, rfl, by unfold MemOp.LoadPlace; decide, by unfold MemOp.DstOk; decide, by decide, by unfold Resident.Clean; decide,
    by unfold PassesLocal; decide, by unfold MemOp.LoadPlace; decide, by unfold MemOp.DstOk; decide, by unfold Resident.Clean; decide, by decide,
    fun c hc => ⟨by revert c; decide, by revert c; exact passes_all 0x1F rfl (by decide)⟩⟩

theorem test_meets_global_stores : ∃ o, globalStoreOf (.sto64 .always (.v 2) (.v 2) 0 .dev) = some o ∧ o.StorePlace wave2 ∧
    wave2.res.pairOk o.a = true ∧ o.dataRegs.all wave2.res.srcOk = true ∧
    wave2.res.Clean ([o.a, Src.next o.a] ++ o.dataRegs) (o.storeLanes wave2) ∧ o.storeLanes wave2 = [0, 15] ∧
    ∀ c ∈ o.storeLanes wave2, Passes (busy wave2) wave2.res true o.n (atHome o.scope) (globalAddr (busy wave2) wave2.res o.a o.off c) :=
  ⟨_, rfl, by unfold MemOp.StorePlace; decide, by decide, by decide, by unfold Resident.Clean; decide, by decide, passes_all 0x1F rfl (by decide)⟩

theorem test_meets_local_stores : ∃ o, localStoreOf (.stSp32 .always (.v 2) (.v 1) 4) = some o ∧ o.StorePlace wave2 ∧ wave2.res.srcOk o.a = true ∧
    o.dataRegs.all wave2.res.srcOk = true ∧ wave2.res.Clean ([o.a] ++ o.dataRegs) (o.storeLanes wave2) ∧
    (∀ c ∈ o.storeLanes wave2, PassesLocal (busy wave2) wave2.res true o.n (localAddr (busy wave2) wave2.res o.a o.off c)) ∧
    (PendStore.mk .s 0x8000 [1, 2] none false 0).sp = .s :=
  ⟨_, rfl, by unfold MemOp.StorePlace; decide, by decide, by decide, by unfold Resident.Clean; decide, by unfold PassesLocal; decide, rfl⟩

/-- A core that makes an access for context 7. -/
def who7 : Who := { core := 0, ctx := 7, asid := 7, tenant := 0, root := 0x10000, reeve := false }

/-- A line of that context that core 0 holds valid. -/
def line7 : L1Line := { L1Line.blank who7 0x9000 0x9000 (hashSlice 0x9000) 0x1F (2 ^ 30) with valid := BitVec.allOnes 128 }

set_option maxRecDepth 4000 in
theorem test_meets_lines : Memory.wf quiet.mem = true ∧ quiet.l1Find who7 0x8000 = none ∧ quiet.xlat who7 0x8000 = .ok 0x1F (2 ^ 30) ∧
    (∀ l ∈ (quiet.coreAt 0).l1, l.pa ≠ paOf 0x1F (2 ^ 30) 0x8000 / 128) ∧ paOf 0x1F (2 ^ 30) 0x8000 = 0x8000 ∧ 0x8000 < hostBase ∧
    (∃ e, quiet.tlbFind who7 0x8000 = some e ∧ leafAllows e.leaf 0 false = true ∧ leafAllows e.leaf 1 false = true) ∧
    quiet.lostLine (homeSlice 0x1F (2 ^ 30) 0x8000 0x8000) 0x8000 = false ∧ SoundLine quiet who7 0x8000 0x8000 (homeSlice 0x1F (2 ^ 30) 0x8000 0x8000) ∧
    (let s := { quiet with cores := [{ Core.reset with l1 := [line7] }] }
     s.l1Find who7 0x9004 = some line7 ∧ line7.hits 0 0x9004 4 false = true ∧ line7.data.length = 128 ∧
     SoundLine s who7 0x9004 0x9004 (hashSlice 0x9000)) :=
  by
    unfold SoundLine
    and_intros <;> decide

theorem test_meets_stores_at_home : (PendStore.mk .g 0x8000 [1, 2, 3, 4] (some .dev) false 0).sp = .g ∧ atHome (some .dev) = true ∧
    (busy wave2).xlat ((busy wave2).who wave2.res) 0x8000 = .ok 0x1F (2 ^ 30) ∧ (busy wave2).lostLine (homeSlice 0x1F (2 ^ 30) 0x8000 0x8000) 0x8000 = false :=
  ⟨rfl, rfl, by decide, by decide⟩

/-- A store that leaves 0x9000 alone, and an address that no page maps. -/
theorem test_meets_other_bytes : (∀ l ∈ (quiet.coreAt 0).l1, ∀ k < 128, l.dirty.getLsbD k = true → 0x9000 ≠ l.pa * 128 + k) ∧
    (∀ leaf size, quiet.xlat who7 0x8000 = .ok leaf size → 0x9000 < paOf leaf size 0x8000 ∨ paOf leaf size 0x8000 + 8 ≤ 0x9000) ∧
    (∀ leaf, quiet.checkLane who7 0 (2 ^ 40) 1 = .ok leaf → leafPk leaf = true) := by
  refine ⟨by decide, ?_, ?_⟩
  · intro leaf size h
    have : quiet.xlat who7 0x8000 = .ok 0x1F (2 ^ 30) := by decide
    rw [this] at h
    cases h
    decide
  · intro leaf h
    have : quiet.checkLane who7 0 (2 ^ 40) 1 = .fault := by decide
    rw [this] at h
    cases h

theorem test_meets_prefetches : wave2.memPlace false (srcScalar (.v 2)) = true ∧ predOk wave2.res .always = true ∧ wave2.res.pairOk (.v 2) = true ∧
    wave2.lanes .always (srcScalar (.v 2) && !wave2.res.simt) = [0, 15] := by decide

/-- Phases at a scope and at a level, taken and not. -/
theorem test_meets_phases : wave2.res.scopeSel (.scope .dev) = some .dev ∧ (wave2.res.scopeSel (.level 0)).isSome = true ∧ wave2.res.scopeSel (.level 2) = none ∧
    predOk wave2.res .always = true ∧ wave2.taken .always = true ∧ (wide 16 based).taken .always = true ∧ wave2.taken (.reg 0 false) = false ∧
    (0 < quiet.cores.length) := by decide

/-! ### Hypotheses that are met: rings, tokens, system registers -/

/-- Ring 3 of the unit: four slots of 64 bytes at offset 256, for a program; two filled, one taken. -/
def ring3 : Ring :=
  { cfg := 1 * 2 ^ 19 + 1 * 2 ^ 8 + 2 ^ 7 + 3, tail := 3, head := 1, free := 1, filled := 2, claims := [(false, true)], taken := 1, owner := some 3 }

def ringed (g : Ring) (q : Issue) : State := { busy q with cores := [{ Core.reset with rings := (List.replicate 16 Ring.off).set 3 g }] }

theorem test_meets_rings : (ringed ring3 (wide 16 none_)).Issues (wide 16 none_) ∧ OncePlace [16] .always (wide 16 none_) ∧
    (wide 16 none_).taken .always = true ∧ (wide 16 none_).taken (.reg 0 false) = false ∧ 4 + 1 ≤ (wide 16 none_).res.allotS ∧
    (ringed ring3 (wide 16 none_)).ringOf 0 3 = ring3 ∧ OwnRing (wide 16 none_).res ring3 ∧ 0 < ring3.filled ∧ 0 < ring3.free ∧ 0 < ring3.taken ∧
    ring3.cfg.getLsbD 7 = true ∧ ring3.claims = [] ++ (false, true) :: [] ∧ ¬ OwnRing (wide 16 none_).res { ring3 with owner := some 4 } ∧
    ¬ OwnRing (wide 16 none_).res Ring.off ∧ OwnRing (wide 16 none_).res { ring3 with cfg := ring3.cfg - 2 ^ 7, filled := 0, free := 0, taken := 0, claims := [] } :=
  ⟨⟨rfl, rfl⟩, by unfold OncePlace OwnRing; decide⟩

/-- A resident with one comparator that has fired and one that has not. -/
def armed : Issue := at_ { man true none_ with comps := [⟨0, 8, 5, none⟩, ⟨8, 16, 6, some 2⟩] } 0

theorem test_meets_comparators : OncePlace [16] .always armed ∧ GoodSource armed (.imm 0) ∧ GoodSource armed (.s 1) ∧ armed.taken .always = true ∧
    (onceValue (busy armed) armed (.imm 0)).toNat < (onceValue (busy armed) armed (.imm 127)).toNat ∧
    (onceValue (busy armed) armed (.imm 127)).toNat ≤ armed.res.launch.spad * 256 ∧ (busy armed).compsBound armed.res < 8 ∧
    armed.res.comps = [⟨0, 8, 5, none⟩] ++ ⟨8, 16, 6, some 2⟩ :: [] ∧ armed.taken (.reg 0 false) = false :=
  ⟨by unfold OncePlace; decide, by unfold GoodSource Resident.Clean; exact ⟨by decide, fun n h => by cases h⟩,
    by unfold GoodSource Resident.Clean; exact ⟨by decide, fun n h => by cases h; decide⟩, by decide, by decide, by decide, by decide, rfl, by decide⟩

/-- A reeve-level thread with a bramble body on descriptor 0, which is watched, in s4 and up, and 1 in s0. -/
def reeve1 : Issue := at_ { man true (cells [(.s 0, 8), (.s 4, 1), (.s 8, 0x480), (.s 21, 128)]) with reeve := true } 0

theorem good_s {q : Issue} {n : Nat} (h : q.res.srcOk (.s n) = true) (hp : q.res.srcPoison (.s n) q.onceLane = false) : GoodSource q (.s n) :=
  ⟨h, fun m e => by cases e; intro a ha c hc; simp at ha hc; subst ha hc; exact hp⟩

/-- The descriptor of that body: watched, one by one. -/
def watched : Desc := { Desc.zero with d1 := 0x80 }

/-- A legal instruction of each kind of write, at reeve level. -/
theorem test_meets_system_writes : (∀ i ∈ ([.tset .always 4 16, .wset .always 0 4, .wclr .always 7, .csrw .always 0x1D (.s 0), .csrw .always 0x101 (.s 0),
      .carveWrite .always (.s 0), .rgcfgWrite .always 15 (.s 8), .wdctlWrite .always (.s 0)] : List Instr),
      ∃ o, systemWriteOf i = some o ∧ OncePlace [16] o.p reeve1 ∧ (∀ a ∈ o.reads, GoodSource reeve1 a) ∧ reeve1.taken o.p = true ∧
        o.ok { busy reeve1 with contexts := [{ ctx7 with descs := [(0, watched)] }] } reeve1) ∧ reeve1.taken (.reg 0 false) = false := by
  refine ⟨?_, by decide⟩
  intro i hi
  simp only [List.mem_cons, List.not_mem_nil, or_false] at hi
  rcases hi with rfl | rfl | rfl | rfl | rfl | rfl | rfl | rfl
  all_goals refine ⟨_, rfl, by unfold OncePlace; decide, ?_, by decide, ?_⟩
  all_goals first
    | (intro a ha; simp [scalars, List.mem_range] at ha; obtain ⟨k, hk, rfl⟩ := ha; exact good_s (by revert k; decide) (by revert k; decide))
    | (intro a ha; simp at ha; subst ha; exact good_s (by decide) (by decide))
    | (intro a ha; simp at ha)
    | (show (descriptorAt reeve1.res 16).setCauses reeve1 = []; decide)
    | (unfold BrambleBody; decide)
    | decide

theorem test_meets_tlbi : OncePlace [16] .always reeve1 ∧ reeve1.res.reeve = true ∧ (∀ a ∈ tlbiSrcs (.page 4), GoodSource reeve1 a) ∧
    reeve1.taken .always = true ∧ tlbiAddr reeve1 (.page 4) = some (2 ^ 32) ∧ tlbiAddr reeve1 .ctx = none := by
  refine ⟨by unfold OncePlace; decide, rfl, ?_, by decide, by decide, rfl⟩
  intro a ha
  simp [tlbiSrcs] at ha
  rcases ha with rfl | rfl <;> exact good_s (by decide) (by decide)

/-- Special registers: one that anybody reads, one of reeve level at either level. -/
theorem test_meets_special_reads : reeve1.res.reeve = true ∧ wave2.res.reeve = false ∧ 0x07 ∉ [0x100, 0x101, 0x10B, 0x10C, 0x10E] ∧
    predOk wave2.res .always = true ∧ wave2.res.dstOk (.v 3) = true ∧ wave2.lanes .always (dstScalar (.v 3)) = [0, 15] ∧ wave2.commit = false ∧
    0x102 ∉ userWritable ∧ wave2.res.launch.levels[0]? = some ⟨0, false, 16⟩ ∧ wave2.res.trap.code < 2 ^ 28 := by decide

/-! ### Worked cases of the spec -/

/-- The exact value m × 2^e. -/
def ex (m : Int) (e : Int) : XR := if m < 0 then .fin true m.natAbs e else .fin false m.natAbs e

/-- R134's worked cases of the sum of a group. -/
theorem test_group_sums : groupSum (ex 1 24 :: List.replicate 16 (ex 1 (-2))) = 0x4B800002 ∧
    groupSum ([ex 0 0, ex 1 24, ex (-1) 24, ex 1 (-20)] ++ List.replicate 13 (ex 0 0)) = 0 := by decide

/-- R132 and R133: the pack of a block of three values. -/
theorem test_pack_qt8 : let x := packQt .qt8 ((List.replicate 64 (ex 0 0)).set 0 (ex 7 7) |>.set 8 (ex 7 0) |>.set 9 (ex 25 (-3)))
    x.header = 0x000000FFFCFFFC80 ∧ x.codes = ((List.replicate 64 0).set 0 0x7E |>.set 8 0x5E |>.set 9 0x6C) := by decide +kernel

/-- The worked case of R128: 36 × 128 × 0.5 × 2^(−15), and that of R131: −9 as the exponent of 448 × 2^127 × 2^(−9) × 2^(−133) / 7. -/
theorem test_quilt_values : valueOf (quiltValue .qk4 (BitVec.ofNat 64 (packHeader 0x7F 128 [0, 0, 1, 0, 0, 0, 0, 0] (List.replicate 8 0))) 0x3F000000 13 2 5) =
      some (36 * 128 / 2 / 32768) ∧
    valueOf ((quiltValue .qt8 254 0 0x7E 0 0).mul (quiltValue .qt8 (BitVec.ofNat 64 (packHeader 0 0 [3, 0, 0, 0, 0, 0, 0, 0] [3, 0, 0, 0, 0, 0, 0, 0])) 0 1 0 0)) =
      some (7 / 512) := by decide +kernel

/-- The worked case of the hash under R78. -/
theorem test_hash : hashSlice 0x1000000080 = 513 := by decide

/-- The check value of CRC-32C: the one of the nine digits (R159). -/
theorem test_crc : crc32c 0 [0x31, 0x32, 0x33, 0x34, 0x35, 0x36, 0x37, 0x38, 0x39] = 0xE3069283 := by decide +kernel

/-- The worked cases of the bit operations, with a = 0xAB0 (R301). -/
theorem test_bits : clzWord 0xAB0 = 20 ∧ extractWord false 0xAB0 0x804 = 0xAB ∧ extractWord true 0xAB0 0x804 = 0xFFFFFFAB ∧
    extractWord false 0xAB0 0x81C = 0 ∧ insertWord 0x55 0xFFFFFFFF 0x804 = 0xFFFFF55F ∧ brevWord 1 = 0x80000000 := by decide

/-- R40's example of places: with 16 threads a wave and four waves, thread 37 stands at 5 in wave 2. -/
theorem test_levels : [0, 1, 2].map (fun k => lvlIndex [⟨0, false, 16⟩, ⟨1, false, 4⟩, ⟨2, true, 1⟩] k 37) = [5, 2, 0] := by decide

/-- What lane 15 of a wave holds in a register, and its exception flags, after an instruction. -/
def got (i : Instr) (f : RegFile) (g : Reg) : Option (Word × BitVec 5) :=
  match exec i (busy (wave f)) with
  | .next t => t.iss.map fun q => (q.res.regs.read g, q.res.fflags)
  | _ => none

/-- Three values in v1, v2, v3 of lane 15. -/
def three (a b c : Word) : RegFile := cells [(.v 15 1, a), (.v 15 2, b), (.v 15 3, c)]

/-- Rows of R325's table, with the flag bits of R51. -/
theorem test_ffma : ∀ m ∈ [RoundMode.rne, .rz, .rm, .rp], (got (.ffma .always (.v 4) (.v 1) (.v 2) (.v 3) m) (three 0x4B800000 0x3F800000 0x3F800000) (.v 15 4)).map Prod.fst =
    some (if m = .rp then 0x4B800001 else 0x4B800000) := by decide +kernel
theorem test_fadd_cancels : ∀ m ∈ [RoundMode.rne, .rz, .rm, .rp], got (.fadd .always (.v 4) (.v 1) (.v 2) m) (three 0x3F800000 0xBF800000 0) (.v 15 4) =
    some (if m = .rm then 0x80000000 else 0, 0) := by decide +kernel
theorem test_fmul_overflows : ∀ m ∈ [RoundMode.rne, .rz, .rm, .rp], (got (.fmul .always (.v 4) (.v 1) (.v 2) m) (three 0x71800000 0x71800000 0) (.v 15 4)).map Prod.fst =
    some (if m = .rz ∨ m = .rm then 0x7F7FFFFF else 0x7F800000) := by decide +kernel
theorem test_fmin : (got (.fmin .always (.v 4) (.v 1) (.v 2)) (three 0x80000000 0 0) (.v 15 4)) = some (0x80000000, 0) ∧
    (got (.fmin .always (.v 4) (.v 1) (.v 2)) (three 0x7F800001 0x40400000 0) (.v 15 4)).map Prod.fst = some 0x40400000 := by decide +kernel

/-- The worked case of `shfl.up`: mask 0xEFF7, member mask 0xFF. -/
theorem test_shfl_up : (let q := at_ { man true (cells ([(.s 4, 0xFF)] ++ (List.range 16).map fun c => (.v c 5, BitVec.ofNat 32 (10 * c)))) with active := 0xEFF7 } 0
    match exec (.shfl .always (.v 6) (.v 5) (.imm 1) (.s 4) .up) (busy q) with
    | .next t => (List.range 8).filterMap fun c => t.iss.map fun q => (q.res.regs.read (.v c 6)).toNat
    | _ => []) = [0, 0, 10, 0, 30, 40, 50, 60] := by decide +kernel
/-! ### Hypotheses that are met: engine commands, work, barriers, regions, handlers -/

/-- Scalar registers for commands: 0x8000 in s0:s1 and s2:s3, 0x100 in s4, a body of 64 in s8, a row range 0, 64 in s12:s13. -/
def moving : Issue := at_ { man true (cells [(.s 1, 0x8000), (.s 3, 0x8080), (.s 4, 0x100), (.s 8, 64), (.s 13, 64)]) with active := 0x8001 } 0

/-- A legal command of each kind, with passing checks. -/
theorem test_meets_copies : ∀ i ∈ ([.cpy .always 0 2 8 false .g .g false, .cfill .always 4 8 true .s, .cacc .always 0 2 8 false .g .g false .add .i32,
      .ccas .always 0 6 16 false .g false 0, .ccrc .always 0 2 8 true .g .g, .cred .always 0 2 8 false .max .f32, .jdec .always 0 false] : List Instr),
      ∃ o, copyOf (busy moving) moving i = some o ∧ OncePlace [18, 19] o.p moving ∧ flagNamed moving o.set < 12 ∧
        (∀ n ∈ o.reads ++ o.names, n < moving.res.allotS) ∧ LandingOk moving i ∧ moving.taken o.p = true ∧
        moving.res.Clean (o.reads.map Src.s) [moving.onceLane] ∧ o.legal ∧ o.passes ∧ (busy moving).copyFull moving = false ∧
        moving.flagBusy (flagNamed moving o.set) = false ∧ (busy moving).porchFull moving 1 = false := by
  have hr : ∀ (sp : Space) (w k : Bool) (lo n : Nat), (sp = .s → lo + n ≤ moving.res.launch.spad * 256 ∧
      ((busy moving).ctxOf moving.res).packedSpad lo n = false) → (sp = .g → ∀ x ∈ [lo, lo + n - 1],
      (busy moving).checkHome ((busy moving).who moving.res) (if w then 1 else 0) x = .ok 0x1F) → RangePasses (busy moving) moving sp w k lo n := by
    intro sp w k lo n h1 h2
    cases sp with
    | s => exact ⟨(h1 rfl).1, fun _ _ => (h1 rfl).2⟩
    | g => exact fun x hx => ⟨by rw [h2 rfl x hx]; decide, fun leaf hl => by rw [h2 rfl x hx] at hl; cases hl; intro _ _; decide⟩
  intro i hi
  simp only [List.mem_cons, List.not_mem_nil, or_false] at hi
  rcases hi with rfl | rfl | rfl | rfl | rfl | rfl | rfl
  all_goals refine ⟨_, rfl, by unfold OncePlace; decide, by decide, by decide, by unfold LandingOk; decide, by decide, by unfold Resident.Clean; decide,
    ?_, ?_, by decide, by decide, by decide⟩
  all_goals dsimp only
  all_goals first
    | decide
    | trivial
    | (repeat' apply And.intro
       all_goals first
         | exact hr _ _ _ _ _ (by decide) (by decide)
         | (intro _; exact hr _ _ _ _ _ (by decide) (by decide))
         | (intro k hk; simp at hk; exact absurd hk.1 (by decide))
         | (unfold Unwatched; decide)
         | decide)

/-- Descriptors 0 and 1: 64 by 64 elements of FP16 in the scratchpad, and in memory. -/
def fp16s : Desc := { Desc.zero with d0 := 2 ^ 63 + 0x100, d1 := 0x0000003F003F0002, d2 := 128 }
def fp16g : Desc := { Desc.zero with d0 := 0x8000, d1 := 0x0000003F003F0002, d2 := 128 }

/-- The context with those descriptors. -/
def described (q : Issue) : State := { busy q with contexts := [{ ctx7 with descs := [(0, fp16s), (1, fp16g)] }] }

set_option maxRecDepth 4000 in
theorem test_meets_cpyt : ∃ o, copyOf (described moving) moving (.cpyt .always 0 1 false false false) = some o ∧ OncePlace [18, 19] o.p moving ∧ o.legal ∧
    o.cmd.td = fp16s ∧ o.cmd.ts = fp16g :=
  ⟨_, rfl, by unfold OncePlace; decide, by dsimp only; decide, by decide, by decide⟩

set_option maxRecDepth 4000 in
/-- `mma` of 64 columns, `mzero`. -/
theorem test_meets_matrix : OncePlace [17] .always moving ∧ 0 < moving.res.launch.acc ∧ (∀ n ∈ rangeKRegs (.regs 12), n < moving.res.allotS) ∧
    moving.taken .always = true ∧ moving.res.Clean ((rangeKRegs (.regs 12)).map Src.s) [moving.onceLane] ∧
    (let m := { newMat (described moving) moving (.mma .always 0 1 (.regs 12) false 0 false) 0 with
        ta := fp16s, tb := fp16g, kfirst := 0, kcount := 64, total := 4, flag := some 1 }
     rangeK moving.res (.regs 12) = (0, 64) ∧ mmaOk m = true ∧ (described moving).mmaBrambles moving m = []) ∧
    (described moving).matFull moving = false ∧ moving.flagBusy 1 = false ∧
    (∀ x ∈ fp16s.planes, RangePasses (described moving) moving .s false false x.1 x.2) ∧
    ((described moving).ctxOf moving.res).desc 0 = fp16s ∧ ((described moving).ctxOf moving.res).desc 1 = fp16g := by
  refine ⟨by unfold OncePlace; decide, by decide, by decide, by decide, by unfold Resident.Clean; decide, by decide, by decide, by decide, ?_, by decide, by decide⟩
  intro x hx
  have : fp16s.planes = [(0x100, 8192)] := by decide
  rw [this] at hx
  simp at hx
  subst hx
  exact ⟨by decide, fun _ h => by cases h⟩

set_option maxRecDepth 4000 in
theorem test_meets_rows : ∃ o o', rowOpOf (.acrd .always 0 (.imm 63) 0) = some o ∧ rowOpOf (.apatch .always 0 (.s 3) 12 63 .rep) = some o' ∧
    OncePlace [17] o.p moving ∧ o.t < moving.res.launch.acc ∧ o'.t < moving.res.launch.acc ∧ o.n + rowWidth moving.res ≤ moving.res.allotV ∧
    (∀ n ∈ o'.scalarReads, n < moving.res.allotS) ∧ takesPart moving o.p = [0, 15] ∧ takesPart moving (.reg 0 false) = [] ∧
    moving.res.Clean (o'.scalarReads.map Src.s) [moving.onceLane] ∧ (busy moving).matFull moving = false ∧
    (∀ c ∈ takesPart moving o'.p, ∀ k < rowWidth moving.res, moving.res.srcPoison (.v (o'.n + k)) c = false) :=
  ⟨_, _, rfl, rfl, by unfold OncePlace Resident.Clean; decide⟩

theorem test_meets_spawns : OncePlace [16] .always moving ∧ 0 + 2 ≤ moving.res.allotS ∧ pairAt moving.res 0 = 0x8000 ∧ pairAt moving.res 2 = 0x8080 ∧
    moving.taken .always = true ∧ moving.res.Clean [.s 0, .s 1, .s 2, .s 3] [moving.onceLane] ∧ SpawnRange (busy moving) moving false 0x8080 ∧
    SpawnRange (busy moving) moving true 0x8000 ∧ moving.res.launch.depth < 4 ∧ ({ moving.res.launch with depth := 4 } : Launch).depth = 4 ∧
    (List.replicate 16 0).length = 16 :=
  by
    have hr : SpawnRange (busy moving) moving false 0x8080 := ⟨by decide, not_refused rfl _, 0x1F, by decide, .inr (by decide)⟩
    have hw : SpawnRange (busy moving) moving true 0x8000 := ⟨by decide, not_refused rfl _, 0x1F, by decide, .inl rfl⟩
    refine ⟨by unfold OncePlace; decide, by decide, by decide, by decide, rfl, ?_, hr, hw, by decide⟩
    unfold Resident.Clean
    decide

/-- A template at 0x8080: code 0x1000, one vector block and one scalar block, one level of one thread; with a join count or without. -/
def template (join : Bool) : State :=
  { busy moving with mem := [(0x8081, 0x10), (0x8098, 0x41)] ++ (if join then [(0x80B0, 1)] else []) ++ [(0x10000, 1), (0x10001, 1), (0x10002, 1), (0x10100, 0x1F)] }

/-- The child's record, and the launch that it gives. -/
def childOf (join : Bool) : List Nat := childWords (templateAt (template join) moving.res 0x8080) 1 0
def childLaunch (join : Bool) : Launch := launchOf 9 0x8000 7 0 1 (childOf join)

theorem test_meets_children : Memory.wf (template true).mem = true ∧ Memory.wf (template false).mem = true ∧
    (childLaunch false).levels = [⟨0, false, 1⟩] ∧ recField (childOf false) 6 0 32 = 0 ∧ recField (childOf true) 6 0 32 = 1 ∧
    (template true).dieCount 0 0 = 0 ∧ (template false).rota.state < 2 ∧ recField (childOf false) 2 0 2 = 0 ∧
    ((template false).phaseAt 0 7 .dev).xlat ((template false).who moving.res) 0x8080 = .ok 0x1F (2 ^ 30) ∧
    (∃ e, (template false).tlbFind ((template false).who moving.res) 0x8000 = some e ∧ e.leaf = 0x1F ∧ paOf e.leaf e.size 0x8000 = 0x8000 ∧
      (template false).ctxLeaf ctx7 0x8000 true = some (e.leaf, e.size)) ∧
    (template false).lostLine (homeSlice 0x1F (2 ^ 30) 0x8000 0x8000) 0x8000 = false := by
  and_intros <;> decide +kernel

theorem test_meets_good_records : GoodRecord (childLaunch false) 0 ∧ ¬ GoodRecord (childLaunch false) 2 ∧ GoodQueues (template false) := by
  refine ⟨?_, fun h => absurd h.1 (by decide), by unfold GoodQueues; decide +kernel⟩
  have hl : (childLaunch false).levels = [⟨0, false, 1⟩] := by decide +kernel
  unfold GoodRecord
  rw [hl]
  and_intros
  all_goals try decide +kernel
  · intro k y x h1 h2
    simp at h2
  · intro k x h
    cases k with
    | zero =>
      cases h
      exact ⟨fun h => absurd h (by decide), fun m hm => by cases hm; decide, fun h => absurd h (by decide)⟩
    | succ k => simp at h

/-- A full queue of a die, and a child that waits there. -/
theorem test_meets_full_queues : ({ template true with dieQ := List.replicate 4096 (quiet.newRec (soloLaunch 4 7 true) 0 true false none 0) } :
    State).dieCount 0 0 = 4096 ∧ recField (childOf true) 6 0 32 ≠ 0 := by
  refine ⟨?_, by decide +kernel⟩
  have h : ∀ (s : State) (e : QRec) (n : Nat), ({ s with dieQ := List.replicate n e } : State).dieCount e.die e.launch.tenant = n :=
    fun s e n => by simp [State.dieCount]
  exact h _ (quiet.newRec (soloLaunch 4 7 true) 0 true false none 0) 4096

/-- A thread level, and a die-wide level whose unit holds 32 threads in two waves. -/
def pair2 : Issue := at_ { man true none_ with launch := { soloLaunch 1 7 true with levels := [⟨0, false, 32⟩, ⟨2, false, 1⟩], shape := 0 } } 0

def paired (n : Nat) : State := { busy pair2 with running := [⟨pair2.res.launch, 2, 2, List.range n, [], false, false⟩] }

/-- What arriving leaves before the waiters go. -/
def arriving (n : Nat) : Barrier × State :=
  let s := paired n
  let b := joined s pair2.res 1 none
  (b, { s with barriers := putBy (fun y => y.isOf pair2.res 1) b s.barriers }.modRes 2 fun y => { y with wait := .barrier 1 })

theorem test_meets_barriers : (paired 0).Issues pair2 ∧ pair2.res.div = [] ∧ pair2.taken .always = true ∧ pair2.res.launch.levels[1]? = some ⟨2, false, 1⟩ ∧
    (⟨2, false, 1⟩ : Level).domain ≠ 7 ∧ ¬ ((2 : Nat) = 0 ∨ (pair2.res.launch.simt = true ∧ (2 : Nat) = 1)) ∧
    ¬ Complete (arriving 0).2 (arriving 0).1 ∧ ¬ StillToPlace (arriving 0).2 (arriving 0).1 ∧ Complete (arriving 2).2 (arriving 2).1 ∧
    pair2.res.launch.levels[0]? = some ⟨0, false, 32⟩ := by
  have hf : ∀ n, (arriving n).2.running.find? (fun x => x.launch.lid == (arriving n).1.lid) =
      some ⟨pair2.res.launch, 2, 2, List.range n, [], false, false⟩ := fun n => by simp [arriving, paired, State.modRes, joined, State.barrierOf, busy, quiet, pair2, at_, Issue.start, man, Launch.newResident, soloLaunch, State.reset]
  refine ⟨issues_of rfl, ?_⟩
  and_intros
  all_goals try decide
  · intro h
    exact absurd (h _ (hf 0)) (by decide)
  · rintro ⟨x, hx, h⟩
    rw [hf 0] at hx
    cases hx
    exact absurd h (by decide)
  · intro x hx
    rw [hf 2] at hx
    cases hx
    decide

/-- A launch whose residents are still to be placed parks its waiter; counts out of range, and one that differs. -/
theorem test_meets_parking : (∃ x : Running, x = ⟨pair2.res.launch, 1, 2, [], [], false, false⟩ ∧ x.placed < (0 + 1) * x.launch.levelResidents 1) ∧
    (let s : State := { paired 0 with contexts := [{ ctx7 with saveAreas := [(0x100000, 0x100000)] }] }
     s.saveNeed 7 [{ pair2.res with wait := .barrier 1 }] [] ≤ (s.ctxOf pair2.res).saveBytes) ∧
    pair2.res.launch.levelResidents 1 < 3 ∧ (at_ split1 0).res.div ≠ [] ∧ pair2.commit = false ∧
    (let s : State := { paired 0 with barriers := [⟨1, 1, 0, some 2, [4]⟩] }
     (s.barrierOf pair2.res 1).arrived ≠ [] ∧ (s.barrierOf pair2.res 1).need ≠ some 1) := by
  exact ⟨⟨_, rfl, by decide⟩, by decide +kernel⟩

/-- A context that traces into a ring of four records at 0x9000. -/
def tracing : Context := { ctx7 with traceRing := some ⟨0x9000, 4⟩, traceOn := true }

theorem test_meets_regions : OncePlace [16] .always moving ∧ moving.taken .always = true ∧ moving.taken (.reg 0 false) = false ∧
    moving.res.regions.length < 8 ∧ moving.res.regions = [] ∧ 8 ≤ (List.replicate 8 (0 : BitVec 16)).length ∧ moving.res.core < 256 ∧
    moving.res.lgrp < 16 ∧ ({ busy moving with contexts := [tracing] } : State).ringRoom (.virt tracing) ⟨0x9000, 4⟩ = true ∧
    ({ ctx7 with halts := [⟨none, [], []⟩] } : Context).halting moving.res = true :=
  by unfold OncePlace; decide +kernel

/-- A handler's hidden state. -/
def hid : Hidden :=
  { hdr := 0x1000, place := 1, ended := false, skipHdr := 0x1010, skipPlace := 0, skipEnded := true, reeve := false, active := 3, div := [], loops := [],
    barrier := none, flights := [], porch := [], loads := [], count := 4, closing := .none, point := .atIssue, code := 3, exempt := false }

theorem test_meets_handlers : (wave none_).idx + 1 = (wave none_).hdr.count ∧
    (let q := at_ { man true none_ with trap := { Trap.reset with inh := true, code := 3, hidden := some hid } } 0
     (busy q).Issues q ∧ q.res.trap.inh = true ∧ q.res.trap.emu = false ∧ ((busy q).coreAt 0).mq = [] ∧ q.res.trap.hidden = some hid) ∧
    (∀ id, hid.point ≠ .engine id) ∧ ({ hid with point := .engine 4 } : Hidden).point = .engine 4 ∧ (wave none_).res.trap.inh = false ∧
    ({ Trap.reset with inh := true, emu := true } : Trap).emu = true ∧
    (let m := { newMat (busy moving) moving (.acrd .always 0 (.imm 0) 0) 0 with inHandler := true }
     m.rid = (wave none_).res.rid ∧ m.inHandler = true ∧ (rowOpOf m.instr).isSome = true) := by
  refine ⟨rfl, ⟨issues_of rfl, rfl, rfl, rfl, rfl⟩, ?_, rfl, rfl, rfl, rfl, rfl, rfl⟩
  intro id h
  cases h

/-! ### Hypotheses that are met: events of the table -/

/-- One resident, standing, nobody issuing. -/
def standing (r : Resident) : State := { quiet with residents := [r], contexts := [{ ctx7 with saveAreas := [(0x100000, 0x100000)], fwait := 1 }] }

/-- A wave with a load on its way; a wide thread with a porch entry whose data is read when it arrives. -/
def awaiting : Resident := { man true none_ with loads := [⟨5, 1, [⟨.v 0 1, 7, false⟩], []⟩], flags := (List.replicate 12 0).set 1 1 }
def porched : Resident := { man false none_ with porch := [⟨6, 9, 0, 0, [.s 8], 0x8000, 4, none, false, none, false, .none, false⟩] }

theorem test_meets_landings : (standing awaiting).resAt 2 = some awaiting ∧ Stands (standing awaiting) awaiting ∧
    (awaiting.loads.find? fun x => x.id == 5) = some ⟨5, 1, [⟨.v 0 1, 7, false⟩], []⟩ ∧ (∀ l ∈ awaiting.loads, l.id ≠ 4) ∧
    (standing porched).resAt 2 = some porched ∧ Stands (standing porched) porched ∧
    (porched.porch.find? fun x => x.id == 6).isSome = true ∧ (∀ c ∈ ((standing porched).coreAt 0).cq, c.id ≠ 6) ∧ porched.heldCopies = [] ∧
    (standing porched).checkLane ((standing porched).who porched) 0 0x8000 4 = .ok 0x1F ∧ leafPk 0x1F = false :=
  by unfold Stands; decide

/-- A wave that waits for a place in hamlet 0's merge table, which has room. -/
def stuck : Resident := { man true none_ with wait := .fault [.full 0 8 0] }

/-- A fault ring of 16 records at 0x9000, and a record to deliver. -/
def owing : State :=
  { quiet with host := { HostRegs.reset with fltRing := some ⟨0x9000, 16⟩ }, hamlets := [{ Hamlet.reset with records := [List.replicate 32 1] }] }

theorem test_meets_fault_waits : PlaceFree (standing stuck) 0 stuck (.full 0 8 0) ∧ (standing stuck).resAt 2 = some stuck ∧ Stands (standing stuck) stuck ∧
    (let s := { standing stuck with timebase := 10000 }
     700 * (s.ctxOf stuck).fwait.toNat ≠ 0 ∧ 700 * (s.ctxOf stuck).fwait.toNat < s.timebase - stuck.waitSince ∧
     s.saveNeed stuck.launch.ctx [stuck] [] ≤ (s.ctxOf stuck).saveBytes ∧ (quiet.ctxOf stuck).saveBytes < quiet.saveNeed 7 [stuck] []) ∧
    owing.host.fltRing = some ⟨0x9000, 16⟩ ∧ (owing.hamAt 0).records = [List.replicate 32 1] ∧ owing.ringRoom .phys ⟨0x9000, 16⟩ = true ∧
    Memory.wf owing.mem = true ∧ (∀ a, a < hostBase → owing.lostLine (hashSlice a) a = false) :=
  by
    refine ⟨⟨8, 0, rfl, .inr (by decide)⟩, by decide, by unfold Stands; decide, by decide, rfl, rfl, by decide, by decide, ?_⟩
    exact fun a _ => by simp [State.lostLine, owing, quiet, State.reset]

/-- An entry that the host may answer, and a resident that waits for it. -/
theorem test_meets_retry : let s := { standing { man true none_ with wait := .fault [.entry 0 4] } with hamlets := [{ Hamlet.reset with merge := [⟨4, 0, 7, 8, 0⟩] }] }
    (∃ m ∈ (s.hamAt 0).merge, m.entry = 4) ∧ (s.resolve 0 4 false).2.2.residents.map (fun r => r.wait) = [.none] := by decide +kernel

/-- A full divergence stack. -/
theorem test_meets_full_stack : let q := at_ { split1 with div := List.replicate 8 ⟨0x2000, 0xFFFF, 1, 0x3000⟩ } 0
    8 ≤ q.res.div.length ∧ predOk q.res .always = true ∧ q.commit = false ∧ GoodTarget (fromHeader q (7 : BitVec 32).toInt) := by
  refine ⟨by decide, by decide, rfl, ?_⟩
  unfold GoodTarget; decide

/-! Engine work: the command a copy makes, at the head of the queue of core 0. -/

def engaged (c : CopyCmd) : State := { quiet with cores := [{ Core.reset with cq := [c] }], residents := [moving.res] }

/-- The command an instruction makes, in a state of progress. -/
def command (i : Instr) (f : CopyCmd → CopyCmd) : CopyCmd :=
  match copyOf (busy moving) moving i with
  | some o => f { o.cmd with id := 4 }
  | none => newCopy (busy moving) moving i 0 0 (fun _ => 0) false [] []

theorem test_meets_copy_work :
    (let c := command (.cpy .always 0 2 8 false .g .g false) id
     AtWork (engaged c) 0 c ∧ c.state = .queued ∧ c.ring = none) ∧
    (let c := command (.cpy .always 0 2 8 false .g .g false) fun c => { c with state := .running, total := 1 }
     AtWork (engaged c) 0 c ∧ copySpaces c.instr = some (.g, .g) ∧ c.prog < c.total ∧ c.overlapping = false ∧
     c.pieces[0]? = some (0x8000, 64, 0x8080) ∧ (engaged c).engCheck ((engaged c).cmdWho 0 c.rid c.reeve) .g c.uid true false [(0x8000, 64)] = .ok ∧
     movesUnits c.instr = true) ∧
    (let c := command (.ccrc .always 0 2 8 true .g .g) fun c => { c with state := .running, total := 1, prog := 1 }
     AtWork (engaged c) 0 c ∧ c.prog = c.total ∧
     (engaged c).engCheck ((engaged c).cmdWho 0 c.rid c.reeve) .g c.uid true false [(c.x, 4)] = .ok) ∧
    (let c := command (.cred .always 0 2 8 false .max .f32) fun c => { c with state := .running }
     AtWork (engaged c) 0 c ∧ ¬ ∃ g ∈ (engaged c).peerGroups, g.group = c.b2.toNat) ∧
    (let c := command (.jdec .always 0 false) fun c => { c with state := .running }
     AtWork (engaged c) 0 c ∧ (engaged c).engCheck ((engaged c).cmdWho 0 c.rid c.reeve) .g c.uid true false [(c.x + 48, 16)] = .ok) := by
  unfold AtWork
  and_intros <;> decide

theorem test_meets_copy_waits : let c := command (.cpy .always 0 2 8 false .g .g false) fun c => { c with state := .faultWait (.refused (illegalOf 0 0)) }
    AtWork (engaged c) 0 c ∧ c.state ≠ .queued ∧ MustFollow (engaged c) 0 c c c.src c.dst := by
  refine ⟨by unfold AtWork; decide, by decide, .inr ⟨_, List.mem_singleton.2 rfl, _, List.mem_append_right _ (List.mem_singleton.2 rfl), .inl ⟨by decide, by decide, ?_⟩⟩⟩
  unfold Shares; decide

/-- An operation of the matrix engine at the head of the queue of core 0. -/
def computing (m : MatCmd) : State :=
  { quiet with cores := [{ Core.reset with mq := [m] }], residents := [moving.res], contexts := [{ ctx7 with descs := [(0, fp16s), (1, fp16g)], brambles := [⟨true, false, false, true, 0, fp16s, 0, 0, 0, 0⟩] }] }

/-- An `mma` of four groups in a state of progress, and a row transfer. -/
def product (f : MatCmd → MatCmd) : MatCmd :=
  f { newMat (described moving) moving (.mma .always 0 1 (.regs 12) false 0 true) 0 with id := 4, ta := fp16s, tb := fp16g, kcount := 64, total := 4, flag := some 1 }
def rowed (i : Instr) (vals : List (Nat × List Word)) : MatCmd := { newMat (described moving) moving i 0 with id := 4, vals := vals, row := 1 }

theorem alone (m : MatCmd) (h : m.uid = 3) : TurnHasCome (computing m) 0 m := by
  refine ⟨?_, ?_⟩
  · rintro ⟨u, hu, x, hx, -⟩
    have : (computing m).unitOf m.uid 0 = some unit7 := by rw [h]; rfl
    rw [this] at hu
    cases hu
    cases hx
  · intro x hx
    simp [computing, State.coreAt, quiet] at hx

set_option maxRecDepth 8000 in
theorem test_meets_matrix_work : (let m := product id
     MatAtWork (computing m) 0 m ∧ m.flag = some 1 ∧ m.prog < m.total ∧ TurnHasCome (computing m) 0 m ∧
     (let w := (computing m).cmdWho 0 m.rid m.reeve
      (computing m).engCheck w .s m.uid false false (m.ta.blockReads 0 64 0 16) = .ok ∧
      (computing m).engCheck w .g m.uid false false (m.tb.blockReads 0 16 0 64) = .ok)) ∧
    (let m := product fun m => { m with state := .running, prog := 4 }
     MatAtWork (computing m) 0 m ∧ m.prog = m.total ∧ (computing m).resAt m.rid = some moving.res ∧
     ((List.range 8).filter fun j => match ((computing m).ctxOf moving.res).brambles[j]? with
      | some b => b.valid && b.acc && b.num == m.tile
      | none => false) = [0]) ∧
    (let m := rowed (.acwr .always 0 (.imm 1) 0) [(0, [1, 2]), (15, [3, 4])]
     MatAtWork (computing m) 0 m ∧ m.state = .queued ∧ TurnHasCome (computing m) 0 m ∧
     (∀ v ∈ m.vals, v.2.length = 2 ∧ (v.1 + 1) * 2 ≤ 64) ∧ (m.vals.map Prod.fst).Nodup) ∧
    (let m := rowed (.acrd .always 0 (.imm 1) 0) [(0, []), (15, [])]
     MatAtWork (computing m) 0 m ∧ (computing m).resAt m.rid = some moving.res ∧ moving.res.simt = true ∧ m.due = 0) :=
  ⟨⟨by unfold MatAtWork; decide, by decide, by decide, alone _ rfl, by decide, by decide⟩,
    ⟨by unfold MatAtWork; decide, by decide, by decide, by decide⟩,
    ⟨by unfold MatAtWork; decide, by decide, alone _ rfl, by decide, by decide⟩, by unfold MatAtWork; decide, by decide, by decide, by decide⟩
/-! ### Hypotheses that are met: placement, the Rota, timers, the host -/

/-- A resident that is finished, with its launch, and one that is not. -/
def over_ : Resident := { man true none_ with ended := true }
def ending (r : Resident) : State := { standing r with running := [⟨r.launch, 1, 1, [], [], true, false⟩] }

/-- Ready records in the hamlet's queue, next to a core with an empty block. -/
def ready (s : State) : QRec := { s.newRec (soloLaunch 4 7 true) 0 true false none 3 with qid := 8 }
def waiting : State := { quiet with hamlets := [{ Hamlet.reset with queue := [⟨0, [ready quiet]⟩] }] }

theorem test_meets_placement : (ending over_).residents.find? (fun x => x.rid == 2) = some over_ ∧ Finished (ending over_) over_ ∧ Sound (ending over_) 0 2 ∧
    ¬ Finished (ending (man true none_)) (man true none_) ∧ ClocksRun (ending over_) ∧
    (ending over_).runningOf 1 = some ⟨over_.launch, 1, 1, [], [], true, false⟩ ∧ over_.launch.residents ≤ 1 ∧ (ending over_).barriers = [] ∧
    ((waiting.hamAt 0).queue.flatMap Block.recs).filter (fun e => e.ready && decide (0 < waiting.turns 0 e.launch.tenant)) = [ready quiet] ∧
    (waiting.allRecs.map QRec.qid).Nodup ∧
    ClocksRun waiting ∧ waiting.stage = 2 :=
  by
    unfold Finished Sound ClocksRun
    decide

/-- A row of 10 us in which tenant 3 holds core 0 and tenant 1 is its beneficiary. -/
def row3 : Row :=
  { dur := 10, hedge := 2, strict := false, bval := true, benef := 1,
    encls := (List.replicate 16 (Encl.mk 0 [] false 0 0 [])).set 3 ⟨1, [], true, 0, 0xFFFF, []⟩ }

/-- The Rota in that row, since time 0. -/
def turning (t : Nat) (r : Resident) : State :=
  { standing r with timebase := t, rota := { Rota.reset with state := 2, rows := [row3] } }

theorem test_meets_rota : (turning 7000 (man true none_)).rota.rows[0]? = some row3 ∧ ClocksRun (turning 7000 (man true none_)) ∧
    0 + 700 * row3.dur ≤ 7000 ∧
    MustLeave (man true none_) (some row3) none ∧
    (let r := { man true none_ with takeOff := some ⟨7700, true, [0]⟩ }
     (turning 7000 r).resAt 2 = some r ∧ Stands (turning 7000 r) r ∧ offNeed (turning 7000 r) r ≤ ((turning 7000 r).ctxOf r).saveBytes ∧
     r.place = 0 ∧ r.ended = false ∧ (∀ k ∈ r.flags, k = 0)) ∧
    (let r := { man true none_ with takeOff := some ⟨700, false, [0]⟩ }
     (turning 7000 r).resAt 2 = some r ∧ 700 ≤ (turning 7000 r).timebase ∧ r.stop ≠ .saveShort ∧
     offNeed (turning 7000 r) r ≤ ((turning 7000 r).ctxOf r).saveBytes) ∧
    row3.benefOf 3 = some 1 ∧ (∃ e, row3.encls[3]? = some e ∧ e.val = true ∧ e.hasResources = true) :=
  ⟨by decide, by unfold ClocksRun; decide, by decide, ⟨0, by decide, .inl (by decide)⟩, ⟨by decide, by unfold Stands; decide, by decide, rfl, rfl, by decide⟩,
    ⟨by decide, by decide, by decide, by decide⟩, by decide, _, rfl, rfl, by decide⟩

theorem test_meets_idle_tenant : ({ turning 6300 (man true none_) with residents := [] } : State).whollyIdle row3 3 = true := by decide +kernel

theorem test_meets_timers : ({ ctx7 with wden := true, wdlimit := 5, wdcnt := 5 } : Context).wden = true ∧
    ({ quiet with contexts := [{ ctx7 with wden := true, wdlimit := 5, wdcnt := 5 }] } : State).ctxAt 7 =
      some { ctx7 with wden := true, wdlimit := 5, wdcnt := 5 } ∧
    (let s := { quiet with cores := [{ Core.reset with carveReq := 2, carvePend := true }] }
     0 < s.cores.length ∧ (s.coreAt 0).carvePend = true ∧ ∀ u ∈ s.units, ¬ min (spadBytes (s.coreAt 0).carveCur) (spadBytes (s.coreAt 0).carveReq) < u.base + u.size) ∧
    ([⟨0, 10, ⟨0x9000, 16⟩, 0, 0⟩, ⟨1, 10, ⟨0xA000, 16⟩, 0, 0⟩].map fun x : Sampler => x.tenant).Nodup := by decide

/-- A place for completions at 0xB000. -/
def hosted : State := { quiet with host := { HostRegs.reset with cplBase := 0xB000, ringSz := 15, winBase := 0x8000 } }

theorem test_meets_host : Memory.wf hosted.mem = true ∧ Served hosted 0xB000 16 ∧ hosted.rota.state = 0 ∧ hosted.stage = 2 ∧
    hosted.host.winBase + 8 < hostBase ∧ hosted.lostLine (hashSlice 0x8008) 0x8008 = false ∧
    CanAnswer hosted (.freeze ⟨5, 7⟩ ⟨0, 2, 0⟩) ∧ headOf (.freeze ⟨5, 7⟩ ⟨0, 2, 0⟩) = some ⟨5, 7⟩ ∧ hosted.ctxAt 7 = some ctx7 ∧ hosted.ctxAt 8 = none ∧
    (commandEffect (.freeze ⟨5, 7⟩ ⟨0, 2, 0⟩) hosted ctx7).isSome = true ∧ GoodHandler 0x5000 ∧ ¬ GoodHandler 4 ∧
    (wideWritten hosted 0x0100 0x12345678).isSome = true := by
  refine ⟨by decide, fun a _ _ => ⟨by unfold hostBase; omega, by simp [State.lostLine, hosted, quiet, State.reset]⟩, rfl, rfl, by decide, by decide, ⟨by decide, by decide, fun h => ?_⟩, rfl, by decide, by decide, by decide, ?_, ?_, rfl⟩
  · exact absurd h (by decide)
  all_goals unfold GoodHandler; decide

theorem test_meets_world : (quiet.coreAt 0).failed = false ∧ (0 : Nat) ∉ quiet.failedSlices ∧ quiet.stage ≠ 3 ∧
    (standing (man true none_)).resAt 2 = some (man true none_) ∧ ({ quiet with links := 1 } : State).links.getLsbD 0 = true := by decide

/-- Lane 15 of `wave2` at 0x8078 + 4: no multiple of 8. -/
theorem test_meets_misaligned : ∃ x, accessOf (busy wave2) wave2 (.ldG64 .always (.v 4) (.v 2) 0 4) x ∧ (∃ k ∈ x.lanes, x.at_ k % x.n ≠ 0) ∧
    (busy wave2).Issues wave2 ∧ wave2.commit = false :=
  ⟨_, .inl ⟨_, rfl, by unfold MemOp.LoadPlace; decide, by unfold MemOp.DstOk; decide, by decide, by decide, by decide, by unfold Resident.Clean; decide, rfl⟩,
    ⟨15, by decide, by decide⟩, issues_of rfl, rfl⟩

theorem test_meets_round_trip : (Instr.iadd .always (.v 3) (.v 1) (.s 2) true).wf = true ∧
    (∃ w, encode (.iadd .always (.v 3) (.v 1) (.s 2) true) = some w ∧ w < 2 ^ 64 ∧ (decodeWord w).isOk = true) :=
  ⟨by decide, _, rfl, by decide, by decide⟩
/-! ### A step -/

/-- The resident that a step of a state leaves under a number. -/
def afterStep (s : State) (rid : Nat) : Option Resident :=
  match step s with
  | .next t => t.resAt rid
  | _ => none

/-- The word of `movi v4, 0xDEADBEEF` after reset (R56, R283, R303). -/
def placed_ : State := State.reset.withFetchWord 64 (wordL 0x006 7 4 0 0xDEADBEEF)

theorem test_step_runs_a_word : (afterStep placed_ 2).map (fun r => (r.regs.read (.v 15 4), r.hdr, r.place)) = some (0xDEADBEEF, 0x1010, 0) := by
  decide +kernel

/-- Its resident. -/
def runner : Resident := (placed_.resAt 2).getD over_

theorem test_meets_a_turn : TurnOf placed_ [] runner ∧ runner.simt = true ∧
    (({ placed_ with agenda := [] } : State).clauseWords (dueWritten runner)).1 = .words [2 ^ 48, BitVec.ofNat 64 (wordL 0x006 7 4 0 0xDEADBEEF)] ∧
    (dueWritten runner).interlocked (.movi .always (.v 4) 0xDEADBEEF) = false ∧
    (∃ h, decodeClauseHeader (2 ^ 48) = .ok h ∧ (dueWritten runner).setsOk h = true ∧ h.stile = false ∧ (dueWritten runner).waitOk h.waitMask = true) := by
  unfold TurnOf
  and_intros
  all_goals first
    | decide +kernel
    | exact ⟨_, rfl, by decide +kernel⟩

/-! ### Hypotheses that are met: further clauses -/

/-- `standing` with its first GiB mapped by another leaf. -/
def mappedBy (leaf : DWord) (r : Resident) : State := { standing r with hamlets := [{ Hamlet.reset with tlb := [⟨0, 7, 0, 2 ^ 30, leaf⟩] }] }

/-- Data of a waiting load on a packed page (pk is bit 7), and on one without rd (bit 2). -/
theorem test_meets_late_faults : (mappedBy 0x9F porched).checkLane ((mappedBy 0x9F porched).who porched) 0 0x8000 4 = .ok 0x9F ∧ leafPk 0x9F = true ∧
    (mappedBy 0x1B porched).checkLane ((mappedBy 0x1B porched).who porched) 0 0x8000 4 = .bad ∧
    (mappedBy 0x1B porched).xlat ((mappedBy 0x1B porched).who porched) 0x8000 = .ok 0x1B (2 ^ 30) ∧ leafPk 0x1B = false := by decide

/-- A wide thread that waits for a load of its porch to land, longer than %fwait. -/
theorem test_meets_landing_waits : let r := { man false none_ with wait := .landing [.entry 0 4] }
    let s := { standing r with timebase := 10000 }
    s.resAt 2 = some r ∧ r.wait = .landing [.entry 0 4] ∧ 700 * (s.ctxOf r).fwait.toNat ≠ 0 ∧ 700 * (s.ctxOf r).fwait.toNat < s.timebase - r.waitSince ∧
    s.saveNeed r.launch.ctx [r] [] ≤ (s.ctxOf r).saveBytes := by decide

/-- Commands at work whose units are read-modify-writes, or overlap: every check of theirs passes. -/
def running_ (i : Instr) (f : CopyCmd → CopyCmd) : CopyCmd := command i fun c => f { c with state := .running, total := 2 }

theorem test_meets_overlaps : let c := running_ (.cpy .always 0 0 8 false .g .g false) id
    AtWork (engaged c) 0 c ∧ c.overlapping = true ∧ c.buffer = [] ∧ c.pieces[0]? = some (0x8000, 64, 0x8000) ∧
    (engaged c).engCheck ((engaged c).cmdWho 0 c.rid c.reeve) .g c.uid false true c.srcRows = .ok ∧
    (engaged c).engCheck ((engaged c).cmdWho 0 c.rid c.reeve) .g c.uid true false c.dstRows = .ok :=
  by unfold AtWork; decide

theorem test_meets_read_modify_writes :
    (let c := running_ (.cacc .always 0 2 8 false .g .g false .add .bf16) id
     let w := (engaged c).cmdWho 0 c.rid c.reeve
     AtWork (engaged c) 0 c ∧ c.overlapping = false ∧ (engaged c).engCheck w .g c.uid false true [(0x8080, 2)] = .ok ∧
     (engaged c).engCheck w .g c.uid true false [(0x8000, 2)] = .ok ∧ (engaged c).vaPoisoned w 0x8000 2 = false) ∧
    (let c := running_ (.ccas .always 0 6 16 false .g true 0) id
     let w := (engaged c).cmdWho 0 c.rid c.reeve
     AtWork (engaged c) 0 c ∧ (engaged c).engCheck w .g c.uid false true [(c.x, 8)] = .ok ∧ (engaged c).engCheck w .g c.uid true false [(c.x, 8)] = .ok) ∧
    (let c := running_ (.ccrc .always 0 2 8 true .g .g) id
     AtWork (engaged c) 0 c ∧ (engaged c).engCheck ((engaged c).cmdWho 0 c.rid c.reeve) .g c.uid false false [(c.y, 1)] = .ok) :=
  by unfold AtWork; decide

/-- A copy into ring 3, and a copy of tiles between descriptors 0 and 1 in QT8: 8 by 8 elements, the payload at 0x8000 or 0x8400. -/
def filling : CopyCmd := { newCopy (busy moving) moving (.cpy .always 4 2 8 false .s .g false) 0 0x8080 (fun k => if k = 3 then 0x13 else 64) true
    [rangeOf moving .g 0x8080 64] [] with id := 4 }
def filledBy (g : Ring) : State := { engaged filling with cores := [{ Core.reset with cq := [filling], rings := (List.replicate 16 Ring.off).set 3 g }] }
def engineRing : Ring := { ring3 with cfg := ring3.cfg - 2 ^ 7 }

theorem test_meets_ring_copies : AtWork (filledBy engineRing) 0 filling ∧ filling.state = .queued ∧ filling.ring = none ∧ filling.ringOf = some 3 ∧
    (filledBy engineRing).ringOf 0 3 = engineRing ∧ engineRing.cfg.extractLsb' 8 11 ≠ 0 ∧ engineRing.cfg.getLsbD 7 = false ∧ 0 < engineRing.free ∧
    (filledBy { engineRing with free := 0 }).ringOf 0 3 = { engineRing with free := 0 } :=
  by unfold AtWork; decide

def qt8 (payload header : Nat) : Desc := { Desc.zero with d0 := BitVec.ofNat 64 payload, d1 := 0x0000000700070007, d2 := 64 * 2 ^ 32, d3 := BitVec.ofNat 64 header }
def tiling (commit half : Bool) : CopyCmd := { newCopy (described moving) moving (.cpyt .always 0 1 false false commit) 0 0 (fun _ => 0) false [] [] with
  id := 4, state := .running, total := 1, half := half, td := qt8 0x8000 0x8200, ts := qt8 0x8400 0x8600 }

theorem test_meets_tile_copies : ∀ commit half, (let c := tiling commit half
    let w := (engaged c).cmdWho 0 c.rid c.reeve
    AtWork (engaged c) 0 c ∧ c.td.fmt.isQuilt = true ∧ c.prog < c.total ∧
    (engaged c).engCheck w .g c.uid false false (tileSources c.td c.ts false c.prog) = .ok ∧
    (engaged c).engCheck w .g c.uid true false (c.td.tileRanges c.prog) = .ok ∧ (engaged c).engCheck w .g c.uid true false [(c.td.headerAddr c.prog, 8)] = .ok) := by
  unfold AtWork; decide +kernel

/-- A collective over a group of ranks 0 to 2, which use link 0: what its peers send, and a state of it. -/
def sent (k n : Nat) (op : RedOp) : CredPart := ⟨k, n, op, .f32, List.replicate 256 0⟩
def collecting : CopyCmd := command (.cred .always 0 2 8 false .max .f32) fun c => { c with state := .running }
def grouped (c : CopyCmd) (links : BitVec 18) (t : Nat) : State :=
  { engaged c with links := links, timebase := t, peerGroups := [⟨0, [0x100, 0x101, 0x102]⟩] }

theorem test_meets_collectives : let c := collecting
    let s := grouped c 1 0
    AtWork s 0 c ∧ groupNamed s c = some ⟨0, [0x100, 0x101, 0x102]⟩ ∧ c.linkLost = false ∧ linkLacks s ⟨0, [0x100, 0x101, 0x102]⟩ = false ∧
    linkLacks (grouped c 0 0) ⟨0, [0x100, 0x101, 0x102]⟩ = true ∧ s.timebase < c.since + 700 * 65535 ∧
    c.since + 700 * 65535 ≤ (grouped c 1 (700 * 65535)).timebase ∧
    (let there := [sent 1 64 .max, sent 2 64 .max].map CredPart.rank
     there.Nodup ∧ 0 ∉ there ∧ (∀ k ∈ [0, 1, 2], k = 0 ∨ k ∈ there) ∧ (∀ p ∈ [sent 1 64 .max, sent 2 64 .max], p.count = c.b0.toNat ∧ p.op = .max ∧ p.ty = .f32) ∧
     ¬ (sent 2 64 .add).op = .max ∧ 0 ∉ [sent 2 64 .max].map CredPart.rank ∧ 1 ∉ [sent 2 64 .max].map CredPart.rank ∧
     [sent 0 64 .max, sent 1 64 .max, sent 2 64 .max].Pairwise fun a b => a.rank < b.rank) ∧
    (let w := s.cmdWho 0 c.rid c.reeve
     s.engCheck w .g c.uid false false [(c.y, 256)] = .ok ∧ s.engCheck w .g c.uid true false [(c.x, 256)] = .ok) := by
  refine ⟨by unfold AtWork; decide, ?_⟩
  decide +kernel

/-- A row transfer of a wide thread, for a resident in a handler and one that is not. -/
theorem test_meets_wide_rows : let m := { rowed (.acrd .always 0 (.imm 1) 0) [(0, []), (15, [])] with due := 20 }
    MatAtWork (computing m) 0 m ∧ TurnHasCome (computing m) 0 m ∧ (computing m).resAt m.rid = some moving.res ∧ 0 < m.due ∧ moving.res.trap.inh = false ∧
    (∀ x ∈ (computing m).allRes, x.rid = m.rid → x = moving.res) ∧
    (let r := { moving.res with trap := { moving.res.trap with inh := true } }
     let s := { computing m with residents := [r] }
     s.resAt m.rid = some r ∧ m.inHandler = false ∧ r.trap.inh = true) :=
  ⟨by unfold MatAtWork; decide, alone _ rfl, by decide, by decide, rfl, by decide, by decide⟩

set_option maxRecDepth 4000 in
/-- The ranges of a `cpyt` from memory into the scratchpad pass at issue. -/
theorem test_meets_cpyt_ranges : ∃ o, copyOf (described moving) moving (.cpyt .always 0 1 false false false) = some o ∧ o.passes := by
  refine ⟨_, rfl, ?_, ?_, by unfold Unwatched; decide, fun h => absurd h (by decide)⟩
  · have : (((described moving).ctxOf moving.res).desc 0).planes = [(0x100, 8192)] := by decide
    intro x hx
    rw [this] at hx
    simp at hx
    subst hx
    exact ⟨by decide, fun h => absurd h (by decide)⟩
  · have : (((described moving).ctxOf moving.res).desc 1).planes = [(0x8000, 8192)] := by decide
    intro x hx
    rw [this] at hx
    simp at hx
    subst hx
    intro a ha
    have hc : ∀ a ∈ [0x8000, 0x8000 + 8192 - 1], (described moving).checkHome ((described moving).who moving.res) 0 a = .ok 0x1F := by decide
    exact ⟨by rw [show (if false = true then 1 else 0 : Nat) = 0 from rfl, hc a ha]; decide, fun leaf _ _ h => absurd h (by decide)⟩

/-- Core 0 with records in its queue, nothing resident, and the first GiB mapped for the placement hardware. -/
def placing (es : List QRec) (dueNow : Bool) : State :=
  { quiet with units := [], cores := [{ Core.reset with queue := [⟨0, es⟩], roundDue := dueNow }],
               mem := [(0x10000, 1), (0x10001, 1), (0x10002, 1), (0x10100, 0x1F)] }

/-- The state a round looks at. -/
def looked (s : State) : State :=
  let s0 := { s with cores := modAt s.cores 0 fun c => { c with roundDue := false, roundAt := s.timebase } }
  s0.mapRecs fun e => some (classed (s0.refresh e) s.timebase)

/-- A record that no core can take, one that has a reservation, and the launch that is read for `ready quiet`: memory holds zeros there. -/
def huge : QRec := { ready quiet with launch := { soloLaunch 4 7 true with sblk := 200 }, rounds := 1023 }
def readLaunch : Launch := { soloLaunch 4 7 true with code := 0, frame := 0, levels := [⟨0, false, 1⟩], cbank := 0, cbsize := 0 }
def hugeLaunch : Launch := { readLaunch with sblk := 200 }
def first_ : QRec := { ready quiet with qid := 5, cls := 3, reserving := true, waited := 2800000, launch := { readLaunch with lid := 6 }, age := 1 }
def asRead : QRec := { ready quiet with launch := readLaunch }

theorem room_at (s : State) (h : s.units = []) (h7 : (s.coreAt 0).spadLimit = 1572864) : HasRoom s 0 262144 64 := by
  refine ⟨⟨0, by decide, by rw [h7]; decide, fun u hu => ?_⟩, by rw [h]; decide⟩
  rw [h] at hu
  cases hu

theorem slot_at (s : State) (h1 : s.residents = []) (h2 : s.units = []) (h3 : s.rowNow = none)
    (h6 : ∀ q ∈ [0, 1, 2, 3], s.holder 0 0 q = some 0) : SlotTakes s readLaunch 0 0 0 := by
  unfold SlotTakes
  rw [h1, h2, h3]
  exact ⟨by decide, by simp, by simp, by decide, by decide, fun q hq => ⟨h6 q hq, by simp, by simp⟩⟩

theorem fits_at (s : State) (h1 : s.residents = []) (h2 : s.units = []) (h3 : s.rowNow = none) (h4 : s.running = [])
    (h6 : ∀ q ∈ [0, 1, 2, 3], s.holder 0 0 q = some 0) (h7 : (s.coreAt 0).spadLimit = 1572864) : Fits s readLaunch 0 0 0 0 := by
  refine ⟨by decide, slot_at s h1 h2 h3 h6, .inr ?_, fun k x _ => ?_⟩
  · rw [show savedFor s readLaunch 0 0 = none by simp [savedFor, h2]]
    exact room_at s h2 h7
  · simp [h1, State.homeOf, State.runningOf, h4]

theorem test_meets_rounds : let s := placing [ready quiet] true
    ClocksRun s ∧ s.stage = 2 ∧ (s.coreAt 0).roundDue = true ∧ (looked s).candidates 0 = [asRead] ∧ asRead.rid = none ∧
    (∀ x ∈ asRead.launch.levels, x.coRes = true → x.domain = 0) ∧ (looked s).reread asRead.launch = some readLaunch ∧
    (readLaunch.residentAt 0).1 = 0 ∧ (∀ x ∈ (looked s).allRecs, x.reserving = true → x.launch.lid = 4) ∧ asRead.launch.lid = 4 ∧ Fits (looked s) readLaunch 0 0 0 0 ∧
    ¬ (((placing [ready quiet] false).coreAt 0).roundDue = true ∨ 64 ≤ (placing [ready quiet] false).timebase) := by
  have hf : Fits (looked (placing [ready quiet] true)) readLaunch 0 0 0 0 :=
    fits_at _ rfl rfl rfl rfl (by decide +kernel) (by decide +kernel)
  have hr : (looked (placing [ready quiet] true)).candidates 0 = [asRead] ∧
      (looked (placing [ready quiet] true)).reread asRead.launch = some readLaunch := by decide +kernel
  exact ⟨by unfold ClocksRun; decide, rfl, by decide, hr.1, rfl, by decide, hr.2, by decide, by decide +kernel, rfl, hf, by decide⟩

theorem test_meets_counts : let s := placing [huge] true
    ∃ e, (looked s).candidates 0 = [e] ∧ e ∈ ((looked s).coreAt 0).queue.flatMap Block.recs ∧ 1023 ≤ e.rounds ∧ (looked s).residents = [] ∧
    ∀ l, (looked s).reread e.launch = some l → ∀ lg slot, ¬ Fits (looked s) l (l.residentAt 0).1 0 lg slot := by
  refine ⟨{ huge with launch := hugeLaunch }, by decide +kernel, by decide +kernel, by decide, rfl, fun l hl lg slot h => ?_⟩
  have hk : (looked (placing [huge] true)).reread hugeLaunch = some hugeLaunch := by decide +kernel
  cases (hk.symm.trans hl)
  exact absurd (Nat.le_trans (Nat.le_add_left _ _) h.2.1.2.2.2.1) (by decide)

theorem test_meets_reservations : Reserves (looked (placing [first_, ready quiet] true)) 0 first_ asRead := by
  have hp : CouldHold (looked (placing [first_, ready quiet] true)) 0 first_ := by
    show (State.placeUnit _ _ _ _).isSome = true
    decide +kernel
  have hr : first_ ∈ (looked (placing [first_, ready quiet] true)).allRecs ∧
      ∀ y ∈ (looked (placing [first_, ready quiet] true)).allRecs, y.reserving = true → y.launch.tenant = asRead.launch.tenant →
        y = first_ ∨ first_.age < y.age ∨ first_.age = y.age ∧ first_.launch.va < y.launch.va := by decide +kernel
  exact ⟨hr.1, rfl, rfl, by decide, hr.2, hp⟩

/-- A debit of 4 us that row 3 pays to tenant 3, before the row's end; tenant 3's own work, or none. -/
theorem test_meets_debits : let d : Debit := ⟨3, 0, [0], 4, true⟩
    let s := { turning 6300 (man true none_) with rota := { Rota.reset with state := 2, rows := [row3], debits := [d] } }
    s.rota.rows[s.rota.row]? = some row3 ∧ s.timebase < s.rota.since + 700 * row3.dur ∧ s.rota.debits = [d] ∧ Pays row3 d ∧
    s.rota.since + 700 * d.us ≤ s.timebase ∧ row3.benefOf d.tenant = some 1 ∧
    ({ turning 6300 { man true none_ with launch := { soloLaunch 1 7 true with tenant := 3 } } with
       contexts := [{ ctx7 with tenant := 3 }] } : State).whollyIdle row3 3 = false ∧
    (let u : State := { quiet with rota := { Rota.reset with state := 3 } }
     u.rota.rows = [] ∧ ClocksRun u ∧ ∀ r ∈ u.allRes, r.takeOff = none) :=
  ⟨by decide, by decide, rfl, by unfold Pays; decide, by decide, by decide, by decide +kernel, rfl, by unfold ClocksRun; decide, by decide⟩

theorem no_encl (dur t k lo n : Nat) : enclField [dur] t k lo n = 0 := by
  simp [enclField, rowField]

/-- A row of 100 us with nobody in it passes every check, and one of 0 us fails the first. -/
theorem test_meets_row_checks (ways : Nat → Nat) : OutcomeIs [100] ways 0 ∧ OutcomeIs [] ways 1 := by
  have z : ∀ t k lo n, enclField [100] t k lo n = 0 := fun t k lo n => no_encl 100 t k lo n
  have hp : ∀ t x, ¬ HasPart [100] t x := by
    rintro t x ⟨-, ⟨k, -, rfl⟩, h⟩
    simp [partEntry, z] at h
  have hw : ∀ t c, ¬ HoldsWhole [100] t c := by
    rintro t c ⟨-, -, h⟩
    simp [z] at h
  have hq : ∀ t c lg q, ¬ HoldsPart [100] t c lg q := fun t c lg q ⟨x, h, _⟩ => hp t x h
  have hr : ∀ t, ¬ Present [100] t := by
    rintro t ⟨-, h⟩
    simp [z] at h
  have hc : ∀ t, ¬ HasCores [100] t := by
    rintro t (⟨c, h⟩ | ⟨c, lg, q, h⟩)
    · exact hw t c h
    · exact hq t c lg q h
  have hk : ∀ k, 1 ≤ k → ([100] : List Nat).getD k 0 = 0 := by
    intro k h
    rw [show k = (k - 1) + 1 by omega]
    rfl
  refine ⟨.inl ⟨rfl, fun k => ?_⟩, .inr ⟨.inl (by decide), fun k hk => ?_⟩⟩
  · match k with
    | 0 => exact id
    | 1 => simp [FailsCheck, rowField]
    | 2 => simp [FailsCheck, hp, hw, hq]
    | 3 => simp [FailsCheck, hp]
    | 4 => simp [FailsCheck, hr]
    | 5 =>
      simp only [FailsCheck, overTenants, z, hr, false_and, exists_false, or_false]
      decide
    | 6 =>
      simp only [FailsCheck, overTenants, z]
      decide
    | 7 =>
      rintro ⟨c, ns, ⟨t, x, h, -⟩, -⟩
      exact hp t x h
    | 8 =>
      rintro ⟨h, -⟩
      exact absurd h (by decide)
    | 9 =>
      rintro (h | ⟨k, hk', h⟩ | ⟨t, -, h⟩ | ⟨t, x, h, -⟩ | ⟨t, -, -, h⟩)
      · exact absurd h (by decide)
      · exact h (hk k (by omega))
      · simp [partEntry, z] at h
      · exact hp t x h
      · rcases h with h | h
        · exact hc t h
        · exact h (z _ _ _ _)
    | _ + 10 => exact id
  · match k, hk with
    | 0, _ => exact id

/-- A line in the L2, a tile and a scratchpad of a unit, a unit that has failed already, and a link that is up. -/
theorem test_meets_errors : ({ quiet with l2 := [⟨0, 0, 0, 0, 0x100, false⟩] } : State).inL2 (0x8000 / 128) = true ∧ quiet.inL2 (0x8000 / 128) = false ∧
    quiet.unitOf 3 0 = some unit7 ∧ unit7.tiles[0]? = some Tile.zero ∧ (3 : Nat) ∈ ({ quiet with failedSlices := [3] } : State).failedSlices ∧
    (7 : Nat) ∉ quiet.failedChannels ∧ (2 : Nat) ∉ (quiet.coreAt 0).failedLg ∧ quiet.links.getLsbD 0 = false ∧ (man true none_).away = .here := by decide

/-- A wave of threads 0 and 15, thread 15 with the last address of 32 bits that a load may have. -/
def far : Issue := at_ { man true (cells [(.v 15 1, 0xFFFFFFFC)]) with active := 0x8001 } 0

/-- Lane 15 of a scratchpad load beyond the allotment of 256 KiB, and an access to a page without rd. -/
theorem test_meets_denied : (∃ x, accessOf (busy far) far (.ldSp32 .always (.v 4) (.v 1) 0) x ∧ x.spad = true ∧ (∀ k ∈ x.lanes, ¬ x.at_ k % x.n ≠ 0) ∧
      (∃ k ∈ x.lanes, far.res.launch.spad * 256 < x.at_ k + x.n) ∧ (busy far).Issues far ∧ far.commit = false) ∧
    (let s : State := { busy wave2 with hamlets := [{ Hamlet.reset with tlb := [⟨0, 7, 0, 2 ^ 30, 0x1B⟩] }] }
     ∃ x, accessOf s wave2 (.ldG64 .always (.v 4) (.v 2) 0 0) x ∧ x.spad = false ∧ wave2.res.simt = true ∧ (∀ k ∈ x.lanes, ¬ x.at_ k % x.n ≠ 0) ∧
      (∀ k ∈ x.lanes, x.at_ k < 2 ^ 56 ∧ x.check s wave2 k = .bad ∧ s.packedAt (s.who wave2.res) (x.at_ k) = false) ∧ x.lanes ≠ [] ∧ s.Issues wave2) :=
  ⟨⟨_, .inr (.inr (.inl ⟨_, rfl, by unfold MemOp.LoadPlace; decide, by unfold MemOp.DstOk; decide, by decide, by unfold Resident.Clean; decide, rfl⟩)),
      rfl, by decide, ⟨15, by decide, by decide⟩, issues_of rfl, rfl⟩,
    ⟨_, .inl ⟨_, rfl, by unfold MemOp.LoadPlace; decide, by unfold MemOp.DstOk; decide, by decide, by decide, by decide, by unfold Resident.Clean; decide, rfl⟩,
      rfl, rfl, by decide, by decide, by decide, rfl, rfl⟩⟩

/-- After reset, a bundle of one word, `mark 1`, in the scalar slot of a wide thread. -/
def placedWide : State := State.reset.withFetchWord 64 ((encode (.mark .always 1)).getD 0)
def wideRunner : Resident := (placedWide.resAt 2).getD over_
def ofBundle : Fetched × State := (({ placedWide with agenda := [] } : State).setRes (dueWritten wideRunner)).bundleWords (dueWritten wideRunner)
def markWord : DWord := BitVec.ofNat 64 ((encode (.mark .always 1)).getD 0)

/-- Its header, and the issue that its op is given. -/
def wideHeader : Header := match decodeBundleHeader (2 ^ 47) with
  | .ok h => h
  | .error _ => Header.blank
def wideIssue : Issue := Issue.start ((dueWritten wideRunner).pastBundle wideHeader (2 ^ 47) [markWord]) 0x1000 wideHeader 0 31 (2 ^ 47)
def probed : Option State := match opsInOrder [(16, markWord, .mark .always 1)] (ofBundle.2.latch { wideIssue with probe := true }) with
  | .next t => some t
  | _ => none

theorem test_meets_a_bundle : TurnOf placedWide [] wideRunner ∧ wideRunner.simt = false ∧ ({ placedWide with agenda := [] } : State).rowStall (dueWritten wideRunner) = false ∧
    ((dueWritten wideRunner).porch.filter fun e => decide (e.due ≤ (dueWritten wideRunner).count)) = [] ∧
    ofBundle.1 = .words [2 ^ 47, markWord] ∧ (dueWritten wideRunner).hdr = 0x1000 ∧ decodeBundleHeader (2 ^ 47) = .ok wideHeader ∧ (dueWritten wideRunner).bundleOk wideHeader = true ∧
    bundleWordsOk wideHeader (dueWritten wideRunner).width [markWord] = true ∧ wideHeader.stile = false ∧ (dueWritten wideRunner).waitOk wideHeader.waitMask = true ∧
    decodeWord markWord.toNat = .ok (.mark .always 1) ∧ wideHeader.slots = [16] ∧ ofBundle.2.loadsOpen (dueWritten wideRunner) = [] := by
  unfold TurnOf
  and_intros
  all_goals first
    | decide +kernel
    | rfl

theorem test_meets_a_probe : ∃ t q, probed = some t ∧ t.iss = some q ∧ q.raised = [] ∧ q.bundleCauses (2 ^ 47) [markWord] = [] ∧ q.held = false ∧ q.faults = [] := by
  have h : (probed.bind fun t => t.iss).any (fun q => q.raised.isEmpty && (q.bundleCauses (2 ^ 47) [markWord]).isEmpty && !q.held && q.faults.isEmpty) = true := by
    decide +kernel
  cases hp : probed with
  | none => simp [hp] at h
  | some t =>
    cases hq : t.iss with
    | none => simp [hp, hq] at h
    | some q =>
      simp only [hp, hq, Option.bind_some, Option.any_some, Bool.and_eq_true, List.isEmpty_iff, Bool.not_eq_true'] at h
      exact ⟨t, q, rfl, hq, h.1.1.1, h.1.1.2, h.1.2, h.2⟩

/-- A line of code that the instruction cache holds, and one that is filled from memory. -/
def coded : State := { quiet with cores := [{ Core.reset with icache := [⟨0x1000 / 128, 7, 0, 7, 0x1F, [0, 0, 0, 0, 0, 0, 7] ++ List.replicate 121 0⟩] }] }

theorem test_meets_fetches : ∃ l, (man true none_).clause = none ∧ (man true none_).hdr + 8 * (1 + clauseLen (dwordOf ((l.data.drop 0).take 8))) ≤ 2 ^ 56 ∧
    (∀ k ≤ clauseLen (dwordOf ((l.data.drop 0).take 8)), coded.icacheFind (coded.who (man true none_)) ((man true none_).hdr + 8 * k) = some l) ∧
    0 < clauseLen (dwordOf ((l.data.drop 0).take 8)) ∧
    Memory.wf quiet.mem = true ∧ quiet.icacheFind (quiet.who (man true none_)) 0x1000 = none ∧ quiet.l1Find (quiet.who (man true none_)) 0x1000 = none ∧
    quiet.xlat (quiet.who (man true none_)) 0x1000 = .ok 0x1F (2 ^ 30) ∧ leafBase 0x1F % 128 = 0 ∧ paOf 0x1F (2 ^ 30) 0x1000 < hostBase :=
  ⟨⟨0x1000 / 128, 7, 0, 7, 0x1F, [0, 0, 0, 0, 0, 0, 7] ++ List.replicate 121 0⟩, by decide +kernel⟩

/-- Two waves of a lane group, both ready: the one placed later is outranked. -/
theorem test_meets_outranked : let r := man true none_
    let r' := { r with rid := 5, slot := 1, placedAt := 4 }
    let s : State := { quiet with residents := [r, r'], agenda := [.run 5] }
    s.agenda = .run r'.rid :: [] ∧ (s.residents.find? fun x => x.rid == 5) = some r' ∧ ({ s with agenda := [] } : State).outranked r' = true := by
  decide +kernel

/-! ### Hypotheses that are met: special functions, poison, refused paths -/

/-- The value of an FP32 code. -/
abbrev val32 (k : Nat) : Option Rat := valueOf (fmtF32.decode k)

theorem test_meets_special_inputs : tableR126 .rcp (flushed .f 0) = some (0x7F800000, 0x08) ∧ tableR126 .sqrt (flushed .a 0x7F800001) = some (0x7FC00000, 0) ∧
    tableOfDivision (flushed .a 0) (flushed .a 0) = some (0x7FC00000, 0x10) ∧ tableR126 .ex2 (flushed .a 0x40000000) = none ∧
    tableOfDivision (flushed .f 0x3F800000) (flushed .f 0x40400000) = none := by decide

theorem test_meets_beyond_the_domain : val32 0x3F800000 = some 1 ∧ val32 0x40400000 = some 3 ∧ val32 (flushed .f 0x7E800000) = some ((2 : Rat) ^ (126 : Int)) ∧
    val32 (flushed .f 0xC2FE0000) = some (-127) ∧ val32 (flushed .f 0x43000000) = some 128 ∧ val32 (flushed .f 0xC2A20000) = some (-81) ∧
    val32 (flushed .f 0x42A20000) = some 81 ∧ val32 (flushed .f 0x43808000) = some 257 ∧ val32 (flushed .f 0x00800000) = some ((2 : Rat) ^ (-126 : Int)) ∧
    val32 (flushed .f 0x3B800000) = some ((2 : Rat) ^ (-8 : Int)) ∧ largestF32 * (2 : Rat) ^ (-8 : Int) < (2 : Rat) ^ (126 : Int) ∧
    (2 : Rat) ^ (-126 : Int) < (2 : Rat) ^ (-126 : Int) * 3 := by decide +kernel

/-- 1 and the smallest normal value for the bounds; a subnormal whose reciprocal is an infinity. -/
theorem test_meets_grade_bounds : (1 : Rat) < largestF32 * (1 : Rat).abs ∧ (2 : Rat) ^ (0 : Int) * (1 : Rat).abs ≤ 1 ∧ 1 < (2 : Rat) ^ (0 + 1 : Int) * (1 : Rat).abs ∧
    val32 1 = some ((2 : Rat) ^ (-149 : Int)) ∧ largestF32 * ((2 : Rat) ^ (-149 : Int)).abs < 1 ∧ (2 : Rat) ^ (-126 : Int) * (1 : Rat).abs ≤ 1 ∧
    1 < (2 : Rat) ^ (2 * 0 + 2 : Int) * 1 := by decide +kernel

/-- A bad target, a rejoin address that is none, and a wave whose threads all leave, in a handler or out of one. -/
theorem test_meets_divergence_ends : ¬ GoodTarget (fromHeader (wave none_) (2 ^ 31 : BitVec 32).toInt) ∧ ¬ GoodTarget 0x2004 ∧
    (at_ { man true none_ with div := [⟨0x2004, 0xFFFF, 0, 0x3000⟩] } 0).res.div = [⟨0x2004, 0xFFFF, 0, 0x3000⟩] ∧
    (wave none_).res.active &&& ~~~takingMask (wave none_) .always = 0 ∧ nextPath (without (takingMask (wave none_) .always) (wave none_).res.div) = none ∧
    ({ Trap.reset with inh := true, hidden := some hid } : Trap).inh = true ∧ ((wave none_).res.active ≠ 0) := by
  unfold GoodTarget
  decide

/-- A poisoned address of a wave, a poisoned scalar of a system write, of a copy, and of a row transfer. -/
def tainted (g : Reg) (q : Issue) : Issue :=
  { q with res := { q.res with regs := { q.res.regs with cells := ⟨g, q.res.regs.read g, true⟩ :: q.res.regs.cells.filter fun x => x.reg != g } } }

theorem test_meets_poisoned_accesses : (∃ srcs cs, memReads (tainted (.v 15 2) wave2) (.ldG64 .always (.v 4) (.v 2) 0 0) srcs cs ∧
      ¬ (tainted (.v 15 2) wave2).res.Clean srcs cs) ∧
    (∃ o, systemWriteOf (.csrw .always 0x1D (.s 0)) = some o ∧ (Instr.csrw .always 0x1D (.s 0)).wf = true ∧ OncePlace [16] o.p (tainted (.s 0) reeve1) ∧
      (∀ a ∈ o.reads, (tainted (.s 0) reeve1).res.srcOk a = true) ∧ o.ok (busy (tainted (.s 0) reeve1)) (tainted (.s 0) reeve1) ∧
      (tainted (.s 0) reeve1).taken o.p = true ∧ ¬ (tainted (.s 0) reeve1).res.Clean (scalarsOf o.reads) [(tainted (.s 0) reeve1).onceLane]) := by
  constructor
  · refine ⟨_, _, .inl ⟨_, rfl, by unfold MemOp.LoadPlace; decide, by unfold MemOp.DstOk; decide, by decide, by decide, by decide, rfl, rfl⟩, fun h => ?_⟩
    exact absurd (h (.v 2) (by decide) 15 (by decide)) (by decide)
  · refine ⟨_, rfl, by decide, by unfold OncePlace; decide, by decide, by decide, rfl, fun h => ?_⟩
    exact absurd (h (.s 0) (by decide) 0 (by decide)) (by decide)

theorem test_meets_poisoned_commands : let q := tainted (.s 8) moving
    (∃ o, copyOf (busy q) q (.cfill .always 4 8 true .s) = some o ∧ OncePlace [18, 19] o.p q ∧ flagNamed q o.set < 12 ∧
      (∀ n ∈ o.reads ++ o.names, n < q.res.allotS) ∧ LandingOk q (.cfill .always 4 8 true .s) ∧ o.legal ∧ q.taken o.p = true ∧
      ¬ q.res.Clean (o.reads.map Src.s) [q.onceLane]) ∧
    (let q := tainted (.v 15 0) moving
     ∃ o, rowOpOf (.acwr .always 0 (.imm 1) 0) = some o ∧ OncePlace [17] o.p q ∧ o.t < q.res.launch.acc ∧ o.n + rowWidth q.res ≤ q.res.allotV ∧
      (∀ n ∈ o.scalarReads, n < q.res.allotS) ∧ takesPart q o.p ≠ [] ∧ o.reads = true ∧ o.mask = none ∧
      ∃ c ∈ takesPart q o.p, ∃ k < rowWidth q.res, q.res.srcPoison (.v (o.n + k)) c = true) := by
  refine ⟨⟨_, rfl, ?_, by decide, by decide, ?_, by dsimp only; decide, by decide, ?_⟩, _, rfl, ?_, by decide +kernel⟩
  all_goals first
    | (unfold OncePlace; decide)
    | (unfold LandingOk; decide)
    | exact fun h => absurd (h (.s 8) (by decide) 0 (by decide)) (by decide)

/-- Thread 0 of a wave is its lowest; one in which no thread is active. -/
theorem test_meets_lowest_threads : (wave none_).res.active.getLsbD 0 = true ∧ (∀ k < 0, (wave none_).res.active.getLsbD k = false) ∧
    (∀ k < (at_ { man true none_ with active := 0 } 0).res.width, (at_ { man true none_ with active := 0 } 0).res.active.getLsbD k = false) ∧
    Selects (wave none_).res .always 0 ∧ ¬ Selects (wave none_).res (.reg 0 false) 0 ∧ 16 ≤ (wide 16 none_).slot := by
  unfold Selects
  decide

/-- A bundle whose `mark` stands in slot 0: the header of `placedWide` with its bit 47 moved to bit 48. -/
def misplacedWide : State :=
  { placedWide with mem := placedWide.mem.filterMap fun c => if c = (0x1005, 0x80) then some (0x1006, 1) else some c }
def wrongRunner : Resident := (misplacedWide.resAt 2).getD over_

theorem test_meets_a_misplaced_op : TurnOf misplacedWide [] wrongRunner ∧ wrongRunner.simt = false ∧
    ({ misplacedWide with agenda := [] } : State).rowStall (dueWritten wrongRunner) = false ∧
    ((({ misplacedWide with agenda := [] } : State).setRes (dueWritten wrongRunner)).bundleWords (dueWritten wrongRunner)).1 = .words [2 ^ 48, markWord] ∧
    (decodeBundleHeader (2 ^ 48)).toOption.map Header.slots = some [0] ∧ decodeWord markWord.toNat = .ok (.mark .always 1) := by
  refine ⟨by unfold TurnOf; decide +kernel, by decide +kernel, by decide +kernel, by decide +kernel, by decide +kernel, ?_⟩
  rfl

/-- Ready records that wait in the queue of die 0 for hamlet 0, nothing kept free, and a full hamlet. -/
def dieWaits (n : Nat) : State :=
  { quiet with dieQ := [{ ready quiet with die := 0 }], hamlets := [{ Hamlet.reset with queue := List.replicate n ⟨0, []⟩ }] }

theorem test_meets_die_refills : (ready quiet).ready = true ∧ (∃ k < 8, 0 < (dieWaits 0).turns (8 * 0 + k) (ready quiet).launch.tenant) ∧
    (∀ e ∈ (dieWaits 0).dieQ, e = { ready quiet with die := 0 }) ∧
    (∀ u ∈ List.range 16, u ≠ 0 → ∀ k < 8, (dieWaits 0).turns (8 * 0 + k) u = 0) ∧ 0 < (dieWaits 0).hamlets.length ∧
    ((dieWaits 0).allRecs.map QRec.qid).Nodup ∧ ((dieWaits 0).hamAt 0).queue.length < 32 ∧ ((dieWaits 32).hamAt 0).queue.length = 32 := by
  decide +kernel

theorem test_meets_refreshes : (ready (placing [] false)).ready = true ∧ (placing [] false).ctxAt (ready (placing [] false)).launch.ctx = some ctx7 ∧
    ((placing [] false).recordWords ctx7 (ready (placing [] false)).launch.va).isSome = true ∧
    (({ placing [] false with running := [⟨soloLaunch 4 7 true, 1, 0, [], [], false, false⟩] } : State).runningOf 4).isSome = true ∧
    Unchanging (ending over_) 0 := by
  unfold Unchanging
  decide +kernel

/-- Two residents that overrun on one column set, and one of them alone. -/
def late_ (rid : Nat) : Resident := { man true none_ with rid := rid, takeOff := some ⟨700, false, [0]⟩ }

theorem test_meets_overruns : (let s := { turning 7000 (late_ 2) with residents := [late_ 2, late_ 5] }
     s.resAt 2 = some (late_ 2) ∧ (late_ 5).core = (late_ 2).core ∧ (late_ 5).launch.tenant = (late_ 2).launch.tenant ∧
     s.residents.any (fun y => y.rid != 2 && y.core == 0 && decide (y.away = .here)) = true) ∧
    (turning 7000 (late_ 2)).residents = [late_ 2] ∧ 0 < (standing (late_ 2)).turns 0 0 ∧
    (turning 7000 (man true none_)).rota.overruns = [] ∧
    (let s := { turning 7000 (man true none_) with rota := { Rota.reset with state := 3, rows := [row3] } }
     s.rota.state = 3 ∧ s.rota.overruns = [] ∧ s.rota.since + 700 * row3.dur ≤ s.timebase) := by decide +kernel

/-- A tick of a state whose one resident is frozen. -/
theorem test_meets_ticks : (let s : State := { standing { man true none_ with stop := .frozen, starve := 9 } with agenda := [.tick 4] }
     s.samplers = [] ∧ s.rota.state < 2 ∧ s.ready { man true none_ with stop := .frozen, starve := 9 } = false) ∧
    (let r := { stuck with takeOff := some ⟨20000, false, [0]⟩ }
     let s := { standing r with timebase := 10000 }
     s.resAt 2 = some r ∧ ∀ x, r.takeOff = some x → s.timebase < x.deadline) := by decide

/-- The digest of the three letters of FIPS 180-4's first example. -/
theorem test_sha256 : leNat (sha256 [0x61, 0x62, 0x63]).reverse = 0xBA7816BF8F01CFEA414140DE5DAE2223B00361A396177A9CB410FF61F20015AD := by decide +kernel

/-! ### Hypotheses that are met: refused loads, stiles, donations, failed cores -/

/-- A wide thread at count 32 with a load of its first bundle refused, due at 40, and one of the next that is held behind it. -/
def holding : Resident := { man false none_ with
  count := 32
  porch := [⟨5, 40, 0, 0, [.s 8], 0x8000, 4, none, false, none, false, .refused (illegalOf 0 0), false⟩,
    ⟨6, 50, 32, 0, [.s 9], 0x8000, 4, none, false, none, false, .none, false⟩] }

theorem test_meets_held_loads : BehindRefused holding (holding.count + 63) ∧ ¬ BehindRefused holding (holding.count + 7) ∧
    holding.heldFirst [.ldG32 .always (.s 9) (.s 2) 7 0] = true ∧ holding.heldFirst [.ldG32 .always (.s 9) (.s 2) 63 0] = false ∧
    (((standing holding).performHeld holding).resAt holding.rid).isSome = true ∧
    (holding.porch.filter fun e => decide (e.due ≤ holding.count)) = [] ∧
    (∃ e ∈ holding.porch, WaitsForEarlier (standing holding) holding e) ∧
    ∀ e ∈ porched.porch, ¬ WaitsForEarlier (standing porched) porched e := by
  have d1 : ∀ n, BehindRefused holding n ↔ 40 ≤ n := fun n => by
    simp [BehindRefused, holding]
  refine ⟨(d1 _).2 (by decide), fun h => absurd ((d1 _).1 h) (by decide), by decide, by decide, by decide +kernel, by decide,
    ⟨_, .tail _ (.head _), _, .head _, by decide, rfl, by decide, by decide, fun _ => by decide⟩, ?_⟩
  intro e he
  rcases List.mem_singleton.1 he with rfl
  rintro ⟨x, hx, h, -⟩
  rcases List.mem_singleton.1 hx with rfl
  exact absurd h (by decide)

/-- A stile at 0x1000, as the instruction cache holds it. -/
def stiled (r : Resident) : State :=
  { turning 6300 r with cores := [{ Core.reset with icache := [⟨0x1000 / 128, 7, 0, 7, 0x1F, [0, 0, 0x40, 0, 0, 0, 1] ++ List.replicate 121 0⟩] }] }

theorem test_meets_stiles : (let r := { man true none_ with takeOff := some ⟨7000, false, [0]⟩, wait := .barrier 1 }
     StandsAtStile (stiled r) r) ∧ ¬ StandsAtStile (turning 6300 stuck) stuck := by
  refine ⟨⟨rfl, rfl, rfl, by decide, .inr ⟨1, rfl⟩, 2 ^ 48 + 2 ^ 22, { Header.blank with count := 1, seta := 0, setb := 0, stile := true }, by decide +kernel, rfl, rfl⟩, fun h => ?_⟩
  rcases h.2.2.2.2.1 with h | ⟨k, h⟩ <;> cases h

/-- A `cred` of the resident is under way on its core as T + H has come. -/
theorem test_meets_a_staying_cred : let c := command (.cred .always 0 2 8 false .max .f32) fun c => { c with state := .running }
    ∃ x ∈ ((engaged c).coreAt 0).cq, x.rid = 2 ∧ x.stays = true := ⟨_, List.mem_singleton.2 rfl, by decide, by decide⟩

/-- Core 0 of the idle tenant 3, at rest. -/
theorem test_meets_donations : let s : State := { turning 6300 (man true none_) with residents := [] }
    s.rota.overruns = [] ∧ row3.owner 0 (0 / 4) (0 % 4) = some 3 ∧ Unchanging s 0 ∧ s.allRes = [] :=
  ⟨rfl, by decide, by unfold Unchanging; decide, rfl⟩

/-- A candidate whose record cannot be read, and one that can. -/
theorem test_meets_unreadable_records : waiting.candidates 0 = [ready quiet] ∧ ¬ CanPlace waiting (ready quiet) ∧
    CanPlace (placing [ready quiet] true) (ready quiet) :=
  ⟨by decide, fun h => absurd h (by show ¬ (waiting.reread _ ≠ none); decide +kernel), by show State.reread _ _ ≠ none; decide +kernel⟩

/-- A row for a wave on a core that has failed; a header that the core's L1 does not hold, its fetch not refused. -/
theorem test_meets_lost_rows : ¬ Sound { quiet with cores := [{ Core.reset with failed := true }] } 0 2 ∧ Sound quiet 0 2 ∧
    (∀ p ∈ (man true none_).refused, p.2 ≠ 1) ∧ ∀ l ∈ (quiet.coreAt 0).l1, l.pa ≠ paOf 0x1F (2 ^ 30) 0x1000 / 128 := by
  unfold Sound
  decide
end Sys2Proof.Tests
end

section
/-! SUPPORT. O58: what one step does. In order: the resident a lane group issues from (R171), the words a fetch gives (R71, R83, R219), a turn
of a resident, the issue of a wave (R53 to R58) and of a wide thread (R54, R72), a tick (R22) and a command (R220). -/

namespace Sys2Proof.Machine

open Sys2Proof.Claim

/-! ### Outcomes -/

@[simp] theorem andThen_next (s : State) (f : State → Out) : andThen (.next s) f = f s := rfl

theorem andThen_assoc (o : Out) (f g : State → Out) : andThen (andThen o f) g = andThen o fun s => andThen (f s) g := by
  cases o <;> rfl

/-! ### The resident a lane group issues from -/

/-- A choice of one resident: the candidate so far, or the next one where it goes before it. -/
def keepBetter (better : Resident → Resident → Bool) : Option Resident → Resident → Option Resident
  | none, r => some r
  | some x, r => if better r x then some r else some x

/-- `better` puts residents in an order in which several may stand at one place. -/
structure Ranks (better : Resident → Resident → Bool) : Prop where
  asymm : ∀ {a b}, better a b = true → better b a = false
  behind : ∀ {a b c}, better a b = false → better b c = false → better a c = false

/-- What has been kept is one of those seen, and none of them goes before it. -/
theorem Ranks.foldl_keepBetter {better : Resident → Resident → Bool} (hb : Ranks better) {x : Resident} :
    ∀ (rs : List Resident) (o : Option Resident), rs.foldl (keepBetter better) o = some x →
      (x ∈ rs ∨ o = some x) ∧ (∀ y ∈ rs, better y x = false) ∧ ∀ y, o = some y → better y x = false
  | [], o, h => by
    obtain rfl : o = some x := h
    have hself : better x x = false := by
      cases hx : better x x with
      | false => rfl
      | true => exact hx ▸ hb.asymm hx
    exact ⟨.inr rfl, fun _ hy => absurd hy List.not_mem_nil, fun y hy => Option.some.inj hy ▸ hself⟩
  | r :: rs, none, h => by
    obtain ⟨hx, hrs, hr⟩ := hb.foldl_keepBetter rs (some r) h
    refine ⟨.inl ?_, List.forall_mem_cons.2 ⟨hr r rfl, hrs⟩, fun _ hy => nomatch hy⟩
    rcases hx with hx | hx
    · exact List.mem_cons_of_mem _ hx
    · exact Option.some.inj hx ▸ List.mem_cons_self
  | r :: rs, some b, h => by
    rw [List.foldl_cons] at h
    cases hrb : better r b with
    | true =>
      rw [keepBetter, if_pos hrb] at h
      obtain ⟨hx, hrs, hr⟩ := hb.foldl_keepBetter rs (some r) h
      refine ⟨.inl ?_, List.forall_mem_cons.2 ⟨hr r rfl, hrs⟩, fun y hy => ?_⟩
      · rcases hx with hx | hx
        · exact List.mem_cons_of_mem _ hx
        · exact Option.some.inj hx ▸ List.mem_cons_self
      · exact Option.some.inj hy ▸ hb.behind (hb.asymm hrb) (hr r rfl)
    | false =>
      rw [keepBetter, if_neg (hrb ▸ Bool.false_ne_true)] at h
      obtain ⟨hx, hrs, hbx⟩ := hb.foldl_keepBetter rs (some b) h
      exact ⟨hx.imp_left (List.mem_cons_of_mem _), List.forall_mem_cons.2 ⟨hb.behind hrb (hbx b rfl), hrs⟩, hbx⟩

theorem foldl_keepBetter_some (better : Resident → Resident → Bool) :
    ∀ (rs : List Resident) (b : Resident), ∃ x, rs.foldl (keepBetter better) (some b) = some x
  | [], b => ⟨b, rfl⟩
  | r :: rs, b => by
    rw [List.foldl_cons, keepBetter]
    split
    · exact foldl_keepBetter_some better rs r
    · exact foldl_keepBetter_some better rs b

theorem foldl_keepBetter_isSome (better : Resident → Resident → Bool) {rs : List Resident} (h : rs ≠ []) :
    ∃ x, rs.foldl (keepBetter better) none = some x := by
  cases rs with
  | nil => exact absurd rfl h
  | cons r rs => exact foldl_keepBetter_some better rs r

/-- The order in which ready residents issue while none starves: placed first, then of the lower slot. -/
def placedBefore (a b : Resident) : Bool := decide (a.placedAt < b.placedAt) || (a.placedAt == b.placedAt && decide (a.slot < b.slot))

/-- The order among starving residents: the highest count first, then the lower slot. -/
def hungrier (a b : Resident) : Bool := decide (b.starve < a.starve) || (a.starve == b.starve && decide (a.slot < b.slot))

theorem placedBefore_iff (a b : Resident) :
    placedBefore a b = true ↔ a.placedAt < b.placedAt ∨ (a.placedAt = b.placedAt ∧ a.slot < b.slot) := by
  simp only [placedBefore, Bool.or_eq_true, Bool.and_eq_true, decide_eq_true_eq, beq_iff_eq]

theorem hungrier_iff (a b : Resident) : hungrier a b = true ↔ b.starve < a.starve ∨ (a.starve = b.starve ∧ a.slot < b.slot) := by
  simp only [hungrier, Bool.or_eq_true, Bool.and_eq_true, decide_eq_true_eq, beq_iff_eq]

theorem ranks_placedBefore : Ranks placedBefore where
  asymm {a b} h := by
    rw [placedBefore_iff] at h
    rw [← Bool.not_eq_true, placedBefore_iff]
    omega
  behind {a b c} h1 h2 := by
    rw [← Bool.not_eq_true, placedBefore_iff] at *
    omega

theorem ranks_hungrier : Ranks hungrier where
  asymm {a b} h := by
    rw [hungrier_iff] at h
    rw [← Bool.not_eq_true, hungrier_iff]
    omega
  behind {a b c} h1 h2 := by
    rw [← Bool.not_eq_true, hungrier_iff] at *
    omega

/-- The ready residents that have waited 64 issues or more. -/
def State.starving (s : State) (rs : List Resident) : List Resident := (rs.filter s.ready).filter fun r => decide (64 ≤ r.starve)

theorem State.mem_starving {s : State} {rs : List Resident} {x : Resident} :
    x ∈ s.starving rs ↔ (x ∈ rs ∧ s.ready x = true) ∧ 64 ≤ x.starve := by
  unfold State.starving
  rw [List.mem_filter, List.mem_filter, decide_eq_true_eq]

theorem State.pick_of_none_starving {s : State} {rs : List Resident} (h : s.starving rs = []) :
    s.pick rs = (rs.filter s.ready).foldl (keepBetter placedBefore) none := by
  unfold State.starving at h
  unfold State.pick
  simp only [h, List.isEmpty_nil, if_true]
  refine congrArg (fun f => List.foldl f none _) (funext fun b => funext fun r => ?_)
  cases b <;> rfl

theorem State.pick_of_starving {s : State} {rs : List Resident} (h : s.starving rs ≠ []) :
    s.pick rs = (s.starving rs).foldl (keepBetter hungrier) none := by
  have he : (s.starving rs).isEmpty = false := by
    cases hs : s.starving rs with
    | nil => exact absurd hs h
    | cons x xs => rfl
  unfold State.starving at *
  unfold State.pick
  simp only [he, Bool.false_eq_true, if_false]
  refine congrArg (fun f => List.foldl f none _) (funext fun b => funext fun r => ?_)
  cases b <;> rfl

/-- R171: none of those that may issue goes before the one a lane group issues from. -/
theorem State.pick_issuesFrom {s : State} {rs : List Resident} {x : Resident} (h : s.pick rs = some x) : IssuesFrom s rs x := by
  by_cases hs : s.starving rs = []
  · rw [State.pick_of_none_starving hs] at h
    obtain ⟨hx, hbest, -⟩ := ranks_placedBefore.foldl_keepBetter _ _ h
    obtain ⟨hx, hr⟩ := List.mem_filter.1 (hx.resolve_right nofun)
    refine ⟨hx, hr, fun ⟨y, hy, hry, h64⟩ => ?_, fun _ y hy hry => ?_⟩
    · have hmem : y ∈ s.starving rs := State.mem_starving.2 ⟨⟨hy, hry⟩, h64⟩
      exact absurd (hs ▸ hmem) List.not_mem_nil
    · have hle := hbest y (List.mem_filter.2 ⟨hy, hry⟩)
      rw [← Bool.not_eq_true, placedBefore_iff] at hle
      omega
  · rw [State.pick_of_starving hs] at h
    obtain ⟨hx, hbest, -⟩ := ranks_hungrier.foldl_keepBetter _ _ h
    obtain ⟨⟨hx, hr⟩, h64⟩ := State.mem_starving.1 (hx.resolve_right nofun)
    refine ⟨hx, hr, fun _ => ⟨h64, fun y hy hry => ?_⟩, fun hno => absurd (hno x hx hr) (by omega)⟩
    by_cases hy64 : 64 ≤ y.starve
    · have hle := hbest y (State.mem_starving.2 ⟨⟨hy, hry⟩, hy64⟩)
      rw [← Bool.not_eq_true, hungrier_iff] at hle
      omega
    · omega

theorem State.pick_isSome {s : State} {rs : List Resident} (h : ∃ x ∈ rs, s.ready x = true) : ∃ x, s.pick rs = some x := by
  obtain ⟨x, hx, hr⟩ := h
  by_cases hs : s.starving rs = []
  · rw [State.pick_of_none_starving hs]
    exact foldl_keepBetter_isSome _ (List.ne_nil_of_mem (List.mem_filter.2 ⟨hx, hr⟩))
  · rw [State.pick_of_starving hs]
    exact foldl_keepBetter_isSome _ hs

/-! ### Words from the instruction cache -/

theorem State.fetchWord_of_hit {s : State} {w : Who} {a : Nat} {l : ILine} (h : s.icacheFind w a = some l) :
    s.fetchWord w a = (dwordOf ((l.data.drop (a % 128)).take 8), s) := by
  unfold State.fetchWord; rw [h]

theorem State.checkFetch_of_hit {s : State} {w : Who} {a : Nat} {l : ILine} (ha : a < 2 ^ 56) (h : s.icacheFind w a = some l) :
    s.checkFetch w a = .ok l.leaf := by
  unfold State.checkFetch; rw [if_neg (by omega), h]

theorem Resident.fetchRefused_of_none {r : Resident} (h : ∀ p ∈ r.refused, p.2 ≠ 1) (a : Nat) : r.fetchRefused a = false := by
  unfold Resident.fetchRefused
  rw [List.any_eq_false]
  intro p hp
  exact fun hb => h p hp (beq_iff_eq.1 (Bool.and_eq_true_iff.1 hb).2)

/-- Words that the cache holds, at the places `ks` of the block at the resident's header. -/
theorem State.fetchWords_of_hits {s : State} {r : Resident} {l : Nat → ILine} (hr : ∀ p ∈ r.refused, p.2 ≠ 1) :
    ∀ ks : List Nat, (∀ k ∈ ks, r.hdr + 8 * k < 2 ^ 56 ∧ s.icacheFind (s.who r) (r.hdr + 8 * k) = some (l k)) →
      s.fetchWords r (ks.map fun k => r.hdr + 8 * k) =
        (.words (ks.map fun k => dwordOf (((l k).data.drop ((r.hdr + 8 * k) % 128)).take 8)), s)
  | [], _ => rfl
  | k :: ks, h => by
    obtain ⟨ha, hit⟩ := h k List.mem_cons_self
    have ih := State.fetchWords_of_hits hr ks fun j hj => h j (List.mem_cons_of_mem _ hj)
    rw [List.map_cons, State.fetchWords]
    simp only [Resident.fetchRefused_of_none hr, State.checkFetch_of_hit ha hit, State.fetchWord_of_hit hit, ih, Bool.false_eq_true,
      if_false, List.map_cons]

theorem State.fetchBlock_of_hits {s : State} {r : Resident} {l : Nat → ILine} {len : DWord → Nat}
    (hr : ∀ p ∈ r.refused, p.2 ≠ 1) :
    let word := fun k => dwordOf (((l k).data.drop ((r.hdr + 8 * k) % 128)).take 8)
    r.hdr + 8 * (1 + len (word 0)) ≤ 2 ^ 56 →
    (∀ k ≤ len (word 0), s.icacheFind (s.who r) (r.hdr + 8 * k) = some (l k)) →
    s.fetchBlock r len = (.words (word 0 :: (List.range (len (word 0))).map fun k => word (k + 1)), s) := by
  intro word hin hit
  have header := State.fetchWords_of_hits hr [0] fun k hk => by
    obtain rfl := List.mem_singleton.1 hk
    exact ⟨by omega, hit 0 (Nat.zero_le _)⟩
  have block := State.fetchWords_of_hits hr (List.range (1 + len (word 0))) fun k hk => by
    have := List.mem_range.1 hk
    exact ⟨by omega, hit k (by omega)⟩
  unfold State.fetchBlock
  rw [show [r.hdr] = [0].map fun k => r.hdr + 8 * k from rfl, header]
  refine block.trans ?_
  rw [Nat.add_comm, List.range_succ_eq_map, List.map_cons, List.map_map]
  rfl

/-! ### A line of the instruction cache filled from memory -/

theorem State.xlatFill_fst (s : State) (w : Who) (va : Nat) : (s.xlatFill w va).1 = s.xlat w va := by
  unfold State.xlatFill State.xlat
  cases s.tlbFind w va with
  | some e => rfl
  | none => cases s.walk (walkLevels va) w.root <;> rfl

theorem State.xlatFill_quiet (s : State) (w : Who) (va : Nat) :
    (s.xlatFill w va).2.mem = s.mem ∧ (s.xlatFill w va).2.cores = s.cores := by
  unfold State.xlatFill
  cases s.tlbFind w va with
  | some e => exact ⟨rfl, rfl⟩
  | none =>
    have hw := walkTouch_quiet s w va
    cases s.walk (walkLevels va) w.root with
    | ok leaf size => exact ⟨(tlbFill_quiet _ _ _ _ _).1.trans hw.1, (tlbFill_quiet _ _ _ _ _).2.trans hw.2⟩
    | fault => exact hw
    | bad => exact hw

theorem State.dropSynonyms_of_none {s : State} {core pa tag asid tenant : Nat} (h : ∀ l ∈ (s.coreAt core).l1, l.pa ≠ pa) :
    s.dropSynonyms core pa tag asid tenant = s := by
  unfold State.dropSynonyms State.flushIf
  rw [List.filter_eq_nil_iff.2 fun l hl hb => h l hl (beq_iff_eq.1 (Bool.and_eq_true_iff.1 hb).1)]
  rfl

theorem State.homeByte_of_device {s : State} {pa : Nat} (h : pa < hostBase) : s.homeByte pa = Memory.read s.mem pa := by
  unfold State.homeByte State.busAddr
  rw [if_neg (by omega)]
  exact if_pos h

theorem State.homeBytes_of_device {s : State} {pa n : Nat} (h : pa + n ≤ hostBase) : s.homeBytes pa n = Memory.readBytes s.mem pa n :=
  List.map_congr_left fun k hk => State.homeByte_of_device (by have := List.mem_range.1 hk; omega)

theorem State.homeRead_of_device {s : State} {req : Traffic} {t slice pa n : Nat} {stream : Bool} (hn : 0 < n) (h : pa + n ≤ hostBase) :
    (s.homeRead req t slice stream pa n).1.1 = Memory.readBytes s.mem pa n := by
  unfold State.homeRead
  rw [if_pos (by omega)]
  dsimp only
  rw [State.homeBytes_of_device h, (l2Access_quiet _ _ _ _ _ _ _).1]

/-- Bytes within a range that has been read. -/
theorem Memory.readBytes_drop_take (m : List Host.Cell) {a n off k : Nat} (h : off + k ≤ n) :
    ((Memory.readBytes m a n).drop off).take k = Memory.readBytes m (a + off) k := by
  have hlen : ∀ b j, (Memory.readBytes m b j).length = j := fun b j => by
    rw [Memory.readBytes, List.length_map, List.length_range]
  refine List.ext_getElem (by rw [List.length_take, List.length_drop, hlen, hlen]; omega) fun i hi _ => ?_
  simp only [Memory.readBytes, List.getElem_take, List.getElem_drop, List.getElem_map, List.getElem_range, Nat.add_assoc]

/-- The line of an address lies in its page as the address does. -/
theorem line_mod_size {a size : Nat} (hs : size % 128 = 0) : a / 128 * 128 % size = a % size / 128 * 128 := by
  obtain ⟨c, rfl⟩ := Nat.dvd_of_mod_eq_zero hs
  rw [Nat.mul_comm 128 c, Nat.mul_mod_mul_right, Nat.mul_comm c 128, Nat.mod_mul_right_div_self]

theorem paOf_line {leaf : DWord} {size a : Nat} (hs : size % 128 = 0) (hb : leafBase leaf % 128 = 0) :
    paOf leaf size (a / 128 * 128) = paOf leaf size a / 128 * 128 ∧ paOf leaf size a % 128 = a % 128 := by
  have hm : a % size % 128 = a % 128 := Nat.mod_mod_of_dvd a (Nat.dvd_of_mod_eq_zero hs)
  unfold paOf
  rw [line_mod_size hs]
  omega

theorem State.fetchLine_of_memory {s : State} {w : Who} {a size : Nat} {leaf : DWord} (hl : s.l1Find w a = none)
    (hx : s.xlat w a = .ok leaf size) (hs : size % 128 = 0) (hb : leafBase leaf % 128 = 0) (hp : paOf leaf size a < hostBase)
    (hno : ∀ l ∈ (s.coreAt w.core).l1, l.pa ≠ paOf leaf size a / 128) :
    (s.fetchLine w a).1.1 = Memory.readBytes s.mem (paOf leaf size a / 128 * 128) 128 := by
  obtain ⟨hmem, hcores⟩ := State.xlatFill_quiet s w a
  have hfst := (State.xlatFill_fst s w a).trans hx
  unfold State.fetchLine
  generalize s.xlatFill w a = y at *
  obtain ⟨x, s1⟩ := y
  obtain rfl : x = .ok leaf size := hfst
  have hno1 : ∀ l ∈ (s1.coreAt w.core).l1, l.pa ≠ paOf leaf size a / 128 := by
    unfold State.coreAt at *
    rwa [hcores]
  rw [hl]
  dsimp only
  rw [(paOf_line hs hb).1, Nat.mul_div_cancel _ (by omega), State.dropSynonyms_of_none hno1,
    State.homeRead_of_device (by omega) (by unfold hostBase at *; omega), hmem]

theorem State.fetchWord_of_memory {s : State} {w : Who} {a size : Nat} {leaf : DWord} (ha : a % 8 = 0) (hi : s.icacheFind w a = none)
    (hl : s.l1Find w a = none) (hx : s.xlat w a = .ok leaf size) (hs : size % 128 = 0) (hb : leafBase leaf % 128 = 0)
    (hp : paOf leaf size a < hostBase) (hno : ∀ l ∈ (s.coreAt w.core).l1, l.pa ≠ paOf leaf size a / 128) :
    (s.fetchWord w a).1 = dwordOf (Memory.readBytes s.mem (paOf leaf size a) 8) := by
  unfold State.fetchWord
  rw [hi]
  dsimp only
  rw [State.fetchLine_of_memory hl hx hs hb hp hno, Memory.readBytes_drop_take _ (by omega), ← (paOf_line hs hb).2]
  congr 2
  omega

/-! ### A turn of a resident -/

theorem step_of_agenda {s : State} {a : Action} {rest : List Action} (h : s.agenda = a :: rest) :
    step s = ({ s with agenda := rest } : State).perform a := by
  unfold step; rw [h]

/-- A resident that issues does what `issueOne` says, and the starvation counts of its lane group move (R171). -/
theorem step_of_turn {s : State} {rest : List Action} {r : Resident} (h : TurnOf s rest r) :
    step s = andThen (({ s with agenda := rest } : State).issueOne r) fun t => .next (settled { s with agenda := rest } r t) := by
  obtain ⟨hagenda, hfind, hcan, hfirst, -⟩ := h
  rw [step_of_agenda hagenda]
  unfold State.perform State.runResident
  simp only [hfind, hcan, hfirst, Bool.not_false, and_self, if_true]
  refine congrArg (andThen _) (funext fun t => congrArg Host.Outcome.next ?_)
  unfold settled
  cases t.resAt r.rid with
  | none => rfl
  | some x => simp only [Option.any_some, decide_eq_true_eq]; rfl

theorem step_of_outranked {s : State} {rest : List Action} {r : Resident} (hagenda : s.agenda = .run r.rid :: rest)
    (hfind : (s.residents.find? fun x => x.rid == r.rid) = some r) (hout : ({ s with agenda := rest } : State).outranked r = true) :
    step s = .next { s with agenda := rest } := by
  rw [step_of_agenda hagenda]
  unfold State.perform State.runResident
  simp only [hfind, hout, Bool.not_true, Bool.false_eq_true, and_false, if_false]

theorem State.issueOne_of_wave {s : State} {r : Resident} (hasync : (dueWritten r).async = []) (hwait : (dueWritten r).wait = .none)
    (hend : (dueWritten r).ended = false) (hsimt : (dueWritten r).simt = true) : s.issueOne r = s.issueSimt (dueWritten r) := by
  unfold dueWritten at *
  unfold State.issueOne
  simp only [hasync, hwait, hsimt, hend, ne_eq, not_true, if_false, if_true, Bool.false_eq_true]

theorem State.issueOne_of_wide {s : State} {r : Resident} (hasync : (dueWritten r).async = []) (hwait : (dueWritten r).wait = .none)
    (hend : (dueWritten r).ended = false) (hopen : (dueWritten r).closing = .none) (hsimt : (dueWritten r).simt = false) :
    s.issueOne r = s.runVliw (dueWritten r) := by
  unfold dueWritten at *
  unfold State.issueOne
  simp only [hasync, hwait, hsimt, hend, hopen, ne_eq, not_true, or_false, if_false, Bool.false_eq_true]

theorem wordInstr_of_decode {w : DWord} {i : Instr} (h : decodeWord w.toNat = .ok i) (slot : Nat) : wordInstr w slot = i := by
  unfold wordInstr; rw [h]

theorem stileStop_of_admitted {s : State} {r : Resident} {h : Header} (ha : Admitted s r h) : (if h.stile then s.stileStop r else none) = none := by
  split
  · exact ha.1 ‹_›
  · rfl

/-! ### A wave -/

/-- A clause that nothing is wrong with issues the word the wave stands at. -/
theorem State.issueSimt_of_words {s s1 : State} {r : Resident} {hw : DWord} {ws : List DWord} {h : Header}
    (hwords : s.clauseWords r = (.words (hw :: ws), s1)) (hdec : decodeClauseHeader hw.toNat = .ok h) (hsets : r.setsOk h = true)
    (hok : clauseWordsOk h ws = true) (hadm : r.place = 0 → Admitted s1 r h) : s.issueSimt r = s1.issueInstr r h hw ws := by
  unfold State.issueSimt
  simp only [hwords, hdec, hsets, hok, Bool.not_true, Bool.or_self, Bool.false_eq_true, if_false]
  split
  · have ha := hadm ‹_›
    simp only [stileStop_of_admitted ha, ha.2, if_true]
  · rfl

theorem Resident.fixLoads_if (r : Resident) (c : Option (Nat × List DWord)) (b : Bool) :
    { (if b then r.fixLoads else r) with clause := c, pin := none } =
      { r with clause := c, pin := none, loads := if b = true then loadsAsRead r else r.loads } := by
  cases b <;> rfl

/-- An instruction that no row transfer interlocks is executed by its meaning. -/
theorem State.issueInstr_of_decode {s : State} {r : Resident} {h : Header} {hw : DWord} {ws : List DWord} {i : Instr}
    (hfree : r.interlocked i = false) (hdec : decodeWord (ws.getD r.place 0).toNat = .ok i) :
    let here := { r with clause := some (r.hdr, hw :: ws), pin := none, loads := if fixesLoads i = true then loadsAsRead r else r.loads }
    s.issueInstr r h hw ws =
      andThen (exec i (s.latch (Issue.start (here.pastInstr h) r.hdr h r.place r.place (ws.getD r.place 0)))) fun t =>
        .next (t.finishSimt here) := by
  unfold State.issueInstr
  simp only [wordInstr_of_decode hdec, hfree, Bool.false_eq_true, if_false, Resident.fixLoads_if]

/-! ### A wide thread -/

theorem deferredCause_nil : deferredCause [] = none := rfl

theorem State.runVliw_of_nothing_due {s : State} {r : Resident} (hrow : s.rowStall r = false)
    (hdue : (r.porch.filter fun e => decide (e.due ≤ r.count)) = []) : s.runVliw r = (s.setRes r).issueVliw r := by
  unfold State.runVliw
  simp only [hrow, hdue, List.any_nil, Bool.or_self, Bool.false_eq_true, if_false, deferredCause_nil]

/-- Words that all decode are read as their instructions. -/
theorem wordsRead_of_decode {ops : List (Nat × DWord × Instr)} (h : ∀ x ∈ ops, decodeWord x.2.1.toNat = .ok x.2.2) :
    (wordsRead (ops.map fun x => x.2.1)).filterMap id = ops.map fun x => x.2.2 := by
  have read : wordsRead (ops.map fun x => x.2.1) = ops.map fun x => some x.2.2 := by
    unfold wordsRead
    rw [List.map_map]
    exact List.map_congr_left fun x hx => by rw [Function.comp_apply, h x hx]; rfl
  rw [read, List.filterMap_map]
  exact congrFun (List.filterMap_eq_map (f := fun x : Nat × DWord × Instr => x.2.2)) ops

/-- Ops run in order, each as its instruction. -/
theorem State.runOps_of_decode : ∀ (ops : List (Nat × DWord × Instr)) (s : State), (∀ x ∈ ops, decodeWord x.2.1.toNat = .ok x.2.2) →
    s.runOps (ops.map fun x => (x.1, x.2.1)) = opsInOrder ops s
  | [], _, _ => rfl
  | (slot, w, i) :: ops, s, h => by
    have hi : wordInstr w slot = i := wordInstr_of_decode (h _ List.mem_cons_self) slot
    have ih := fun t => State.runOps_of_decode ops t fun y hy => h y (List.mem_cons_of_mem _ hy)
    rw [List.map_cons, State.runOps, opsInOrder]
    simp only [hi, ih]

/-- A bundle that nothing is wrong with issues behind the loads that are held, once those that must come first are performed. -/
theorem State.issueVliw_of_words {s s1 s2 : State} {r r2 : Resident} {hw : DWord} {ws : List DWord} {h : Header}
    (hwords : s.bundleWords r = (.words (hw :: ws), s1)) (hdec : decodeBundleHeader hw.toNat = .ok h) (hfit : r.bundleOk h = true)
    (hok : bundleWordsOk h r.width ws = true) (hadm : Admitted s1 r h)
    (hheld : if r.heldFirst ((wordsRead ws).filterMap id) = true then s2 = s1.performHeld r ∧ s2.resAt r.rid = some r2
      else s2 = s1 ∧ r2 = r) :
    s.issueVliw r = s2.issueBehind r2 h hw ws := by
  unfold State.issueVliw
  simp only [hwords, hdec, hfit, hok, stileStop_of_admitted hadm, hadm.2, Bool.not_true, Bool.or_self, Bool.false_eq_true, if_false]
  by_cases hf : r.heldFirst ((wordsRead ws).filterMap id) = true
  · rw [if_pos hf] at hheld
    obtain ⟨rfl, hres⟩ := hheld
    rw [if_pos hf, hres]
  · rw [if_neg hf] at hheld
    obtain ⟨rfl, rfl⟩ := hheld
    rw [if_neg hf]

theorem waitsBehind_eq_false {es : List Porch} {is : List Instr}
    (h : es ≠ [] → (∀ i ∈ is, followsLoads i = false ∧ loadsGlobal i = false) ∧
      ((∃ e ∈ es, e.scope ≠ none) → ∀ i ∈ is, localLater i = false)) : waitsBehind es is = false := by
  by_cases he : es = []
  · rw [he]
    rfl
  · obtain ⟨hglobal, hlocal⟩ := h he
    have h1 : (is.any fun i => followsLoads i || loadsGlobal i) = false := List.any_eq_false.2 fun i hi => by
      obtain ⟨hfollows, hloads⟩ := hglobal i hi
      rw [hfollows, hloads]
      exact Bool.false_ne_true
    have h2 : ((es.any fun e => e.scope.isSome) && is.any localLater) = false := by
      cases hs : es.any fun e => e.scope.isSome with
      | false => rfl
      | true =>
        obtain ⟨e, hmem, hsome⟩ := List.any_eq_true.1 hs
        exact List.any_eq_false.2 fun i hi => by
          rw [hlocal ⟨e, hmem, Option.isSome_iff_ne_none.1 hsome⟩ i hi]
          exact Bool.false_ne_true
    simp only [waitsBehind, h1, h2, Bool.or_self, Bool.and_false]

/-- The latch of a bundle before its first pass. -/
def Resident.bundleLatch (r : Resident) (h : Header) (hw : DWord) (ws : List DWord) (is : List Instr) : Issue :=
  { Issue.start (r.pastBundle h hw ws) r.hdr h 0 31 hw with inOrder := bundleInOrder is }

/-- A bundle whose first pass finds nothing against it goes on to the second. -/
theorem State.issueBundle_of_probe {s t : State} {r : Resident} {h : Header} {hw : DWord} {ws : List DWord} {q0 q : Issue}
    (hq0 : q0 = r.bundleLatch h hw ws ((wordsRead ws).filterMap id))
    (hprobe : (s.latch { q0 with probe := true }).runOps (h.slots.zip ws) = .next t) (hiss : t.iss = some q)
    (hraised : q.raised = []) (hcauses : q.bundleCauses hw ws = []) (hheld : q.held = false) (hfaults : q.faults = []) :
    s.issueBundle r h hw ws = s.commitBundle r q0 (h.slots.zip ws) hw := by
  subst hq0
  unfold State.issueBundle
  show andThen ((s.latch { r.bundleLatch h hw ws ((wordsRead ws).filterMap id) with probe := true }).runOps (h.slots.zip ws)) _ = _
  rw [hprobe]
  simp only [andThen_next, hiss, hraised, hcauses, hheld, hfaults]
  rfl

/-- The second pass runs the ops in order. -/
theorem State.commitBundle_of_decode {s : State} {r : Resident} {q : Issue} {hw : DWord} {ops : List (Nat × DWord × Instr)}
    (hne : ops ≠ []) (hdec : ∀ x ∈ ops, decodeWord x.2.1.toNat = .ok x.2.2) :
    s.commitBundle r q (ops.map fun x => (x.1, x.2.1)) hw =
      andThen (opsInOrder ops (s.latch { q with probe := false, commit := true })) fun u => .next (u.finishBundle r q.hdr.lend) := by
  unfold State.commitBundle
  simp only [List.isEmpty_iff, List.map_eq_nil_iff, hne, if_false, State.runOps_of_decode ops _ hdec]

/-- A bundle with no load in its way and nothing against it: its ops take effect in order, and then it is finished. -/
theorem State.issueBehind_of_clear {s t : State} {r : Resident} {h : Header} {hw : DWord} {ops : List (Nat × DWord × Instr)} {q : Issue}
    (hne : ops ≠ []) (hdec : ∀ x ∈ ops, decodeWord x.2.1.toNat = .ok x.2.2) (hslots : ops.map (fun x => x.1) = h.slots) :
    let ws := ops.map fun x => x.2.1
    let is := ops.map fun x => x.2.2
    let q0 := r.bundleLatch h hw ws is
    waitsBehind (s.loadsOpen r) is = false → opsInOrder ops (s.latch { q0 with probe := true }) = .next t → t.iss = some q →
    q.raised = [] → q.bundleCauses hw ws = [] → q.held = false → q.faults = [] →
    s.issueBehind r h hw ws = andThen (opsInOrder ops (s.latch { q0 with commit := true })) fun u => .next (u.finishBundle r h.lend) := by
  intro ws is q0 hfree hprobe hiss hraised hcauses hheld hfaults
  have hread : (wordsRead ws).filterMap id = is := wordsRead_of_decode hdec
  have hzip : h.slots.zip ws = ops.map fun x => (x.1, x.2.1) := by rw [← hslots, List.zip_map']
  have hfirst : (s.latch { q0 with probe := true }).runOps (h.slots.zip ws) = .next t := by
    rw [hzip, State.runOps_of_decode ops _ hdec, hprobe]
  unfold State.issueBehind
  simp only [hread, hfree, Bool.false_eq_true, if_false]
  rw [State.issueBundle_of_probe (by rw [hread]) hfirst hiss hraised hcauses hheld hfaults, hzip, State.commitBundle_of_decode hne hdec]
  rfl

/-! ### A tick -/

theorem State.rowNow_of_stopped {s : State} (h : s.rota.state < 2) : s.rowNow = none := if_pos h

theorem State.slotEdge_of_stopped {s : State} (h : s.rota.state < 2) : s.slotEdge = s := by
  unfold State.slotEdge
  rw [State.rowNow_of_stopped h]
  split
  · rfl
  · exact if_neg fun ⟨h3, _⟩ => by omega

theorem State.toSlotEdge_of_stopped {s : State} (h : s.rota.state < 2) : s.toSlotEdge = none := by
  unfold State.toSlotEdge
  rw [State.rowNow_of_stopped h]
  split
  · rfl
  · rfl

theorem State.beforeTick_of_idle {s : State} (hs : s.samplers = []) (h : s.rota.state < 2) :
    s.beforeTick = { s with residents := s.residents.map fun r => if s.ready r = true then r else { r with starve := 0 } } := by
  unfold State.beforeTick
  simp only [hs, List.foldl_nil, State.slotEdge_of_stopped h]
  congr 1
  refine List.map_congr_left fun r _ => ?_
  cases s.ready r with
  | true => exact if_neg fun ⟨_, hr⟩ => Bool.false_ne_true hr
  | false =>
    by_cases h0 : r.starve = 0
    · rw [if_neg fun ⟨hn, _⟩ => hn h0, ← h0]
      rfl
    · exact if_pos ⟨h0, rfl⟩

theorem State.tick_of_idle {s : State} (n : Nat) (hs : s.samplers = []) (h : s.rota.state < 2) :
    (s.tick n).timebase = (s.timebase + n) % 2 ^ 64 ∧ (s.tick n).cores = s.cores ∧ (s.tick n).mem = s.mem ∧
      (s.tick n).residents = s.residents.map fun r => if s.ready r = true then r else { r with starve := 0 } := by
  have hbefore := State.beforeTick_of_idle hs h
  have hedge : s.beforeTick.toSlotEdge = none := by rw [hbefore]; exact State.toSlotEdge_of_stopped h
  unfold State.tick
  simp only [hedge]
  simp only [hbefore, hs, Option.map_none, Option.getD_none, List.foldl_nil, and_self]

/-! ### A command -/

/-- The next command is carried out once the head has moved past it (R220, log entry 13). -/
theorem State.takeCommand_of_pending {s : State} {i : Instr} (hpending : s.host.cmdHead ≠ s.host.cmdTail)
    (hdec : decodeCommand s.headCommand = some i) (hgo : s.commandWaits i = false) : s.takeCommand = exec i s.nextHead := by
  unfold State.takeCommand
  rw [if_neg hpending]
  simp only [hdec, hgo, Bool.false_eq_true, if_false]

/-! ### The statement -/

/-- Settles O58, clause by clause: the turn of a wave and of a wide thread by the lemmas on their issue, a resident that another outranks,
the choice of R171 as the best of a ranking, a step of the table, a tick, a command, and the two sources of a word. -/
theorem stepsRunTheDecodedInstruction : Obligations.StepsRunTheDecodedInstruction := by
  unfold Obligations.StepsRunTheDecodedInstruction
  refine ⟨?wave, ?wide, ?outranked, ?pick, ?event, ?tick, ?command, ?cached, ?filled⟩
  case wave =>
    intro s rest r0 hw ws s1 h i s0 r w here hturn hsimt hwords hdec hsets hok hadm hfree hinstr
    obtain ⟨-, -, -, -, hasync, hwait, hend, -⟩ := id hturn
    rw [step_of_turn hturn, State.issueOne_of_wave hasync hwait hend hsimt, State.issueSimt_of_words hwords hdec hsets hok hadm,
      State.issueInstr_of_decode hfree hinstr, andThen_assoc]
    rfl
  case wide =>
    intro s rest r0 hw s1 h ops s0 r ws is hturn hsimt hrow hdue hwords hdec hfit hok hadm hne hinstrs hslots s2 r2 hheld hopen q0 t q
      hprobe hiss hraised hcauses hnot hfaults
    obtain ⟨-, -, -, -, hasync, hwait, hend, hclosing⟩ := id hturn
    have hread : (wordsRead ws).filterMap id = is := wordsRead_of_decode hinstrs
    rw [step_of_turn hturn, State.issueOne_of_wide hasync hwait hend hclosing hsimt, State.runVliw_of_nothing_due hrow hdue,
      State.issueVliw_of_words hwords hdec hfit hok hadm (by rw [hread]; exact hheld),
      State.issueBehind_of_clear hne hinstrs hslots (waitsBehind_eq_false hopen) hprobe hiss hraised hcauses hnot hfaults, andThen_assoc]
    rfl
  case outranked => exact fun _ _ _ => step_of_outranked
  case pick => exact fun _ _ => ⟨fun _ => State.pick_issuesFrom, State.pick_isSome⟩
  case event => exact fun _ _ _ => step_of_agenda
  case tick => exact fun s rest n hagenda hsamplers hstate => ⟨_, step_of_agenda hagenda, State.tick_of_idle n hsamplers hstate⟩
  case command =>
    exact fun s rest i hagenda hpending hdec hgo => (step_of_agenda hagenda).trans (State.takeCommand_of_pending hpending hdec hgo)
  case cached =>
    intro s r l data h hclause hrefused hin hhit
    unfold State.clauseWords
    rw [hclause]
    exact State.fetchBlock_of_hits hrefused hin hhit
  case filled => exact fun _ _ _ _ _ _ ha hi hl hx hs hb hp hno => State.fetchWord_of_memory ha hi hl hx hs hb hp hno

end Sys2Proof.Machine
end
